-- ==== Sys2Proof/Word.lean ====
section
/-! DEFINITION. The word types of RBUART: what the spec gives a width in bits. -/

namespace Sys2Proof

/-- A byte of a ring, a hardware FIFO or `MEM`; also an 8-bit field of a command word (R101). -/
abbrev Byte := BitVec 8

/-- A ring capacity, index or count (R30). -/
abbrev Half := BitVec 16

/-- A word of `PROG`, a result register, a token, a `MEM` address (R44, R45, R70, R108). -/
abbrev Word := BitVec 32

end Sys2Proof
end

