-- ==== Sys2Proof/Syntax.lean ====
section
/-! DEFINITION. The 25 operations of RBUART-1, one constructor per row of the opcode table (R105).
Operands are the fields of the command word and the operand words as they stand (R101, R103). -/

namespace Sys2Proof

/-- A command or handler-engine operation (R105). `k` is a ring selector, `s` a source, `l` a line. -/
inductive Instr where
  /-- `RB_INIT k, cap` (R146). -/
  | rbInit (k : Byte) (cap : Half)
  /-- `RB_WRITE k, b` (R147). -/
  | rbWrite (k : Byte) (b : Byte)
  /-- `RB_READ k` (R148). -/
  | rbRead (k : Byte)
  /-- `RB_IS_FULL k` (R149). -/
  | rbIsFull (k : Byte)
  /-- `RB_IS_EMPTY k` (R150). -/
  | rbIsEmpty (k : Byte)
  /-- `ITC_INIT` (R160). -/
  | itcInit
  /-- `ITC_SET_HANDLER s, h` (R161). -/
  | itcSetHandler (s : Byte) (h : Word)
  /-- `ITC_ENABLE s` (R162). -/
  | itcEnable (s : Byte)
  /-- `ITC_DISABLE s` (R163). -/
  | itcDisable (s : Byte)
  /-- `ITC_SET_PRIORITY s, c` with `c` the field `ARG`; `ARG[7:1]` must be zero (R164). -/
  | itcSetPriority (s : Byte) (c : Byte)
  /-- `ITC_DISABLE_ALL` (R165). -/
  | itcDisableAll
  /-- `ITC_RESTORE_ALL p` with `p` the field `IMM8`; `IMM8[7:2]` must be zero (R166). -/
  | itcRestoreAll (p : Byte)
  /-- `ITC_FORCE s` (R167). -/
  | itcForce (s : Byte)
  /-- `ITC_UNFORCE s` (R168). -/
  | itcUnforce (s : Byte)
  /-- `ITC_SERVICE_NORMAL`, handler engine only (R245). -/
  | itcServiceNormal
  /-- `ITC_SERVICE_FAST`, handler engine only (R246). -/
  | itcServiceFast
  /-- `UART_INIT l, baud, name` (R192). -/
  | uartInit (l : Byte) (baud : Word) (name : Word)
  /-- `UART_SEND_BYTE l, b` (R200 to R203). -/
  | uartSendByte (l : Byte) (b : Byte)
  /-- `UART_RECEIVE_BYTE l` (R205 to R207). -/
  | uartReceiveByte (l : Byte)
  /-- `UART_SEND l, p, n` (R209). -/
  | uartSend (l : Byte) (p : Word) (n : Word)
  /-- `UART_RECEIVE l, p, n` (R210). -/
  | uartReceive (l : Byte) (p : Word) (n : Word)
  /-- `UART_SET_RX_CALLBACK l, t` (R212). -/
  | uartSetRxCallback (l : Byte) (t : Word)
  /-- `UART_SET_TX_CALLBACK l, t` (R213). -/
  | uartSetTxCallback (l : Byte) (t : Word)
  /-- `UART_ISR l`, handler engine only (R250). -/
  | uartIsr (l : Byte)
  /-- `RDREG inst, regno` (R230). -/
  | rdreg (inst : Byte) (regno : Byte)
  deriving DecidableEq, Repr

/-- Who performs an operation: `FG` from the stream, or `IH` only (R105, column agent). -/
inductive Agent where
  | fg | ih
  deriving DecidableEq, Repr

/-- The agent of a row of the opcode map (R105). -/
def Instr.agent : Instr → Agent
  | .itcServiceNormal => .ih
  | .itcServiceFast => .ih
  | .uartIsr _ => .ih
  | .rbInit _ _ => .fg
  | .rbWrite _ _ => .fg
  | .rbRead _ => .fg
  | .rbIsFull _ => .fg
  | .rbIsEmpty _ => .fg
  | .itcInit => .fg
  | .itcSetHandler _ _ => .fg
  | .itcEnable _ => .fg
  | .itcDisable _ => .fg
  | .itcSetPriority _ _ => .fg
  | .itcDisableAll => .fg
  | .itcRestoreAll _ => .fg
  | .itcForce _ => .fg
  | .itcUnforce _ => .fg
  | .uartInit _ _ _ => .fg
  | .uartSendByte _ _ => .fg
  | .uartReceiveByte _ => .fg
  | .uartSend _ _ _ => .fg
  | .uartReceive _ _ _ => .fg
  | .uartSetRxCallback _ _ => .fg
  | .uartSetTxCallback _ _ => .fg
  | .rdreg _ _ => .fg

end Sys2Proof
end

