-- ==== Sys2Proof/WellFormed.lean ====
section
/-! DEFINITION. Which terms of `Instr` stand for a command: the must-be-zero bits of the two
operands that are narrower than their field (R102, R164, R166). A selector out of range is not
ill-formed: it decodes, and its own rule says what happens (R110). -/

namespace Sys2Proof

/-- The must-be-zero bits inside an operand field are zero (R109). -/
def Instr.wf : Instr → Bool
  | .itcSetPriority _ c => c.toNat < 2
  | .itcRestoreAll p => p.toNat < 4
  | .rbInit _ _ => true
  | .rbWrite _ _ => true
  | .rbRead _ => true
  | .rbIsFull _ => true
  | .rbIsEmpty _ => true
  | .itcInit => true
  | .itcSetHandler _ _ => true
  | .itcEnable _ => true
  | .itcDisable _ => true
  | .itcDisableAll => true
  | .itcForce _ => true
  | .itcUnforce _ => true
  | .itcServiceNormal => true
  | .itcServiceFast => true
  | .uartInit _ _ _ => true
  | .uartSendByte _ _ => true
  | .uartReceiveByte _ => true
  | .uartSend _ _ _ => true
  | .uartReceive _ _ _ => true
  | .uartSetRxCallback _ _ => true
  | .uartSetTxCallback _ _ => true
  | .uartIsr _ => true
  | .rdreg _ _ => true

end Sys2Proof
end

