-- ==== Sys2Proof/Decode.lean ====
section
/-! DEFINITION. The decoder, total on any list of words (R100 to R104, R109), and the encoder
beside it, both written from the formats of R102 and the opcode map of R105. -/

namespace Sys2Proof

/-! ### Fields of the command word (R101) -/

/-- `OPC = CW[31:24]`. -/
def opcOf (cw : Word) : Byte := cw.extractLsb' 24 8

/-- `SEL = CW[23:16]`. -/
def selOf (cw : Word) : Byte := cw.extractLsb' 16 8

/-- `ARG = CW[15:8]`. -/
def argOf (cw : Word) : Byte := cw.extractLsb' 8 8

/-- `IMM8 = CW[7:0]`. -/
def immOf (cw : Word) : Byte := cw.extractLsb' 0 8

/-- `IMM16 = CW[15:0]`, overlaying `ARG` and `IMM8`. -/
def imm16Of (cw : Word) : Half := cw.extractLsb' 0 16

/-- Why a list of words is no command (R109): all three are reported by `FLT_ILLEGAL_CMD`. -/
inductive DecodeError where
  /-- An opcode that R105 does not list. -/
  | reservedOpcode (opc : Byte)
  /-- A bit that the format or the row marks must-be-zero is 1 (R102). -/
  | mustBeZero
  /-- An operand word, or the command word itself, is missing (R104). -/
  | truncated
  /-- A handler-engine operation met in the stream (R109); raised by the fetch, not by `decode`. -/
  | handlerOnly
  deriving DecidableEq, Repr

/-! ### Formats (R102): the must-be-zero fields of each, then the operand words it takes -/

/-- `i` when the must-be-zero condition of the format holds. -/
def whenMbz (mbz : Bool) (i : Except DecodeError Instr) : Except DecodeError Instr :=
  if mbz then i else .error .mustBeZero

/-- Format N: SEL, ARG and IMM8 must be zero. -/
def formatN (cw : Word) (i : Instr) : Except DecodeError Instr :=
  whenMbz (selOf cw == 0 && argOf cw == 0 && immOf cw == 0) (.ok i)

/-- Format NB: SEL and ARG must be zero; `extra` says which bits of IMM8 must be. -/
def formatNB (cw : Word) (extra : Bool) (f : Byte → Instr) : Except DecodeError Instr :=
  whenMbz (selOf cw == 0 && argOf cw == 0 && extra) (.ok (f (immOf cw)))

/-- Format S: ARG and IMM8 must be zero. -/
def formatS (cw : Word) (f : Byte → Instr) : Except DecodeError Instr :=
  whenMbz (argOf cw == 0 && immOf cw == 0) (.ok (f (selOf cw)))

/-- Format SB: ARG must be zero. -/
def formatSB (cw : Word) (f : Byte → Byte → Instr) : Except DecodeError Instr :=
  whenMbz (argOf cw == 0) (.ok (f (selOf cw) (immOf cw)))

/-- Format SH: nothing must be zero. -/
def formatSH (cw : Word) (f : Byte → Half → Instr) : Except DecodeError Instr :=
  .ok (f (selOf cw) (imm16Of cw))

/-- Format SA: IMM8 must be zero; `extra` says which bits of ARG must be. -/
def formatSA (cw : Word) (extra : Bool) (f : Byte → Byte → Instr) : Except DecodeError Instr :=
  whenMbz (immOf cw == 0 && extra) (.ok (f (selOf cw) (argOf cw)))

/-- Format SW1: as S, with the operand word `W1`. -/
def formatSW1 (cw : Word) (ops : List Word) (f : Byte → Word → Instr) :
    Except DecodeError Instr :=
  whenMbz (argOf cw == 0 && immOf cw == 0)
    (match ops with
     | w1 :: _ => .ok (f (selOf cw) w1)
     | [] => .error .truncated)

/-- Format SW2: as S, with the operand words `W1` and `W2`. -/
def formatSW2 (cw : Word) (ops : List Word) (f : Byte → Word → Word → Instr) :
    Except DecodeError Instr :=
  whenMbz (argOf cw == 0 && immOf cw == 0)
    (match ops with
     | w1 :: w2 :: _ => .ok (f (selOf cw) w1 w2)
     | _ => .error .truncated)

/-- The command that the words of the stream from the command pointer on begin with (R104, R105,
R109): its words are the first `Instr.words` of them, what follows is not read. The three
handler-engine rows decode too (R111); the fetch refuses them (R115). -/
def decode : List Word → Except DecodeError Instr
  | [] => .error .truncated
  | cw :: ops =>
    match (opcOf cw).toNat with
    | 0x01 => formatSH cw .rbInit
    | 0x02 => formatSB cw .rbWrite
    | 0x03 => formatS cw .rbRead
    | 0x04 => formatS cw .rbIsFull
    | 0x05 => formatS cw .rbIsEmpty
    | 0x10 => formatN cw .itcInit
    | 0x11 => formatSW1 cw ops .itcSetHandler
    | 0x12 => formatS cw .itcEnable
    | 0x13 => formatS cw .itcDisable
    | 0x14 => formatSA cw (decide ((argOf cw).toNat < 2)) .itcSetPriority
    | 0x15 => formatN cw .itcDisableAll
    | 0x16 => formatNB cw (decide ((immOf cw).toNat < 4)) .itcRestoreAll
    | 0x17 => formatS cw .itcForce
    | 0x18 => formatS cw .itcUnforce
    | 0x19 => formatN cw .itcServiceNormal
    | 0x1A => formatN cw .itcServiceFast
    | 0x20 => formatSW2 cw ops .uartInit
    | 0x21 => formatSB cw .uartSendByte
    | 0x22 => formatS cw .uartReceiveByte
    | 0x23 => formatSW2 cw ops .uartSend
    | 0x24 => formatSW2 cw ops .uartReceive
    | 0x25 => formatSW1 cw ops .uartSetRxCallback
    | 0x26 => formatSW1 cw ops .uartSetTxCallback
    | 0x27 => formatS cw .uartIsr
    | 0x30 => formatSA cw true .rdreg
    | _ => .error (.reservedOpcode (opcOf cw))

/-! ### The encoder -/

/-- The command word with the four 8-bit fields given (R101). -/
def commandWord (opc sel arg imm : Byte) : Word := opc ++ sel ++ arg ++ imm

/-- The command word of format SH, with its capacity in `IMM16` (R101). -/
def capacityWord (opc k : Byte) (cap : Half) : Word := opc ++ k ++ cap

/-- The words of a command, from the formats of R102 and the opcode map of R105. -/
def encode : Instr → List Word
  | .rbInit k cap => [capacityWord 0x01 k cap]
  | .rbWrite k b => [commandWord 0x02 k 0 b]
  | .rbRead k => [commandWord 0x03 k 0 0]
  | .rbIsFull k => [commandWord 0x04 k 0 0]
  | .rbIsEmpty k => [commandWord 0x05 k 0 0]
  | .itcInit => [commandWord 0x10 0 0 0]
  | .itcSetHandler s h => [commandWord 0x11 s 0 0, h]
  | .itcEnable s => [commandWord 0x12 s 0 0]
  | .itcDisable s => [commandWord 0x13 s 0 0]
  | .itcSetPriority s c => [commandWord 0x14 s c 0]
  | .itcDisableAll => [commandWord 0x15 0 0 0]
  | .itcRestoreAll p => [commandWord 0x16 0 0 p]
  | .itcForce s => [commandWord 0x17 s 0 0]
  | .itcUnforce s => [commandWord 0x18 s 0 0]
  | .itcServiceNormal => [commandWord 0x19 0 0 0]
  | .itcServiceFast => [commandWord 0x1A 0 0 0]
  | .uartInit l baud name => [commandWord 0x20 l 0 0, baud, name]
  | .uartSendByte l b => [commandWord 0x21 l 0 b]
  | .uartReceiveByte l => [commandWord 0x22 l 0 0]
  | .uartSend l p n => [commandWord 0x23 l 0 0, p, n]
  | .uartReceive l p n => [commandWord 0x24 l 0 0, p, n]
  | .uartSetRxCallback l t => [commandWord 0x25 l 0 0, t]
  | .uartSetTxCallback l t => [commandWord 0x26 l 0 0, t]
  | .uartIsr l => [commandWord 0x27 l 0 0]
  | .rdreg inst regno => [commandWord 0x30 inst regno 0]

/-- The length of a command in words, 1, 2 or 3: a function of the opcode alone (R100, R104). -/
def Instr.words (i : Instr) : Nat := (encode i).length

/-! ### Words as bytes: little-endian where a host serialises them (R73, log 17) -/

/-- A word as four bytes, the least significant at the lowest address (R73). -/
def bytesOfWord (w : Word) : List Byte :=
  [w.extractLsb' 0 8, w.extractLsb' 8 8, w.extractLsb' 16 8, w.extractLsb' 24 8]

/-- The words of a serialised stream; a tail of fewer than four bytes holds no word (R73). -/
def wordsOfBytes : List Byte → List Word
  | b0 :: b1 :: b2 :: b3 :: bs => (b3 ++ b2 ++ b1 ++ b0) :: wordsOfBytes bs
  | _ => []

/-- The decoder on a serialised stream: total on any bytes. -/
def decodeBytes (bs : List Byte) : Except DecodeError Instr := decode (wordsOfBytes bs)

/-- The number of words of the longest command (R100). -/
def longestCommand : Nat := 3

/-- Word `j` of an instruction given as one number, bit 0 the least significant bit of the first
word, every bit from `nbits` on zero. -/
def tableWord (nbits w j : Nat) : Word := BitVec.ofNat 32 ((w % 2 ^ nbits) >>> (32 * j))

/-- The words of such a number, up to the longest command. -/
def tableWords (nbits w : Nat) : List Word := (List.range longestCommand).map (tableWord nbits w)

/-- The instruction the decoder reads from an instruction numbered as the opcode table numbers it,
its words laid out as bytes and decoded from there. -/
def decodeTableWord (nbits w : Nat) : Option Instr :=
  match decodeBytes ((tableWords nbits w).flatMap bytesOfWord) with
  | .ok i => some i
  | .error _ => none

end Sys2Proof
end

