-- ==== Sys2Proof/Config.lean ====
section
/-! DEFINITION. What an implementation fixes: the parameters of R6 to R13 as one record (every
parameter is an argument of the model: `State` holds the record, so a statement about every state
is about every choice of parameters), the values the spec fixes, and the free values. -/

namespace Sys2Proof

/-- The four pins of a line (R12). -/
inductive PinRole where
  | txd | rxd | cts | rts
  deriving DecidableEq, Repr

namespace Config

/-- FREE VALUE. `PIN(l, role)` of the machine `State.reset` describes: R12 gives no default
(log 4). Nothing evaluates it. -/
opaque pinOf : Nat → PinRole → Nat

/-- FREE VALUE. `UART_PIN_MODE` of the machine `State.reset` describes (R12, log 4). -/
opaque pinMode : Nat

/-- FREE VALUE. `BASE(l)` of the machine `State.reset` describes: opaque handle, read by no rule
(R13, log 4). -/
opaque lineBase : Nat → Nat

/-- FREE VALUE. `ringPowerOn life k i`: the byte that the reset number `life` left in
`RB[k].mem[i]`, any byte, not necessarily the same on two resets (R56, R291, log 5). -/
opaque ringPowerOn : Nat → Nat → Nat → Byte

/-- `M = 9999 = 0x270F`, fixed by the document, not a parameter (R11, R37). -/
def baudModulus : Nat := 9999

/-- `RXTRIG = 1`, fixed (R10). -/
def rxTrig : Nat := 1

end Config

/-- What the parameters give one line: `SRC(l)`, `C_RX(l)`, `C_TX(l)`, `PIN(l, ·)`, `BASE(l)`
(R7, R8, R12, R13). -/
structure LineParams where
  src : Nat
  capRx : Nat
  capTx : Nat
  txd : Nat
  rxd : Nat
  cts : Nat
  rts : Nat
  base : Nat
  deriving DecidableEq, Repr, Inhabited

/-- The parameters of an implementation (R6 to R13); one entry of `lines` per serial line. -/
structure Params where
  lines : List LineParams
  nsrc : Nat
  cmax : Nat
  depth : Nat
  txTrig : Nat
  coreClockHz : Nat
  uartPinMode : Nat
  deriving DecidableEq, Repr, Inhabited

/-- `NLINES` (R6). -/
def Params.nlines (p : Params) : Nat := p.lines.length

/-- The number of ring buffers, `2 * NLINES` (R30). -/
def Params.nrings (p : Params) : Nat := 2 * p.nlines

/-- The parameters of line `l`; meaningful for `l < NLINES`. -/
def Params.line (p : Params) (l : Nat) : LineParams := p.lines.getD l default

/-- What R6 to R11 require of the parameters. -/
abbrev Params.Ok (p : Params) : Prop :=
  1 ≤ p.nlines ∧ p.nlines ≤ p.nsrc ∧ p.nsrc ≤ 32 ∧
  (p.lines.map LineParams.src).Nodup ∧ (∀ x ∈ p.lines, x.src < p.nsrc) ∧
  1 ≤ p.cmax ∧ p.cmax ≤ 65535 ∧
  (∀ x ∈ p.lines, 1 ≤ x.capRx ∧ x.capRx ≤ p.cmax ∧ 1 ≤ x.capTx ∧ x.capTx ≤ p.cmax) ∧
  1 ≤ p.depth ∧ p.depth ≤ 255 ∧ 1 ≤ p.txTrig ∧ p.txTrig ≤ p.depth ∧ 16 ≤ p.coreClockHz

/-- Line `l` with the defaults of R7 and R8 and the free values of R12 and R13. -/
def Config.defaultLine (l : Nat) : LineParams :=
  { src := l + 1, capRx := 256, capTx := 256,
    txd := Config.pinOf l .txd, rxd := Config.pinOf l .rxd,
    cts := Config.pinOf l .cts, rts := Config.pinOf l .rts, base := Config.lineBase l }

/-- The defaults of R6 to R11: two lines, eleven sources, 256-byte rings, FIFOs of 32 bytes,
`TXTRIG = DEPTH - 1`, 24 MHz (log 3). -/
def Config.defaults : Params :=
  { lines := [Config.defaultLine 0, Config.defaultLine 1], nsrc := 11, cmax := 256, depth := 32,
    txTrig := 31, coreClockHz := 24000000, uartPinMode := Config.pinMode }

end Sys2Proof
end

