-- ==== Sys2Proof/Machine/State.lean ====
section
/-! DEFINITION. The architectural state of RBUART as plain data (R30 to R49, `MEM`, `PROG`, the
inputs of R14 and R42), its value after reset (R56), and the reasons a step can stop. -/

namespace Sys2Proof.Machine

/-! ### Names -/

/-- A transfer direction, `RX = 0`, `TX = 1` (R18). -/
inductive Dir where
  | rx | tx
  deriving DecidableEq, Repr

/-- A priority class, `NORMAL = 0`, `FAST = 1` (R18). -/
inductive PrioClass where
  | normal | fast
  deriving DecidableEq, Repr

/-- Where `FG` stands inside a blocking command (R46). -/
inductive FgPhase where
  | idle | sbDrain | sbPut | sbRestore | rbGet | rbRestore
  deriving DecidableEq, Repr

/-- Where the handler engine stands (R47). -/
inductive IhPhase where
  | idle | rxTest | rxLoop | rxEnd | txTest | txLoop | txEnd
  deriving DecidableEq, Repr

/-- The direction of a pin configuration event (R49). -/
inductive PinDir where
  | input | output
  deriving DecidableEq, Repr

/-- What the block sends to its collaborators (R49). Lines, sources, pins and pin modes are
numbers (log 18). -/
inductive Event where
  /-- `E_GPIO_FUNC(pin, mode)`. -/
  | gpioFunc (pin mode : Nat)
  /-- `E_GPIO_DIR(pin, dir)`. -/
  | gpioDir (pin : Nat) (dir : PinDir)
  /-- `E_CB(l, d, token)`: a callback is invoked. -/
  | callback (l : Nat) (d : Dir) (token : Word)
  /-- `E_EXT(s, token)`: a handler outside the block is invoked. -/
  | external (s : Nat) (token : Word)
  /-- `E_WIRE_TX(l, b)`: a byte leaves for the wire. -/
  | wireTx (l : Nat) (b : Byte)
  /-- `E_RX_LOST(l, b)`: a byte is lost at a full hardware receive FIFO. -/
  | rxLost (l : Nat) (b : Byte)
  /-- `E_DONE(pc, r0, r1)`: a command completes. -/
  | done (pc r0 r1 : Word)
  deriving DecidableEq, Repr

/-- A step of `ENV` (R268 to R270). -/
inductive EnvStep where
  /-- `RX_ARRIVE(l, b)`. -/
  | rxArrive (l : Nat) (b : Byte)
  /-- `TX_DEPART(l)`. -/
  | txDepart (l : Nat)
  /-- `EXT_SET(s, v)`. -/
  | extSet (s : Nat) (v : Bool)
  deriving DecidableEq, Repr

/-- Whose step is next (R240): the schedule and `ENVSCRIPT` as plain data (log 1). -/
inductive Turn where
  | fg | ih
  | env (e : EnvStep)
  deriving DecidableEq, Repr

/-! ### Memory and rings -/

/-- `MEM` (R70, R71): its bytes by address, strictly rising, no entry equal to what an unlisted
address reads as (`Memory.wf` in Ops.lean). -/
abbrev Memory := List Host.Cell

/-- One ring buffer `RB[k]` (R30). `mem` lists, by rising index, the storage positions that a
write has filled since reset; the others hold the byte that reset left there (R291, log 5). -/
structure Ring where
  cap : Half
  rd : Half
  wr : Half
  cnt : Half
  mem : List Host.Cell
  deriving DecidableEq, Repr, Inhabited

/-- One line record `UL[l]` (R34); the oldest byte of a hardware FIFO stands first. -/
structure Line where
  inited : Bool
  mrx : Bool
  mtx : Bool
  rxcb : Word
  txcb : Word
  baud : Word
  rxtrig : Byte
  txtrig : Byte
  hwrx : List Byte
  hwtx : List Byte
  deriving DecidableEq, Repr, Inhabited

/-- What the interrupt table holds for one source (R42). -/
structure Source where
  handler : Word
  enable : Bool
  prio : PrioClass
  forced : Bool
  deriving DecidableEq, Repr

/-- The interrupt table `IT` (R42). -/
structure IntTable where
  src : List Source
  gnorm : Bool
  gfast : Bool
  deriving DecidableEq, Repr

/-- The foreground sequencer: command pointer, phase and private latches (R44, R46). -/
structure Foreground where
  pc : Word
  phase : FgPhase
  sv : Bool
  lb : Byte
  ll : Byte
  deriving DecidableEq, Repr

/-- The handler engine (R47). -/
structure Handler where
  phase : IhPhase
  line : Byte
  src : Byte
  cls : PrioClass
  deriving DecidableEq, Repr

/-- The machine: every element of R30 to R49, `MEM`, `PROG` and the inputs (R14, R42, R240).
`cfg` holds the parameters and no step changes it (log 3); `turns` and `stalled` hold `ENVSCRIPT`
and the order of steps (log 1); `life` counts the resets applied (log 16). -/
structure State where
  cfg : Params
  life : Nat
  rb : List Ring
  ul : List Line
  it : IntTable
  extreq : List Bool
  fg : Foreground
  r0 : Word
  r1 : Word
  ih : Handler
  fault : Byte
  ev : List Event
  prog : List Word
  mem : Memory
  turns : List Turn
  stalled : List Nat
  deriving DecidableEq, Repr

/-! ### Reasons a step can stop -/

/-- Stops of the model, none of them the block's own fault (a block fault is a next state with
`FAULT` written, R264, log 9). No step from a well-formed state ends in one (log 11). -/
inductive Fault where
  /-- Raised by `ITC_SERVICE_NORMAL` and `ITC_SERVICE_FAST` performed while no source of the class
  is live: the spec performs them only when one is (R242, R245) and gives `vector` no value then
  (R244). Safe: the model stops where the spec has no such step. -/
  | noLiveVector
  /-- Raised by a later step of `UART_SEND_BYTE` or `UART_RECEIVE_BYTE`, or by `UART_ISR`, when the
  line it works on does not exist (R6, R34). Safe: the spec never makes such a step. -/
  | noSuchLine
  deriving DecidableEq, Repr

/-- Refusals: an instruction without a meaning. -/
inductive Refusal where
  /-- An instruction that has no meaning in the model. Raised by no arm of `exec`. Safe. -/
  | notModelled (mnemonic : String)
  deriving DecidableEq, Repr

/-- What one step or one meaning answers. -/
abbrev Result := Host.Outcome State Fault Refusal

/-! ### Reset (R56, R290 to R293) -/

/-- A ring after reset: capacity 0, empty, its storage bytes unspecified (R56, R291). -/
def Ring.atReset : Ring := { cap := 0, rd := 0, wr := 0, cnt := 0, mem := [] }

/-- A line after reset: not initialised, both directions suppressed, FIFOs empty (R56). -/
def Line.atReset : Line :=
  { inited := false, mrx := true, mtx := true, rxcb := 0, txcb := 0, baud := 0, rxtrig := 0,
    txtrig := 0, hwrx := [], hwtx := [] }

/-- A source after reset: no handler, disabled, `NORMAL`, not forced (R56). -/
def Source.atReset : Source := { handler := 0, enable := false, prio := .normal, forced := false }

/-- The launch inputs of a run: the parameters, `PROG`, `MEM` and `ENVSCRIPT` with the initial
request inputs (R14, R56, R291). -/
structure Launch where
  cfg : Params
  prog : List Word
  mem : Memory
  extreq : List Bool
  turns : List Turn
  stalled : List Nat
  deriving DecidableEq, Repr

/-- The state in which a run with these launch inputs begins: Table R56. -/
def State.boot (i : Launch) (life : Nat) : State :=
  { cfg := i.cfg, life := life,
    rb := List.replicate i.cfg.nrings Ring.atReset,
    ul := List.replicate i.cfg.nlines Line.atReset,
    it := { src := List.replicate i.cfg.nsrc Source.atReset, gnorm := false, gfast := false },
    extreq := i.extreq,
    fg := { pc := 0, phase := .idle, sv := false, lb := 0, ll := 0 },
    r0 := 0, r1 := 0,
    ih := { phase := .idle, line := 0, src := 0, cls := .normal },
    fault := 0, ev := [],
    prog := i.prog, mem := i.mem, turns := i.turns, stalled := i.stalled }

/-- The launch inputs of `State.reset`: default parameters, an empty `PROG`, `MEM` and
`ENVSCRIPT`, every request input low (log 3, 6, 7, 8). -/
def Launch.blank : Launch :=
  { cfg := Config.defaults, prog := [], mem := [],
    extreq := List.replicate Config.defaults.nsrc false, turns := [], stalled := [] }

/-- The machine right after reset (R56), with nothing loaded. -/
def State.reset : State := State.boot Launch.blank 0

end Sys2Proof.Machine
end

