-- ==== Sys2Proof/Machine/Operands.lean ====
section
/-! DEFINITION. What an operand names: selectors and the elements they select (R18, R107), tokens
(R108), codes (R106, R263), the baud divisor (R193). Every read and write of a ring, a line, a
source or a request input goes through the accessors here. -/

namespace Sys2Proof.Machine

/-! ### Codes -/

/-- The non-fatal result codes of R106. -/
inductive Status where
  | ok | noDev | inval | overrun | underrun
  deriving DecidableEq, Repr

/-- The numeric value of a status (Table R106). -/
def Status.code : Status → Word
  | .ok => 0
  | .noDev => 1
  | .inval => 2
  | .overrun => 3
  | .underrun => 4

/-- The faults of the block (Table R263). -/
inductive BlockFault where
  | noHandler | illegalCmd | badSelector | lineState | range
  deriving DecidableEq, Repr

/-- The value of `FAULT` for a fault (Table R263). -/
def BlockFault.code : BlockFault → Byte
  | .noHandler => 1
  | .illegalCmd => 2
  | .badSelector => 3
  | .lineState => 4
  | .range => 5

/-- `0` or `1` for a class (R18). -/
def PrioClass.bit : PrioClass → Bool
  | .normal => false
  | .fast => true

/-- The class named by a bit (R18, R164). -/
def classOfBit (b : Bool) : PrioClass := if b then .fast else .normal

/-- A stored or returned boolean as a word (R17, R117). -/
def boolWord (b : Bool) : Word := if b then 1 else 0

/-! ### Selected elements -/

/-- `rsel(l, d) = 2*l + d`, the ring selector of line `l`, direction `d` (R18). -/
def rsel (l : Nat) : Dir → Nat
  | .rx => 2 * l
  | .tx => 2 * l + 1

/-- `RB[k]` (R30). -/
def State.ring (s : State) (k : Nat) : Ring := s.rb.getD k default

/-- `RB[k] <- r`. -/
def State.setRing (s : State) (k : Nat) (r : Ring) : State := { s with rb := s.rb.set k r }

/-- `UL[l]` (R34). -/
def State.line (s : State) (l : Nat) : Line := s.ul.getD l default

/-- `UL[l] <- u`. -/
def State.setLine (s : State) (l : Nat) (u : Line) : State := { s with ul := s.ul.set l u }

/-- What `IT` holds for source `v` (R42). -/
def State.source (s : State) (v : Nat) : Source := s.it.src.getD v Source.atReset

/-- `IT` for source `v` becomes `x`. -/
def State.setSource (s : State) (v : Nat) (x : Source) : State :=
  { s with it := { s.it with src := s.it.src.set v x } }

/-- The request input `extreq[v]` (R42). -/
def State.extReq (s : State) (v : Nat) : Bool := s.extreq.getD v false

/-- `extreq[v] <- b` (R270). -/
def State.setExtReq (s : State) (v : Nat) (b : Bool) : State :=
  { s with extreq := s.extreq.set v b }

/-- The global enable of a class, `IT.gnorm` or `IT.gfast` (R42). -/
def State.globalEnable (s : State) : PrioClass → Bool
  | .normal => s.it.gnorm
  | .fast => s.it.gfast

/-- The two global enables become `n` and `f` (R42). -/
def State.setGlobal (s : State) (n f : Bool) : State :=
  { s with it := { s.it with gnorm := n, gfast := f } }

/-- The suppression flag of a direction: `mrx` or `mtx` (R35). -/
def Line.mask (u : Line) : Dir → Bool
  | .rx => u.mrx
  | .tx => u.mtx

/-- The suppression flag of direction `d` becomes `b`. -/
def Line.setMask (u : Line) (d : Dir) (b : Bool) : Line :=
  match d with
  | .rx => { u with mrx := b }
  | .tx => { u with mtx := b }

/-- The callback token of a direction: `rxcb` or `txcb` (R34). -/
def Line.callback (u : Line) : Dir → Word
  | .rx => u.rxcb
  | .tx => u.txcb

/-! ### Sources and lines, tokens -/

/-- `SRC(l)` (R7). -/
def srcOf (p : Params) (l : Nat) : Nat := (p.line l).src

/-- The line whose source is `v`, if one is: `v = SRC(l)` for a valid line `l` (R43). -/
def lineOfSource (p : Params) (v : Nat) : Option Nat :=
  (List.range p.nlines).find? (fun l => srcOf p l == v)

/-- `UART_HANDLER(l) = 0xFFFF0000 + l` (R108). -/
def uartHandler (l : Nat) : Word := BitVec.ofNat 32 (0xFFFF0000 + l)

/-- The line whose UART handler the token names: `t = UART_HANDLER(l)` for some `l < NLINES`; every
other token, `0xFFFF0000 + l` with `l >= NLINES` among them, names none (R108, R247). -/
def uartLineOf (p : Params) (t : Word) : Option Nat :=
  (List.range p.nlines).find? (fun l => uartHandler l == t)

/-! ### The baud divisor -/

/-- `divisor(baud)`, `none` where it raises `Fault(FLT_RANGE)` (R193): natural numbers throughout,
both divisions truncate, the product comes first. -/
def divisor (p : Params) (baud : Word) : Option Word :=
  let ref := p.coreClockHz / 16
  let prod := baud.toNat * Config.baudModulus
  if 2 ^ 32 ≤ prod then none
  else
    let inc := prod / ref
    if 2 ^ 16 ≤ inc then none
    else some (BitVec.ofNat 32 inc <<< 16 ||| BitVec.ofNat 32 Config.baudModulus)

end Sys2Proof.Machine
end

