-- ==== Sys2Proof/Machine/Flags.lean ====
section
/-! DEFINITION. Every flag of the block, all derived (R54): ring flags (R141, R142), the ready
conditions and the request of a line (R40, R41), the request conditions of the sources and the
classes (R43), the choice of class and vector (R243, R244). -/

namespace Sys2Proof.Machine

/-- `rb_full`: `cnt = cap` (R141). -/
def ringFull (r : Ring) : Bool := r.cnt == r.cap

/-- `rb_empty`: `cnt = 0` (R142). -/
def ringEmpty (r : Ring) : Bool := r.cnt == 0

/-- `RXRDY(l)` (R40): `|hwrx| >= rxtrig` and `rxtrig >= 1`. -/
def rxReady (s : State) (l : Nat) : Bool :=
  decide ((s.line l).rxtrig.toNat ≤ (s.line l).hwrx.length) &&
  decide (1 ≤ (s.line l).rxtrig.toNat)

/-- `TXRDY(l)` (R40): `DEPTH - |hwtx| >= txtrig` and `txtrig >= 1`. -/
def txReady (s : State) (l : Nat) : Bool :=
  decide ((s.line l).txtrig.toNat ≤ s.cfg.depth - (s.line l).hwtx.length) &&
  decide (1 ≤ (s.line l).txtrig.toNat)

/-- The ready condition of a direction (R40). -/
def ready (s : State) (l : Nat) : Dir → Bool
  | .rx => rxReady s l
  | .tx => txReady s l

/-- A direction the handler services: its ready condition holds and its suppression flag is clear
(R35, R41, R251, R254). -/
def serviced (s : State) (l : Nat) (d : Dir) : Bool := ready s l d && !(s.line l).mask d

/-- `LIRQ(l)`, level-sensitive (R41). -/
def lineIrq (s : State) (l : Nat) : Bool :=
  (s.line l).inited && (serviced s l .rx || serviced s l .tx)

/-- `HWREQ(v)`: the request of the line whose source `v` is, else the input (R43). -/
def hwReq (s : State) (v : Nat) : Bool :=
  match lineOfSource s.cfg v with
  | some l => lineIrq s l
  | none => s.extReq v

/-- `PENDING(v)` (R43). -/
def pending (s : State) (v : Nat) : Bool := (s.source v).forced || hwReq s v

/-- `LIVE(v)`: per-source gating applies to a forced source too (R43). -/
def live (s : State) (v : Nat) : Bool := (s.source v).enable && pending s v

/-- A live source of class `c` (R43, R244). -/
def liveIn (s : State) (c : PrioClass) (v : Nat) : Bool :=
  live s v && decide ((s.source v).prio = c)

/-- `vector(c)`: the lowest-numbered live source of the class, `none` where there is none (R244). -/
def vector (s : State) (c : PrioClass) : Option Nat :=
  (List.range s.cfg.nsrc).find? (liveIn s c)

/-- `REQ(c)`: some source of the class is live (R43). -/
def request (s : State) (c : PrioClass) : Bool := (List.range s.cfg.nsrc).any (liveIn s c)

/-- `TAKE(c)` (R43). -/
def take (s : State) (c : PrioClass) : Bool := s.globalEnable c && request s c

/-- A step of `FG` may be enabled only now: no fault and the handler engine idle (R241). -/
def foregroundFree (s : State) : Bool := s.fault == 0 && decide (s.ih.phase = .idle)

/-- The activation step is enabled (R242): nothing of it while a handler runs (R259). -/
def activationEnabled (s : State) : Bool :=
  foregroundFree s && (take s .fast || take s .normal)

/-- Some step of `IH` is enabled (R242, R250). -/
def handlerEnabled (s : State) : Bool :=
  s.fault == 0 && (decide (s.ih.phase ≠ .idle) || take s .fast || take s .normal)

/-- The class an activation enters: `FAST` before `NORMAL` (R243). -/
def activationClass (s : State) : PrioClass := if take s .fast then .fast else .normal

/-- The value of `IT_GLOBAL`: bit 0 normal, bit 1 fast (R53, R165). -/
def globalWord (s : State) : Word :=
  0#30 ++ BitVec.ofBool s.it.gfast ++ BitVec.ofBool s.it.gnorm

end Sys2Proof.Machine
end

