-- ==== Sys2Proof/Machine/Ops.lean ====
section
/-! DEFINITION. The named operations over memory, rings, FIFOs and registers: `MEM` (R70 to R77),
the ring primitives (R140 to R145), the hardware FIFOs (R39), completion (R116), `raise Fault`
(R264), the mask exchange (R191), interrupt entry and return (R242 to R249, R257, R258), reset as
an input (R290). -/

namespace Sys2Proof.Machine

/-! ### Lists of cells, by rising address -/

/-- The byte listed at address `a`, if one is. -/
def cellsGet (a : Nat) : List Host.Cell → Option Byte
  | [] => none
  | c :: cs => if c.1 = a then some c.2 else cellsGet a cs

/-- The list with the byte at address `a` set to `b`, its order kept. -/
def cellsPut (a : Nat) (b : Byte) : List Host.Cell → List Host.Cell
  | [] => [(a, b)]
  | c :: cs =>
    if a < c.1 then (a, b) :: c :: cs
    else if a = c.1 then (a, b) :: cs
    else c :: cellsPut a b cs

/-- The list without address `a`. -/
def cellsDrop (a : Nat) (cs : List Host.Cell) : List Host.Cell := cs.filter (fun c => c.1 != a)

/-- Addresses strictly rising. -/
abbrev cellsRising (cs : List Host.Cell) : Prop := cs.Pairwise (fun x y => x.1 < y.1)

/-! ### `MEM` -/

/-- What an unlisted address of `MEM` reads as: 0 (`MEM` is a total map whose contents are a launch
input, R14, R71; log 6). -/
def memUnlisted : Byte := 0

/-- The canonical form: addresses strictly rising and below 2^32 (R70), no entry equal to what an
unlisted address reads as. -/
abbrev Memory.wf (m : Memory) : Prop :=
  cellsRising m ∧ ∀ c ∈ m, c.1 < 2 ^ 32 ∧ c.2 ≠ memUnlisted

/-- `MemRead(a, 1)` (R16, R71). -/
def Memory.read (m : Memory) (a : Nat) : Byte := (cellsGet a m).getD memUnlisted

/-- `MemWrite(a, 1, b)` (R16), the canonical form kept. -/
def Memory.write (m : Memory) (a : Nat) (b : Byte) : Memory :=
  if b = memUnlisted then cellsDrop a m else cellsPut a b m

/-- A byte of `MEM` is written. -/
def State.storeByte (s : State) (a : Nat) (b : Byte) : State := { s with mem := s.mem.write a b }

/-- A transfer of `q` bytes at `p` would pass the top of `MEM` (R77). -/
def passesTop (p : Word) (q : Nat) : Bool := decide (1 ≤ q) && decide (2 ^ 32 ≤ p.toNat + q - 1)

/-! ### Ring primitives (R140 to R145) -/

/-- `next(k, i)`: compare and wrap, no bit mask (R143). -/
def ringNext (r : Ring) (i : Half) : Half := if i + 1 = r.cap then 0 else i + 1

/-- `rb_init`: the storage is not written (R140). -/
def ringInit (c : Half) (r : Ring) : Ring := { r with cap := c, rd := 0, wr := 0, cnt := 0 }

/-- `rb_write`: refused when full, with no change (R144). -/
def ringWrite (b : Byte) (r : Ring) : Bool × Ring :=
  if ringFull r then (false, r)
  else (true, { r with mem := cellsPut r.wr.toNat b r.mem, wr := ringNext r r.wr, cnt := r.cnt + 1 })

/-- The storage byte at index `i`; `powerOn i` is what reset left there (R30, R291). -/
def ringByte (powerOn : Nat → Byte) (r : Ring) (i : Half) : Byte :=
  (cellsGet i.toNat r.mem).getD (powerOn i.toNat)

/-- `rb_read`: no value when empty, with no change; the storage is not written (R145). -/
def ringRead (powerOn : Nat → Byte) (r : Ring) : Option Byte × Ring :=
  if ringEmpty r then (none, r)
  else (some (ringByte powerOn r r.rd), { r with rd := ringNext r r.rd, cnt := r.cnt - 1 })

/-- What the last reset left in the storage of ring `k`: free bytes (R291, log 5). -/
def State.powerOn (s : State) (k : Nat) : Nat → Byte := Config.ringPowerOn s.life k

/-- `rb_init(k, c)` on the machine (R140). -/
def rbInit (k : Nat) (c : Half) (s : State) : State := s.setRing k (ringInit c (s.ring k))

/-- `rb_write(k, b)` on the machine (R144). -/
def rbWrite (k : Nat) (b : Byte) (s : State) : Bool × State :=
  ((ringWrite b (s.ring k)).1, s.setRing k (ringWrite b (s.ring k)).2)

/-- `rb_read(k)` on the machine (R145). -/
def rbRead (k : Nat) (s : State) : Option Byte × State :=
  ((ringRead (s.powerOn k) (s.ring k)).1, s.setRing k (ringRead (s.powerOn k) (s.ring k)).2)

/-- `q` bytes of `MEM` from `p` on, in ascending order, written to ring `k` (R209, action 7). -/
def copyIn (k : Nat) : Nat → Nat → State → State
  | _, 0, s => s
  | p, q + 1, s => copyIn k (p + 1) q (rbWrite k (s.mem.read p) s).2

/-- `q` bytes of ring `k`, oldest first, written to `MEM` from `p` on, in ascending order (R210,
action 7). -/
def copyOut (k : Nat) : Nat → Nat → State → State
  | _, 0, s => s
  | p, q + 1, s =>
    match rbRead k s with
    | (some b, s1) => copyOut k (p + 1) q (s1.storeByte p b)
    | (none, s1) => s1

/-! ### Hardware FIFOs (R39) -/

/-- The hardware transmit FIFO has room: it is not full; not the transmit-ready threshold (R201,
R202, R255). -/
def hwtxRoom (s : State) (l : Nat) : Bool := decide ((s.line l).hwtx.length < s.cfg.depth)

/-- `UL[l].hwtx.push(b)`. -/
def pushHwtx (l : Nat) (b : Byte) (s : State) : State :=
  s.setLine l { s.line l with hwtx := (s.line l).hwtx ++ [b] }

/-- `UL[l].hwrx.push(b)`. -/
def pushHwrx (l : Nat) (b : Byte) (s : State) : State :=
  s.setLine l { s.line l with hwrx := (s.line l).hwrx ++ [b] }

/-- `UL[l].hwrx` without its head. -/
def dropHwrx (l : Nat) (s : State) : State :=
  s.setLine l { s.line l with hwrx := (s.line l).hwrx.tail }

/-- `UL[l].hwtx` without its head. -/
def dropHwtx (l : Nat) (s : State) : State :=
  s.setLine l { s.line l with hwtx := (s.line l).hwtx.tail }

/-- The oldest byte of transmit ring `l` moves to `hwtx` (R201, R255). -/
def moveTx (l : Nat) (s : State) : State :=
  match rbRead (rsel l .tx) s with
  | (some x, s1) => pushHwtx l x s1
  | (none, s1) => s1

/-- The oldest byte of `hwrx` moves to receive ring `l` (R252). -/
def moveRx (l : Nat) (s : State) : State :=
  match (s.line l).hwrx with
  | b :: _ => (rbWrite (rsel l .rx) b (dropHwrx l s)).2
  | [] => s

/-! ### Suppression flags -/

/-- The suppression flag of line `l`, direction `d` becomes `b`. -/
def setMask (l : Nat) (d : Dir) (b : Bool) (s : State) : State :=
  s.setLine l ((s.line l).setMask d b)

/-- `mask_xchg(l, d)`: the old flag, and the flag set, in one action (R191). -/
def maskXchg (l : Nat) (d : Dir) (s : State) : Bool × State :=
  ((s.line l).mask d, setMask l d true s)

/-! ### Events, completion, faults -/

/-- `emit E` (R16, R49): events stand in order of occurrence. -/
def State.emit (s : State) (e : Event) : State := { s with ev := s.ev ++ [e] }

/-- `FG.phase <- p`. -/
def State.setPhase (s : State) (p : FgPhase) : State := { s with fg := { s.fg with phase := p } }

/-- `done(st, val)` of a command of `n` words (R116). -/
def done (n : Nat) (st : Status) (val : Word) (s : State) : State :=
  { s with
    r0 := st.code, r1 := val, ev := s.ev ++ [.done s.fg.pc st.code val],
    fg := { s.fg with pc := s.fg.pc + BitVec.ofNat 32 n, phase := .idle } }

/-- `raise Fault(code)`: nothing but `FAULT` changes, and that only if it was 0 (R264). -/
def raise (f : BlockFault) (s : State) : State :=
  if s.fault = 0 then { s with fault := f.code } else s

/-! ### Interrupt entry and return -/

/-- Entry to `UART_ISR l` for vector `v` of class `c`: nothing of the foreground is saved or changed
(R242, R258). -/
def startIsr (c : PrioClass) (v l : Nat) (s : State) : State :=
  { s with ih := { phase := .rxTest, line := BitVec.ofNat 8 l, src := BitVec.ofNat 8 v, cls := c } }

/-- `IH.phase <- p`; with `p = IH_IDLE` the return from the handler, which restores nothing
(R257). -/
def State.setIhPhase (s : State) (p : IhPhase) : State := { s with ih := { s.ih with phase := p } }

/-- `dispatch(v)` of the service routine of class `c`: the token alone selects the handler
(R247 to R249). -/
def dispatch (c : PrioClass) (v : Nat) (s : State) : State :=
  if (s.source v).handler = 0 then raise .noHandler s
  else
    match uartLineOf s.cfg (s.source v).handler with
    | some l => startIsr c v l s
    | none => s.emit (.external v (s.source v).handler)

/-- The service routine of class `c`: its vector, dispatched (R245, R246). Without a live source of
the class the spec performs none (log 11). -/
def service (c : PrioClass) (s : State) : Result :=
  match vector s c with
  | some v => .next (dispatch c v s)
  | none => .fault .noLiveVector

/-! ### Reset as an input -/

/-- The launch inputs that a state carries: reset does not touch them (R291). -/
def State.launch (s : State) : Launch :=
  { cfg := s.cfg, prog := s.prog, mem := s.mem, extreq := s.extreq, turns := s.turns,
    stalled := s.stalled }

/-- Reset applied to a state: every element at its value of R56 in one action, the launch inputs
kept, the ring storage free again (R290, R291, log 16). -/
def applyReset (s : State) : State := State.boot s.launch (s.life + 1)

end Sys2Proof.Machine
end

