-- ==== Sys2Proof/Machine/HandlerEngine.lean ====
section
/-! DEFINITION. The three operations of the handler engine: the service routines (R245, R246) and
the UART interrupt handler (R250 to R256). -/

namespace Sys2Proof.Machine

/-- `ITC_SERVICE_NORMAL` (R245). -/
def execItcServiceNormal (s : State) : Result := service .normal s

/-- `ITC_SERVICE_FAST` (R246). -/
def execItcServiceFast (s : State) : Result := service .fast s

/-- `IH_RXTEST` (R251). -/
def isrRxTest (l : Nat) (s : State) : State :=
  s.setIhPhase (if serviced s l .rx then .rxLoop else .txTest)

/-- `IH_RXLOOP`: one byte per step; a full ring stops the loop, nothing is popped and discarded
(R252). -/
def isrRxLoop (l : Nat) (s : State) : State :=
  if 1 ≤ (s.line l).hwrx.length ∧ ringFull (s.ring (rsel l .rx)) = false then moveRx l s
  else s.setIhPhase .rxEnd

/-- The callback of line `l`, direction `d` announced if one is set (R253, R256, R278). -/
def announce (l : Nat) (d : Dir) (s : State) : State :=
  if (s.line l).callback d = 0 then s else s.emit (.callback l d ((s.line l).callback d))

/-- The suppression flag of line `l`, direction `d` set if `c` (R253, R256). -/
def suppressIf (c : Bool) (l : Nat) (d : Dir) (s : State) : State :=
  if c then setMask l d true s else s

/-- `IH_RXEND` (R253): the callback, then backpressure. -/
def isrRxEnd (l : Nat) (s : State) : State :=
  (suppressIf (ringFull (s.ring (rsel l .rx))) l .rx (announce l .rx s)).setIhPhase .txTest

/-- `IH_TXTEST` (R254). -/
def isrTxTest (l : Nat) (s : State) : State :=
  s.setIhPhase (if serviced s l .tx then .txLoop else .idle)

/-- `IH_TXLOOP`: one byte per step (R255). -/
def isrTxLoop (l : Nat) (s : State) : State :=
  if ringEmpty (s.ring (rsel l .tx)) = false ∧ hwtxRoom s l then moveTx l s
  else s.setIhPhase .txEnd

/-- `IH_TXEND` (R256): the callback, then suppression of an empty ring; the handler returns. -/
def isrTxEnd (l : Nat) (s : State) : State :=
  (suppressIf (ringEmpty (s.ring (rsel l .tx))) l .tx (announce l .tx s)).setIhPhase .idle

/-- A step of the handler on the line it was entered for (R251 to R256). -/
def onHandlerLine (s : State) (f : Nat → State → State) : Result :=
  if s.cfg.nlines ≤ s.ih.line.toNat then .fault .noSuchLine else .next (f s.ih.line.toNat s)

/-- `UART_ISR l`: the step of the phase the engine is in (R250 to R256); performed while the engine
is idle it is the start of the handler of line `l` (R242, R247, log 12). -/
def execUartIsr (l : Byte) (s : State) : Result :=
  match s.ih.phase with
  | .idle =>
    if s.cfg.nlines ≤ l.toNat then .fault .noSuchLine
    else .next (startIsr s.ih.cls s.ih.src.toNat l.toNat s)
  | .rxTest => onHandlerLine s isrRxTest
  | .rxLoop => onHandlerLine s isrRxLoop
  | .rxEnd => onHandlerLine s isrRxEnd
  | .txTest => onHandlerLine s isrTxTest
  | .txLoop => onHandlerLine s isrTxLoop
  | .txEnd => onHandlerLine s isrTxEnd

end Sys2Proof.Machine
end

