-- ==== Sys2Proof/Machine/InterruptController.lean ====
section
/-! DEFINITION. The configuration commands of the interrupt controller (R160 to R168). -/

namespace Sys2Proof.Machine

/-- A command on source `v`: `FLT_BAD_SELECTOR` when `v >= NSRC` (R169), else the source's record
becomes `f` of it and the command of `n` words completes. -/
def onSource (n : Nat) (v : Byte) (f : Source → Source) (s : State) : State :=
  if s.cfg.nsrc ≤ v.toNat then raise .badSelector s
  else done n .ok 0 (s.setSource v.toNat (f (s.source v.toNat)))

/-- `ITC_INIT`: handlers, forces and enables cleared, both classes enabled, priorities kept
(R160). -/
def execItcInit (s : State) : Result :=
  .next (done 1 .ok 0
    { s with it :=
        { src := s.it.src.map (fun x => { x with handler := 0, forced := false, enable := false })
          gnorm := true, gfast := true } })

/-- `ITC_SET_HANDLER v, h`: any token is stored, 0 included (R161). -/
def execItcSetHandler (v : Byte) (h : Word) (s : State) : Result :=
  .next (onSource 2 v (fun x => { x with handler := h }) s)

/-- `ITC_ENABLE v` (R162). -/
def execItcEnable (v : Byte) (s : State) : Result :=
  .next (onSource 1 v (fun x => { x with enable := true }) s)

/-- `ITC_DISABLE v` (R163). -/
def execItcDisable (v : Byte) (s : State) : Result :=
  .next (onSource 1 v (fun x => { x with enable := false }) s)

/-- `ITC_SET_PRIORITY v, c` with `c = ARG[0]` (R164). -/
def execItcSetPriority (v c : Byte) (s : State) : Result :=
  .next (onSource 1 v (fun x => { x with prio := classOfBit (c.getLsbD 0) }) s)

/-- `ITC_DISABLE_ALL`: both global enables read and cleared in one action (R83, R165). -/
def execItcDisableAll (s : State) : Result :=
  .next (done 1 .ok (globalWord s) (s.setGlobal false false))

/-- `ITC_RESTORE_ALL p`: exactly `p`, not `p` or the current value (R166). -/
def execItcRestoreAll (p : Byte) (s : State) : Result :=
  .next (done 1 .ok 0 (s.setGlobal (p.getLsbD 0) (p.getLsbD 1)))

/-- `ITC_FORCE v` (R167). -/
def execItcForce (v : Byte) (s : State) : Result :=
  .next (onSource 1 v (fun x => { x with forced := true }) s)

/-- `ITC_UNFORCE v` (R168). -/
def execItcUnforce (v : Byte) (s : State) : Result :=
  .next (onSource 1 v (fun x => { x with forced := false }) s)

end Sys2Proof.Machine
end

