-- ==== Sys2Proof/Machine/RingBuffer.lean ====
section
/-! DEFINITION. The ring buffer family: `RB_INIT`, `RB_WRITE`, `RB_READ`, `RB_IS_FULL`,
`RB_IS_EMPTY` (R146 to R150). -/

namespace Sys2Proof.Machine

/-- The selector check common to the family: `FLT_BAD_SELECTOR` when `k >= 2*NLINES` (R107). -/
def onRing (k : Byte) (s : State) (f : Nat → State → State) : State :=
  if s.cfg.nrings ≤ k.toNat then raise .badSelector s else f k.toNat s

/-- `RB_INIT k, cap` (R146). -/
def execRbInit (k : Byte) (cap : Half) (s : State) : Result :=
  .next (onRing k s fun k s =>
    if s.cfg.cmax < cap.toNat then raise .range s else done 1 .ok 0 (rbInit k cap s))

/-- `RB_WRITE k, b` (R147). -/
def execRbWrite (k b : Byte) (s : State) : Result :=
  .next (onRing k s fun k s =>
    match rbWrite k b s with
    | (true, s1) => done 1 .ok 1 s1
    | (false, s1) => done 1 .overrun 0 s1)

/-- The result of a read: the byte zero-extended, or the "no value" sentinel (R117, R148). -/
def readDone : Option Byte × State → State
  | (some b, s) => done 1 .ok (b.setWidth 32) s
  | (none, s) => done 1 .underrun 0xFFFFFFFF s

/-- `RB_READ k` (R148). -/
def execRbRead (k : Byte) (s : State) : Result :=
  .next (onRing k s fun k s => readDone (rbRead k s))

/-- `RB_IS_FULL k` (R149). -/
def execRbIsFull (k : Byte) (s : State) : Result :=
  .next (onRing k s fun k s => done 1 .ok (boolWord (ringFull (s.ring k))) s)

/-- `RB_IS_EMPTY k` (R150). -/
def execRbIsEmpty (k : Byte) (s : State) : Result :=
  .next (onRing k s fun k s => done 1 .ok (boolWord (ringEmpty (s.ring k))) s)

end Sys2Proof.Machine
end

