-- ==== Sys2Proof/Machine/StatusRead.lean ====
section
/-! DEFINITION. `RDREG` and the register map it reads (R50 to R53, R230 to R232). -/

namespace Sys2Proof.Machine

/-- A register of the status read port (Tables R51, R52, R53). -/
inductive Reg where
  | rbCap | rbRd | rbWr | rbCnt | rbStat
  | ulCtrl | ulRxcb | ulTxcb | ulBaud | ulTrig | ulStat
  | itGlobal | itEnable | itPrio | itForced | itPending | itHandler
  deriving DecidableEq, Repr

/-- The register of a register number, none for a number the tables do not list (R51 to R53). -/
def regOfNumber (n : Byte) : Option Reg :=
  match n.toNat with
  | 0x00 => some .rbCap
  | 0x01 => some .rbRd
  | 0x02 => some .rbWr
  | 0x03 => some .rbCnt
  | 0x04 => some .rbStat
  | 0x10 => some .ulCtrl
  | 0x11 => some .ulRxcb
  | 0x12 => some .ulTxcb
  | 0x13 => some .ulBaud
  | 0x14 => some .ulTrig
  | 0x15 => some .ulStat
  | 0x20 => some .itGlobal
  | 0x21 => some .itEnable
  | 0x22 => some .itPrio
  | 0x23 => some .itForced
  | 0x24 => some .itPending
  | 0x25 => some .itHandler
  | _ => none

/-- How many instances a register has: `inst` is valid below this (R231). -/
def Reg.instances (p : Params) : Reg → Nat
  | .rbCap => p.nrings
  | .rbRd => p.nrings
  | .rbWr => p.nrings
  | .rbCnt => p.nrings
  | .rbStat => p.nrings
  | .ulCtrl => p.nlines
  | .ulRxcb => p.nlines
  | .ulTxcb => p.nlines
  | .ulBaud => p.nlines
  | .ulTrig => p.nlines
  | .ulStat => p.nlines
  | .itGlobal => 1
  | .itEnable => 1
  | .itPrio => 1
  | .itForced => 1
  | .itPending => 1
  | .itHandler => p.nsrc

/-- The word whose bit `v` is `f v` for `v < n`, every other bit zero (R53, R232). -/
def maskWord (f : Nat → Bool) : Nat → Word
  | 0 => 0
  | n + 1 => if f n then maskWord f n ||| BitVec.twoPow 32 n else maskWord f n

/-- `RB_STAT`: EMPTY in bit 0, FULL in bit 1 (R51). -/
def ringStat (r : Ring) : Word :=
  0#30 ++ BitVec.ofBool (ringFull r) ++ BitVec.ofBool (ringEmpty r)

/-- `UL_CTRL`: MRX, MTX, INITED in bits 0, 1, 2 (R52). -/
def lineCtrl (u : Line) : Word :=
  0#29 ++ BitVec.ofBool u.inited ++ BitVec.ofBool u.mtx ++ BitVec.ofBool u.mrx

/-- `UL_TRIG`: `rxtrig` in bits 7:0, `txtrig` in bits 15:8 (R52). -/
def lineTrig (u : Line) : Word := 0#16 ++ u.txtrig ++ u.rxtrig

/-- `UL_STAT`: RXRDY, TXRDY, LIRQ in bits 0, 1, 2, the length of `hwrx` in 15:8, of `hwtx` in 23:16
(R52). -/
def lineStat (s : State) (l : Nat) : Word :=
  0#8 ++ BitVec.ofNat 8 (s.line l).hwtx.length ++ BitVec.ofNat 8 (s.line l).hwrx.length ++ 0#5 ++
    BitVec.ofBool (lineIrq s l) ++ BitVec.ofBool (txReady s l) ++ BitVec.ofBool (rxReady s l)

/-- `regval(regno, inst)` (R232). -/
def regValue (s : State) (i : Nat) : Reg → Word
  | .rbCap => (s.ring i).cap.setWidth 32
  | .rbRd => (s.ring i).rd.setWidth 32
  | .rbWr => (s.ring i).wr.setWidth 32
  | .rbCnt => (s.ring i).cnt.setWidth 32
  | .rbStat => ringStat (s.ring i)
  | .ulCtrl => lineCtrl (s.line i)
  | .ulRxcb => (s.line i).rxcb
  | .ulTxcb => (s.line i).txcb
  | .ulBaud => (s.line i).baud
  | .ulTrig => lineTrig (s.line i)
  | .ulStat => lineStat s i
  | .itGlobal => globalWord s
  | .itEnable => maskWord (fun v => (s.source v).enable) s.cfg.nsrc
  | .itPrio => maskWord (fun v => (s.source v).prio.bit) s.cfg.nsrc
  | .itForced => maskWord (fun v => (s.source v).forced) s.cfg.nsrc
  | .itPending => maskWord (pending s) s.cfg.nsrc
  | .itHandler => (s.source i).handler

/-- The register that a valid pair names, none for an invalid pair (`valid`, R231). -/
def validReg (p : Params) (regno inst : Byte) : Option Reg :=
  match regOfNumber regno with
  | some r => if inst.toNat < r.instances p then some r else none
  | none => none

/-- `RDREG inst, regno` (R230): no side effect on any register it reads. -/
def execRdreg (inst regno : Byte) (s : State) : Result :=
  .next (match validReg s.cfg regno inst with
    | some r => done 1 .ok (regValue s inst.toNat r) s
    | none => raise .badSelector s)

end Sys2Proof.Machine
end

