-- ==== Sys2Proof/Machine/UartDriver.lean ====
section
/-! DEFINITION. The foreground commands of the UART driver (R190 to R213). -/

namespace Sys2Proof.Machine

/-- The checks common to the commands that return the document's `Result`, in the order of R190:
line, arguments, line state; then `f` with the line. `n` is the command's length, `bad` says that
an argument is absent, `wanted` what `inited` must be. -/
def checked (n : Nat) (l : Byte) (bad wanted : Bool) (s : State) (f : Nat → State → State) :
    State :=
  if s.cfg.nlines ≤ l.toNat then done n .noDev 0 s
  else if bad then done n .inval 0 s
  else if (s.line l.toNat).inited ≠ wanted then raise .lineState s
  else f l.toNat s

/-! ### UART_INIT -/

/-- The eight pin configuration events of line `l`, in order (R194). -/
def pinEvents (p : Params) (l : Nat) : List Event :=
  [.gpioFunc (p.line l).txd p.uartPinMode, .gpioDir (p.line l).txd .output,
   .gpioFunc (p.line l).rxd p.uartPinMode, .gpioDir (p.line l).rxd .input,
   .gpioFunc (p.line l).cts p.uartPinMode, .gpioDir (p.line l).cts .output,
   .gpioFunc (p.line l).rts p.uartPinMode, .gpioDir (p.line l).rts .input]

/-- Actions 5, 8 and 10 of `UART_INIT` on the line record (R192, R196, R198); the hardware FIFOs
keep their bytes. -/
def initLine (p : Params) (div : Word) (u : Line) : Line :=
  { u with
    baud := div, rxtrig := BitVec.ofNat 8 Config.rxTrig, txtrig := BitVec.ofNat 8 p.txTrig,
    rxcb := 0, txcb := 0, mrx := false, mtx := true, inited := true }

/-- Action 9 of `UART_INIT`: the line's handler registered at normal priority, its source enabled;
a force is kept (R197). -/
def initSource (l : Nat) (x : Source) : Source :=
  { x with handler := uartHandler l, prio := .normal, enable := true }

/-- Actions 5 to 10 of `UART_INIT` (R192). -/
def initUart (div : Word) (l : Nat) (s : State) : State :=
  let s1 := { s with ev := s.ev ++ pinEvents s.cfg l }
  let s2 := rbInit (rsel l .rx) (BitVec.ofNat 16 (s.cfg.line l).capRx) s1
  let s3 := rbInit (rsel l .tx) (BitVec.ofNat 16 (s.cfg.line l).capTx) s2
  let s4 := s3.setSource (srcOf s.cfg l) (initSource l (s3.source (srcOf s.cfg l)))
  s4.setLine l (initLine s.cfg div (s4.line l))

/-- `UART_INIT l, baud, name` (R192): one atomic step; only the first byte of the name is read. -/
def execUartInit (l : Byte) (baud name : Word) (s : State) : Result :=
  .next (checked 3 l (name == 0 || s.mem.read name.toNat == 0) false s fun l s =>
    match divisor s.cfg baud with
    | none => raise .range s
    | some div => done 3 .ok 0 (initUart div l s))

/-! ### Level 0: blocking byte commands -/

/-- The entry step of a blocking command of direction `d` (R200, R205): the line's flag saved and
set, `FG.phase <- p`; `latch` is what it does to `FG.lb`. -/
def enterBlocking (l : Byte) (d : Dir) (p : FgPhase) (latch : Byte → Byte) (s : State) : State :=
  if s.cfg.nlines ≤ l.toNat then raise .badSelector s
  else if (s.line l.toNat).inited = false then raise .lineState s
  else
    let r := maskXchg l.toNat d s
    { r.2 with fg := { r.2.fg with ll := l, lb := latch r.2.fg.lb, sv := r.1, phase := p } }

/-- The drain step of `UART_SEND_BYTE`: one byte moves, or the phase, or it holds (R201). -/
def sendByteDrain (l : Nat) (s : State) : State :=
  if ringEmpty (s.ring (rsel l .tx)) then s.setPhase .sbPut
  else if hwtxRoom s l then moveTx l s
  else s

/-- The put step of `UART_SEND_BYTE` (R202). -/
def sendBytePut (l : Nat) (s : State) : State :=
  if hwtxRoom s l then (pushHwtx l s.fg.lb s).setPhase .sbRestore else s

/-- The restore step of a blocking command of direction `d` (R203, R207). -/
def restoreBlocking (l : Nat) (d : Dir) (val : Word) (s : State) : State :=
  done 1 .ok val (setMask l d s.fg.sv s)

/-- `FG.lb <- b; FG.phase <- PH_RB_RESTORE` (R206). -/
def latchByte (b : Byte) (s : State) : State :=
  { s with fg := { s.fg with lb := b, phase := .rbRestore } }

/-- The get step of `UART_RECEIVE_BYTE`: the oldest ring byte, else the oldest FIFO byte, else it
holds (R206). -/
def receiveByteGet (l : Nat) (s : State) : State :=
  match rbRead (rsel l .rx) s with
  | (some v, s1) => latchByte v s1
  | (none, _) =>
    match (s.line l).hwrx with
    | b :: _ => latchByte b (dropHwrx l s)
    | [] => s

/-- A step of a blocking command after its entry, on the line it latched (R201 to R207). -/
def onLatchedLine (s : State) (f : Nat → State → State) : Result :=
  if s.cfg.nlines ≤ s.fg.ll.toNat then .fault .noSuchLine else .next (f s.fg.ll.toNat s)

/-- `UART_SEND_BYTE l, b`: the step of the phase it is in (R200 to R203). In a phase of the other
blocking command no step of this one is enabled (log 12). -/
def execUartSendByte (l b : Byte) (s : State) : Result :=
  match s.fg.phase with
  | .idle => .next (enterBlocking l .tx .sbDrain (fun _ => b) s)
  | .sbDrain => onLatchedLine s sendByteDrain
  | .sbPut => onLatchedLine s sendBytePut
  | .sbRestore => onLatchedLine s fun l s => restoreBlocking l .tx 0 s
  | .rbGet => .next s
  | .rbRestore => .next s

/-- `UART_RECEIVE_BYTE l`: the step of the phase it is in (R205 to R207). In a phase of the other
blocking command no step of this one is enabled (log 12). -/
def execUartReceiveByte (l : Byte) (s : State) : Result :=
  match s.fg.phase with
  | .idle => .next (enterBlocking l .rx .rbGet id s)
  | .rbGet => onLatchedLine s receiveByteGet
  | .rbRestore => onLatchedLine s fun l s => restoreBlocking l .rx (s.fg.lb.setWidth 32) s
  | .sbDrain => .next s
  | .sbPut => .next s
  | .sbRestore => .next s

/-! ### Level 1: non-blocking buffer commands -/

/-- How many bytes `UART_SEND` queues: `min(n, cap - cnt)` (R209, action 4). -/
def sendCount (n : Word) (r : Ring) : Nat := min n.toNat (r.cap.toNat - r.cnt.toNat)

/-- How many bytes `UART_RECEIVE` copies: `min(n, cnt)` (R210, action 4). -/
def receiveCount (n : Word) (r : Ring) : Nat := min n.toNat r.cnt.toNat

/-- Actions 5 to 9 of `UART_SEND` and `UART_RECEIVE` (R209, R210): the range check on the `q` bytes
moved, the flag saved and set, the bytes moved by `copy`, the flag cleared if a byte moved and else
restored, completion with the count. -/
def transfer (d : Dir) (p : Word) (q : Nat) (copy : Nat → Nat → State → State) (l : Nat)
    (s : State) : State :=
  if passesTop p q then raise .range s
  else
    let r := maskXchg l d s
    done 3 .ok (BitVec.ofNat 32 q)
      (setMask l d (if 1 ≤ q then false else r.1) (copy p.toNat q r.2))

/-- `UART_SEND l, p, n` (R209). -/
def execUartSend (l : Byte) (p n : Word) (s : State) : Result :=
  .next (checked 3 l (p == 0 || n == 0) true s fun l s =>
    transfer .tx p (sendCount n (s.ring (rsel l .tx))) (copyIn (rsel l .tx)) l s)

/-- `UART_RECEIVE l, p, n` (R210). -/
def execUartReceive (l : Byte) (p n : Word) (s : State) : Result :=
  .next (checked 3 l (p == 0 || n == 0) true s fun l s =>
    transfer .rx p (receiveCount n (s.ring (rsel l .rx))) (copyOut (rsel l .rx)) l s)

/-! ### Callbacks -/

/-- `UART_SET_RX_CALLBACK l, t` (R212). -/
def execUartSetRxCallback (l : Byte) (t : Word) (s : State) : Result :=
  .next (checked 2 l (t == 0) true s fun l s =>
    done 2 .ok 0 (s.setLine l { s.line l with rxcb := t }))

/-- `UART_SET_TX_CALLBACK l, t` (R213). -/
def execUartSetTxCallback (l : Byte) (t : Word) (s : State) : Result :=
  .next (checked 2 l (t == 0) true s fun l s =>
    done 2 .ok 0 (s.setLine l { s.line l with txcb := t }))

end Sys2Proof.Machine
end

