-- ==== Sys2Proof/Machine/Dispatch.lean ====
section
/-! DEFINITION. The meaning of every operation: one arm per row of the opcode table, each one call
of that row's meaning. -/

namespace Sys2Proof.Machine

def exec (i : Instr) (s : State) : Host.Outcome State Fault Refusal :=
  match i with
  -- ring buffer family
  | .rbInit k cap => Sys2Proof.Machine.execRbInit k cap s
  | .rbWrite k b => Sys2Proof.Machine.execRbWrite k b s
  | .rbRead k => Sys2Proof.Machine.execRbRead k s
  | .rbIsFull k => Sys2Proof.Machine.execRbIsFull k s
  | .rbIsEmpty k => Sys2Proof.Machine.execRbIsEmpty k s
  -- interrupt controller family
  | .itcInit => Sys2Proof.Machine.execItcInit s
  | .itcSetHandler v h => Sys2Proof.Machine.execItcSetHandler v h s
  | .itcEnable v => Sys2Proof.Machine.execItcEnable v s
  | .itcDisable v => Sys2Proof.Machine.execItcDisable v s
  | .itcSetPriority v c => Sys2Proof.Machine.execItcSetPriority v c s
  | .itcDisableAll => Sys2Proof.Machine.execItcDisableAll s
  | .itcRestoreAll p => Sys2Proof.Machine.execItcRestoreAll p s
  | .itcForce v => Sys2Proof.Machine.execItcForce v s
  | .itcUnforce v => Sys2Proof.Machine.execItcUnforce v s
  | .itcServiceNormal => Sys2Proof.Machine.execItcServiceNormal s
  | .itcServiceFast => Sys2Proof.Machine.execItcServiceFast s
  -- UART driver family
  | .uartInit l baud name => Sys2Proof.Machine.execUartInit l baud name s
  | .uartSendByte l b => Sys2Proof.Machine.execUartSendByte l b s
  | .uartReceiveByte l => Sys2Proof.Machine.execUartReceiveByte l s
  | .uartSend l p n => Sys2Proof.Machine.execUartSend l p n s
  | .uartReceive l p n => Sys2Proof.Machine.execUartReceive l p n s
  | .uartSetRxCallback l t => Sys2Proof.Machine.execUartSetRxCallback l t s
  | .uartSetTxCallback l t => Sys2Proof.Machine.execUartSetTxCallback l t s
  | .uartIsr l => Sys2Proof.Machine.execUartIsr l s
  -- status read
  | .rdreg inst regno => Sys2Proof.Machine.execRdreg inst regno s

end Sys2Proof.Machine
end

