-- ==== Sys2Proof/Machine/Environment.lean ====
section
/-! DEFINITION. The steps of `ENV` (R268 to R270). A step that is not enabled, or that names a line
or source it may not, changes nothing (log 2). -/

namespace Sys2Proof.Machine

/-- `RX_ARRIVE(l, b)`: pushed, or lost at a full FIFO, which is unchanged (R268). -/
def rxArrive (l : Nat) (b : Byte) (s : State) : State :=
  if s.cfg.nlines ≤ l then s
  else if (s.line l).hwrx.length < s.cfg.depth then pushHwrx l b s
  else s.emit (.rxLost l b)

/-- `TX_DEPART(l)`: the oldest byte leaves for the wire (R269). -/
def txDepart (l : Nat) (s : State) : State :=
  if s.cfg.nlines ≤ l then s
  else
    match (s.line l).hwtx with
    | b :: _ => (dropHwtx l s).emit (.wireTx l b)
    | [] => s

/-- `EXT_SET(v, b)`, for a source that is `SRC(l)` of no line (R270). -/
def extSet (v : Nat) (b : Bool) (s : State) : State :=
  if s.cfg.nsrc ≤ v ∨ (lineOfSource s.cfg v).isSome then s else s.setExtReq v b

/-- A step of `ENV`. -/
def envStep : EnvStep → State → State
  | .rxArrive l b, s => rxArrive l b s
  | .txDepart l, s => txDepart l s
  | .extSet v b, s => extSet v b s

/-- The lowest line with a byte to shift out that the script does not stall (R271, F4). -/
def wireReady (s : State) : Option Nat :=
  (List.range s.cfg.nlines).find? (fun l => !s.stalled.contains l && !(s.line l).hwtx.isEmpty)

end Sys2Proof.Machine
end

