-- ==== Sys2Proof/Machine/Agents.lean ====
section
/-! DEFINITION. Fetch (R115), the steps of the agents (R240 to R242), whose step is next (R240,
R271, log 1), when a run is at its end (R309), and where a command is placed so that it runs next. -/

namespace Sys2Proof.Machine

/-! ### Fetch -/

/-- The words of `PROG` from `FG.pc` on. -/
def streamWords (s : State) : List Word := s.prog.drop s.fg.pc.toNat

/-- Fetch and decode at `FG.pc` (R115): the decoder's command, unless it is one that only the
handler engine performs (R109). -/
def fetch (s : State) : Except DecodeError Instr :=
  match decode (streamWords s) with
  | .ok i => if i.agent = .ih then .error .handlerOnly else .ok i
  | .error e => .error e

/-! ### Steps of the agents; a step that is not enabled changes nothing (log 2) -/

/-- The `FG` step that starts a command: fetch, decode and the command's rule in one step (R115,
R241). Nothing at the end of `PROG` (R309). -/
def startCommand (s : State) : Result :=
  if s.prog.length ≤ s.fg.pc.toNat then .next s
  else
    match fetch s with
    | .ok i => exec i s
    | .error _ => .next (raise .illegalCmd s)

/-- The step of `FG` (R241): between commands it starts one; inside a blocking command it goes on
with that command, whose operands the latches hold. -/
def foregroundStep (s : State) : Result :=
  if foregroundFree s then
    match s.fg.phase with
    | .idle => startCommand s
    | .sbDrain => exec (.uartSendByte s.fg.ll s.fg.lb) s
    | .sbPut => exec (.uartSendByte s.fg.ll s.fg.lb) s
    | .sbRestore => exec (.uartSendByte s.fg.ll s.fg.lb) s
    | .rbGet => exec (.uartReceiveByte s.fg.ll) s
    | .rbRestore => exec (.uartReceiveByte s.fg.ll) s
  else .next s

/-- The activation step: the service routine of the class of R243 (R242). -/
def activate (s : State) : Result :=
  match activationClass s with
  | .fast => exec .itcServiceFast s
  | .normal => exec .itcServiceNormal s

/-- The step of `IH` (R242, R250, R259): the running handler goes on, else an enabled activation. -/
def handlerStep (s : State) : Result :=
  if handlerEnabled s then
    if s.ih.phase = .idle then activate s else exec (.uartIsr s.ih.line) s
  else .next s

/-- The step of the agent whose turn it is (R240). -/
def takeTurn : Turn → State → Result
  | .fg, s => foregroundStep s
  | .ih, s => handlerStep s
  | .env e, s => .next (envStep e s)

/-! ### Whose step is next -/

/-- The schedule where `turns` says nothing, one that R240 allows (log 1, log 15): a byte leaves for
the wire, else the handler engine steps, else the foreground. After a fault no one steps (R264). -/
def defaultTurn (s : State) : Option Turn :=
  if s.fault = 0 then
    match wireReady s with
    | some l => some (.env (.txDepart l))
    | none => if handlerEnabled s then some .ih else some .fg
  else none

/-- The turn that the next step takes: the first that `turns` lists, else the default schedule's. -/
def nextTurn (s : State) : Option Turn :=
  match s.turns with
  | t :: _ => some t
  | [] => defaultTurn s

/-- One step of the machine (R240): the next turn is taken, and removed where `turns` listed it. -/
def machineStep (s : State) : Result :=
  match nextTurn s with
  | some t => takeTurn t { s with turns := s.turns.tail }
  | none => .next s

/-! ### The end of a run (R309) -/

/-- A step of `ENV`. -/
def Turn.isEnv : Turn → Bool
  | .fg => false
  | .ih => false
  | .env _ => true

/-- `ENV` has no step left that `ENVSCRIPT` obliges: the script lists none, and no line that is not
stalled has a byte to shift out (R271 F4, R309). -/
def scriptDone (s : State) : Bool := !s.turns.any Turn.isEnv && (wireReady s).isNone

/-- The block is quiescent (R309): `FG` between commands at the end of `PROG`, `IH` idle with no
activation enabled, and `ENV` done with its script. -/
def quiescent (s : State) : Bool :=
  decide (s.fg.phase = .idle) && decide (s.prog.length ≤ s.fg.pc.toNat) &&
    decide (s.ih.phase = .idle) && !activationEnabled s && scriptDone s

/-- The end state of a program: the quiescent state, or the state at the fault step, of which later
`ENV` steps are no part (R264, R309). -/
def atRest (s : State) : Bool := s.fault != 0 || quiescent s

/-! ### Placing an operation so that the next step runs it (log 7, log 10) -/

/-- No fault, both engines between operations: nothing else keeps the next operation from
starting. -/
def quiet (s : State) : State :=
  { s with fault := 0, fg := { s.fg with phase := .idle }, ih := { s.ih with phase := .idle } }

/-- `t` is the next turn; `turns` is left alone where the default schedule takes that turn. -/
def giveTurn (t : Turn) (s : State) : State :=
  if s.turns = [] ∧ defaultTurn s = some t then s else { s with turns := t :: s.turns }

/-- The words stored where the foreground fetches next, at `FG.pc` of `PROG`. -/
def placeWords (ws : List Word) (s : State) : State :=
  { s with
    prog := s.prog.take s.fg.pc.toNat ++ List.replicate (s.fg.pc.toNat - s.prog.length) 0 ++ ws }

/-- Source 0 forced, enabled, of class `c`, served by the UART handler of line 0, and class `c`
alone enabled: the next activation performs the service routine of `c` (R242). -/
def armService (c : PrioClass) (s : State) : State :=
  (s.setSource 0 { handler := uartHandler 0, enable := true, prio := c, forced := true }).setGlobal
    (decide (c = .normal)) (decide (c = .fast))

/-- The handler of line `l` entered, so that the next step of `IH` is a step of `UART_ISR l`. -/
def armIsr (l : Byte) (s : State) : State :=
  { s with ih := { s.ih with phase := .rxTest, line := l } }

/-- The operation of these words placed to run next: a stream command at `FG.pc`; an operation of
the handler engine, which fetches nothing (R111), by what makes the engine perform it. -/
def placeOperation (i : Option Instr) (ws : List Word) (s : State) : State :=
  match i with
  | some .itcServiceNormal => giveTurn .ih (armService .normal (quiet s))
  | some .itcServiceFast => giveTurn .ih (armService .fast (quiet s))
  | some (.uartIsr l) => giveTurn .ih (armIsr l (quiet s))
  | _ => giveTurn .fg (placeWords ws (quiet s))

end Sys2Proof.Machine
end

