-- ==== Sys2Proof/Machine/Step.lean ====
section
/-! DEFINITION. One step of the machine, and where the host places an instruction to run next. -/

namespace Sys2Proof.Machine

/-- One step (R240). -/
def step (s : State) : Host.Outcome State Fault Refusal := machineStep s

/-- `s` with the instruction of these bits placed where the next step takes it (log 7, log 10). -/
def State.withFetchWord (s : State) (nbits w : Nat) : State :=
  placeOperation (decodeTableWord nbits w) (tableWords nbits w) s

end Sys2Proof.Machine
end

