-- ==== Sys2Proof/Machine/Assembler.lean ====
section
/-! DEFINITION. The assembler syntax of R112: one line of text to one command; there are no
pseudo-instructions (R114), and the handler-engine operations have no assembler form. What R112 does
not say of a line of text is the model's choice (log 20). -/

namespace Sys2Proof.Machine

/-- The text pieces between separators `c`. -/
def splitAtChar (c : Char) : List Char → List (List Char)
  | [] => [[]]
  | x :: xs =>
    if x = c then [] :: splitAtChar c xs
    else
      match splitAtChar c xs with
      | [] => [[x]]
      | w :: ws => (x :: w) :: ws

/-- A blank. -/
def isBlank (c : Char) : Bool := c == ' ' || c == '\t'

/-- Text without the blanks at both ends. -/
def trimBlanks (t : List Char) : List Char :=
  ((t.dropWhile isBlank).reverse.dropWhile isBlank).reverse

/-- The value of a digit, decimal or hexadecimal; DESIGN CHOICE: a hexadecimal digit may be of either
case (log 20). -/
def digitValue (c : Char) : Option Nat :=
  if '0' ≤ c ∧ c ≤ '9' then some (c.toNat - 48)
  else if 'a' ≤ c ∧ c ≤ 'f' then some (c.toNat - 87)
  else if 'A' ≤ c ∧ c ≤ 'F' then some (c.toNat - 55)
  else none

/-- Digits in a base, most significant first, `acc` in front of them. -/
def digitsFrom (base : Nat) : Nat → List Char → Option Nat
  | acc, [] => some acc
  | acc, c :: cs =>
    match digitValue c with
    | some d => if d < base then digitsFrom base (acc * base + d) cs else none
    | none => none

/-- A number, decimal or `0x` hexadecimal (R112). -/
def asmNumber : List Char → Option Nat
  | '0' :: 'x' :: c :: cs => digitsFrom 16 0 (c :: cs)
  | c :: cs => digitsFrom 10 0 (c :: cs)
  | [] => none

/-- A number that fits a field of `w` bits; DESIGN CHOICE: one that does not makes the line no command
(log 20). -/
def asmField (w : Nat) (t : List Char) : Option (BitVec w) :=
  match asmNumber t with
  | some n => if n < 2 ^ w then some (BitVec.ofNat w n) else none
  | none => none

/-- A ring selector: a number `k`, or `l.RX` / `l.TX` meaning `2*l` / `2*l+1` (R112). -/
def asmRing (t : List Char) : Option Byte :=
  match splitAtChar '.' t with
  | [k] => asmField 8 k
  | [l, d] =>
    match asmNumber l with
    | some n =>
      if String.ofList d = "RX" ∧ 2 * n < 256 then some (BitVec.ofNat 8 (2 * n))
      else if String.ofList d = "TX" ∧ 2 * n + 1 < 256 then some (BitVec.ofNat 8 (2 * n + 1))
      else none
    | none => none
  | _ => none

/-- A priority class: `NORMAL` (0) or `FAST` (1) (R112). -/
def asmClass (t : List Char) : Option Byte :=
  if String.ofList t = "NORMAL" then some 0
  else if String.ofList t = "FAST" then some 1
  else none

/-- The names and numbers of the registers (R51 to R53). -/
def registerNames : List (String × Byte) :=
  [("RB_CAP", 0x00), ("RB_RD", 0x01), ("RB_WR", 0x02), ("RB_CNT", 0x03), ("RB_STAT", 0x04),
   ("UL_CTRL", 0x10), ("UL_RXCB", 0x11), ("UL_TXCB", 0x12), ("UL_BAUD", 0x13),
   ("UL_TRIG", 0x14), ("UL_STAT", 0x15), ("IT_GLOBAL", 0x20), ("IT_ENABLE", 0x21),
   ("IT_PRIO", 0x22), ("IT_FORCED", 0x23), ("IT_PENDING", 0x24), ("IT_HANDLER", 0x25)]

/-- A register number: a number or a name (R112). -/
def asmRegister (t : List Char) : Option Byte :=
  match registerNames.find? (fun r => r.1 == String.ofList t) with
  | some r => some r.2
  | none => asmField 8 t

/-- The previous state of `ITC_RESTORE_ALL`: a number of two bits (R166). -/
def asmGlobal (t : List Char) : Option Byte := (asmField 2 t).map (·.setWidth 8)

/-- The command of a mnemonic and its operands, in the order of R112. DESIGN CHOICE (log 20): the `inst`
of `RDREG` is read as a ring selector whatever the register, so `l.RX` and `l.TX` name the numbers
`2*l` and `2*l+1` for a line or an interrupt-table register too, where R112 is silent. -/
def asmCommand (m : String) (os : List (List Char)) : Option Instr :=
  match os with
  | [] =>
    if m = "ITC_INIT" then some .itcInit
    else if m = "ITC_DISABLE_ALL" then some .itcDisableAll
    else none
  | [a] =>
    if m = "RB_READ" then (asmRing a).map .rbRead
    else if m = "RB_IS_FULL" then (asmRing a).map .rbIsFull
    else if m = "RB_IS_EMPTY" then (asmRing a).map .rbIsEmpty
    else if m = "ITC_ENABLE" then (asmField 8 a).map .itcEnable
    else if m = "ITC_DISABLE" then (asmField 8 a).map .itcDisable
    else if m = "ITC_RESTORE_ALL" then (asmGlobal a).map .itcRestoreAll
    else if m = "ITC_FORCE" then (asmField 8 a).map .itcForce
    else if m = "ITC_UNFORCE" then (asmField 8 a).map .itcUnforce
    else if m = "UART_RECEIVE_BYTE" then (asmField 8 a).map .uartReceiveByte
    else none
  | [a, b] =>
    if m = "RB_INIT" then (asmRing a).bind fun k => (asmField 16 b).map (.rbInit k)
    else if m = "RB_WRITE" then (asmRing a).bind fun k => (asmField 8 b).map (.rbWrite k)
    else if m = "ITC_SET_HANDLER" then
      (asmField 8 a).bind fun v => (asmField 32 b).map (.itcSetHandler v)
    else if m = "ITC_SET_PRIORITY" then
      (asmField 8 a).bind fun v => (asmClass b).map (.itcSetPriority v)
    else if m = "UART_SEND_BYTE" then
      (asmField 8 a).bind fun l => (asmField 8 b).map (.uartSendByte l)
    else if m = "UART_SET_RX_CALLBACK" then
      (asmField 8 a).bind fun l => (asmField 32 b).map (.uartSetRxCallback l)
    else if m = "UART_SET_TX_CALLBACK" then
      (asmField 8 a).bind fun l => (asmField 32 b).map (.uartSetTxCallback l)
    else if m = "RDREG" then
      (asmRing a).bind fun i => (asmRegister b).map (.rdreg i)
    else none
  | [a, b, c] =>
    (asmField 8 a).bind fun l => (asmField 32 b).bind fun p => (asmField 32 c).bind fun n =>
      if m = "UART_INIT" then some (.uartInit l p n)
      else if m = "UART_SEND" then some (.uartSend l p n)
      else if m = "UART_RECEIVE" then some (.uartReceive l p n)
      else none
  | _ => none

/-- One line: `MNEMONIC`, then operands separated by commas; `;` starts a comment (R112). DESIGN
CHOICE: blanks and tabs around mnemonic and operands are skipped, and a line without a command
assembles to none (log 20). -/
def assembleLine (line : String) : Option Instr :=
  let t := trimBlanks (line.toList.takeWhile (· != ';'))
  let m := t.takeWhile (fun c => !isBlank c)
  let rest := trimBlanks (t.drop m.length)
  asmCommand (String.ofList m) (if rest = [] then [] else (splitAtChar ',' rest).map trimBlanks)

end Sys2Proof.Machine
end

