-- ==== Sys2Proof/Safety.lean ====
section
/-! DEFINITION. The terms the claims use: well-formed states, the bytes a ring holds, the byte
streams of a line, what a step starts, what a command leaves unchanged. -/

namespace Sys2Proof.Machine

/-! ### The bytes of a ring -/

/-- `n` storage bytes from index `i` on: `mem[i], mem[next(i)], ...` (R152). -/
def ringWalk (powerOn : Nat → Byte) (r : Ring) : Nat → Half → List Byte
  | 0, _ => []
  | n + 1, i => ringByte powerOn r i :: ringWalk powerOn r n (ringNext r i)

/-- The occupied bytes, oldest first (R152). -/
def ringContents (powerOn : Nat → Byte) (r : Ring) : List Byte :=
  ringWalk powerOn r r.cnt.toNat r.rd

/-- The occupied bytes of `RB[k]`, oldest first. -/
def State.contents (s : State) (k : Nat) : List Byte := ringContents (s.powerOn k) (s.ring k)

/-- `n` bytes of a memory from address `a` on. -/
def memBytes (m : Memory) (a n : Nat) : List Byte := (List.range n).map (fun i => m.read (a + i))

/-! ### Well-formed states -/

/-- The ring invariants: R31, `wr = (rd + cnt) mod cap`, and every occupied position filled by a
write since reset (R155). -/
abbrev Ring.Ok (cmax : Nat) (r : Ring) : Prop :=
  r.cap.toNat ≤ cmax ∧ r.cnt.toNat ≤ r.cap.toNat ∧
  (r.cap = 0 → r.rd = 0 ∧ r.wr = 0) ∧
  (r.cap ≠ 0 → r.rd.toNat < r.cap.toNat ∧ r.wr.toNat < r.cap.toNat ∧
    r.wr.toNat = (r.rd.toNat + r.cnt.toNat) % r.cap.toNat) ∧
  cellsRising r.mem ∧ (∀ c ∈ r.mem, c.1 < cmax) ∧
  ∀ j < r.cnt.toNat, (cellsGet ((r.rd.toNat + j) % r.cap.toNat) r.mem).isSome = true

/-- The FIFO bounds (R39), and what a line holds before and after its initialisation (R34, R38,
R56). -/
abbrev Line.Ok (p : Params) (u : Line) : Prop :=
  u.hwrx.length ≤ p.depth ∧ u.hwtx.length ≤ p.depth ∧
  (u.inited = true → u.rxtrig = 1 ∧ u.txtrig.toNat = p.txTrig) ∧
  (u.inited = false → u.mrx = true ∧ u.mtx = true ∧ u.rxcb = 0 ∧ u.txcb = 0 ∧ u.baud = 0 ∧
    u.rxtrig = 0 ∧ u.txtrig = 0)

/-- `FG` is inside `UART_SEND_BYTE`. -/
def FgPhase.sending : FgPhase → Bool
  | .sbDrain => true
  | .sbPut => true
  | .sbRestore => true
  | .idle => false
  | .rbGet => false
  | .rbRestore => false

/-- `FG` is inside `UART_RECEIVE_BYTE`. -/
def FgPhase.receiving : FgPhase → Bool
  | .rbGet => true
  | .rbRestore => true
  | .idle => false
  | .sbDrain => false
  | .sbPut => false
  | .sbRestore => false

/-- The line latched by `FG`. -/
def State.fgLine (s : State) : Nat := s.fg.ll.toNat

/-- The line whose handler runs. -/
def State.ihLine (s : State) : Nat := s.ih.line.toNat

/-- One element per index of every indexed state element (R30, R34, R42). -/
abbrev State.SizesOk (s : State) : Prop :=
  s.rb.length = s.cfg.nrings ∧ s.ul.length = s.cfg.nlines ∧ s.it.src.length = s.cfg.nsrc ∧
  s.extreq.length = s.cfg.nsrc

/-- The command pointer stays within `PROG` (R44). -/
abbrev State.PointerOk (s : State) : Prop :=
  s.prog.length < 2 ^ 32 ∧ s.fg.pc.toNat ≤ s.prog.length

/-- Inside `UART_SEND_BYTE`: the command pointer still names the command with the operands latched
(R44, R200), its line is initialised and its transmit flag set (R200), and from the put step on its
transmit ring is empty (R201, R203). -/
abbrev State.SendingOk (s : State) : Prop :=
  s.fg.phase.sending = true →
    fetch s = .ok (.uartSendByte s.fg.ll s.fg.lb) ∧ s.fgLine < s.cfg.nlines ∧
    (s.line s.fgLine).inited = true ∧ (s.line s.fgLine).mtx = true ∧
    (s.fg.phase ≠ .sbDrain → ringEmpty (s.ring (rsel s.fgLine .tx)) = true)

/-- Inside `UART_RECEIVE_BYTE`: the command pointer still names the command (R44, R205), its line is
initialised and its receive flag set (R205). -/
abbrev State.ReceivingOk (s : State) : Prop :=
  s.fg.phase.receiving = true →
    fetch s = .ok (.uartReceiveByte s.fg.ll) ∧ s.fgLine < s.cfg.nlines ∧
    (s.line s.fgLine).inited = true ∧ (s.line s.fgLine).mrx = true

/-- The running handler: its line and vector exist; while it services a direction the line is
initialised and the direction's flag is clear (R251, R254, R297). -/
abbrev State.HandlerOk (s : State) : Prop :=
  (s.ih.phase ≠ .idle → s.ihLine < s.cfg.nlines ∧ s.ih.src.toNat < s.cfg.nsrc) ∧
  (s.ih.phase = .rxLoop ∨ s.ih.phase = .rxEnd →
    (s.line s.ihLine).inited = true ∧ (s.line s.ihLine).mrx = false) ∧
  (s.ih.phase = .txLoop ∨ s.ih.phase = .txEnd →
    (s.line s.ihLine).inited = true ∧ (s.line s.ihLine).mtx = false)

/-- A well-formed state: the invariant of the machine. -/
structure State.Wf (s : State) : Prop where
  params : s.cfg.Ok
  sizes : s.SizesOk
  rings : ∀ r ∈ s.rb, r.Ok s.cfg.cmax
  lines : ∀ u ∈ s.ul, u.Ok s.cfg
  memory : s.mem.wf
  pointer : s.PointerOk
  sending : s.SendingOk
  receiving : s.ReceivingOk
  handler : s.HandlerOk
  faultCode : s.fault.toNat ≤ 5

/-- Launch inputs with which a run may begin (R6 to R11, R14, R42, R70). -/
abbrev Launch.Ok (i : Launch) : Prop :=
  i.cfg.Ok ∧ i.prog.length < 2 ^ 32 ∧ i.mem.wf ∧ i.extreq.length = i.cfg.nsrc

/-! ### What a command leaves unchanged -/

/-- Launch inputs and the model's own fields unchanged. -/
abbrev SameInputs (s t : State) : Prop :=
  t.cfg = s.cfg ∧ t.life = s.life ∧ t.prog = s.prog ∧ t.extreq = s.extreq ∧ t.turns = s.turns ∧
  t.stalled = s.stalled

/-- Every byte of `MEM` unchanged. -/
abbrev SameMem (s t : State) : Prop := ∀ a, t.mem.read a = s.mem.read a

/-- Every ring unchanged. -/
abbrev SameRings (s t : State) : Prop := ∀ k, t.ring k = s.ring k

/-- Every ring but `k` unchanged. -/
abbrev SameRingsBut (k : Nat) (s t : State) : Prop := ∀ j, j ≠ k → t.ring j = s.ring j

/-- Every line record unchanged. -/
abbrev SameLines (s t : State) : Prop := ∀ l, t.line l = s.line l

/-- Every line record but that of `l` unchanged. -/
abbrev SameLinesBut (l : Nat) (s t : State) : Prop := ∀ j, j ≠ l → t.line j = s.line j

/-- The interrupt table unchanged. -/
abbrev SameTable (s t : State) : Prop :=
  (∀ v, t.source v = s.source v) ∧ t.it.gnorm = s.it.gnorm ∧ t.it.gfast = s.it.gfast

/-- The interrupt table unchanged but for source `v`. -/
abbrev SameTableBut (v : Nat) (s t : State) : Prop :=
  (∀ j, j ≠ v → t.source j = s.source j) ∧ t.it.gnorm = s.it.gnorm ∧ t.it.gfast = s.it.gfast

/-- `R0`, `R1` and the foreground's pointer, phase and latches unchanged. -/
abbrev SameForeground (s t : State) : Prop := t.fg = s.fg ∧ t.r0 = s.r0 ∧ t.r1 = s.r1

/-- The number of a status in Table R106, written out apart from the model's own codes. -/
def statusNumber : Status → Word
  | .ok => 0
  | .noDev => 1
  | .inval => 2
  | .overrun => 3
  | .underrun => 4

/-- The number of a fault in Table R263, written out apart from the model's own codes. -/
def faultNumber : BlockFault → Byte
  | .noHandler => 1
  | .illegalCmd => 2
  | .badSelector => 3
  | .lineState => 4
  | .range => 5

/-- A command of `n` words completed with this status and value, after the events `evs` (R106, R116):
`R0`, `R1`, the command pointer, the phase and `EV` are written, the latches, the handler engine and
`FAULT` are not. -/
abbrev Completed (n : Nat) (st : Status) (val : Word) (evs : List Event) (s t : State) : Prop :=
  t.r0 = statusNumber st ∧ t.r1 = val ∧
  t.ev = s.ev ++ evs ++ [.done s.fg.pc (statusNumber st) val] ∧
  t.fg = { s.fg with pc := s.fg.pc + BitVec.ofNat 32 n, phase := .idle } ∧
  t.ih = s.ih ∧ t.fault = s.fault ∧ SameInputs s t

/-- Rings, lines, interrupt table and `MEM` unchanged. -/
abbrev OnlyResults (s t : State) : Prop :=
  SameRings s t ∧ SameLines s t ∧ SameTable s t ∧ SameMem s t

/-- Of rings, lines, interrupt table and `MEM`, only ring `k` may have changed. -/
abbrev OnlyRing (k : Nat) (s t : State) : Prop :=
  SameRingsBut k s t ∧ SameLines s t ∧ SameTable s t ∧ SameMem s t

/-- Of rings, lines, interrupt table and `MEM`, only line `l` may have changed. -/
abbrev OnlyLine (l : Nat) (s t : State) : Prop :=
  SameRings s t ∧ SameLinesBut l s t ∧ SameTable s t ∧ SameMem s t

/-- Of rings, lines, interrupt table and `MEM`, only line `l` and ring `k` may have changed. -/
abbrev OnlyLineAndRing (l k : Nat) (s t : State) : Prop :=
  SameRingsBut k s t ∧ SameLinesBut l s t ∧ SameTable s t ∧ SameMem s t

/-- From `s` to `t` ring `k` lost its oldest byte, which is `x`; its capacity, its write index and its
storage are unchanged (R33, R145). -/
abbrev TookOldest (k : Nat) (x : Byte) (s t : State) : Prop :=
  s.contents k = x :: t.contents k ∧ (t.ring k).cap = (s.ring k).cap ∧
  (t.ring k).wr = (s.ring k).wr ∧ (t.ring k).mem = (s.ring k).mem

/-- From `s` to `t` ring `k` gained the byte `b` as its newest; its capacity, its read index and every
other storage position are unchanged (R33, R144). -/
abbrev GainedNewest (k : Nat) (b : Byte) (s t : State) : Prop :=
  t.contents k = s.contents k ++ [b] ∧ (t.ring k).cap = (s.ring k).cap ∧
  (t.ring k).rd = (s.ring k).rd ∧
  ∀ i, i ≠ (s.ring k).wr →
    ringByte (t.powerOn k) (t.ring k) i = ringByte (s.powerOn k) (s.ring k) i

/-- Of rings, lines, interrupt table and `MEM`, only source `v` may have changed. -/
abbrev OnlySource (v : Nat) (s t : State) : Prop :=
  SameRings s t ∧ SameLines s t ∧ SameTableBut v s t ∧ SameMem s t

/-- The state after `raise Fault(f)`: nothing changed but `FAULT`, which holds the fault's number if it
was 0 before (R263, R264). -/
def withFault (f : BlockFault) (s : State) : State :=
  { s with fault := if s.fault = 0 then faultNumber f else s.fault }

/-- A step inside a blocking command that does not complete it: the command pointer, `R0`, `R1`, `EV`,
the handler engine, `FAULT` and the inputs unchanged (R116, R200, R205). -/
abbrev InProgress (s t : State) : Prop :=
  t.fg.pc = s.fg.pc ∧ t.r0 = s.r0 ∧ t.r1 = s.r1 ∧ t.ev = s.ev ∧ t.ih = s.ih ∧ t.fault = s.fault ∧
  SameInputs s t

/-- What no step of `UART_ISR` changes: the foreground, `FAULT`, the interrupt table, `MEM` and the
inputs (R171, R250, R258). -/
abbrev HandlerFrame (s t : State) : Prop :=
  SameForeground s t ∧ t.fault = s.fault ∧ SameTable s t ∧ SameMem s t ∧ SameInputs s t

/-- The state that the agent whose turn it is acts on: its turn removed from the schedule where the
schedule listed it (log 1). -/
def afterTurn (s : State) : State := { s with turns := s.turns.tail }

/-- `n` steps of the machine. -/
def runSteps : Nat → State → Result
  | 0, s => .next s
  | n + 1, s =>
    match step s with
    | .next t => runSteps n t
    | .fault f => .fault f
    | .refused r => .refused r

/-- The service routine of a class (R245, R246). -/
def PrioClass.service : PrioClass → Instr
  | .normal => .itcServiceNormal
  | .fast => .itcServiceFast

/-- The command `i` of `n` words on source `v` replaces the source's record by `f` of it, completes
with `ST_OK`, and changes nothing else; for `v >= NSRC` it faults (R161 to R169). -/
abbrev SetsSource (i : Instr) (n : Nat) (v : Byte) (f : Source → Source) (s : State) : Prop :=
  (s.cfg.nsrc ≤ v.toNat → exec i s = .next (withFault .badSelector s)) ∧
  (v.toNat < s.cfg.nsrc →
    ∃ t, exec i s = .next t ∧ Completed n .ok 0 [] s t ∧ OnlySource v.toNat s t ∧
      t.source v.toNat = f (s.source v.toNat))

/-- `RDREG inst, regno` completes with `ST_OK` and a value of which `P` holds, and changes nothing but
what completion writes (R230). -/
abbrev ReadsAs (inst regno : Byte) (s : State) (P : Word → Prop) : Prop :=
  ∃ t, exec (.rdreg inst regno) s = .next t ∧ Completed 1 .ok t.r1 [] s t ∧ OnlyResults s t ∧ P t.r1

/-- The checks of a command of `n` words that R190 orders: a bad line and an absent argument (`bad`)
complete with a status, a line whose `inited` is not `wanted` faults; each changes nothing else. -/
abbrev ChecksInOrder (i : Instr) (n : Nat) (l : Byte) (bad : Prop) (wanted : Bool) (s : State) :
    Prop :=
  (s.cfg.nlines ≤ l.toNat →
    ∃ t, exec i s = .next t ∧ Completed n .noDev 0 [] s t ∧ OnlyResults s t) ∧
  (l.toNat < s.cfg.nlines → bad →
    ∃ t, exec i s = .next t ∧ Completed n .inval 0 [] s t ∧ OnlyResults s t) ∧
  (l.toNat < s.cfg.nlines → ¬bad → (s.line l.toNat).inited = !wanted →
    exec i s = .next (withFault .lineState s))

/-! ### What a step starts, and the byte streams of a line -/

/-- The command that the next step starts, if it starts one (R115, R241). -/
def starting (s : State) : Option Instr :=
  if nextTurn s = some .fg ∧ foregroundFree s = true ∧ s.fg.phase = .idle ∧
      s.fg.pc.toNat < s.prog.length then
    match fetch s with
    | .ok i => some i
    | .error _ => none
  else none

/-- A command that reaches the ring of line `l`, direction `d` outside the critical-section discipline
(R296, R298), or that binds this ring anew while it still holds bytes, which only a `UART_INIT` of a
line not yet initialised can do (R195, R199). Commands on other rings are none. -/
def reachesRing (s : State) (l : Nat) (d : Dir) : Instr → Bool
  | .rbInit k _ => k.toNat == rsel l d
  | .rbWrite k _ => k.toNat == rsel l d
  | .rbRead k => k.toNat == rsel l d
  | .uartInit j _ _ => j.toNat == l && !(s.line l).inited && !ringEmpty (s.ring (rsel l d))
  | .rbIsFull _ => false
  | .rbIsEmpty _ => false
  | .itcInit => false
  | .itcSetHandler _ _ => false
  | .itcEnable _ => false
  | .itcDisable _ => false
  | .itcSetPriority _ _ => false
  | .itcDisableAll => false
  | .itcRestoreAll _ => false
  | .itcForce _ => false
  | .itcUnforce _ => false
  | .itcServiceNormal => false
  | .itcServiceFast => false
  | .uartSendByte _ _ => false
  | .uartReceiveByte _ => false
  | .uartSend _ _ _ => false
  | .uartReceive _ _ _ => false
  | .uartSetRxCallback _ _ => false
  | .uartSetTxCallback _ _ => false
  | .uartIsr _ => false
  | .rdreg _ _ => false

/-- The next step keeps the discipline of R296 for the ring of line `l`, direction `d`: it starts no
command that reaches this ring otherwise. -/
def disciplined (s : State) (l : Nat) (d : Dir) : Bool :=
  match starting s with
  | some i => !reachesRing s l d i
  | none => true

/-- The checks of `UART_SEND` and `UART_RECEIVE` pass on line `l` (R209, R210, actions 1 to 5). -/
def transferGoes (s : State) (l : Byte) (p n : Word) (q : Nat) : Bool :=
  decide (l.toNat < s.cfg.nlines) && p != 0 && n != 0 && (s.line l.toNat).inited && !passesTop p q

/-- The bytes that left line `l` for the wire, in order. -/
def wireBytes (l : Nat) (ev : List Event) : List Byte :=
  ev.filterMap fun e =>
    match e with
    | .wireTx j b => if j = l then some b else none
    | _ => none

/-- The byte of `UART_SEND_BYTE` on line `l` that is latched and not yet pushed (R200 to R202). -/
def latchedTx (s : State) (l : Nat) : List Byte :=
  if (s.fg.phase = .sbDrain ∨ s.fg.phase = .sbPut) ∧ s.fgLine = l then [s.fg.lb] else []

/-- Every byte accepted for line `l`, in the order in which the wire carries them: those gone, those
in the hardware FIFO, those in the transmit ring, the byte latched (R81, R204). -/
def txStream (s : State) (l : Nat) : List Byte :=
  wireBytes l s.ev ++ (s.line l).hwtx ++ s.contents (rsel l .tx) ++ latchedTx s l

/-- The bytes that the next step accepts for transmission on line `l` (R200, R209). -/
def acceptedTx (s : State) (l : Nat) : List Byte :=
  match starting s with
  | some (.uartSend j p n) =>
    let q := sendCount n (s.ring (rsel j.toNat .tx))
    if j.toNat = l ∧ transferGoes s j p n q = true then memBytes s.mem p.toNat q else []
  | some (.uartSendByte j b) =>
    if j.toNat = l ∧ l < s.cfg.nlines ∧ (s.line l).inited = true then [b] else []
  | _ => []

/-- Every byte received on line `l` and not yet obtained by the foreground, oldest first (R80,
R81). -/
def rxStream (s : State) (l : Nat) : List Byte := s.contents (rsel l .rx) ++ (s.line l).hwrx

/-- The byte that the next step delivers to `hwrx` of line `l` (R268). -/
def arrivedRx (s : State) (l : Nat) : List Byte :=
  match nextTurn s with
  | some (.env (.rxArrive j b)) =>
    if j = l ∧ l < s.cfg.nlines ∧ (s.line l).hwrx.length < s.cfg.depth then [b] else []
  | _ => []

/-- The bytes of line `l` that the foreground obtains in the step from `s` to `t`: the byte latched
by the get step of `UART_RECEIVE_BYTE` (R206), or those `UART_RECEIVE` stores in `MEM` (R210). -/
def obtainedRx (s t : State) (l : Nat) : List Byte :=
  if s.fg.phase = .rbGet ∧ t.fg.phase = .rbRestore ∧ s.fgLine = l then [t.fg.lb]
  else
    match starting s with
    | some (.uartReceive j p n) =>
      let q := receiveCount n (s.ring (rsel j.toNat .rx))
      if j.toNat = l ∧ transferGoes s j p n q = true then memBytes t.mem p.toNat q else []
    | _ => []

/-! ### The opcode map as masks (R102, R105) -/

/-- One row of the opcode table: a command word `cw` matches it when `cw &&& mask = bits` (R102). -/
structure OpcodeRow where
  bits : Word
  mask : Word
  words : Nat
  agent : Agent
  deriving DecidableEq, Repr

/-- The rows of `opcode_table.json`, with the lengths and agents of Table R105. -/
def opcodeRows : List OpcodeRow :=
  [⟨0x01000000, 0xFF000000, 1, .fg⟩, ⟨0x02000000, 0xFF00FF00, 1, .fg⟩,
   ⟨0x03000000, 0xFF00FFFF, 1, .fg⟩, ⟨0x04000000, 0xFF00FFFF, 1, .fg⟩,
   ⟨0x05000000, 0xFF00FFFF, 1, .fg⟩, ⟨0x10000000, 0xFFFFFFFF, 1, .fg⟩,
   ⟨0x11000000, 0xFF00FFFF, 2, .fg⟩, ⟨0x12000000, 0xFF00FFFF, 1, .fg⟩,
   ⟨0x13000000, 0xFF00FFFF, 1, .fg⟩, ⟨0x14000000, 0xFF00FEFF, 1, .fg⟩,
   ⟨0x15000000, 0xFFFFFFFF, 1, .fg⟩, ⟨0x16000000, 0xFFFFFFFC, 1, .fg⟩,
   ⟨0x17000000, 0xFF00FFFF, 1, .fg⟩, ⟨0x18000000, 0xFF00FFFF, 1, .fg⟩,
   ⟨0x19000000, 0xFFFFFFFF, 1, .ih⟩, ⟨0x1A000000, 0xFFFFFFFF, 1, .ih⟩,
   ⟨0x20000000, 0xFF00FFFF, 3, .fg⟩, ⟨0x21000000, 0xFF00FF00, 1, .fg⟩,
   ⟨0x22000000, 0xFF00FFFF, 1, .fg⟩, ⟨0x23000000, 0xFF00FFFF, 3, .fg⟩,
   ⟨0x24000000, 0xFF00FFFF, 3, .fg⟩, ⟨0x25000000, 0xFF00FFFF, 2, .fg⟩,
   ⟨0x26000000, 0xFF00FFFF, 2, .fg⟩, ⟨0x27000000, 0xFF00FFFF, 1, .ih⟩,
   ⟨0x30000000, 0xFF0000FF, 1, .fg⟩]

/-- The words from the command pointer on begin with no legal command (R109): whichever row the
command word matches, it is one of the handler engine's or the words it takes are not all there. -/
def illegalStream : List Word → Prop
  | [] => True
  | cw :: ops =>
    ∀ row ∈ opcodeRows, cw &&& row.mask = row.bits →
      row.agent = .ih ∨ (cw :: ops).length < row.words

/-! ### Sequences of ring operations (R151) -/

/-- A `rb_write` or a `rb_read` on a ring. -/
inductive RingOp where
  | write (b : Byte)
  | read
  deriving DecidableEq, Repr

/-- A ring with the bytes of the successful writes and of the successful reads so far (R151). -/
structure RingRun where
  ring : Ring
  written : List Byte
  returned : List Byte
  deriving DecidableEq, Repr

/-- One operation of such a sequence. -/
def ringRunStep (powerOn : Nat → Byte) (x : RingRun) : RingOp → RingRun
  | .write b =>
    match ringWrite b x.ring with
    | (true, r) => { x with ring := r, written := x.written ++ [b] }
    | (false, r) => { x with ring := r }
  | .read =>
    match ringRead powerOn x.ring with
    | (some b, r) => { x with ring := r, returned := x.returned ++ [b] }
    | (none, r) => { x with ring := r }

/-- A sequence of operations since `rb_init`. -/
def ringRun (powerOn : Nat → Byte) (r : Ring) (ops : List RingOp) : RingRun :=
  ops.foldl (ringRunStep powerOn) { ring := r, written := [], returned := [] }

/-! ### Which line a step works on -/

/-- The line on which a command works, by its selector: `RB_*` on the line that owns the ring
(R30, R107). -/
def commandLine : Instr → Option Nat
  | .rbInit k _ => some (k.toNat / 2)
  | .rbWrite k _ => some (k.toNat / 2)
  | .rbRead k => some (k.toNat / 2)
  | .rbIsFull k => some (k.toNat / 2)
  | .rbIsEmpty k => some (k.toNat / 2)
  | .uartInit l _ _ => some l.toNat
  | .uartSendByte l _ => some l.toNat
  | .uartReceiveByte l => some l.toNat
  | .uartSend l _ _ => some l.toNat
  | .uartReceive l _ _ => some l.toNat
  | .uartSetRxCallback l _ => some l.toNat
  | .uartSetTxCallback l _ => some l.toNat
  | .uartIsr l => some l.toNat
  | .itcInit => none
  | .itcSetHandler _ _ => none
  | .itcEnable _ => none
  | .itcDisable _ => none
  | .itcSetPriority _ _ => none
  | .itcDisableAll => none
  | .itcRestoreAll _ => none
  | .itcForce _ => none
  | .itcUnforce _ => none
  | .itcServiceNormal => none
  | .itcServiceFast => none
  | .rdreg _ _ => none

/-- The line on which an environment step works (R268, R269). -/
def envLine : EnvStep → Option Nat
  | .rxArrive l _ => some l
  | .txDepart l => some l
  | .extSet _ _ => none

/-- The line on which the next step works, if on one. -/
def stepLine (s : State) : Option Nat :=
  match nextTurn s with
  | some .fg =>
    if s.fg.phase = .idle then
      match starting s with
      | some i => commandLine i
      | none => none
    else some s.fgLine
  | some .ih => if s.ih.phase = .idle then none else some s.ihLine
  | some (.env e) => envLine e
  | none => none

/-! ### Commands as text (R112) -/

/-- A digit of a number below 16. -/
def digitOf (d : Nat) : Char := if d < 10 then Char.ofNat (48 + d) else Char.ofNat (55 + d)

/-- The last `w` digits of `n` in a base, most significant first. -/
def numeral (base : Nat) : Nat → Nat → List Char
  | 0, _ => []
  | w + 1, n => numeral base w (n / base) ++ [digitOf (n % base)]

/-- `t` is a number `n`, decimal or `0x` hexadecimal, of any sufficient number of digits. -/
def NumberText (n : Nat) (t : List Char) : Prop :=
  ∃ w, 1 ≤ w ∧
    ((n < 10 ^ w ∧ t = numeral 10 w n) ∨ (n < 16 ^ w ∧ t = '0' :: 'x' :: numeral 16 w n))

/-- `t` is a ring selector: the number `k`, or `l.RX` or `l.TX` for `k = 2*l` or `k = 2*l+1`. -/
def RingText (k : Nat) (t : List Char) : Prop :=
  NumberText k t ∨
  ∃ l tl, NumberText l tl ∧
    ((k = 2 * l ∧ t = tl ++ ['.', 'R', 'X']) ∨ (k = 2 * l + 1 ∧ t = tl ++ ['.', 'T', 'X']))

/-- `t` is a priority class, `NORMAL` (0) or `FAST` (1). -/
def ClassText (c : Nat) (t : List Char) : Prop :=
  (c = 0 ∧ t = ['N', 'O', 'R', 'M', 'A', 'L']) ∨ (c = 1 ∧ t = ['F', 'A', 'S', 'T'])

/-- The register names of Tables R51 to R53. -/
def registerTable : List (String × Nat) :=
  [("RB_CAP", 0x00), ("RB_RD", 0x01), ("RB_WR", 0x02), ("RB_CNT", 0x03), ("RB_STAT", 0x04),
   ("UL_CTRL", 0x10), ("UL_RXCB", 0x11), ("UL_TXCB", 0x12), ("UL_BAUD", 0x13),
   ("UL_TRIG", 0x14), ("UL_STAT", 0x15), ("IT_GLOBAL", 0x20), ("IT_ENABLE", 0x21),
   ("IT_PRIO", 0x22), ("IT_FORCED", 0x23), ("IT_PENDING", 0x24), ("IT_HANDLER", 0x25)]

/-- `t` is a register number, as a number or by its name. -/
def RegisterText (n : Nat) (t : List Char) : Prop :=
  NumberText n t ∨ ∃ name, (name, n) ∈ registerTable ∧ t = name.toList

/-- The mnemonic of a command that has an assembler form (R105, R112). -/
def mnemonicOf : Instr → String
  | .rbInit _ _ => "RB_INIT"
  | .rbWrite _ _ => "RB_WRITE"
  | .rbRead _ => "RB_READ"
  | .rbIsFull _ => "RB_IS_FULL"
  | .rbIsEmpty _ => "RB_IS_EMPTY"
  | .itcInit => "ITC_INIT"
  | .itcSetHandler _ _ => "ITC_SET_HANDLER"
  | .itcEnable _ => "ITC_ENABLE"
  | .itcDisable _ => "ITC_DISABLE"
  | .itcSetPriority _ _ => "ITC_SET_PRIORITY"
  | .itcDisableAll => "ITC_DISABLE_ALL"
  | .itcRestoreAll _ => "ITC_RESTORE_ALL"
  | .itcForce _ => "ITC_FORCE"
  | .itcUnforce _ => "ITC_UNFORCE"
  | .itcServiceNormal => ""
  | .itcServiceFast => ""
  | .uartInit _ _ _ => "UART_INIT"
  | .uartSendByte _ _ => "UART_SEND_BYTE"
  | .uartReceiveByte _ => "UART_RECEIVE_BYTE"
  | .uartSend _ _ _ => "UART_SEND"
  | .uartReceive _ _ _ => "UART_RECEIVE"
  | .uartSetRxCallback _ _ => "UART_SET_RX_CALLBACK"
  | .uartSetTxCallback _ _ => "UART_SET_TX_CALLBACK"
  | .uartIsr _ => ""
  | .rdreg _ _ => "RDREG"

/-- The texts are the operands of the command, in the order of R112. -/
def OperandTexts : Instr → List (List Char) → Prop
  | .rbInit k cap, ts => ∃ a b, ts = [a, b] ∧ RingText k.toNat a ∧ NumberText cap.toNat b
  | .rbWrite k x, ts => ∃ a b, ts = [a, b] ∧ RingText k.toNat a ∧ NumberText x.toNat b
  | .rbRead k, ts => ∃ a, ts = [a] ∧ RingText k.toNat a
  | .rbIsFull k, ts => ∃ a, ts = [a] ∧ RingText k.toNat a
  | .rbIsEmpty k, ts => ∃ a, ts = [a] ∧ RingText k.toNat a
  | .itcInit, ts => ts = []
  | .itcSetHandler v h, ts => ∃ a b, ts = [a, b] ∧ NumberText v.toNat a ∧ NumberText h.toNat b
  | .itcEnable v, ts => ∃ a, ts = [a] ∧ NumberText v.toNat a
  | .itcDisable v, ts => ∃ a, ts = [a] ∧ NumberText v.toNat a
  | .itcSetPriority v c, ts => ∃ a b, ts = [a, b] ∧ NumberText v.toNat a ∧ ClassText c.toNat b
  | .itcDisableAll, ts => ts = []
  | .itcRestoreAll p, ts => ∃ a, ts = [a] ∧ NumberText p.toNat a
  | .itcForce v, ts => ∃ a, ts = [a] ∧ NumberText v.toNat a
  | .itcUnforce v, ts => ∃ a, ts = [a] ∧ NumberText v.toNat a
  | .itcServiceNormal, _ => False
  | .itcServiceFast, _ => False
  | .uartInit l x y, ts =>
    ∃ a b c, ts = [a, b, c] ∧ NumberText l.toNat a ∧ NumberText x.toNat b ∧ NumberText y.toNat c
  | .uartSendByte l x, ts => ∃ a b, ts = [a, b] ∧ NumberText l.toNat a ∧ NumberText x.toNat b
  | .uartReceiveByte l, ts => ∃ a, ts = [a] ∧ NumberText l.toNat a
  | .uartSend l x y, ts =>
    ∃ a b c, ts = [a, b, c] ∧ NumberText l.toNat a ∧ NumberText x.toNat b ∧ NumberText y.toNat c
  | .uartReceive l x y, ts =>
    ∃ a b c, ts = [a, b, c] ∧ NumberText l.toNat a ∧ NumberText x.toNat b ∧ NumberText y.toNat c
  | .uartSetRxCallback l x, ts => ∃ a b, ts = [a, b] ∧ NumberText l.toNat a ∧ NumberText x.toNat b
  | .uartSetTxCallback l x, ts => ∃ a b, ts = [a, b] ∧ NumberText l.toNat a ∧ NumberText x.toNat b
  | .uartIsr _, _ => False
  | .rdreg inst regno, ts =>
    ∃ a b, ts = [a, b] ∧ RegisterText regno.toNat b ∧
      (NumberText inst.toNat a ∨ (regno.toNat ≤ 0x04 ∧ RingText inst.toNat a))

/-- Operands with a blank before each, separated by commas. -/
def joinOperands : List (List Char) → List Char
  | [] => []
  | [t] => ' ' :: t
  | t :: ts => ' ' :: t ++ ',' :: joinOperands ts

/-- A line of text: mnemonic, operands, and a comment, which is empty or begins with `;`. -/
def commandText (i : Instr) (operands : List (List Char)) (comment : List Char) : String :=
  String.ofList ((mnemonicOf i).toList ++ joinOperands operands ++ comment)

/-! ### Runs of the handler -/

/-- An upper bound on the steps that the running handler still takes when `ENV` takes none (R250 to
R256). -/
def handlerSteps (s : State) : Nat :=
  let c := (s.ring (rsel s.ihLine .tx)).cnt.toNat
  let a := (s.line s.ihLine).hwrx.length
  match s.ih.phase with
  | .idle => 0
  | .txEnd => 1
  | .txLoop => c + 2
  | .txTest => c + 3
  | .rxEnd => c + 4
  | .rxLoop => c + a + 5
  | .rxTest => c + a + 6

end Sys2Proof.Machine
end

