-- ==== Sys2Proof/Certificates/Slice0/Obligations.lean ====
section
/-! DEFINITION. The statements for the provers. Each is about the machine and names the rules of the
spec that it formalises; `withFault`, `Completed` and the frames are in Safety.lean. -/

open Sys2Proof Sys2Proof.Machine

/-! ### Encoding and fetch -/

/-- Decoding what `encode` writes gives the command back, whatever words follow, and so does decoding
its little-endian serialisation (R100 to R105; the byte order is log 17). -/
def Obligations.DecodeOfEncode : Prop :=
  ∀ (i : Instr) (rest : List Word), i.wf = true →
    decode (encode i ++ rest) = .ok i ∧
    decodeBytes ((encode i ++ rest).flatMap bytesOfWord) = .ok i

/-- What decodes is well-formed, and its words stand at the head of the stream: no two streams that
differ in the words of the command decode to the same command (R101 to R104). -/
def Obligations.EncodeOfDecode : Prop :=
  ∀ (ws : List Word) (i : Instr), decode ws = .ok i → i.wf = true ∧ encode i <+: ws

/-- The decoder accepts exactly the words that some row of the opcode table matches and that are all
there; the row gives the command's length and agent, and rows never overlap (R102, R104, R105). -/
def Obligations.OpcodeTableDecides : Prop :=
  (∀ cw ops, (∃ i, decode (cw :: ops) = .ok i) ↔
    ∃ row ∈ opcodeRows, cw &&& row.mask = row.bits ∧ row.words ≤ (cw :: ops).length) ∧
  (∀ cw ops i row, decode (cw :: ops) = .ok i → row ∈ opcodeRows → cw &&& row.mask = row.bits →
    i.words = row.words ∧ i.agent = row.agent) ∧
  opcodeRows.Pairwise (fun a b => ∀ cw : Word, ¬(cw &&& a.mask = a.bits ∧ cw &&& b.mask = b.bits))

/-- Words written out from the spec's examples decode to the commands they stand for. -/
def Obligations.ExampleWordsDecode : Prop :=
  decode [0x01000004] = .ok (.rbInit 0 4) ∧
  decode [0x02000041] = .ok (.rbWrite 0 0x41) ∧
  decode [0x14020100] = .ok (.itcSetPriority 2 1) ∧
  decode [0x11050000, 0x00001234] = .ok (.itcSetHandler 5 0x1234) ∧
  decode [0x20000000, 0x00002580, 0x00000100] = .ok (.uartInit 0 9600 0x100) ∧
  decode [0x26010000, 0x0000CB02] = .ok (.uartSetTxCallback 1 0xCB02) ∧
  decode [0x30000300] = .ok (.rdreg 0 3)

/-- A line of text assembles only to a command of the stream, well-formed: the handler-engine
operations have no assembler form; and a line of each form of R112, with every spelling of its
operands that R112 gives and with or without a comment, assembles to its command (R112, R114). -/
def Obligations.AssembledIsStreamCommand : Prop :=
  (∀ (line : String) (i : Instr), assembleLine line = some i → i.agent = .fg ∧ i.wf = true) ∧
  (∀ (i : Instr) (operands : List (List Char)) (comment : List Char), i.wf = true →
    OperandTexts i operands → (comment = [] ∨ ∃ c, comment = ';' :: c) →
    assembleLine (commandText i operands comment) = some i)

/-- An illegal command faults with `FLT_ILLEGAL_CMD` and no other change; every word with opcode 0 and
the all-ones word are illegal (R109). `afterTurn` removes the turn from the schedule (log 1). -/
def Obligations.IllegalCommandFaults : Prop :=
  (∀ s : State, nextTurn s = some .fg → s.fault = 0 → s.ih.phase = .idle → s.fg.phase = .idle →
    s.fg.pc.toNat < s.prog.length → illegalStream (streamWords s) →
    step s = .next (withFault .illegalCmd (afterTurn s))) ∧
  (∀ cw ops, opcOf cw = 0 → illegalStream (cw :: ops)) ∧
  (∀ ops, illegalStream (0xFFFFFFFF :: ops))

/-- A step runs the agent whose turn it is: a foreground turn starts the command decoded at the
command pointer or goes on with the blocking command it is in; a handler turn performs the service
routine of the class chosen or goes on with the running handler (R115, R241, R242, R243, R250).
Whose turn it is, and that `exec` acts on the state without that turn, is log 1. -/
def Obligations.StepRunsTheTurn : Prop :=
  ∀ s : State, s.fault = 0 →
    (nextTurn s = some .fg → s.ih.phase = .idle →
      (∀ i, s.fg.phase = .idle → s.fg.pc.toNat < s.prog.length →
        decode (s.prog.drop s.fg.pc.toNat) = .ok i → i.agent = .fg →
        step s = exec i (afterTurn s)) ∧
      (s.fg.phase.sending = true → step s = exec (.uartSendByte s.fg.ll s.fg.lb) (afterTurn s)) ∧
      (s.fg.phase.receiving = true → step s = exec (.uartReceiveByte s.fg.ll) (afterTurn s))) ∧
    (nextTurn s = some .ih →
      (s.ih.phase ≠ .idle → step s = exec (.uartIsr s.ih.line) (afterTurn s)) ∧
      (s.ih.phase = .idle → take s .fast = true →
        step s = exec .itcServiceFast (afterTurn s)) ∧
      (s.ih.phase = .idle → take s .fast = false → take s .normal = true →
        step s = exec .itcServiceNormal (afterTurn s)))

/-! ### Reset -/

/-- Every run whose launch inputs are as R6 to R14 require begins in a well-formed state, and so does
`State.reset`, whose launch inputs are the model's choice (logs 3, 4, 6, 7, 8). -/
def Obligations.BootIsWellFormed : Prop :=
  (∀ (i : Launch) (life : Nat), i.Ok → (State.boot i life).Wf) ∧ State.reset.Wf

/-- Reset puts every element at its value of Table R56 and keeps the launch inputs (R56, R290, R291). -/
def Obligations.ResetValues : Prop :=
  ∀ s t : State, t = applyReset s →
    (∀ k < s.cfg.nrings, (t.ring k).cap = 0 ∧ (t.ring k).rd = 0 ∧ (t.ring k).wr = 0 ∧
      (t.ring k).cnt = 0) ∧
    (∀ l < s.cfg.nlines, t.line l =
      { inited := false, mrx := true, mtx := true, rxcb := 0, txcb := 0, baud := 0, rxtrig := 0,
        txtrig := 0, hwrx := [], hwtx := [] }) ∧
    (∀ v < s.cfg.nsrc, t.source v =
      { handler := 0, enable := false, prio := .normal, forced := false }) ∧
    t.it.gnorm = false ∧ t.it.gfast = false ∧
    t.fg = { pc := 0, phase := .idle, sv := false, lb := 0, ll := 0 } ∧ t.r0 = 0 ∧ t.r1 = 0 ∧
    t.ih = { phase := .idle, line := 0, src := 0, cls := .normal } ∧ t.fault = 0 ∧ t.ev = [] ∧
    t.rb.length = s.cfg.nrings ∧ t.ul.length = s.cfg.nlines ∧ t.it.src.length = s.cfg.nsrc ∧
    t.extreq = s.extreq ∧ t.prog = s.prog ∧ t.mem = s.mem ∧ t.cfg = s.cfg

/-- After reset nothing can be taken and no line raises a request; a global enable is set only by the
command `ITC_INIT` or an `ITC_RESTORE_ALL` whose bit for the class is 1 (R57, R160, R166). `starting`
is the command that the turn of log 1 starts. -/
def Obligations.InterruptsStayOffUntilEnabled : Prop :=
  (∀ (i : Launch) (life : Nat) (c : PrioClass) (l : Nat),
    take (State.boot i life) c = false ∧ lineIrq (State.boot i life) l = false) ∧
  (∀ (s t : State) (c : PrioClass), step s = .next t → s.globalEnable c = false →
    t.globalEnable c = true →
    starting s = some .itcInit ∨
      ∃ p : Byte, starting s = some (.itcRestoreAll p) ∧ p.getLsbD (if c = .fast then 1 else 0) = true)

/-! ### Ring buffers -/

/-- `RB_INIT k, cap` (R146). -/
def Obligations.RbInitBindsRing : Prop :=
  ∀ (k : Byte) (cap : Half) (s : State), s.SizesOk →
    (∀ ops, decode (capacityWord 0x01 k cap :: ops) = .ok (.rbInit k cap)) ∧
    (s.cfg.nrings ≤ k.toNat → exec (.rbInit k cap) s = .next (withFault .badSelector s)) ∧
    (k.toNat < s.cfg.nrings → s.cfg.cmax < cap.toNat →
      exec (.rbInit k cap) s = .next (withFault .range s)) ∧
    (k.toNat < s.cfg.nrings → cap.toNat ≤ s.cfg.cmax →
      ∃ t, exec (.rbInit k cap) s = .next t ∧ Completed 1 .ok 0 [] s t ∧ OnlyRing k.toNat s t ∧
        t.ring k.toNat =
          { cap := cap, rd := 0, wr := 0, cnt := 0, mem := (s.ring k.toNat).mem } ∧
        ringEmpty (t.ring k.toNat) = true ∧ ringFull (t.ring k.toNat) = decide (cap = 0))

/-- `RB_WRITE k, b` (R147): the byte becomes the newest of the ring, or the ring is full and unchanged. -/
def Obligations.RbWriteAppends : Prop :=
  ∀ (k b : Byte) (s : State), s.Wf →
    (∀ ops, decode (commandWord 0x02 k 0 b :: ops) = .ok (.rbWrite k b)) ∧
    (s.cfg.nrings ≤ k.toNat → exec (.rbWrite k b) s = .next (withFault .badSelector s)) ∧
    (k.toNat < s.cfg.nrings → (s.ring k.toNat).cnt = (s.ring k.toNat).cap →
      ∃ t, exec (.rbWrite k b) s = .next t ∧ Completed 1 .overrun 0 [] s t ∧ OnlyResults s t) ∧
    (k.toNat < s.cfg.nrings → (s.ring k.toNat).cnt ≠ (s.ring k.toNat).cap →
      ∃ t, exec (.rbWrite k b) s = .next t ∧ Completed 1 .ok 1 [] s t ∧ OnlyRing k.toNat s t ∧
        t.contents k.toNat = s.contents k.toNat ++ [b] ∧
        (t.ring k.toNat).cap = (s.ring k.toNat).cap ∧ (t.ring k.toNat).rd = (s.ring k.toNat).rd ∧
        (t.ring k.toNat).cnt.toNat = (s.ring k.toNat).cnt.toNat + 1 ∧
        (t.ring k.toNat).wr.toNat =
          (if (s.ring k.toNat).wr.toNat + 1 = (s.ring k.toNat).cap.toNat then 0
           else (s.ring k.toNat).wr.toNat + 1) ∧
        ringByte (t.powerOn k.toNat) (t.ring k.toNat) (s.ring k.toNat).wr = b ∧
        (∀ i, i ≠ (s.ring k.toNat).wr →
          ringByte (t.powerOn k.toNat) (t.ring k.toNat) i =
            ringByte (s.powerOn k.toNat) (s.ring k.toNat) i) ∧
        ringEmpty (t.ring k.toNat) = false ∧
        ringFull (t.ring k.toNat) =
          decide ((s.ring k.toNat).cnt.toNat + 1 = (s.ring k.toNat).cap.toNat))

/-- `RB_READ k` (R148): the oldest byte is returned and removed, or the ring is empty and unchanged. -/
def Obligations.RbReadTakesOldest : Prop :=
  ∀ (k : Byte) (s : State), s.Wf →
    (∀ ops, decode (commandWord 0x03 k 0 0 :: ops) = .ok (.rbRead k)) ∧
    (s.cfg.nrings ≤ k.toNat → exec (.rbRead k) s = .next (withFault .badSelector s)) ∧
    (k.toNat < s.cfg.nrings → (s.ring k.toNat).cnt = 0 →
      ∃ t, exec (.rbRead k) s = .next t ∧ Completed 1 .underrun 0xFFFFFFFF [] s t ∧
        OnlyResults s t) ∧
    (k.toNat < s.cfg.nrings → (s.ring k.toNat).cnt ≠ 0 →
      ∃ t b, exec (.rbRead k) s = .next t ∧ Completed 1 .ok (b.setWidth 32) [] s t ∧
        OnlyRing k.toNat s t ∧ s.contents k.toNat = b :: t.contents k.toNat ∧
        b = ringByte (s.powerOn k.toNat) (s.ring k.toNat) (s.ring k.toNat).rd ∧
        (t.ring k.toNat).cap = (s.ring k.toNat).cap ∧ (t.ring k.toNat).wr = (s.ring k.toNat).wr ∧
        (t.ring k.toNat).mem = (s.ring k.toNat).mem ∧
        (t.ring k.toNat).cnt.toNat = (s.ring k.toNat).cnt.toNat - 1 ∧
        (t.ring k.toNat).rd.toNat =
          (if (s.ring k.toNat).rd.toNat + 1 = (s.ring k.toNat).cap.toNat then 0
           else (s.ring k.toNat).rd.toNat + 1) ∧
        ringFull (t.ring k.toNat) = false ∧
        ringEmpty (t.ring k.toNat) = decide ((s.ring k.toNat).cnt.toNat = 1))

/-- `RB_IS_FULL k` and `RB_IS_EMPTY k` (R149, R150). -/
def Obligations.RbPredicatesRead : Prop :=
  ∀ (k : Byte) (s : State),
    (∀ ops, decode (commandWord 0x04 k 0 0 :: ops) = .ok (.rbIsFull k) ∧
      decode (commandWord 0x05 k 0 0 :: ops) = .ok (.rbIsEmpty k)) ∧
    (s.cfg.nrings ≤ k.toNat →
      exec (.rbIsFull k) s = .next (withFault .badSelector s) ∧
      exec (.rbIsEmpty k) s = .next (withFault .badSelector s)) ∧
    (k.toNat < s.cfg.nrings →
      (∃ t, exec (.rbIsFull k) s = .next t ∧
        Completed 1 .ok (if (s.ring k.toNat).cnt = (s.ring k.toNat).cap then 1 else 0) [] s t ∧
        OnlyResults s t) ∧
      (∃ t, exec (.rbIsEmpty k) s = .next t ∧
        Completed 1 .ok (if (s.ring k.toNat).cnt = 0 then 1 else 0) [] s t ∧ OnlyResults s t)) ∧
    (s.Wf → k.toNat < s.cfg.nrings → (s.ring k.toNat).cap = 0 →
      (∃ t, exec (.rbIsFull k) s = .next t ∧ t.r1 = 1) ∧
      (∃ t, exec (.rbIsEmpty k) s = .next t ∧ t.r1 = 1)) ∧
    (k.toNat < s.cfg.nrings → ∃ t, exec (.rbIsEmpty k) (applyReset s) = .next t ∧ t.r1 = 1)

/-- The FIFO property (R151): from an initialisation on, through any writes and reads, the bytes read
are a prefix of the bytes written, the rest of which the ring holds in order; a write fails exactly
when `cap` bytes are held. -/
def Obligations.RingRunIsFifo : Prop :=
  ∀ (powerOn : Nat → Byte) (cmax : Nat) (r : Ring) (c : Half) (ops : List RingOp) (x : RingRun),
    r.Ok cmax → c.toNat ≤ cmax → x = ringRun powerOn (ringInit c r) ops →
    x.returned <+: x.written ∧
    x.written = x.returned ++ ringContents powerOn x.ring ∧
    x.written.length - x.returned.length = x.ring.cnt.toNat ∧
    x.ring.cap = c ∧
    ∀ b, (ringWrite b x.ring).1 = false ↔ x.written.length - x.returned.length = c.toNat

/-- Since `rb_init`: `wr = (rd + cnt) mod cap`, and no byte returned comes from what reset or a
previous life of the ring left in the storage: two rings with different storage answer alike
(R155, R57). -/
def Obligations.RingForgetsItsPast : Prop :=
  ∀ (p p' : Nat → Byte) (cmax : Nat) (r r' : Ring) (c : Half) (ops : List RingOp) (x x' : RingRun),
    r.Ok cmax → r'.Ok cmax → c.toNat ≤ cmax →
    x = ringRun p (ringInit c r) ops → x' = ringRun p' (ringInit c r') ops →
    x.returned = x'.returned ∧ x.written = x'.written ∧
    ringContents p x.ring = ringContents p' x'.ring ∧
    (c ≠ 0 → x.ring.wr.toNat = (x.ring.rd.toNat + x.ring.cnt.toNat) % c.toNat)

/-- `rb_empty` and `rb_full` exclude each other unless the capacity is 0, where both hold and every
write and every read fails (R153). -/
def Obligations.EmptyAndFullExclusive : Prop :=
  ∀ (cmax : Nat) (r : Ring) (c : Half) (p : Nat → Byte) (b : Byte), r.Ok cmax →
    (r.cap ≠ 0 → ¬(ringEmpty r = true ∧ ringFull r = true)) ∧
    (r.cap = 0 → ringEmpty r = true ∧ ringFull r = true ∧ ringWrite b r = (false, r) ∧
      ringRead p r = (none, r)) ∧
    (c ≠ 0 → ringEmpty (ringInit c r) = true ∧ ringFull (ringInit c r) = false)

/-! ### Interrupt controller -/

/-- `ITC_INIT` (R160): handlers, forces and enables cleared, priorities kept, both classes enabled,
nothing takeable; a second one leaves the table as the first. -/
def Obligations.ItcInitClearsTable : Prop :=
  ∀ s : State,
    (∀ ops, decode (0x10000000 :: ops) = .ok .itcInit) ∧
    ∃ t, exec .itcInit s = .next t ∧ Completed 1 .ok 0 [] s t ∧ SameRings s t ∧ SameLines s t ∧
      SameMem s t ∧
      (∀ v, t.source v =
        { handler := 0, enable := false, prio := (s.source v).prio, forced := false }) ∧
      t.it.gnorm = true ∧ t.it.gfast = true ∧
      (∀ v, pending t v = hwReq s v) ∧ (∀ c, take t c = false) ∧
      ∃ u, exec .itcInit t = .next u ∧ u.it = t.it

/-- `ITC_SET_HANDLER v, h` (R161): any token is stored, 0 and UART handlers included, on any source;
the source is not enabled by it. -/
def Obligations.ItcSetHandlerRegisters : Prop :=
  ∀ (v : Byte) (h : Word) (s : State), s.SizesOk →
    (∀ ops, decode (commandWord 0x11 v 0 0 :: h :: ops) = .ok (.itcSetHandler v h)) ∧
    SetsSource (.itcSetHandler v h) 2 v (fun x => { x with handler := h }) s

/-- `ITC_ENABLE v` and `ITC_DISABLE v` (R162, R163): the source becomes live exactly when it is
pending, or not live; whether it is pending is unchanged. -/
def Obligations.ItcEnableDisableGate : Prop :=
  ∀ (v : Byte) (s : State), s.SizesOk →
    (∀ ops, decode (commandWord 0x12 v 0 0 :: ops) = .ok (.itcEnable v) ∧
      decode (commandWord 0x13 v 0 0 :: ops) = .ok (.itcDisable v)) ∧
    SetsSource (.itcEnable v) 1 v (fun x => { x with enable := true }) s ∧
    SetsSource (.itcDisable v) 1 v (fun x => { x with enable := false }) s ∧
    (∀ t, v.toNat < s.cfg.nsrc → exec (.itcEnable v) s = .next t →
      pending t v.toNat = pending s v.toNat ∧ live t v.toNat = pending s v.toNat) ∧
    (∀ t, v.toNat < s.cfg.nsrc → exec (.itcDisable v) s = .next t →
      pending t v.toNat = pending s v.toNat ∧ live t v.toNat = false)

/-- `ITC_SET_PRIORITY v, c` (R164): class 0 is `NORMAL`, class 1 `FAST`, every other `ARG` is
illegal; a live source requests in its new class. -/
def Obligations.ItcSetPriorityClassifies : Prop :=
  ∀ (v c : Byte) (s : State), s.SizesOk →
    (∀ ops, c.toNat < 2 → decode (commandWord 0x14 v c 0 :: ops) = .ok (.itcSetPriority v c)) ∧
    (∀ ops, 2 ≤ c.toNat → illegalStream (commandWord 0x14 v c 0 :: ops)) ∧
    (c = 0 → SetsSource (.itcSetPriority v c) 1 v (fun x => { x with prio := .normal }) s) ∧
    (c = 1 → SetsSource (.itcSetPriority v c) 1 v (fun x => { x with prio := .fast }) s) ∧
    (∀ t, v.toNat < s.cfg.nsrc → c.toNat < 2 → exec (.itcSetPriority v c) s = .next t →
      live s v.toNat = true → request t (if c = 1 then .fast else .normal) = true)

/-- `ITC_FORCE v` and `ITC_UNFORCE v` (R167, R168): the source is pending, or pending as its hardware
request is. -/
def Obligations.ItcForceUnforce : Prop :=
  ∀ (v : Byte) (s : State), s.SizesOk →
    (∀ ops, decode (commandWord 0x17 v 0 0 :: ops) = .ok (.itcForce v) ∧
      decode (commandWord 0x18 v 0 0 :: ops) = .ok (.itcUnforce v)) ∧
    SetsSource (.itcForce v) 1 v (fun x => { x with forced := true }) s ∧
    SetsSource (.itcUnforce v) 1 v (fun x => { x with forced := false }) s ∧
    (∀ t, v.toNat < s.cfg.nsrc → exec (.itcForce v) s = .next t → pending t v.toNat = true) ∧
    (∀ t, v.toNat < s.cfg.nsrc → exec (.itcUnforce v) s = .next t →
      pending t v.toNat = hwReq s v.toNat)

/-- A force stays: the only steps that clear one are the `ITC_UNFORCE` of its source and `ITC_INIT`
(R167, R260). -/
def Obligations.ForceStays : Prop :=
  ∀ (s t : State) (v : Nat), step s = .next t → (s.source v).forced = true →
    (t.source v).forced = false →
    starting s = some .itcInit ∨ ∃ b : Byte, b.toNat = v ∧ starting s = some (.itcUnforce b)

/-- `ITC_DISABLE_ALL` and `ITC_RESTORE_ALL p` (R165, R166): the value returned and taken has the
normal class in bit 0 and the fast class in bit 1; the restore is to exactly `p`. -/
def Obligations.ItcDisableRestoreAll : Prop :=
  ∀ (p : Byte) (s : State),
    (∀ ops, decode (0x15000000 :: ops) = .ok .itcDisableAll) ∧
    (∀ ops, p.toNat < 4 → decode (commandWord 0x16 0 0 p :: ops) = .ok (.itcRestoreAll p)) ∧
    (∀ ops, 4 ≤ p.toNat → illegalStream (commandWord 0x16 0 0 p :: ops)) ∧
    (∃ t, exec .itcDisableAll s = .next t ∧
      Completed 1 .ok
        ((if s.it.gfast then 2 else 0) + (if s.it.gnorm then 1 else 0)) [] s t ∧
      SameRings s t ∧ SameLines s t ∧ SameMem s t ∧ (∀ v, t.source v = s.source v) ∧
      t.it.gnorm = false ∧ t.it.gfast = false ∧ (∀ c, take t c = false) ∧
      ∀ v, pending t v = pending s v) ∧
    (p.toNat < 4 → ∃ t, exec (.itcRestoreAll p) s = .next t ∧ Completed 1 .ok 0 [] s t ∧
      SameRings s t ∧ SameLines s t ∧ SameMem s t ∧ (∀ v, t.source v = s.source v) ∧
      t.it.gnorm = decide (p = 1 ∨ p = 3) ∧ t.it.gfast = decide (p = 2 ∨ p = 3) ∧
      take t .normal = (decide (p = 1 ∨ p = 3) && request s .normal) ∧
      take t .fast = (decide (p = 2 ∨ p = 3) && request s .fast))

/-- Bracketed pairs nest (R170): an inner `ITC_DISABLE_ALL` returns 0, the inner restore of 0 leaves
both classes disabled, the outer restore of what the outer disable returned gives back the first
state. -/
def Obligations.GlobalSuppressionNests : Prop :=
  ∀ s : State, ∃ a b c d,
    exec .itcDisableAll s = .next a ∧ exec .itcDisableAll a = .next b ∧ b.r1 = 0 ∧
    exec (.itcRestoreAll (b.r1.setWidth 8)) b = .next c ∧ c.it = b.it ∧
    c.it.gnorm = false ∧ c.it.gfast = false ∧
    exec (.itcRestoreAll (a.r1.setWidth 8)) c = .next d ∧ d.it = s.it

/-- The derived conditions (R40, R41, R43): when a line is ready in a direction and when it requests,
and when a source is pending, is live, requests in its class and can be taken. -/
def Obligations.RequestConditions : Prop :=
  ∀ s : State, s.Wf →
    (∀ l, rxReady s l = true ↔
      1 ≤ (s.line l).rxtrig.toNat ∧ (s.line l).rxtrig.toNat ≤ (s.line l).hwrx.length) ∧
    (∀ l, txReady s l = true ↔ 1 ≤ (s.line l).txtrig.toNat ∧
      (s.line l).txtrig.toNat + (s.line l).hwtx.length ≤ s.cfg.depth) ∧
    (∀ l < s.cfg.nlines, (s.line l).inited = false →
      rxReady s l = false ∧ txReady s l = false) ∧
    (∀ l < s.cfg.nlines, (s.line l).inited = true →
      (rxReady s l = true ↔ 1 ≤ (s.line l).hwrx.length)) ∧
    (∀ l, lineIrq s l = true ↔ (s.line l).inited = true ∧
      ((rxReady s l = true ∧ (s.line l).mrx = false) ∨
       (txReady s l = true ∧ (s.line l).mtx = false))) ∧
    (∀ l < s.cfg.nlines, hwReq s (srcOf s.cfg l) = lineIrq s l) ∧
    (∀ v, (∀ l < s.cfg.nlines, srcOf s.cfg l ≠ v) → hwReq s v = s.extReq v) ∧
    (∀ v, pending s v = true ↔ (s.source v).forced = true ∨ hwReq s v = true) ∧
    (∀ v, live s v = true ↔ (s.source v).enable = true ∧ pending s v = true) ∧
    (∀ c, request s c = true ↔
      ∃ v < s.cfg.nsrc, live s v = true ∧ (s.source v).prio = c) ∧
    (∀ c, take s c = true ↔ s.globalEnable c = true ∧ request s c = true)

/-! ### UART driver -/

/-- The baud divisor (R193): natural numbers, both divisions truncating, the product first; out of
range where the product needs more than 32 bits or the increment more than 16. -/
def Obligations.DivisorArithmetic : Prop :=
  ∀ (p : Params) (baud : Word), 16 ≤ p.coreClockHz →
    (2 ^ 32 ≤ baud.toNat * 9999 → divisor p baud = none) ∧
    (baud.toNat * 9999 < 2 ^ 32 → 2 ^ 16 ≤ baud.toNat * 9999 / (p.coreClockHz / 16) →
      divisor p baud = none) ∧
    (baud.toNat * 9999 < 2 ^ 32 → baud.toNat * 9999 / (p.coreClockHz / 16) < 2 ^ 16 →
      ∃ d, divisor p baud = some d ∧
        d.toNat = baud.toNat * 9999 / (p.coreClockHz / 16) * 2 ^ 16 + 9999) ∧
    (p.coreClockHz = 24000000 → divisor p 9600 = some 0x003F270F) ∧
    divisor p 0 = some 0x0000270F

/-- `UART_INIT l, baud, name` (R192, R194 to R198); the storage of its rings is not written (R140). -/
def Obligations.UartInitSetsUpLine : Prop :=
  ∀ (l : Byte) (baud name : Word) (s : State), s.Wf →
    (∀ ops, decode (commandWord 0x20 l 0 0 :: baud :: name :: ops) = .ok (.uartInit l baud name)) ∧
    ChecksInOrder (.uartInit l baud name) 3 l (name = 0 ∨ s.mem.read name.toNat = 0) false s ∧
    (l.toNat < s.cfg.nlines → name ≠ 0 → s.mem.read name.toNat ≠ 0 →
      (s.line l.toNat).inited = false → divisor s.cfg baud = none →
      exec (.uartInit l baud name) s = .next (withFault .range s)) ∧
    (∀ div, l.toNat < s.cfg.nlines → name ≠ 0 → s.mem.read name.toNat ≠ 0 →
      (s.line l.toNat).inited = false → divisor s.cfg baud = some div →
      ∃ t, exec (.uartInit l baud name) s = .next t ∧
        Completed 3 .ok 0
          [.gpioFunc (s.cfg.line l.toNat).txd s.cfg.uartPinMode,
           .gpioDir (s.cfg.line l.toNat).txd .output,
           .gpioFunc (s.cfg.line l.toNat).rxd s.cfg.uartPinMode,
           .gpioDir (s.cfg.line l.toNat).rxd .input,
           .gpioFunc (s.cfg.line l.toNat).cts s.cfg.uartPinMode,
           .gpioDir (s.cfg.line l.toNat).cts .output,
           .gpioFunc (s.cfg.line l.toNat).rts s.cfg.uartPinMode,
           .gpioDir (s.cfg.line l.toNat).rts .input] s t ∧
        SameMem s t ∧ SameLinesBut l.toNat s t ∧ SameTableBut (srcOf s.cfg l.toNat) s t ∧
        t.line l.toNat =
          { inited := true, mrx := false, mtx := true, rxcb := 0, txcb := 0, baud := div,
            rxtrig := 1, txtrig := BitVec.ofNat 8 s.cfg.txTrig,
            hwrx := (s.line l.toNat).hwrx, hwtx := (s.line l.toNat).hwtx } ∧
        t.source (srcOf s.cfg l.toNat) =
          { handler := 0xFFFF0000 + BitVec.ofNat 32 l.toNat, enable := true, prio := .normal,
            forced := (s.source (srcOf s.cfg l.toNat)).forced } ∧
        (∀ k, k ≠ rsel l.toNat .rx → k ≠ rsel l.toNat .tx → t.ring k = s.ring k) ∧
        (t.ring (rsel l.toNat .rx)).cap.toNat = (s.cfg.line l.toNat).capRx ∧
        (t.ring (rsel l.toNat .tx)).cap.toNat = (s.cfg.line l.toNat).capTx ∧
        (∀ d, (t.ring (rsel l.toNat d)).rd = 0 ∧ (t.ring (rsel l.toNat d)).wr = 0 ∧
          (t.ring (rsel l.toNat d)).cnt = 0 ∧ ringEmpty (t.ring (rsel l.toNat d)) = true ∧
          (t.ring (rsel l.toNat d)).mem = (s.ring (rsel l.toNat d)).mem) ∧
        lineIrq t l.toNat = rxReady t l.toNat)

/-- `UART_SEND_BYTE l, b`, entry (R200). -/
def Obligations.SendByteEnters : Prop :=
  ∀ (l b : Byte) (s : State), s.SizesOk → s.fg.phase = .idle →
    (∀ ops, decode (commandWord 0x21 l 0 b :: ops) = .ok (.uartSendByte l b)) ∧
    (s.cfg.nlines ≤ l.toNat → exec (.uartSendByte l b) s = .next (withFault .badSelector s)) ∧
    (l.toNat < s.cfg.nlines → (s.line l.toNat).inited = false →
      exec (.uartSendByte l b) s = .next (withFault .lineState s)) ∧
    (l.toNat < s.cfg.nlines → (s.line l.toNat).inited = true →
      ∃ t, exec (.uartSendByte l b) s = .next t ∧ InProgress s t ∧ OnlyLine l.toNat s t ∧
        t.line l.toNat = { s.line l.toNat with mtx := true } ∧
        t.fg = { pc := s.fg.pc, phase := .sbDrain, sv := (s.line l.toNat).mtx, lb := b, ll := l })

/-- `UART_SEND_BYTE`, drain step (R201): the ring's oldest byte moves to the FIFO; an empty ring ends
the phase; a full FIFO holds the step, which then changes nothing. -/
def Obligations.SendByteDrains : Prop :=
  ∀ (l b : Byte) (s : State), s.Wf → s.fg.phase = .sbDrain →
    ((s.ring (rsel s.fgLine .tx)).cnt = 0 →
      exec (.uartSendByte l b) s = .next { s with fg := { s.fg with phase := .sbPut } }) ∧
    ((s.ring (rsel s.fgLine .tx)).cnt ≠ 0 → (s.line s.fgLine).hwtx.length < s.cfg.depth →
      ∃ t x, exec (.uartSendByte l b) s = .next t ∧ InProgress s t ∧ t.fg = s.fg ∧
        OnlyLineAndRing s.fgLine (rsel s.fgLine .tx) s t ∧
        TookOldest (rsel s.fgLine .tx) x s t ∧
        t.line s.fgLine = { s.line s.fgLine with hwtx := (s.line s.fgLine).hwtx ++ [x] }) ∧
    ((s.ring (rsel s.fgLine .tx)).cnt ≠ 0 → (s.line s.fgLine).hwtx.length = s.cfg.depth →
      exec (.uartSendByte l b) s = .next s)

/-- `UART_SEND_BYTE`, put and restore steps (R202, R203): the byte goes to the FIFO when there is room,
then the saved flag is restored and the command completes. -/
def Obligations.SendBytePutsAndRestores : Prop :=
  ∀ (l b : Byte) (s : State), s.Wf →
    (s.fg.phase = .sbPut → (s.line s.fgLine).hwtx.length < s.cfg.depth →
      ∃ t, exec (.uartSendByte l b) s = .next t ∧ InProgress s t ∧ OnlyLine s.fgLine s t ∧
        t.line s.fgLine = { s.line s.fgLine with hwtx := (s.line s.fgLine).hwtx ++ [s.fg.lb] } ∧
        t.fg = { s.fg with phase := .sbRestore }) ∧
    (s.fg.phase = .sbPut → (s.line s.fgLine).hwtx.length = s.cfg.depth →
      exec (.uartSendByte l b) s = .next s) ∧
    (s.fg.phase = .sbRestore →
      ∃ t, exec (.uartSendByte l b) s = .next t ∧ Completed 1 .ok 0 [] s t ∧
        OnlyLine s.fgLine s t ∧ t.line s.fgLine = { s.line s.fgLine with mtx := s.fg.sv })

/-- The net effect of `UART_SEND_BYTE` (R204), where the foreground has the next `cnt + 4` turns and
the FIFO room for all: the ring's bytes, oldest first, then the byte, reach the FIFO; the ring is
empty, the flag restored, the command complete. The turns are the model's schedule (log 1). -/
def Obligations.SendByteNetEffect : Prop :=
  ∀ (l b : Byte) (s : State) (more : List Turn), s.Wf → s.fault = 0 → s.ih.phase = .idle →
    s.fg.phase = .idle → s.fg.pc.toNat < s.prog.length →
    decode (s.prog.drop s.fg.pc.toNat) = .ok (.uartSendByte l b) →
    l.toNat < s.cfg.nlines → (s.line l.toNat).inited = true →
    (s.line l.toNat).hwtx.length + (s.contents (rsel l.toNat .tx)).length < s.cfg.depth →
    s.turns = List.replicate ((s.contents (rsel l.toNat .tx)).length + 4) .fg ++ more →
    ∃ t, runSteps ((s.contents (rsel l.toNat .tx)).length + 4) s = .next t ∧ t.turns = more ∧
      (t.line l.toNat).hwtx = (s.line l.toNat).hwtx ++ s.contents (rsel l.toNat .tx) ++ [b] ∧
      t.contents (rsel l.toNat .tx) = [] ∧ (t.line l.toNat).mtx = (s.line l.toNat).mtx ∧
      t.fg.phase = .idle ∧ t.fg.pc = s.fg.pc + 1 ∧ t.r0 = 0 ∧ t.r1 = 0 ∧
      t.ev = s.ev ++ [.done s.fg.pc 0 0]

/-- `UART_RECEIVE_BYTE l`, entry (R205). -/
def Obligations.ReceiveByteEnters : Prop :=
  ∀ (l : Byte) (s : State), s.SizesOk → s.fg.phase = .idle →
    (∀ ops, decode (commandWord 0x22 l 0 0 :: ops) = .ok (.uartReceiveByte l)) ∧
    (s.cfg.nlines ≤ l.toNat → exec (.uartReceiveByte l) s = .next (withFault .badSelector s)) ∧
    (l.toNat < s.cfg.nlines → (s.line l.toNat).inited = false →
      exec (.uartReceiveByte l) s = .next (withFault .lineState s)) ∧
    (l.toNat < s.cfg.nlines → (s.line l.toNat).inited = true →
      ∃ t, exec (.uartReceiveByte l) s = .next t ∧ InProgress s t ∧ OnlyLine l.toNat s t ∧
        t.line l.toNat = { s.line l.toNat with mrx := true } ∧
        t.fg = { s.fg with phase := .rbGet, sv := (s.line l.toNat).mrx, ll := l })

/-- `UART_RECEIVE_BYTE`, get and restore steps (R206, R207): the oldest ring byte, else the oldest FIFO
byte, else the step holds and changes nothing; then the saved flag is restored and the command
completes with the byte. -/
def Obligations.ReceiveByteGetsAndRestores : Prop :=
  ∀ (l : Byte) (s : State), s.Wf →
    (s.fg.phase = .rbGet → (s.ring (rsel s.fgLine .rx)).cnt ≠ 0 →
      ∃ t x, exec (.uartReceiveByte l) s = .next t ∧ InProgress s t ∧
        OnlyRing (rsel s.fgLine .rx) s t ∧
        TookOldest (rsel s.fgLine .rx) x s t ∧
        t.fg = { s.fg with lb := x, phase := .rbRestore }) ∧
    (∀ x rest, s.fg.phase = .rbGet → (s.ring (rsel s.fgLine .rx)).cnt = 0 →
      (s.line s.fgLine).hwrx = x :: rest →
      ∃ t, exec (.uartReceiveByte l) s = .next t ∧ InProgress s t ∧ OnlyLine s.fgLine s t ∧
        t.line s.fgLine = { s.line s.fgLine with hwrx := rest } ∧
        t.fg = { s.fg with lb := x, phase := .rbRestore }) ∧
    (s.fg.phase = .rbGet → (s.ring (rsel s.fgLine .rx)).cnt = 0 → (s.line s.fgLine).hwrx = [] →
      exec (.uartReceiveByte l) s = .next s) ∧
    (s.fg.phase = .rbRestore →
      ∃ t, exec (.uartReceiveByte l) s = .next t ∧
        Completed 1 .ok (s.fg.lb.setWidth 32) [] s t ∧ OnlyLine s.fgLine s t ∧
        t.line s.fgLine = { s.line s.fgLine with mrx := s.fg.sv })

/-- `UART_SEND l, p, n` (R209): `q = min(n, cap - cnt)` bytes from `MEM` join the transmit ring in
ascending order, and the flag is cleared exactly if one did. -/
def Obligations.UartSendQueues : Prop :=
  ∀ (l : Byte) (p n : Word) (s : State) (k q : Nat), s.Wf → k = rsel l.toNat .tx →
    q = min n.toNat ((s.ring k).cap.toNat - (s.ring k).cnt.toNat) →
    (∀ ops, decode (commandWord 0x23 l 0 0 :: p :: n :: ops) = .ok (.uartSend l p n)) ∧
    ChecksInOrder (.uartSend l p n) 3 l (p = 0 ∨ n = 0) true s ∧
    (l.toNat < s.cfg.nlines → p ≠ 0 → n ≠ 0 → (s.line l.toNat).inited = true →
      (1 ≤ q ∧ 2 ^ 32 ≤ p.toNat + q - 1 →
        exec (.uartSend l p n) s = .next (withFault .range s)) ∧
      (¬(1 ≤ q ∧ 2 ^ 32 ≤ p.toNat + q - 1) →
        ∃ t, exec (.uartSend l p n) s = .next t ∧ Completed 3 .ok (BitVec.ofNat 32 q) [] s t ∧
          OnlyLineAndRing l.toNat k s t ∧
          t.contents k = s.contents k ++ memBytes s.mem p.toNat q ∧
          (t.ring k).Ok s.cfg.cmax ∧ (t.ring k).cap = (s.ring k).cap ∧
          (t.ring k).rd = (s.ring k).rd ∧ (t.ring k).cnt.toNat = (s.ring k).cnt.toNat + q ∧
          t.line l.toNat =
            { s.line l.toNat with
              mtx := if 1 ≤ q then false else (s.line l.toNat).mtx }))

/-- `UART_RECEIVE l, p, n` (R210): the `q = min(n, cnt)` oldest bytes of the receive ring go to `MEM`
at `p .. p+q-1`, and the flag is cleared exactly if one did. -/
def Obligations.UartReceiveCopies : Prop :=
  ∀ (l : Byte) (p n : Word) (s : State) (k q : Nat), s.Wf → k = rsel l.toNat .rx →
    q = min n.toNat (s.ring k).cnt.toNat →
    (∀ ops, decode (commandWord 0x24 l 0 0 :: p :: n :: ops) = .ok (.uartReceive l p n)) ∧
    ChecksInOrder (.uartReceive l p n) 3 l (p = 0 ∨ n = 0) true s ∧
    (l.toNat < s.cfg.nlines → p ≠ 0 → n ≠ 0 → (s.line l.toNat).inited = true →
      (1 ≤ q ∧ 2 ^ 32 ≤ p.toNat + q - 1 →
        exec (.uartReceive l p n) s = .next (withFault .range s)) ∧
      (¬(1 ≤ q ∧ 2 ^ 32 ≤ p.toNat + q - 1) →
        ∃ t, exec (.uartReceive l p n) s = .next t ∧ Completed 3 .ok (BitVec.ofNat 32 q) [] s t ∧
          SameRingsBut k s t ∧ SameLinesBut l.toNat s t ∧ SameTable s t ∧
          memBytes t.mem p.toNat q = (s.contents k).take q ∧
          (∀ a, a < p.toNat ∨ p.toNat + q ≤ a → t.mem.read a = s.mem.read a) ∧
          t.contents k = (s.contents k).drop q ∧
          (t.ring k).Ok s.cfg.cmax ∧ (t.ring k).cap = (s.ring k).cap ∧
          (t.ring k).wr = (s.ring k).wr ∧ (t.ring k).mem = (s.ring k).mem ∧
          (t.ring k).cnt.toNat = (s.ring k).cnt.toNat - q ∧
          t.line l.toNat =
            { s.line l.toNat with
              mrx := if 1 ≤ q then false else (s.line l.toNat).mrx }))

/-- `UART_SET_RX_CALLBACK l, t` and `UART_SET_TX_CALLBACK l, t` (R212, R213). -/
def Obligations.CallbacksInstall : Prop :=
  ∀ (l : Byte) (tok : Word) (s : State), s.SizesOk →
    (∀ ops, decode (commandWord 0x25 l 0 0 :: tok :: ops) = .ok (.uartSetRxCallback l tok) ∧
      decode (commandWord 0x26 l 0 0 :: tok :: ops) = .ok (.uartSetTxCallback l tok)) ∧
    ChecksInOrder (.uartSetRxCallback l tok) 2 l (tok = 0) true s ∧
    ChecksInOrder (.uartSetTxCallback l tok) 2 l (tok = 0) true s ∧
    (l.toNat < s.cfg.nlines → tok ≠ 0 → (s.line l.toNat).inited = true →
      (∃ t, exec (.uartSetRxCallback l tok) s = .next t ∧ Completed 2 .ok 0 [] s t ∧
        OnlyLine l.toNat s t ∧ t.line l.toNat = { s.line l.toNat with rxcb := tok }) ∧
      (∃ t, exec (.uartSetTxCallback l tok) s = .next t ∧ Completed 2 .ok 0 [] s t ∧
        OnlyLine l.toNat s t ∧ t.line l.toNat = { s.line l.toNat with txcb := tok }))

/-! ### Status read -/

/-- `RDREG` of the ring registers (R51, R232). -/
def Obligations.RdregRingRegisters : Prop :=
  ∀ (k : Byte) (s : State), k.toNat < s.cfg.nrings →
    ReadsAs k 0x00 s (fun w => w = (s.ring k.toNat).cap.setWidth 32) ∧
    ReadsAs k 0x01 s (fun w => w = (s.ring k.toNat).rd.setWidth 32) ∧
    ReadsAs k 0x02 s (fun w => w = (s.ring k.toNat).wr.setWidth 32) ∧
    ReadsAs k 0x03 s (fun w => w = (s.ring k.toNat).cnt.setWidth 32) ∧
    ReadsAs k 0x04 s (fun w =>
      w.getLsbD 0 = decide ((s.ring k.toNat).cnt = 0) ∧
      w.getLsbD 1 = decide ((s.ring k.toNat).cnt = (s.ring k.toNat).cap) ∧
      ∀ j, 2 ≤ j → w.getLsbD j = false)

/-- `RDREG` of the line registers (R52, R232). -/
def Obligations.RdregLineRegisters : Prop :=
  ∀ (l : Byte) (s : State), s.Wf → l.toNat < s.cfg.nlines →
    ReadsAs l 0x10 s (fun w =>
      w.getLsbD 0 = (s.line l.toNat).mrx ∧ w.getLsbD 1 = (s.line l.toNat).mtx ∧
      w.getLsbD 2 = (s.line l.toNat).inited ∧ ∀ j, 3 ≤ j → w.getLsbD j = false) ∧
    ReadsAs l 0x11 s (fun w => w = (s.line l.toNat).rxcb) ∧
    ReadsAs l 0x12 s (fun w => w = (s.line l.toNat).txcb) ∧
    ReadsAs l 0x13 s (fun w => w = (s.line l.toNat).baud) ∧
    ReadsAs l 0x14 s (fun w =>
      w.extractLsb' 0 8 = (s.line l.toNat).rxtrig ∧ w.extractLsb' 8 8 = (s.line l.toNat).txtrig ∧
      ∀ j, 16 ≤ j → w.getLsbD j = false) ∧
    ReadsAs l 0x15 s (fun w =>
      w.getLsbD 0 = rxReady s l.toNat ∧ w.getLsbD 1 = txReady s l.toNat ∧
      w.getLsbD 2 = lineIrq s l.toNat ∧ w.extractLsb' 3 5 = 0 ∧
      (w.extractLsb' 8 8).toNat = (s.line l.toNat).hwrx.length ∧
      (w.extractLsb' 16 8).toNat = (s.line l.toNat).hwtx.length ∧
      ∀ j, 24 ≤ j → w.getLsbD j = false)

/-- `RDREG` of the interrupt-table registers (R53, R232). -/
def Obligations.RdregTableRegisters : Prop :=
  ∀ s : State, s.cfg.Ok →
    ReadsAs 0 0x20 s (fun w =>
      w.getLsbD 0 = s.it.gnorm ∧ w.getLsbD 1 = s.it.gfast ∧ ∀ j, 2 ≤ j → w.getLsbD j = false) ∧
    ReadsAs 0 0x21 s (fun w =>
      ∀ v, w.getLsbD v = (decide (v < s.cfg.nsrc) && (s.source v).enable)) ∧
    ReadsAs 0 0x22 s (fun w =>
      ∀ v, w.getLsbD v = (decide (v < s.cfg.nsrc) && decide ((s.source v).prio = .fast))) ∧
    ReadsAs 0 0x23 s (fun w =>
      ∀ v, w.getLsbD v = (decide (v < s.cfg.nsrc) && (s.source v).forced)) ∧
    ReadsAs 0 0x24 s (fun w =>
      ∀ v, w.getLsbD v = (decide (v < s.cfg.nsrc) && pending s v)) ∧
    (∀ v : Byte, v.toNat < s.cfg.nsrc →
      ReadsAs v 0x25 s (fun w => w = (s.source v.toNat).handler))

/-- `RDREG` of an invalid pair faults, whatever the lines' state; every other pair completes
(R230, R231). -/
def Obligations.RdregValidity : Prop :=
  ∀ (inst regno : Byte) (s : State),
    (∀ ops, decode (commandWord 0x30 inst regno 0 :: ops) = .ok (.rdreg inst regno)) ∧
    (if (regno.toNat ≤ 0x04 ∧ inst.toNat < 2 * s.cfg.nlines) ∨
        (0x10 ≤ regno.toNat ∧ regno.toNat ≤ 0x15 ∧ inst.toNat < s.cfg.nlines) ∨
        (0x20 ≤ regno.toNat ∧ regno.toNat ≤ 0x24 ∧ inst = 0) ∨
        (regno.toNat = 0x25 ∧ inst.toNat < s.cfg.nsrc)
      then ReadsAs inst regno s (fun _ => True)
      else exec (.rdreg inst regno) s = .next (withFault .badSelector s))

/-! ### The handler engine -/

/-- The service routine of class `c` on the lowest live source `v` of the class (R244 to R249): no
handler is a fault; the token of a UART handler enters that line's handler, saving nothing; every
other token is announced. -/
def Obligations.ServiceDispatches : Prop :=
  ∀ (s : State) (c : PrioClass) (v : Nat), s.cfg.Ok → v < s.cfg.nsrc → live s v = true →
    (s.source v).prio = c → (∀ u < v, ¬(live s u = true ∧ (s.source u).prio = c)) →
    ((s.source v).handler = 0 → exec c.service s = .next (withFault .noHandler s)) ∧
    (∀ l < s.cfg.nlines, (s.source v).handler = 0xFFFF0000 + BitVec.ofNat 32 l →
      exec c.service s = .next
        { s with ih :=
            { phase := .rxTest, line := BitVec.ofNat 8 l, src := BitVec.ofNat 8 v, cls := c } }) ∧
    ((s.source v).handler ≠ 0 →
      (∀ l < s.cfg.nlines, (s.source v).handler ≠ 0xFFFF0000 + BitVec.ofNat 32 l) →
      exec c.service s = .next { s with ev := s.ev ++ [.external v (s.source v).handler] })

/-- The receive part of `UART_ISR` (R251 to R253). -/
def Obligations.IsrReceivePart : Prop :=
  ∀ s : State, s.Wf →
    (s.ih.phase = .rxTest → rxReady s s.ihLine = true → (s.line s.ihLine).mrx = false →
      exec (.uartIsr s.ih.line) s = .next { s with ih := { s.ih with phase := .rxLoop } }) ∧
    (s.ih.phase = .rxTest → (rxReady s s.ihLine = false ∨ (s.line s.ihLine).mrx = true) →
      exec (.uartIsr s.ih.line) s = .next { s with ih := { s.ih with phase := .txTest } }) ∧
    (∀ b rest, s.ih.phase = .rxLoop → (s.line s.ihLine).hwrx = b :: rest →
      (s.ring (rsel s.ihLine .rx)).cnt ≠ (s.ring (rsel s.ihLine .rx)).cap →
      ∃ t, exec (.uartIsr s.ih.line) s = .next t ∧ HandlerFrame s t ∧ t.ih = s.ih ∧ t.ev = s.ev ∧
        SameLinesBut s.ihLine s t ∧ SameRingsBut (rsel s.ihLine .rx) s t ∧
        t.line s.ihLine = { s.line s.ihLine with hwrx := rest } ∧
        GainedNewest (rsel s.ihLine .rx) b s t) ∧
    (s.ih.phase = .rxLoop → ((s.line s.ihLine).hwrx = [] ∨
        (s.ring (rsel s.ihLine .rx)).cnt = (s.ring (rsel s.ihLine .rx)).cap) →
      exec (.uartIsr s.ih.line) s = .next { s with ih := { s.ih with phase := .rxEnd } }) ∧
    (s.ih.phase = .rxEnd →
      ∃ t, exec (.uartIsr s.ih.line) s = .next t ∧ HandlerFrame s t ∧
        t.ih = { s.ih with phase := .txTest } ∧
        t.ev = s.ev ++ (if (s.line s.ihLine).rxcb = 0 then []
          else [.callback s.ihLine .rx (s.line s.ihLine).rxcb]) ∧
        SameLinesBut s.ihLine s t ∧ SameRings s t ∧
        t.line s.ihLine =
          { s.line s.ihLine with
            mrx := (s.line s.ihLine).mrx ||
              decide ((s.ring (rsel s.ihLine .rx)).cnt = (s.ring (rsel s.ihLine .rx)).cap) })

/-- The transmit part of `UART_ISR` (R254 to R256), and the return from it, which restores nothing
(R257). -/
def Obligations.IsrTransmitPart : Prop :=
  ∀ s : State, s.Wf →
    (s.ih.phase = .txTest → txReady s s.ihLine = true → (s.line s.ihLine).mtx = false →
      exec (.uartIsr s.ih.line) s = .next { s with ih := { s.ih with phase := .txLoop } }) ∧
    (s.ih.phase = .txTest → (txReady s s.ihLine = false ∨ (s.line s.ihLine).mtx = true) →
      exec (.uartIsr s.ih.line) s = .next { s with ih := { s.ih with phase := .idle } }) ∧
    (s.ih.phase = .txLoop → (s.ring (rsel s.ihLine .tx)).cnt ≠ 0 →
      (s.line s.ihLine).hwtx.length < s.cfg.depth →
      ∃ t x, exec (.uartIsr s.ih.line) s = .next t ∧ HandlerFrame s t ∧ t.ih = s.ih ∧
        t.ev = s.ev ∧ SameLinesBut s.ihLine s t ∧ SameRingsBut (rsel s.ihLine .tx) s t ∧
        TookOldest (rsel s.ihLine .tx) x s t ∧
        t.line s.ihLine = { s.line s.ihLine with hwtx := (s.line s.ihLine).hwtx ++ [x] }) ∧
    (s.ih.phase = .txLoop → ((s.ring (rsel s.ihLine .tx)).cnt = 0 ∨
        (s.line s.ihLine).hwtx.length = s.cfg.depth) →
      exec (.uartIsr s.ih.line) s = .next { s with ih := { s.ih with phase := .txEnd } }) ∧
    (s.ih.phase = .txEnd →
      ∃ t, exec (.uartIsr s.ih.line) s = .next t ∧ HandlerFrame s t ∧
        t.ih = { s.ih with phase := .idle } ∧
        t.ev = s.ev ++ (if (s.line s.ihLine).txcb = 0 then []
          else [.callback s.ihLine .tx (s.line s.ihLine).txcb]) ∧
        SameLinesBut s.ihLine s t ∧ SameRings s t ∧
        t.line s.ihLine =
          { s.line s.ihLine with
            mtx := (s.line s.ihLine).mtx ||
              decide ((s.ring (rsel s.ihLine .tx)).cnt = 0) })

/-- No step of the handler engine writes the foreground's state, the interrupt table, `MEM`, `PROG` or
a request input, and none of the environment but for `extreq` (R171, R258, R270). Whose step it is
says the turn of log 1. -/
def Obligations.HandlerLeavesForegroundAlone : Prop :=
  ∀ s t : State, step s = .next t → nextTurn s ≠ some .fg →
    t.fg = s.fg ∧ t.r0 = s.r0 ∧ t.r1 = s.r1 ∧ t.it = s.it ∧ t.mem = s.mem ∧ t.prog = s.prog ∧
    t.cfg = s.cfg ∧ (nextTurn s = some .ih → t.extreq = s.extreq)

/-- No nesting (R259): while a handler runs no step enters another, the foreground's turns change
nothing, and no step faults. A turn that is not enabled passes (logs 1, 2). -/
def Obligations.HandlerIsNotInterrupted : Prop :=
  ∀ s t : State, s.ih.phase ≠ .idle → step s = .next t →
    t.ih.line = s.ih.line ∧ t.ih.src = s.ih.src ∧ t.ih.cls = s.ih.cls ∧ t.fault = s.fault ∧
    (nextTurn s = some .fg → t = afterTurn s)

/-- A handler run ends (R250, R271): given the turns, the handler is idle again within
`handlerSteps` steps. The turns given are the model's schedule (log 1). -/
def Obligations.HandlerReturns : Prop :=
  ∀ (s : State) (more : List Turn), s.Wf → s.fault = 0 → s.ih.phase ≠ .idle →
    s.turns = List.replicate (handlerSteps s) .ih ++ more →
    ∃ n t, n ≤ handlerSteps s ∧ runSteps n s = .next t ∧ t.ih.phase = .idle ∧
      t.fg = s.fg ∧ t.fault = 0

/-- A set suppression flag keeps the handler engine away from that direction: a step of it that
changes a ring or a hardware FIFO of the direction found the flag clear (R35, R204, R297). Whose step
it is says the turn of log 1. -/
def Obligations.HandlerRespectsSuppression : Prop :=
  ∀ (s t : State) (l : Nat), s.Wf → nextTurn s = some .ih → step s = .next t →
    (t.ring (rsel l .rx) ≠ s.ring (rsel l .rx) ∨ (t.line l).hwrx ≠ (s.line l).hwrx →
      (s.line l).mrx = false ∧ (s.line l).inited = true) ∧
    (t.ring (rsel l .tx) ≠ s.ring (rsel l .tx) ∨ (t.line l).hwtx ≠ (s.line l).hwtx →
      (s.line l).mtx = false ∧ (s.line l).inited = true)

/-! ### The environment -/

/-- The steps of `ENV` (R268 to R270): an arriving byte is queued or lost, the oldest byte of the
transmit FIFO leaves for the wire, a request input is driven. `nextTurn` says which step comes, and
`afterTurn` removes it from the script (log 1). -/
def Obligations.EnvironmentSteps : Prop :=
  ∀ s : State, s.SizesOk →
    (∀ l b, nextTurn s = some (.env (.rxArrive l b)) → l < s.cfg.nlines →
      ((s.line l).hwrx.length < s.cfg.depth →
        ∃ t, step s = .next t ∧ t.line l = { s.line l with hwrx := (s.line l).hwrx ++ [b] } ∧
          SameLinesBut l s t ∧ t = { afterTurn s with ul := t.ul }) ∧
      (s.cfg.depth ≤ (s.line l).hwrx.length →
        step s = .next { afterTurn s with ev := s.ev ++ [.rxLost l b] })) ∧
    (∀ l b rest, nextTurn s = some (.env (.txDepart l)) → l < s.cfg.nlines →
      (s.line l).hwtx = b :: rest →
      ∃ t, step s = .next t ∧ t.line l = { s.line l with hwtx := rest } ∧ SameLinesBut l s t ∧
        t = { afterTurn s with ul := t.ul, ev := s.ev ++ [.wireTx l b] }) ∧
    (∀ v b, nextTurn s = some (.env (.extSet v b)) → v < s.cfg.nsrc →
      (∀ l < s.cfg.nlines, srcOf s.cfg l ≠ v) →
      ∃ t, step s = .next t ∧ t.extReq v = b ∧ (∀ u, u ≠ v → t.extReq u = s.extReq u) ∧
        t = { afterTurn s with extreq := t.extreq })

/-! ### Whole-machine rules -/

/-- Every step keeps the invariant of the machine, `State.Wf` (R31, R34, R39, R44, R155, R297). -/
def Obligations.StepKeepsWellFormed : Prop :=
  ∀ s t : State, s.Wf → step s = .next t → t.Wf

/-- The machine never stops outside the block's own faults: from a well-formed state every step gives
a next state (R71, R250, R264, R266). A run ends where the block is quiescent (R309): from there on, if
it has not faulted, a step changes nothing and the block stays quiescent; and a script that still lists
a step of `ENV`, or a byte still to leave on a line that is not stalled, is no such end. A turn that
has nothing to do passes (logs 1, 2). -/
def Obligations.StepAlwaysNext : Prop :=
  (∀ s : State, s.Wf → ∃ t, step s = .next t) ∧
  (∀ s : State, s.fault = 0 → quiescent s = true →
    step s = .next (afterTurn s) ∧ quiescent (afterTurn s) = true) ∧
  (∀ s : State, quiescent s = true ↔
    s.fg.phase = .idle ∧ s.prog.length ≤ s.fg.pc.toNat ∧ s.ih.phase = .idle ∧
    ¬(s.fault = 0 ∧ ∃ c, take s c = true) ∧ (∀ e, Turn.env e ∉ s.turns) ∧
    ∀ l < s.cfg.nlines, l ∈ s.stalled ∨ (s.line l).hwtx = [])

/-- `raise Fault(code)` (R48, R263, R264): the step that raises changes nothing else, and the code is 1
in a step of the handler engine, 2 where no command can be started, and 3, 4 or 5 where one is; from
then on the foreground and the handler engine change nothing, and `FAULT` keeps its code. A turn that
is not enabled passes (logs 1, 2). -/
def Obligations.FaultChangesNothingElse : Prop :=
  ∀ s t : State, step s = .next t →
    (s.fault = 0 → t.fault ≠ 0 →
      t = { afterTurn s with fault := t.fault } ∧
      ((nextTurn s = some .ih ∧ t.fault = 1) ∨
       (nextTurn s = some .fg ∧ starting s = none ∧ t.fault = 2) ∨
       ∃ i, starting s = some i ∧ (t.fault = 3 ∨ t.fault = 4 ∨ t.fault = 5))) ∧
    (s.fault ≠ 0 → t.fault = s.fault) ∧
    (s.fault ≠ 0 → (∀ e, nextTurn s ≠ some (.env e)) → t = afterTurn s)

/-- Transmit order (R80, R81): as long as the discipline of R296 is kept on the line's transmit ring
(commands on any other ring may do what they like, R298), a step appends the bytes it
accepts to the line's transmit stream (gone to the wire, in the FIFO, in the ring, latched) and
otherwise keeps the stream, so bytes leave in the order in which they were accepted. -/
def Obligations.TransmitOrderKept : Prop :=
  ∀ (s t : State) (l : Nat), s.Wf → disciplined s l .tx = true → step s = .next t →
    l < s.cfg.nlines → txStream t l = txStream s l ++ acceptedTx s l

/-- Receive order (R80, R81): as long as the discipline of R296 is kept on the line's receive ring
(commands on any other ring may do what they like, R298), what the foreground obtains
in a step is the oldest of the line's received bytes, and an arriving byte joins as the newest. -/
def Obligations.ReceiveOrderKept : Prop :=
  ∀ (s t : State) (l : Nat), s.Wf → disciplined s l .rx = true → step s = .next t →
    l < s.cfg.nlines → obtainedRx s t l ++ rxStream t l = rxStream s l ++ arrivedRx s l

/-- Who writes a line's flags (R34, R36): `inited` is set by `UART_INIT` alone and never cleared; the
suppression flags are written by the commands and steps that R36 lists and by no other. -/
def Obligations.LineFlagWriters : Prop :=
  ∀ (s t : State) (l : Nat), step s = .next t →
    ((t.line l).inited ≠ (s.line l).inited → (t.line l).inited = true ∧
      ∃ b baud name, starting s = some (.uartInit b baud name) ∧ b.toNat = l) ∧
    ((t.line l).mrx ≠ (s.line l).mrx →
      (∃ b baud name, starting s = some (.uartInit b baud name) ∧ b.toNat = l ∧
        (t.line l).mrx = false) ∨
      (∃ b, starting s = some (.uartReceiveByte b) ∧ b.toNat = l) ∨
      (∃ b p n, starting s = some (.uartReceive b p n) ∧ b.toNat = l) ∨
      (nextTurn s = some .fg ∧ s.fg.phase = .rbRestore ∧ s.fgLine = l) ∨
      (nextTurn s = some .ih ∧ s.ih.phase = .rxEnd ∧ s.ihLine = l ∧ (t.line l).mrx = true ∧
        ringFull (s.ring (rsel l .rx)) = true)) ∧
    ((t.line l).mtx ≠ (s.line l).mtx →
      (∃ b baud name, starting s = some (.uartInit b baud name) ∧ b.toNat = l ∧
        (t.line l).mtx = true) ∨
      (∃ b x, starting s = some (.uartSendByte b x) ∧ b.toNat = l) ∨
      (∃ b p n, starting s = some (.uartSend b p n) ∧ b.toNat = l) ∨
      (nextTurn s = some .fg ∧ s.fg.phase = .sbRestore ∧ s.fgLine = l) ∨
      (nextTurn s = some .ih ∧ s.ih.phase = .txEnd ∧ s.ihLine = l ∧ (t.line l).mtx = true ∧
        ringEmpty (s.ring (rsel l .tx)) = true))

/-- The line of a step is the only line whose record or rings it touches (R32). -/
def Obligations.LinesAreIsolated : Prop :=
  ∀ (s t : State) (l : Nat), s.Wf → step s = .next t → l < s.cfg.nlines → stepLine s ≠ some l →
    t.line l = s.line l ∧ t.ring (rsel l .rx) = s.ring (rsel l .rx) ∧
    t.ring (rsel l .tx) = s.ring (rsel l .tx)

/-- The command pointer moves only when a command completes, by the command's length, and the
completion is logged; `R0` and `R1` are written then and only then; `EV` only grows
(R44, R45, R49, R116). -/
def Obligations.PointerMovesOnCompletion : Prop :=
  ∀ s t : State, s.Wf → step s = .next t →
    s.ev <+: t.ev ∧
    ((t.fg.pc = s.fg.pc ∧ t.r0 = s.r0 ∧ t.r1 = s.r1) ∨
      ∃ i, fetch s = .ok i ∧ t.fg.pc = s.fg.pc + BitVec.ofNat 32 i.words ∧ t.fg.phase = .idle ∧
        t.ev.getLast? = some (.done s.fg.pc t.r0 t.r1))

/-- `PROG` is never written, a byte of `MEM` only by a `UART_RECEIVE` whose range holds it, a request
input only by the environment (R42, R70, R78, R85). -/
def Obligations.WhoWritesTheMemories : Prop :=
  ∀ s t : State, s.Wf → step s = .next t →
    t.prog = s.prog ∧ t.cfg = s.cfg ∧ t.life = s.life ∧
    (∀ a, t.mem.read a ≠ s.mem.read a →
      ∃ l p n, starting s = some (.uartReceive l p n) ∧ p.toNat ≤ a ∧ a < p.toNat + n.toNat) ∧
    (∀ v, t.extReq v ≠ s.extReq v → nextTurn s = some (.env (.extSet v (t.extReq v))))

/-- Who writes the interrupt table (R171): the nine commands of the family and, for its line's source,
`UART_INIT`; a global enable is written by `ITC_INIT`, `ITC_DISABLE_ALL` and `ITC_RESTORE_ALL` alone. -/
def Obligations.TableWriters : Prop :=
  ∀ s t : State, step s = .next t →
    (∀ v, t.source v ≠ s.source v →
      starting s = some .itcInit ∨
      (∃ b : Byte, b.toNat = v ∧
        ((∃ h, starting s = some (.itcSetHandler b h)) ∨ starting s = some (.itcEnable b) ∨
         starting s = some (.itcDisable b) ∨ (∃ c, starting s = some (.itcSetPriority b c)) ∨
         starting s = some (.itcForce b) ∨ starting s = some (.itcUnforce b))) ∨
      (∃ l baud name, starting s = some (.uartInit l baud name) ∧ srcOf s.cfg l.toNat = v)) ∧
    (∀ c, t.globalEnable c ≠ s.globalEnable c →
      starting s = some .itcInit ∨ starting s = some .itcDisableAll ∨
      ∃ p, starting s = some (.itcRestoreAll p))

/-! ### The model's own choices -/

/-- The model's choice (logs 11, 12): `UART_ISR l` performed while the engine is idle is the start of
the handler of line `l` (log 12), or stops with `noSuchLine` where line `l` does not exist (log 11),
and a step of a blocking command performed in a phase of the other command
changes nothing (log 12); the spec performs neither by itself. -/
def Obligations.ExecOutsideItsPhase : Prop :=
  ∀ (l b : Byte) (s : State),
    (s.ih.phase = .idle → l.toNat < s.cfg.nlines →
      exec (.uartIsr l) s = .next { s with ih := { s.ih with phase := .rxTest, line := l } }) ∧
    (s.ih.phase = .idle → s.cfg.nlines ≤ l.toNat →
      exec (.uartIsr l) s = .fault .noSuchLine) ∧
    (s.fg.phase.receiving = true → exec (.uartSendByte l b) s = .next s) ∧
    (s.fg.phase.sending = true → exec (.uartReceiveByte l) s = .next s)
end

