-- ==== Sys2Proof/Laws/Assembler.lean ====
section
/-! SUPPORT. What the assembler reads from the texts of R112: numbers, ring selectors, classes and
register names, then a line. -/

namespace Sys2Proof.Machine

/-- A character as numbers are made of: no blank, comma, semicolon, full stop or underscore. -/
def plainChar (c : Char) : Bool := !isBlank c && c != ',' && c != ';' && c != '.' && c != '_'

/-! ### Digits -/

theorem digitValue_digitOf : ∀ d < 16, digitValue (digitOf d) = some d := by decide

theorem plainChar_digitOf : ∀ d < 16, plainChar (digitOf d) = true ∧ digitOf d ≠ 'x' := by decide

theorem numeral_length (base w n : Nat) : (numeral base w n).length = w := by
  induction w generalizing n with
  | zero => rfl
  | succ w ih => simp [numeral, ih]

theorem numeral_chars {base : Nat} (h0 : 0 < base) (h : base ≤ 16) (w n : Nat) :
    ∀ c ∈ numeral base w n, plainChar c = true ∧ c ≠ 'x' := by
  induction w generalizing n with
  | zero => exact fun _ h => nomatch h
  | succ w ih =>
    intro c hc
    rw [numeral, List.mem_append, List.mem_singleton] at hc
    rcases hc with hc | rfl
    · exact ih _ c hc
    · exact plainChar_digitOf _ (lt_of_lt_of_le (Nat.mod_lt _ h0) h)

theorem digitsFrom_append (base acc : Nat) (xs ys : List Char) :
    digitsFrom base acc (xs ++ ys) = (digitsFrom base acc xs).bind (digitsFrom base · ys) := by
  induction xs generalizing acc with
  | nil => rfl
  | cons x xs ih =>
    simp only [List.cons_append, digitsFrom]
    cases digitValue x with
    | none => rfl
    | some d =>
      dsimp only
      split
      · exact ih _
      · rfl

/-- The digits of `n` are read as `n`. -/
theorem digitsFrom_numeral {base : Nat} (h0 : 0 < base) (h : base ≤ 16) (w n : Nat)
    (hn : n < base ^ w) : digitsFrom base 0 (numeral base w n) = some n := by
  induction w generalizing n with
  | zero =>
    have : n = 0 := by simpa using hn
    rw [this]; rfl
  | succ w ih =>
    rw [numeral, digitsFrom_append, ih (n / base) (Nat.div_lt_of_lt_mul (by rwa [Nat.pow_succ'] at hn))]
    have hm := Nat.mod_lt n h0
    simp only [Option.bind_some, digitsFrom, digitValue_digitOf _ (lt_of_lt_of_le hm h), if_pos hm]
    rw [Nat.mul_comm, Nat.div_add_mod]

/-! ### Operands -/

/-- What every operand text is made of: at least one character, each plain but for full stops. -/
def OperandChars (t : List Char) : Prop :=
  t ≠ [] ∧ ∀ c ∈ t, isBlank c = false ∧ c ≠ ',' ∧ c ≠ ';'

theorem plainChar_iff (c : Char) :
    plainChar c = true ↔ isBlank c = false ∧ c ≠ ',' ∧ c ≠ ';' ∧ c ≠ '.' ∧ c ≠ '_' := by
  simp [plainChar, and_assoc]

theorem NumberText.read {n : Nat} {t : List Char} (h : NumberText n t) :
    asmNumber t = some n ∧ t ≠ [] ∧ ∀ c ∈ t, plainChar c = true := by
  obtain ⟨w, hw, ⟨hn, rfl⟩ | ⟨hn, rfl⟩⟩ := h
  · have hl := numeral_length 10 w n
    have hc := numeral_chars (by omega : 0 < 10) (by omega) w n
    have hd := digitsFrom_numeral (by omega : 0 < 10) (by omega) w n hn
    revert hl hc hd
    generalize numeral 10 w n = t
    intro hl hc hd
    refine ⟨?_, by rintro rfl; simp at hl; omega, fun c m => (hc c m).1⟩
    unfold asmNumber
    split
    · exact absurd rfl (hc 'x' (by simp)).2
    · exact hd
    · simp at hl; omega
  · have hl := numeral_length 16 w n
    have hc := numeral_chars (by omega : 0 < 16) (by omega) w n
    have hd := digitsFrom_numeral (by omega : 0 < 16) (by omega) w n hn
    revert hl hc hd
    generalize numeral 16 w n = t
    intro hl hc hd
    refine ⟨?_, by simp, ?_⟩
    · cases t with
      | nil => simp at hl; omega
      | cons c cs => exact hd
    · intro c m
      rcases List.mem_cons.1 m with rfl | m
      · decide
      rcases List.mem_cons.1 m with rfl | m
      · decide
      exact (hc c m).1

theorem NumberText.chars {n : Nat} {t : List Char} (h : NumberText n t) : OperandChars t :=
  ⟨h.read.2.1, fun c m => by
    obtain ⟨a, b, d, -⟩ := (plainChar_iff c).1 (h.read.2.2 c m); exact ⟨a, b, d⟩⟩

theorem NumberText.field {w : Nat} {x : BitVec w} {t : List Char} (h : NumberText x.toNat t) :
    asmField w t = some x := by
  unfold asmField
  rw [h.read.1]
  simp [x.isLt]

theorem splitAtChar_none {c : Char} {t : List Char} (h : ∀ x ∈ t, x ≠ c) :
    splitAtChar c t = [t] := by
  induction t with
  | nil => rfl
  | cons x xs ih =>
    rw [splitAtChar, if_neg (h x (by simp)), ih fun y hy => h y (by simp [hy])]

theorem splitAtChar_append {c : Char} {t : List Char} (u : List Char) (h : ∀ x ∈ t, x ≠ c) :
    splitAtChar c (t ++ c :: u) = t :: splitAtChar c u := by
  induction t with
  | nil => simp [splitAtChar]
  | cons x xs ih =>
    rw [List.cons_append, splitAtChar, if_neg (h x (by simp)),
      ih fun y hy => h y (by simp [hy])]

theorem RingText.read {k : Byte} {t : List Char} (h : RingText k.toNat t) :
    asmRing t = some k := by
  have hk := k.isLt
  rcases h with h | ⟨l, tl, h, ⟨e, rfl⟩ | ⟨e, rfl⟩⟩
  · unfold asmRing
    rw [splitAtChar_none fun c m => ((plainChar_iff c).1 (h.read.2.2 c m)).2.2.2.1]
    exact h.field
  all_goals
    unfold asmRing
    rw [splitAtChar_append _ fun c m => ((plainChar_iff c).1 (h.read.2.2 c m)).2.2.2.1]
  · rw [show splitAtChar '.' ['R', 'X'] = [['R', 'X']] by decide]
    have : String.ofList ['R', 'X'] = "RX" := by decide
    simp [h.read.1, this, ← e, hk]
  · rw [show splitAtChar '.' ['T', 'X'] = [['T', 'X']] by decide]
    have h1 : String.ofList ['T', 'X'] = "TX" := by decide
    have h2 : "TX" ≠ "RX" := by decide
    simp [h.read.1, h1, h2, ← e, hk]

theorem RingText.chars {k : Nat} {t : List Char} (h : RingText k t) : OperandChars t := by
  rcases h with h | ⟨l, tl, h, ⟨-, rfl⟩ | ⟨-, rfl⟩⟩
  · exact h.chars
  all_goals
    refine ⟨by simp, fun c m => ?_⟩
    rcases List.mem_append.1 m with m | m
    · exact h.chars.2 c m
    · simp only [List.mem_cons, List.not_mem_nil, or_false] at m
      rcases m with rfl | rfl | rfl <;> simp [isBlank]

theorem ClassText.read {c : Byte} {t : List Char} (h : ClassText c.toNat t) :
    asmClass t = some c := by
  rcases h with ⟨e, rfl⟩ | ⟨e, rfl⟩
  · rw [show c = 0 from BitVec.eq_of_toNat_eq e]; decide +kernel
  · rw [show c = 1 from BitVec.eq_of_toNat_eq e]; decide +kernel

theorem ClassText.chars {c : Nat} {t : List Char} (h : ClassText c t) : OperandChars t := by
  rcases h with ⟨-, rfl⟩ | ⟨-, rfl⟩ <;> exact ⟨by simp, by simp [isBlank]⟩

theorem registerNames_eq (name : String) (r : Byte) (h : (name, r.toNat) ∈ registerTable) :
    registerNames.find? (fun x => x.1 == name) = some (name, r) := by
  have all : ∀ x ∈ registerTable,
      registerNames.find? (fun y => y.1 == x.1) = some (x.1, BitVec.ofNat 8 x.2) := by
    decide +kernel
  rw [all _ h, BitVec.ofNat_toNat, BitVec.setWidth_eq]

theorem RegisterText.read {n : Byte} {t : List Char} (h : RegisterText n.toNat t) :
    asmRegister t = some n := by
  unfold asmRegister
  rcases h with h | ⟨name, hm, rfl⟩
  · have : registerNames.find? (fun r => r.1 == String.ofList t) = none := by
      rw [List.find?_eq_none]
      intro r hr e
      have all : ∀ x ∈ registerNames, '_' ∈ x.1.toList := by decide +kernel
      have hu := all r hr
      rw [eq_of_beq e, String.toList_ofList] at hu
      exact ((plainChar_iff _).1 (h.read.2.2 _ hu)).2.2.2.2 rfl
    rw [this]
    exact h.field
  · rw [String.ofList_toList, registerNames_eq name n hm]

theorem RegisterText.chars {n : Nat} {t : List Char} (h : RegisterText n t) : OperandChars t := by
  rcases h with h | ⟨name, hm, rfl⟩
  · exact h.chars
  · have : ∀ x ∈ registerTable, x.1.toList ≠ [] ∧
        ∀ c ∈ x.1.toList, isBlank c = false ∧ c ≠ ',' ∧ c ≠ ';' := by simp [registerTable, isBlank]
    exact this _ hm

/-! ### A line -/

theorem dropWhile_blank {t : List Char} (h : ∀ c ∈ t.head?, isBlank c = false) :
    t.dropWhile isBlank = t := by
  cases t with
  | nil => rfl
  | cons c cs => simp [h c rfl]

theorem trimBlanks_id {t : List Char} (h1 : ∀ c ∈ t.head?, isBlank c = false)
    (h2 : ∀ c ∈ t.getLast?, isBlank c = false) : trimBlanks t = t := by
  unfold trimBlanks
  rw [dropWhile_blank h1, dropWhile_blank (by simpa using h2), List.reverse_reverse]

theorem trimBlanks_blank (t : List Char) : trimBlanks (' ' :: t) = trimBlanks t := by
  unfold trimBlanks
  rw [List.dropWhile_cons_of_pos (by decide)]

theorem OperandChars.trim {t : List Char} (h : OperandChars t) : trimBlanks t = t :=
  trimBlanks_id (fun c m => (h.2 c (List.mem_of_mem_head? m)).1)
    (fun c m => (h.2 c (List.mem_of_getLast? m)).1)

/-- The operands joined, without the first blank. -/
def operandLine (t : List Char) : List (List Char) → List Char
  | [] => t
  | u :: us => t ++ ',' :: joinOperands (u :: us)

theorem joinOperands_cons (t : List Char) (ts : List (List Char)) :
    joinOperands (t :: ts) = ' ' :: operandLine t ts := by cases ts <;> rfl

/-- What is written between commas is read back. -/
theorem split_joinOperands (t : List Char) (ts : List (List Char))
    (h : ∀ x ∈ t :: ts, OperandChars x) :
    (splitAtChar ',' (operandLine t ts)).map trimBlanks = t :: ts ∧
    (splitAtChar ',' (joinOperands (t :: ts))).map trimBlanks = t :: ts := by
  have key : (splitAtChar ',' (operandLine t ts)).map trimBlanks = t :: ts := by
    induction ts generalizing t with
    | nil =>
      have ht := h t (by simp)
      rw [operandLine, splitAtChar_none fun c m => (ht.2 c m).2.1]
      simp [ht.trim]
    | cons u us ih =>
      have ht := h t (by simp)
      rw [operandLine, splitAtChar_append _ fun c m => (ht.2 c m).2.1, List.map_cons, ht.trim,
        joinOperands_cons]
      have := ih u fun x hx => h x (List.mem_cons_of_mem _ hx)
      rw [splitAtChar, if_neg (by decide)]
      revert this
      generalize splitAtChar ',' (operandLine u us) = parts
      cases parts with
      | nil => exact fun e => nomatch e
      | cons w ws => intro e; simpa [trimBlanks_blank] using e
  refine ⟨key, ?_⟩
  rw [joinOperands_cons, splitAtChar, if_neg (by decide)]
  revert key
  generalize splitAtChar ',' (operandLine t ts) = parts
  cases parts with
  | nil => exact fun e => nomatch e
  | cons w ws => intro e; simpa [trimBlanks_blank] using e

theorem operandLine_edges (t : List Char) (ts : List (List Char))
    (h : ∀ x ∈ t :: ts, OperandChars x) :
    operandLine t ts ≠ [] ∧ (∀ c ∈ (operandLine t ts).head?, isBlank c = false) ∧
    (∀ c ∈ (operandLine t ts).getLast?, isBlank c = false) ∧
    ∀ c ∈ operandLine t ts, c ≠ ';' := by
  induction ts generalizing t with
  | nil =>
    have ht := h t (by simp)
    exact ⟨ht.1, fun c m => (ht.2 c (List.mem_of_mem_head? m)).1,
      fun c m => (ht.2 c (List.mem_of_getLast? m)).1, fun c m => (ht.2 c m).2.2⟩
  | cons u us ih =>
    have ht := h t (by simp)
    obtain ⟨h1, -, h3, h4⟩ := ih u fun x hx => h x (List.mem_cons_of_mem _ hx)
    rw [operandLine, joinOperands_cons]
    refine ⟨by simp, ?_, ?_, ?_⟩
    · obtain ⟨c, cs, rfl⟩ := List.exists_cons_of_ne_nil ht.1
      intro d m
      exact (ht.2 d (by simpa using Or.inl (Option.some.inj m).symm)).1
    · obtain ⟨c, cs, e⟩ := List.exists_cons_of_ne_nil h1
      rw [e] at h3 ⊢
      intro d m
      exact h3 d (by simpa [List.getLast?_append, List.getLast?_cons_cons] using m)
    · intro c m
      simp only [List.mem_append, List.mem_cons] at m
      rcases m with m | rfl | rfl | m
      · exact (ht.2 c m).2.2
      · decide
      · decide
      · exact h4 c m

theorem takeWhile_split {p : Char → Bool} {a b : List Char} (h1 : ∀ c ∈ a, p c = true)
    (h2 : ∀ c ∈ b.head?, p c = false) : (a ++ b).takeWhile p = a := by
  rw [List.takeWhile_append_of_pos h1]
  cases b with
  | nil => simp
  | cons c cs => simp [h2 c rfl]

/-- A line of mnemonic, operands and comment is the command of its mnemonic and operands. -/
theorem assembleLine_text (m : String) (ops : List (List Char)) (comment : List Char)
    (hm : OperandChars m.toList) (ho : ∀ x ∈ ops, OperandChars x)
    (hc : comment = [] ∨ ∃ c, comment = ';' :: c) :
    assembleLine (String.ofList (m.toList ++ joinOperands ops ++ comment)) = asmCommand m ops := by
  have hb : ∀ c ∈ m.toList, (!isBlank c) = true := fun c h => by simp [(hm.2 c h).1]
  have hcut : ∀ c ∈ comment.head?, (c != ';') = false := by
    rcases hc with rfl | ⟨c, rfl⟩
    · exact fun _ h => nomatch h
    · intro d h
      rw [← Option.some.inj h]; decide
  have hhead : ∀ c ∈ (m.toList ++ joinOperands ops).head?, isBlank c = false := by
    obtain ⟨c, cs, e⟩ := List.exists_cons_of_ne_nil hm.1
    intro d h
    rw [e] at h
    exact (hm.2 d (by rw [e]; simpa using Or.inl (Option.some.inj h).symm)).1
  unfold assembleLine
  rw [String.toList_ofList]
  cases ops with
  | nil =>
    rw [takeWhile_split (a := m.toList ++ joinOperands []) (fun c h => ?_) hcut]
    · simp only [joinOperands, List.append_nil] at hhead ⊢
      rw [hm.trim, show m.toList.takeWhile (fun c => !isBlank c) = m.toList by
        simpa using takeWhile_split (b := []) hb (fun _ h => nomatch h), List.drop_length]
      simp [trimBlanks]
    · simp only [joinOperands, List.append_nil] at h
      simpa using (hm.2 c h).2.2
  | cons t ts =>
    obtain ⟨h1, h2, h3, h4⟩ := operandLine_edges t ts ho
    rw [joinOperands_cons] at hhead ⊢
    rw [takeWhile_split (a := m.toList ++ ' ' :: operandLine t ts) (fun c h => ?_) hcut]
    · have hlast : ∀ c ∈ (m.toList ++ ' ' :: operandLine t ts).getLast?, isBlank c = false := by
        obtain ⟨x, xs, e⟩ := List.exists_cons_of_ne_nil h1
        rw [e] at h3 ⊢
        intro d h
        exact h3 d (by simpa [List.getLast?_append, List.getLast?_cons_cons] using h)
      rw [trimBlanks_id hhead hlast]
      dsimp only
      rw [takeWhile_split (b := ' ' :: operandLine t ts) hb
        (fun c h => by rw [← Option.some.inj h]; decide), List.drop_left, trimBlanks_blank,
        trimBlanks_id h2 h3, if_neg h1, (split_joinOperands t ts ho).1, String.ofList_toList]
    · rcases List.mem_append.1 h with h | h
      · simpa using (hm.2 c h).2.2
      · rcases List.mem_cons.1 h with rfl | h
        · decide
        · simpa using h4 c h

/-- Every mnemonic is a text without blanks. -/
theorem mnemonic_chars (i : Instr) (h : i.agent = .fg) : OperandChars (mnemonicOf i).toList := by
  cases i <;> first | (cases h; done) | exact ⟨by simp [mnemonicOf], by simp [mnemonicOf, isBlank]⟩

end Sys2Proof.Machine
end

