-- ==== Sys2Proof/Laws/Decode.lean ====
section
/-! SUPPORT. The fields of an assembled command word (R101). -/

namespace Sys2Proof

@[simp] theorem opcOf_commandWord (o s a i : Byte) : opcOf (commandWord o s a i) = o := by
  show BitVec.extractLsb' 24 8 (o ++ s ++ a ++ i : BitVec (8 + 8 + 8 + 8)) = o
  apply BitVec.eq_of_getLsbD_eq
  intro j hj
  simp only [BitVec.getLsbD_extractLsb', BitVec.getLsbD_append, hj, decide_true, Bool.true_and]
  rw [if_neg (by omega), if_neg (by omega), if_neg (by omega)]
  congr 1
  omega

@[simp] theorem selOf_commandWord (o s a i : Byte) : selOf (commandWord o s a i) = s := by
  show BitVec.extractLsb' 16 8 (o ++ s ++ a ++ i : BitVec (8 + 8 + 8 + 8)) = s
  apply BitVec.eq_of_getLsbD_eq
  intro j hj
  simp only [BitVec.getLsbD_extractLsb', BitVec.getLsbD_append, hj, decide_true, Bool.true_and]
  rw [if_neg (by omega), if_neg (by omega), if_pos (by omega)]
  congr 1
  omega

@[simp] theorem argOf_commandWord (o s a i : Byte) : argOf (commandWord o s a i) = a := by
  show BitVec.extractLsb' 8 8 (o ++ s ++ a ++ i : BitVec (8 + 8 + 8 + 8)) = a
  apply BitVec.eq_of_getLsbD_eq
  intro j hj
  simp only [BitVec.getLsbD_extractLsb', BitVec.getLsbD_append, hj, decide_true, Bool.true_and]
  rw [if_neg (by omega), if_pos (by omega)]
  congr 1
  omega

@[simp] theorem immOf_commandWord (o s a i : Byte) : immOf (commandWord o s a i) = i := by
  show BitVec.extractLsb' 0 8 (o ++ s ++ a ++ i : BitVec (8 + 8 + 8 + 8)) = i
  apply BitVec.eq_of_getLsbD_eq
  intro j hj
  simp only [BitVec.getLsbD_extractLsb', BitVec.getLsbD_append, hj, decide_true, Bool.true_and]
  rw [if_pos (by omega)]
  congr 1
  omega

@[simp] theorem opcOf_capacityWord (o k : Byte) (c : Half) :
    opcOf (capacityWord o k c) = o := by
  show BitVec.extractLsb' 24 8 (o ++ k ++ c : BitVec (8 + 8 + 16)) = o
  apply BitVec.eq_of_getLsbD_eq
  intro j hj
  simp only [BitVec.getLsbD_extractLsb', BitVec.getLsbD_append, hj, decide_true, Bool.true_and]
  rw [if_neg (by omega), if_neg (by omega)]
  congr 1
  omega

@[simp] theorem selOf_capacityWord (o k : Byte) (c : Half) :
    selOf (capacityWord o k c) = k := by
  show BitVec.extractLsb' 16 8 (o ++ k ++ c : BitVec (8 + 8 + 16)) = k
  apply BitVec.eq_of_getLsbD_eq
  intro j hj
  simp only [BitVec.getLsbD_extractLsb', BitVec.getLsbD_append, hj, decide_true, Bool.true_and]
  rw [if_neg (by omega), if_pos (by omega)]
  congr 1
  omega

@[simp] theorem imm16Of_capacityWord (o k : Byte) (c : Half) :
    imm16Of (capacityWord o k c) = c := by
  show BitVec.extractLsb' 0 16 (o ++ k ++ c : BitVec (8 + 8 + 16)) = c
  apply BitVec.eq_of_getLsbD_eq
  intro j hj
  simp only [BitVec.getLsbD_extractLsb', BitVec.getLsbD_append, hj, decide_true, Bool.true_and]
  rw [if_pos (by omega)]
  congr 1
  omega

/-- A word is its four fields (R101). -/
theorem commandWord_fields (w : Word) :
    commandWord (opcOf w) (selOf w) (argOf w) (immOf w) = w := by
  show (opcOf w ++ selOf w ++ argOf w ++ immOf w : BitVec (8 + 8 + 8 + 8)) = w
  apply BitVec.eq_of_getLsbD_eq
  intro j hj
  simp only [BitVec.getLsbD_append, opcOf, selOf, argOf, immOf, BitVec.getLsbD_extractLsb']
  split
  · simp [*]
  · split
    · simp only [show j - 8 < 8 by omega, decide_true, Bool.true_and]
      congr 1; omega
    · split
      · simp only [show j - 8 - 8 < 8 by omega, decide_true, Bool.true_and]
        congr 1; omega
      · simp only [show j - 8 - 8 - 8 < 8 by omega, decide_true, Bool.true_and]
        congr 1; omega

/-- Serialising words as bytes and reading them back gives the words (R73). -/
theorem wordsOfBytes_bytesOfWord (w : Word) (bs : List Byte) :
    wordsOfBytes (bytesOfWord w ++ bs) = w :: wordsOfBytes bs := by
  show commandWord (opcOf w) (selOf w) (argOf w) (immOf w) :: wordsOfBytes bs = _
  rw [commandWord_fields]

theorem wordsOfBytes_flatMap (ws : List Word) : wordsOfBytes (ws.flatMap bytesOfWord) = ws := by
  induction ws with
  | nil => rfl
  | cons w ws ih => rw [List.flatMap_cons, wordsOfBytes_bytesOfWord, ih]

theorem capacityWord_fields (w : Word) : capacityWord (opcOf w) (selOf w) (imm16Of w) = w := by
  show (opcOf w ++ selOf w ++ imm16Of w : BitVec (8 + 8 + 16)) = w
  apply BitVec.eq_of_getLsbD_eq
  intro j hj
  simp only [BitVec.getLsbD_append, opcOf, selOf, imm16Of, BitVec.getLsbD_extractLsb']
  split
  · simp [*]
  · split
    · simp only [show j - 16 < 8 by omega, decide_true, Bool.true_and]
      congr 1; omega
    · simp only [show j - 16 - 8 < 8 by omega, decide_true, Bool.true_and]
      congr 1; omega

/-- A format accepts only where its must-be-zero condition holds (R102). -/
theorem whenMbz_ok {b : Bool} {x : Except DecodeError Instr} {i : Instr}
    (h : whenMbz b x = .ok i) : b = true ∧ x = .ok i := by
  cases b <;> simp_all [whenMbz]

/-- Every command has one, two or three words (R100). -/
theorem encode_ne_nil (i : Instr) : encode i ≠ [] := by
  cases i <;> exact List.cons_ne_nil _ _

end Sys2Proof
end

