-- ==== Sys2Proof/Laws/State.lean ====
section
/-! SUPPORT. One lemma per field per update, true by rfl, so that no later proof unfolds a record
update; then the accessors over the updates. -/

namespace Sys2Proof.Machine

/-! ### `setRing` -/

@[simp] theorem setRing_cfg (s : State) (k : Nat) (r : Ring) : (s.setRing k r).cfg = s.cfg := rfl
@[simp] theorem setRing_life (s : State) (k : Nat) (r : Ring) : (s.setRing k r).life = s.life := rfl
@[simp] theorem setRing_rb (s : State) (k : Nat) (r : Ring) :
    (s.setRing k r).rb = s.rb.set k r := rfl
@[simp] theorem setRing_ul (s : State) (k : Nat) (r : Ring) : (s.setRing k r).ul = s.ul := rfl
@[simp] theorem setRing_it (s : State) (k : Nat) (r : Ring) : (s.setRing k r).it = s.it := rfl
@[simp] theorem setRing_extreq (s : State) (k : Nat) (r : Ring) :
    (s.setRing k r).extreq = s.extreq := rfl
@[simp] theorem setRing_fg (s : State) (k : Nat) (r : Ring) : (s.setRing k r).fg = s.fg := rfl
@[simp] theorem setRing_r0 (s : State) (k : Nat) (r : Ring) : (s.setRing k r).r0 = s.r0 := rfl
@[simp] theorem setRing_r1 (s : State) (k : Nat) (r : Ring) : (s.setRing k r).r1 = s.r1 := rfl
@[simp] theorem setRing_ih (s : State) (k : Nat) (r : Ring) : (s.setRing k r).ih = s.ih := rfl
@[simp] theorem setRing_fault (s : State) (k : Nat) (r : Ring) :
    (s.setRing k r).fault = s.fault := rfl
@[simp] theorem setRing_ev (s : State) (k : Nat) (r : Ring) : (s.setRing k r).ev = s.ev := rfl
@[simp] theorem setRing_prog (s : State) (k : Nat) (r : Ring) : (s.setRing k r).prog = s.prog := rfl
@[simp] theorem setRing_mem (s : State) (k : Nat) (r : Ring) : (s.setRing k r).mem = s.mem := rfl
@[simp] theorem setRing_turns (s : State) (k : Nat) (r : Ring) :
    (s.setRing k r).turns = s.turns := rfl
@[simp] theorem setRing_stalled (s : State) (k : Nat) (r : Ring) :
    (s.setRing k r).stalled = s.stalled := rfl
@[simp] theorem setRing_line (s : State) (k : Nat) (r : Ring) (l' : Nat) :
    (s.setRing k r).line l' = s.line l' := rfl
@[simp] theorem setRing_source (s : State) (k : Nat) (r : Ring) (v' : Nat) :
    (s.setRing k r).source v' = s.source v' := rfl
@[simp] theorem setRing_globalEnable (s : State) (k : Nat) (r : Ring) (c' : PrioClass) :
    (s.setRing k r).globalEnable c' = s.globalEnable c' := by cases c' <;> rfl
@[simp] theorem setRing_extReq (s : State) (k : Nat) (r : Ring) (v' : Nat) :
    (s.setRing k r).extReq v' = s.extReq v' := rfl
@[simp] theorem setRing_powerOn (s : State) (k : Nat) (r : Ring) (k' : Nat) :
    (s.setRing k r).powerOn k' = s.powerOn k' := rfl

/-! ### `setLine` -/

@[simp] theorem setLine_cfg (s : State) (l : Nat) (u : Line) : (s.setLine l u).cfg = s.cfg := rfl
@[simp] theorem setLine_life (s : State) (l : Nat) (u : Line) : (s.setLine l u).life = s.life := rfl
@[simp] theorem setLine_rb (s : State) (l : Nat) (u : Line) : (s.setLine l u).rb = s.rb := rfl
@[simp] theorem setLine_ul (s : State) (l : Nat) (u : Line) :
    (s.setLine l u).ul = s.ul.set l u := rfl
@[simp] theorem setLine_it (s : State) (l : Nat) (u : Line) : (s.setLine l u).it = s.it := rfl
@[simp] theorem setLine_extreq (s : State) (l : Nat) (u : Line) :
    (s.setLine l u).extreq = s.extreq := rfl
@[simp] theorem setLine_fg (s : State) (l : Nat) (u : Line) : (s.setLine l u).fg = s.fg := rfl
@[simp] theorem setLine_r0 (s : State) (l : Nat) (u : Line) : (s.setLine l u).r0 = s.r0 := rfl
@[simp] theorem setLine_r1 (s : State) (l : Nat) (u : Line) : (s.setLine l u).r1 = s.r1 := rfl
@[simp] theorem setLine_ih (s : State) (l : Nat) (u : Line) : (s.setLine l u).ih = s.ih := rfl
@[simp] theorem setLine_fault (s : State) (l : Nat) (u : Line) :
    (s.setLine l u).fault = s.fault := rfl
@[simp] theorem setLine_ev (s : State) (l : Nat) (u : Line) : (s.setLine l u).ev = s.ev := rfl
@[simp] theorem setLine_prog (s : State) (l : Nat) (u : Line) : (s.setLine l u).prog = s.prog := rfl
@[simp] theorem setLine_mem (s : State) (l : Nat) (u : Line) : (s.setLine l u).mem = s.mem := rfl
@[simp] theorem setLine_turns (s : State) (l : Nat) (u : Line) :
    (s.setLine l u).turns = s.turns := rfl
@[simp] theorem setLine_stalled (s : State) (l : Nat) (u : Line) :
    (s.setLine l u).stalled = s.stalled := rfl
@[simp] theorem setLine_ring (s : State) (l : Nat) (u : Line) (k' : Nat) :
    (s.setLine l u).ring k' = s.ring k' := rfl
@[simp] theorem setLine_source (s : State) (l : Nat) (u : Line) (v' : Nat) :
    (s.setLine l u).source v' = s.source v' := rfl
@[simp] theorem setLine_globalEnable (s : State) (l : Nat) (u : Line) (c' : PrioClass) :
    (s.setLine l u).globalEnable c' = s.globalEnable c' := by cases c' <;> rfl
@[simp] theorem setLine_extReq (s : State) (l : Nat) (u : Line) (v' : Nat) :
    (s.setLine l u).extReq v' = s.extReq v' := rfl
@[simp] theorem setLine_powerOn (s : State) (l : Nat) (u : Line) (k' : Nat) :
    (s.setLine l u).powerOn k' = s.powerOn k' := rfl
@[simp] theorem setLine_contents (s : State) (l : Nat) (u : Line) (k' : Nat) :
    (s.setLine l u).contents k' = s.contents k' := rfl

/-! ### `setSource` -/

@[simp] theorem setSource_cfg (s : State) (v : Nat) (x : Source) :
    (s.setSource v x).cfg = s.cfg := rfl
@[simp] theorem setSource_life (s : State) (v : Nat) (x : Source) :
    (s.setSource v x).life = s.life := rfl
@[simp] theorem setSource_rb (s : State) (v : Nat) (x : Source) : (s.setSource v x).rb = s.rb := rfl
@[simp] theorem setSource_ul (s : State) (v : Nat) (x : Source) : (s.setSource v x).ul = s.ul := rfl
@[simp] theorem setSource_it (s : State) (v : Nat) (x : Source) :
    (s.setSource v x).it = { s.it with src := s.it.src.set v x } := rfl
@[simp] theorem setSource_extreq (s : State) (v : Nat) (x : Source) :
    (s.setSource v x).extreq = s.extreq := rfl
@[simp] theorem setSource_fg (s : State) (v : Nat) (x : Source) : (s.setSource v x).fg = s.fg := rfl
@[simp] theorem setSource_r0 (s : State) (v : Nat) (x : Source) : (s.setSource v x).r0 = s.r0 := rfl
@[simp] theorem setSource_r1 (s : State) (v : Nat) (x : Source) : (s.setSource v x).r1 = s.r1 := rfl
@[simp] theorem setSource_ih (s : State) (v : Nat) (x : Source) : (s.setSource v x).ih = s.ih := rfl
@[simp] theorem setSource_fault (s : State) (v : Nat) (x : Source) :
    (s.setSource v x).fault = s.fault := rfl
@[simp] theorem setSource_ev (s : State) (v : Nat) (x : Source) : (s.setSource v x).ev = s.ev := rfl
@[simp] theorem setSource_prog (s : State) (v : Nat) (x : Source) :
    (s.setSource v x).prog = s.prog := rfl
@[simp] theorem setSource_mem (s : State) (v : Nat) (x : Source) :
    (s.setSource v x).mem = s.mem := rfl
@[simp] theorem setSource_turns (s : State) (v : Nat) (x : Source) :
    (s.setSource v x).turns = s.turns := rfl
@[simp] theorem setSource_stalled (s : State) (v : Nat) (x : Source) :
    (s.setSource v x).stalled = s.stalled := rfl
@[simp] theorem setSource_ring (s : State) (v : Nat) (x : Source) (k' : Nat) :
    (s.setSource v x).ring k' = s.ring k' := rfl
@[simp] theorem setSource_line (s : State) (v : Nat) (x : Source) (l' : Nat) :
    (s.setSource v x).line l' = s.line l' := rfl
@[simp] theorem setSource_extReq (s : State) (v : Nat) (x : Source) (v' : Nat) :
    (s.setSource v x).extReq v' = s.extReq v' := rfl
@[simp] theorem setSource_powerOn (s : State) (v : Nat) (x : Source) (k' : Nat) :
    (s.setSource v x).powerOn k' = s.powerOn k' := rfl
@[simp] theorem setSource_contents (s : State) (v : Nat) (x : Source) (k' : Nat) :
    (s.setSource v x).contents k' = s.contents k' := rfl

/-! ### `setGlobal` -/

@[simp] theorem setGlobal_cfg (s : State) (n f : Bool) : (s.setGlobal n f).cfg = s.cfg := rfl
@[simp] theorem setGlobal_life (s : State) (n f : Bool) : (s.setGlobal n f).life = s.life := rfl
@[simp] theorem setGlobal_rb (s : State) (n f : Bool) : (s.setGlobal n f).rb = s.rb := rfl
@[simp] theorem setGlobal_ul (s : State) (n f : Bool) : (s.setGlobal n f).ul = s.ul := rfl
@[simp] theorem setGlobal_it (s : State) (n f : Bool) :
    (s.setGlobal n f).it = { s.it with gnorm := n, gfast := f } := rfl
@[simp] theorem setGlobal_extreq (s : State) (n f : Bool) :
    (s.setGlobal n f).extreq = s.extreq := rfl
@[simp] theorem setGlobal_fg (s : State) (n f : Bool) : (s.setGlobal n f).fg = s.fg := rfl
@[simp] theorem setGlobal_r0 (s : State) (n f : Bool) : (s.setGlobal n f).r0 = s.r0 := rfl
@[simp] theorem setGlobal_r1 (s : State) (n f : Bool) : (s.setGlobal n f).r1 = s.r1 := rfl
@[simp] theorem setGlobal_ih (s : State) (n f : Bool) : (s.setGlobal n f).ih = s.ih := rfl
@[simp] theorem setGlobal_fault (s : State) (n f : Bool) : (s.setGlobal n f).fault = s.fault := rfl
@[simp] theorem setGlobal_ev (s : State) (n f : Bool) : (s.setGlobal n f).ev = s.ev := rfl
@[simp] theorem setGlobal_prog (s : State) (n f : Bool) : (s.setGlobal n f).prog = s.prog := rfl
@[simp] theorem setGlobal_mem (s : State) (n f : Bool) : (s.setGlobal n f).mem = s.mem := rfl
@[simp] theorem setGlobal_turns (s : State) (n f : Bool) : (s.setGlobal n f).turns = s.turns := rfl
@[simp] theorem setGlobal_stalled (s : State) (n f : Bool) :
    (s.setGlobal n f).stalled = s.stalled := rfl
@[simp] theorem setGlobal_ring (s : State) (n f : Bool) (k' : Nat) :
    (s.setGlobal n f).ring k' = s.ring k' := rfl
@[simp] theorem setGlobal_line (s : State) (n f : Bool) (l' : Nat) :
    (s.setGlobal n f).line l' = s.line l' := rfl
@[simp] theorem setGlobal_extReq (s : State) (n f : Bool) (v' : Nat) :
    (s.setGlobal n f).extReq v' = s.extReq v' := rfl
@[simp] theorem setGlobal_powerOn (s : State) (n f : Bool) (k' : Nat) :
    (s.setGlobal n f).powerOn k' = s.powerOn k' := rfl
@[simp] theorem setGlobal_contents (s : State) (n f : Bool) (k' : Nat) :
    (s.setGlobal n f).contents k' = s.contents k' := rfl

/-! ### `setExtReq` -/

@[simp] theorem setExtReq_cfg (s : State) (v : Nat) (b : Bool) :
    (s.setExtReq v b).cfg = s.cfg := rfl
@[simp] theorem setExtReq_life (s : State) (v : Nat) (b : Bool) :
    (s.setExtReq v b).life = s.life := rfl
@[simp] theorem setExtReq_rb (s : State) (v : Nat) (b : Bool) : (s.setExtReq v b).rb = s.rb := rfl
@[simp] theorem setExtReq_ul (s : State) (v : Nat) (b : Bool) : (s.setExtReq v b).ul = s.ul := rfl
@[simp] theorem setExtReq_it (s : State) (v : Nat) (b : Bool) : (s.setExtReq v b).it = s.it := rfl
@[simp] theorem setExtReq_extreq (s : State) (v : Nat) (b : Bool) :
    (s.setExtReq v b).extreq = s.extreq.set v b := rfl
@[simp] theorem setExtReq_fg (s : State) (v : Nat) (b : Bool) : (s.setExtReq v b).fg = s.fg := rfl
@[simp] theorem setExtReq_r0 (s : State) (v : Nat) (b : Bool) : (s.setExtReq v b).r0 = s.r0 := rfl
@[simp] theorem setExtReq_r1 (s : State) (v : Nat) (b : Bool) : (s.setExtReq v b).r1 = s.r1 := rfl
@[simp] theorem setExtReq_ih (s : State) (v : Nat) (b : Bool) : (s.setExtReq v b).ih = s.ih := rfl
@[simp] theorem setExtReq_fault (s : State) (v : Nat) (b : Bool) :
    (s.setExtReq v b).fault = s.fault := rfl
@[simp] theorem setExtReq_ev (s : State) (v : Nat) (b : Bool) : (s.setExtReq v b).ev = s.ev := rfl
@[simp] theorem setExtReq_prog (s : State) (v : Nat) (b : Bool) :
    (s.setExtReq v b).prog = s.prog := rfl
@[simp] theorem setExtReq_mem (s : State) (v : Nat) (b : Bool) :
    (s.setExtReq v b).mem = s.mem := rfl
@[simp] theorem setExtReq_turns (s : State) (v : Nat) (b : Bool) :
    (s.setExtReq v b).turns = s.turns := rfl
@[simp] theorem setExtReq_stalled (s : State) (v : Nat) (b : Bool) :
    (s.setExtReq v b).stalled = s.stalled := rfl
@[simp] theorem setExtReq_ring (s : State) (v : Nat) (b : Bool) (k' : Nat) :
    (s.setExtReq v b).ring k' = s.ring k' := rfl
@[simp] theorem setExtReq_line (s : State) (v : Nat) (b : Bool) (l' : Nat) :
    (s.setExtReq v b).line l' = s.line l' := rfl
@[simp] theorem setExtReq_source (s : State) (v : Nat) (b : Bool) (v' : Nat) :
    (s.setExtReq v b).source v' = s.source v' := rfl
@[simp] theorem setExtReq_globalEnable (s : State) (v : Nat) (b : Bool) (c' : PrioClass) :
    (s.setExtReq v b).globalEnable c' = s.globalEnable c' := by cases c' <;> rfl
@[simp] theorem setExtReq_powerOn (s : State) (v : Nat) (b : Bool) (k' : Nat) :
    (s.setExtReq v b).powerOn k' = s.powerOn k' := rfl
@[simp] theorem setExtReq_contents (s : State) (v : Nat) (b : Bool) (k' : Nat) :
    (s.setExtReq v b).contents k' = s.contents k' := rfl

/-! ### `storeByte` -/

@[simp] theorem storeByte_cfg (s : State) (a : Nat) (b : Byte) :
    (s.storeByte a b).cfg = s.cfg := rfl
@[simp] theorem storeByte_life (s : State) (a : Nat) (b : Byte) :
    (s.storeByte a b).life = s.life := rfl
@[simp] theorem storeByte_rb (s : State) (a : Nat) (b : Byte) : (s.storeByte a b).rb = s.rb := rfl
@[simp] theorem storeByte_ul (s : State) (a : Nat) (b : Byte) : (s.storeByte a b).ul = s.ul := rfl
@[simp] theorem storeByte_it (s : State) (a : Nat) (b : Byte) : (s.storeByte a b).it = s.it := rfl
@[simp] theorem storeByte_extreq (s : State) (a : Nat) (b : Byte) :
    (s.storeByte a b).extreq = s.extreq := rfl
@[simp] theorem storeByte_fg (s : State) (a : Nat) (b : Byte) : (s.storeByte a b).fg = s.fg := rfl
@[simp] theorem storeByte_r0 (s : State) (a : Nat) (b : Byte) : (s.storeByte a b).r0 = s.r0 := rfl
@[simp] theorem storeByte_r1 (s : State) (a : Nat) (b : Byte) : (s.storeByte a b).r1 = s.r1 := rfl
@[simp] theorem storeByte_ih (s : State) (a : Nat) (b : Byte) : (s.storeByte a b).ih = s.ih := rfl
@[simp] theorem storeByte_fault (s : State) (a : Nat) (b : Byte) :
    (s.storeByte a b).fault = s.fault := rfl
@[simp] theorem storeByte_ev (s : State) (a : Nat) (b : Byte) : (s.storeByte a b).ev = s.ev := rfl
@[simp] theorem storeByte_prog (s : State) (a : Nat) (b : Byte) :
    (s.storeByte a b).prog = s.prog := rfl
@[simp] theorem storeByte_mem (s : State) (a : Nat) (b : Byte) :
    (s.storeByte a b).mem = s.mem.write a b := rfl
@[simp] theorem storeByte_turns (s : State) (a : Nat) (b : Byte) :
    (s.storeByte a b).turns = s.turns := rfl
@[simp] theorem storeByte_stalled (s : State) (a : Nat) (b : Byte) :
    (s.storeByte a b).stalled = s.stalled := rfl
@[simp] theorem storeByte_ring (s : State) (a : Nat) (b : Byte) (k' : Nat) :
    (s.storeByte a b).ring k' = s.ring k' := rfl
@[simp] theorem storeByte_line (s : State) (a : Nat) (b : Byte) (l' : Nat) :
    (s.storeByte a b).line l' = s.line l' := rfl
@[simp] theorem storeByte_source (s : State) (a : Nat) (b : Byte) (v' : Nat) :
    (s.storeByte a b).source v' = s.source v' := rfl
@[simp] theorem storeByte_globalEnable (s : State) (a : Nat) (b : Byte) (c' : PrioClass) :
    (s.storeByte a b).globalEnable c' = s.globalEnable c' := by cases c' <;> rfl
@[simp] theorem storeByte_extReq (s : State) (a : Nat) (b : Byte) (v' : Nat) :
    (s.storeByte a b).extReq v' = s.extReq v' := rfl
@[simp] theorem storeByte_powerOn (s : State) (a : Nat) (b : Byte) (k' : Nat) :
    (s.storeByte a b).powerOn k' = s.powerOn k' := rfl
@[simp] theorem storeByte_contents (s : State) (a : Nat) (b : Byte) (k' : Nat) :
    (s.storeByte a b).contents k' = s.contents k' := rfl

/-! ### `emit` -/

@[simp] theorem emit_cfg (s : State) (e : Event) : (s.emit e).cfg = s.cfg := rfl
@[simp] theorem emit_life (s : State) (e : Event) : (s.emit e).life = s.life := rfl
@[simp] theorem emit_rb (s : State) (e : Event) : (s.emit e).rb = s.rb := rfl
@[simp] theorem emit_ul (s : State) (e : Event) : (s.emit e).ul = s.ul := rfl
@[simp] theorem emit_it (s : State) (e : Event) : (s.emit e).it = s.it := rfl
@[simp] theorem emit_extreq (s : State) (e : Event) : (s.emit e).extreq = s.extreq := rfl
@[simp] theorem emit_fg (s : State) (e : Event) : (s.emit e).fg = s.fg := rfl
@[simp] theorem emit_r0 (s : State) (e : Event) : (s.emit e).r0 = s.r0 := rfl
@[simp] theorem emit_r1 (s : State) (e : Event) : (s.emit e).r1 = s.r1 := rfl
@[simp] theorem emit_ih (s : State) (e : Event) : (s.emit e).ih = s.ih := rfl
@[simp] theorem emit_fault (s : State) (e : Event) : (s.emit e).fault = s.fault := rfl
@[simp] theorem emit_ev (s : State) (e : Event) : (s.emit e).ev = s.ev ++ [e] := rfl
@[simp] theorem emit_prog (s : State) (e : Event) : (s.emit e).prog = s.prog := rfl
@[simp] theorem emit_mem (s : State) (e : Event) : (s.emit e).mem = s.mem := rfl
@[simp] theorem emit_turns (s : State) (e : Event) : (s.emit e).turns = s.turns := rfl
@[simp] theorem emit_stalled (s : State) (e : Event) : (s.emit e).stalled = s.stalled := rfl
@[simp] theorem emit_ring (s : State) (e : Event) (k' : Nat) : (s.emit e).ring k' = s.ring k' := rfl
@[simp] theorem emit_line (s : State) (e : Event) (l' : Nat) : (s.emit e).line l' = s.line l' := rfl
@[simp] theorem emit_source (s : State) (e : Event) (v' : Nat) :
    (s.emit e).source v' = s.source v' := rfl
@[simp] theorem emit_globalEnable (s : State) (e : Event) (c' : PrioClass) :
    (s.emit e).globalEnable c' = s.globalEnable c' := by cases c' <;> rfl
@[simp] theorem emit_extReq (s : State) (e : Event) (v' : Nat) :
    (s.emit e).extReq v' = s.extReq v' := rfl
@[simp] theorem emit_powerOn (s : State) (e : Event) (k' : Nat) :
    (s.emit e).powerOn k' = s.powerOn k' := rfl
@[simp] theorem emit_contents (s : State) (e : Event) (k' : Nat) :
    (s.emit e).contents k' = s.contents k' := rfl

/-! ### `setPhase` -/

@[simp] theorem setPhase_cfg (s : State) (p : FgPhase) : (s.setPhase p).cfg = s.cfg := rfl
@[simp] theorem setPhase_life (s : State) (p : FgPhase) : (s.setPhase p).life = s.life := rfl
@[simp] theorem setPhase_rb (s : State) (p : FgPhase) : (s.setPhase p).rb = s.rb := rfl
@[simp] theorem setPhase_ul (s : State) (p : FgPhase) : (s.setPhase p).ul = s.ul := rfl
@[simp] theorem setPhase_it (s : State) (p : FgPhase) : (s.setPhase p).it = s.it := rfl
@[simp] theorem setPhase_extreq (s : State) (p : FgPhase) : (s.setPhase p).extreq = s.extreq := rfl
@[simp] theorem setPhase_fg (s : State) (p : FgPhase) :
    (s.setPhase p).fg = { s.fg with phase := p } := rfl
@[simp] theorem setPhase_r0 (s : State) (p : FgPhase) : (s.setPhase p).r0 = s.r0 := rfl
@[simp] theorem setPhase_r1 (s : State) (p : FgPhase) : (s.setPhase p).r1 = s.r1 := rfl
@[simp] theorem setPhase_ih (s : State) (p : FgPhase) : (s.setPhase p).ih = s.ih := rfl
@[simp] theorem setPhase_fault (s : State) (p : FgPhase) : (s.setPhase p).fault = s.fault := rfl
@[simp] theorem setPhase_ev (s : State) (p : FgPhase) : (s.setPhase p).ev = s.ev := rfl
@[simp] theorem setPhase_prog (s : State) (p : FgPhase) : (s.setPhase p).prog = s.prog := rfl
@[simp] theorem setPhase_mem (s : State) (p : FgPhase) : (s.setPhase p).mem = s.mem := rfl
@[simp] theorem setPhase_turns (s : State) (p : FgPhase) : (s.setPhase p).turns = s.turns := rfl
@[simp] theorem setPhase_stalled (s : State) (p : FgPhase) :
    (s.setPhase p).stalled = s.stalled := rfl
@[simp] theorem setPhase_ring (s : State) (p : FgPhase) (k' : Nat) :
    (s.setPhase p).ring k' = s.ring k' := rfl
@[simp] theorem setPhase_line (s : State) (p : FgPhase) (l' : Nat) :
    (s.setPhase p).line l' = s.line l' := rfl
@[simp] theorem setPhase_source (s : State) (p : FgPhase) (v' : Nat) :
    (s.setPhase p).source v' = s.source v' := rfl
@[simp] theorem setPhase_globalEnable (s : State) (p : FgPhase) (c' : PrioClass) :
    (s.setPhase p).globalEnable c' = s.globalEnable c' := by cases c' <;> rfl
@[simp] theorem setPhase_extReq (s : State) (p : FgPhase) (v' : Nat) :
    (s.setPhase p).extReq v' = s.extReq v' := rfl
@[simp] theorem setPhase_powerOn (s : State) (p : FgPhase) (k' : Nat) :
    (s.setPhase p).powerOn k' = s.powerOn k' := rfl
@[simp] theorem setPhase_contents (s : State) (p : FgPhase) (k' : Nat) :
    (s.setPhase p).contents k' = s.contents k' := rfl

/-! ### `setIhPhase` -/

@[simp] theorem setIhPhase_cfg (s : State) (p : IhPhase) : (s.setIhPhase p).cfg = s.cfg := rfl
@[simp] theorem setIhPhase_life (s : State) (p : IhPhase) : (s.setIhPhase p).life = s.life := rfl
@[simp] theorem setIhPhase_rb (s : State) (p : IhPhase) : (s.setIhPhase p).rb = s.rb := rfl
@[simp] theorem setIhPhase_ul (s : State) (p : IhPhase) : (s.setIhPhase p).ul = s.ul := rfl
@[simp] theorem setIhPhase_it (s : State) (p : IhPhase) : (s.setIhPhase p).it = s.it := rfl
@[simp] theorem setIhPhase_extreq (s : State) (p : IhPhase) :
    (s.setIhPhase p).extreq = s.extreq := rfl
@[simp] theorem setIhPhase_fg (s : State) (p : IhPhase) : (s.setIhPhase p).fg = s.fg := rfl
@[simp] theorem setIhPhase_r0 (s : State) (p : IhPhase) : (s.setIhPhase p).r0 = s.r0 := rfl
@[simp] theorem setIhPhase_r1 (s : State) (p : IhPhase) : (s.setIhPhase p).r1 = s.r1 := rfl
@[simp] theorem setIhPhase_ih (s : State) (p : IhPhase) :
    (s.setIhPhase p).ih = { s.ih with phase := p } := rfl
@[simp] theorem setIhPhase_fault (s : State) (p : IhPhase) : (s.setIhPhase p).fault = s.fault := rfl
@[simp] theorem setIhPhase_ev (s : State) (p : IhPhase) : (s.setIhPhase p).ev = s.ev := rfl
@[simp] theorem setIhPhase_prog (s : State) (p : IhPhase) : (s.setIhPhase p).prog = s.prog := rfl
@[simp] theorem setIhPhase_mem (s : State) (p : IhPhase) : (s.setIhPhase p).mem = s.mem := rfl
@[simp] theorem setIhPhase_turns (s : State) (p : IhPhase) : (s.setIhPhase p).turns = s.turns := rfl
@[simp] theorem setIhPhase_stalled (s : State) (p : IhPhase) :
    (s.setIhPhase p).stalled = s.stalled := rfl
@[simp] theorem setIhPhase_ring (s : State) (p : IhPhase) (k' : Nat) :
    (s.setIhPhase p).ring k' = s.ring k' := rfl
@[simp] theorem setIhPhase_line (s : State) (p : IhPhase) (l' : Nat) :
    (s.setIhPhase p).line l' = s.line l' := rfl
@[simp] theorem setIhPhase_source (s : State) (p : IhPhase) (v' : Nat) :
    (s.setIhPhase p).source v' = s.source v' := rfl
@[simp] theorem setIhPhase_globalEnable (s : State) (p : IhPhase) (c' : PrioClass) :
    (s.setIhPhase p).globalEnable c' = s.globalEnable c' := by cases c' <;> rfl
@[simp] theorem setIhPhase_extReq (s : State) (p : IhPhase) (v' : Nat) :
    (s.setIhPhase p).extReq v' = s.extReq v' := rfl
@[simp] theorem setIhPhase_powerOn (s : State) (p : IhPhase) (k' : Nat) :
    (s.setIhPhase p).powerOn k' = s.powerOn k' := rfl
@[simp] theorem setIhPhase_contents (s : State) (p : IhPhase) (k' : Nat) :
    (s.setIhPhase p).contents k' = s.contents k' := rfl

/-! ### `startIsr` -/

@[simp] theorem startIsr_cfg (c : PrioClass) (v l : Nat) (s : State) :
    (startIsr c v l s).cfg = s.cfg := rfl
@[simp] theorem startIsr_life (c : PrioClass) (v l : Nat) (s : State) :
    (startIsr c v l s).life = s.life := rfl
@[simp] theorem startIsr_rb (c : PrioClass) (v l : Nat) (s : State) :
    (startIsr c v l s).rb = s.rb := rfl
@[simp] theorem startIsr_ul (c : PrioClass) (v l : Nat) (s : State) :
    (startIsr c v l s).ul = s.ul := rfl
@[simp] theorem startIsr_it (c : PrioClass) (v l : Nat) (s : State) :
    (startIsr c v l s).it = s.it := rfl
@[simp] theorem startIsr_extreq (c : PrioClass) (v l : Nat) (s : State) :
    (startIsr c v l s).extreq = s.extreq := rfl
@[simp] theorem startIsr_fg (c : PrioClass) (v l : Nat) (s : State) :
    (startIsr c v l s).fg = s.fg := rfl
@[simp] theorem startIsr_r0 (c : PrioClass) (v l : Nat) (s : State) :
    (startIsr c v l s).r0 = s.r0 := rfl
@[simp] theorem startIsr_r1 (c : PrioClass) (v l : Nat) (s : State) :
    (startIsr c v l s).r1 = s.r1 := rfl
@[simp] theorem startIsr_ih (c : PrioClass) (v l : Nat) (s : State) :
    (startIsr c v l s).ih = { phase := .rxTest, line := BitVec.ofNat 8 l, src := BitVec.ofNat 8 v, cls := c } := rfl
@[simp] theorem startIsr_fault (c : PrioClass) (v l : Nat) (s : State) :
    (startIsr c v l s).fault = s.fault := rfl
@[simp] theorem startIsr_ev (c : PrioClass) (v l : Nat) (s : State) :
    (startIsr c v l s).ev = s.ev := rfl
@[simp] theorem startIsr_prog (c : PrioClass) (v l : Nat) (s : State) :
    (startIsr c v l s).prog = s.prog := rfl
@[simp] theorem startIsr_mem (c : PrioClass) (v l : Nat) (s : State) :
    (startIsr c v l s).mem = s.mem := rfl
@[simp] theorem startIsr_turns (c : PrioClass) (v l : Nat) (s : State) :
    (startIsr c v l s).turns = s.turns := rfl
@[simp] theorem startIsr_stalled (c : PrioClass) (v l : Nat) (s : State) :
    (startIsr c v l s).stalled = s.stalled := rfl
@[simp] theorem startIsr_ring (c : PrioClass) (v l : Nat) (s : State) (k' : Nat) :
    (startIsr c v l s).ring k' = s.ring k' := rfl
@[simp] theorem startIsr_line (c : PrioClass) (v l : Nat) (s : State) (l' : Nat) :
    (startIsr c v l s).line l' = s.line l' := rfl
@[simp] theorem startIsr_source (c : PrioClass) (v l : Nat) (s : State) (v' : Nat) :
    (startIsr c v l s).source v' = s.source v' := rfl
@[simp] theorem startIsr_globalEnable (c : PrioClass) (v l : Nat) (s : State) (c' : PrioClass) :
    (startIsr c v l s).globalEnable c' = s.globalEnable c' := by cases c' <;> rfl
@[simp] theorem startIsr_extReq (c : PrioClass) (v l : Nat) (s : State) (v' : Nat) :
    (startIsr c v l s).extReq v' = s.extReq v' := rfl
@[simp] theorem startIsr_powerOn (c : PrioClass) (v l : Nat) (s : State) (k' : Nat) :
    (startIsr c v l s).powerOn k' = s.powerOn k' := rfl
@[simp] theorem startIsr_contents (c : PrioClass) (v l : Nat) (s : State) (k' : Nat) :
    (startIsr c v l s).contents k' = s.contents k' := rfl

/-! ### `done` -/

@[simp] theorem done_cfg (n : Nat) (st : Status) (val : Word) (s : State) :
    (done n st val s).cfg = s.cfg := rfl
@[simp] theorem done_life (n : Nat) (st : Status) (val : Word) (s : State) :
    (done n st val s).life = s.life := rfl
@[simp] theorem done_rb (n : Nat) (st : Status) (val : Word) (s : State) :
    (done n st val s).rb = s.rb := rfl
@[simp] theorem done_ul (n : Nat) (st : Status) (val : Word) (s : State) :
    (done n st val s).ul = s.ul := rfl
@[simp] theorem done_it (n : Nat) (st : Status) (val : Word) (s : State) :
    (done n st val s).it = s.it := rfl
@[simp] theorem done_extreq (n : Nat) (st : Status) (val : Word) (s : State) :
    (done n st val s).extreq = s.extreq := rfl
@[simp] theorem done_fg (n : Nat) (st : Status) (val : Word) (s : State) :
    (done n st val s).fg = { s.fg with pc := s.fg.pc + BitVec.ofNat 32 n, phase := .idle } := rfl
@[simp] theorem done_r0 (n : Nat) (st : Status) (val : Word) (s : State) :
    (done n st val s).r0 = st.code := rfl
@[simp] theorem done_r1 (n : Nat) (st : Status) (val : Word) (s : State) :
    (done n st val s).r1 = val := rfl
@[simp] theorem done_ih (n : Nat) (st : Status) (val : Word) (s : State) :
    (done n st val s).ih = s.ih := rfl
@[simp] theorem done_fault (n : Nat) (st : Status) (val : Word) (s : State) :
    (done n st val s).fault = s.fault := rfl
@[simp] theorem done_ev (n : Nat) (st : Status) (val : Word) (s : State) :
    (done n st val s).ev = s.ev ++ [.done s.fg.pc st.code val] := rfl
@[simp] theorem done_prog (n : Nat) (st : Status) (val : Word) (s : State) :
    (done n st val s).prog = s.prog := rfl
@[simp] theorem done_mem (n : Nat) (st : Status) (val : Word) (s : State) :
    (done n st val s).mem = s.mem := rfl
@[simp] theorem done_turns (n : Nat) (st : Status) (val : Word) (s : State) :
    (done n st val s).turns = s.turns := rfl
@[simp] theorem done_stalled (n : Nat) (st : Status) (val : Word) (s : State) :
    (done n st val s).stalled = s.stalled := rfl
@[simp] theorem done_ring (n : Nat) (st : Status) (val : Word) (s : State) (k' : Nat) :
    (done n st val s).ring k' = s.ring k' := rfl
@[simp] theorem done_line (n : Nat) (st : Status) (val : Word) (s : State) (l' : Nat) :
    (done n st val s).line l' = s.line l' := rfl
@[simp] theorem done_source (n : Nat) (st : Status) (val : Word) (s : State) (v' : Nat) :
    (done n st val s).source v' = s.source v' := rfl
@[simp] theorem done_globalEnable (n : Nat) (st : Status) (val : Word) (s : State) (c' : PrioClass) :
    (done n st val s).globalEnable c' = s.globalEnable c' := by cases c' <;> rfl
@[simp] theorem done_extReq (n : Nat) (st : Status) (val : Word) (s : State) (v' : Nat) :
    (done n st val s).extReq v' = s.extReq v' := rfl
@[simp] theorem done_powerOn (n : Nat) (st : Status) (val : Word) (s : State) (k' : Nat) :
    (done n st val s).powerOn k' = s.powerOn k' := rfl
@[simp] theorem done_contents (n : Nat) (st : Status) (val : Word) (s : State) (k' : Nat) :
    (done n st val s).contents k' = s.contents k' := rfl

/-! ### `latchByte` -/

@[simp] theorem latchByte_cfg (b : Byte) (s : State) : (latchByte b s).cfg = s.cfg := rfl
@[simp] theorem latchByte_life (b : Byte) (s : State) : (latchByte b s).life = s.life := rfl
@[simp] theorem latchByte_rb (b : Byte) (s : State) : (latchByte b s).rb = s.rb := rfl
@[simp] theorem latchByte_ul (b : Byte) (s : State) : (latchByte b s).ul = s.ul := rfl
@[simp] theorem latchByte_it (b : Byte) (s : State) : (latchByte b s).it = s.it := rfl
@[simp] theorem latchByte_extreq (b : Byte) (s : State) : (latchByte b s).extreq = s.extreq := rfl
@[simp] theorem latchByte_fg (b : Byte) (s : State) :
    (latchByte b s).fg = { s.fg with lb := b, phase := .rbRestore } := rfl
@[simp] theorem latchByte_r0 (b : Byte) (s : State) : (latchByte b s).r0 = s.r0 := rfl
@[simp] theorem latchByte_r1 (b : Byte) (s : State) : (latchByte b s).r1 = s.r1 := rfl
@[simp] theorem latchByte_ih (b : Byte) (s : State) : (latchByte b s).ih = s.ih := rfl
@[simp] theorem latchByte_fault (b : Byte) (s : State) : (latchByte b s).fault = s.fault := rfl
@[simp] theorem latchByte_ev (b : Byte) (s : State) : (latchByte b s).ev = s.ev := rfl
@[simp] theorem latchByte_prog (b : Byte) (s : State) : (latchByte b s).prog = s.prog := rfl
@[simp] theorem latchByte_mem (b : Byte) (s : State) : (latchByte b s).mem = s.mem := rfl
@[simp] theorem latchByte_turns (b : Byte) (s : State) : (latchByte b s).turns = s.turns := rfl
@[simp] theorem latchByte_stalled (b : Byte) (s : State) :
    (latchByte b s).stalled = s.stalled := rfl
@[simp] theorem latchByte_ring (b : Byte) (s : State) (k' : Nat) :
    (latchByte b s).ring k' = s.ring k' := rfl
@[simp] theorem latchByte_line (b : Byte) (s : State) (l' : Nat) :
    (latchByte b s).line l' = s.line l' := rfl
@[simp] theorem latchByte_source (b : Byte) (s : State) (v' : Nat) :
    (latchByte b s).source v' = s.source v' := rfl
@[simp] theorem latchByte_globalEnable (b : Byte) (s : State) (c' : PrioClass) :
    (latchByte b s).globalEnable c' = s.globalEnable c' := by cases c' <;> rfl
@[simp] theorem latchByte_extReq (b : Byte) (s : State) (v' : Nat) :
    (latchByte b s).extReq v' = s.extReq v' := rfl
@[simp] theorem latchByte_powerOn (b : Byte) (s : State) (k' : Nat) :
    (latchByte b s).powerOn k' = s.powerOn k' := rfl
@[simp] theorem latchByte_contents (b : Byte) (s : State) (k' : Nat) :
    (latchByte b s).contents k' = s.contents k' := rfl

/-! ### `setMask` -/

@[simp] theorem setMask_cfg (l : Nat) (d : Dir) (b : Bool) (s : State) :
    (setMask l d b s).cfg = s.cfg := rfl
@[simp] theorem setMask_life (l : Nat) (d : Dir) (b : Bool) (s : State) :
    (setMask l d b s).life = s.life := rfl
@[simp] theorem setMask_rb (l : Nat) (d : Dir) (b : Bool) (s : State) :
    (setMask l d b s).rb = s.rb := rfl
@[simp] theorem setMask_ul (l : Nat) (d : Dir) (b : Bool) (s : State) :
    (setMask l d b s).ul = s.ul.set l ((s.line l).setMask d b) := rfl
@[simp] theorem setMask_it (l : Nat) (d : Dir) (b : Bool) (s : State) :
    (setMask l d b s).it = s.it := rfl
@[simp] theorem setMask_extreq (l : Nat) (d : Dir) (b : Bool) (s : State) :
    (setMask l d b s).extreq = s.extreq := rfl
@[simp] theorem setMask_fg (l : Nat) (d : Dir) (b : Bool) (s : State) :
    (setMask l d b s).fg = s.fg := rfl
@[simp] theorem setMask_r0 (l : Nat) (d : Dir) (b : Bool) (s : State) :
    (setMask l d b s).r0 = s.r0 := rfl
@[simp] theorem setMask_r1 (l : Nat) (d : Dir) (b : Bool) (s : State) :
    (setMask l d b s).r1 = s.r1 := rfl
@[simp] theorem setMask_ih (l : Nat) (d : Dir) (b : Bool) (s : State) :
    (setMask l d b s).ih = s.ih := rfl
@[simp] theorem setMask_fault (l : Nat) (d : Dir) (b : Bool) (s : State) :
    (setMask l d b s).fault = s.fault := rfl
@[simp] theorem setMask_ev (l : Nat) (d : Dir) (b : Bool) (s : State) :
    (setMask l d b s).ev = s.ev := rfl
@[simp] theorem setMask_prog (l : Nat) (d : Dir) (b : Bool) (s : State) :
    (setMask l d b s).prog = s.prog := rfl
@[simp] theorem setMask_mem (l : Nat) (d : Dir) (b : Bool) (s : State) :
    (setMask l d b s).mem = s.mem := rfl
@[simp] theorem setMask_turns (l : Nat) (d : Dir) (b : Bool) (s : State) :
    (setMask l d b s).turns = s.turns := rfl
@[simp] theorem setMask_stalled (l : Nat) (d : Dir) (b : Bool) (s : State) :
    (setMask l d b s).stalled = s.stalled := rfl
@[simp] theorem setMask_ring (l : Nat) (d : Dir) (b : Bool) (s : State) (k' : Nat) :
    (setMask l d b s).ring k' = s.ring k' := rfl
@[simp] theorem setMask_source (l : Nat) (d : Dir) (b : Bool) (s : State) (v' : Nat) :
    (setMask l d b s).source v' = s.source v' := rfl
@[simp] theorem setMask_globalEnable (l : Nat) (d : Dir) (b : Bool) (s : State) (c' : PrioClass) :
    (setMask l d b s).globalEnable c' = s.globalEnable c' := by cases c' <;> rfl
@[simp] theorem setMask_extReq (l : Nat) (d : Dir) (b : Bool) (s : State) (v' : Nat) :
    (setMask l d b s).extReq v' = s.extReq v' := rfl
@[simp] theorem setMask_powerOn (l : Nat) (d : Dir) (b : Bool) (s : State) (k' : Nat) :
    (setMask l d b s).powerOn k' = s.powerOn k' := rfl
@[simp] theorem setMask_contents (l : Nat) (d : Dir) (b : Bool) (s : State) (k' : Nat) :
    (setMask l d b s).contents k' = s.contents k' := rfl

/-! ### `rbInit` -/

@[simp] theorem rbInit_cfg (k : Nat) (c : Half) (s : State) : (rbInit k c s).cfg = s.cfg := rfl
@[simp] theorem rbInit_life (k : Nat) (c : Half) (s : State) : (rbInit k c s).life = s.life := rfl
@[simp] theorem rbInit_rb (k : Nat) (c : Half) (s : State) :
    (rbInit k c s).rb = s.rb.set k (ringInit c (s.ring k)) := rfl
@[simp] theorem rbInit_ul (k : Nat) (c : Half) (s : State) : (rbInit k c s).ul = s.ul := rfl
@[simp] theorem rbInit_it (k : Nat) (c : Half) (s : State) : (rbInit k c s).it = s.it := rfl
@[simp] theorem rbInit_extreq (k : Nat) (c : Half) (s : State) :
    (rbInit k c s).extreq = s.extreq := rfl
@[simp] theorem rbInit_fg (k : Nat) (c : Half) (s : State) : (rbInit k c s).fg = s.fg := rfl
@[simp] theorem rbInit_r0 (k : Nat) (c : Half) (s : State) : (rbInit k c s).r0 = s.r0 := rfl
@[simp] theorem rbInit_r1 (k : Nat) (c : Half) (s : State) : (rbInit k c s).r1 = s.r1 := rfl
@[simp] theorem rbInit_ih (k : Nat) (c : Half) (s : State) : (rbInit k c s).ih = s.ih := rfl
@[simp] theorem rbInit_fault (k : Nat) (c : Half) (s : State) :
    (rbInit k c s).fault = s.fault := rfl
@[simp] theorem rbInit_ev (k : Nat) (c : Half) (s : State) : (rbInit k c s).ev = s.ev := rfl
@[simp] theorem rbInit_prog (k : Nat) (c : Half) (s : State) : (rbInit k c s).prog = s.prog := rfl
@[simp] theorem rbInit_mem (k : Nat) (c : Half) (s : State) : (rbInit k c s).mem = s.mem := rfl
@[simp] theorem rbInit_turns (k : Nat) (c : Half) (s : State) :
    (rbInit k c s).turns = s.turns := rfl
@[simp] theorem rbInit_stalled (k : Nat) (c : Half) (s : State) :
    (rbInit k c s).stalled = s.stalled := rfl
@[simp] theorem rbInit_line (k : Nat) (c : Half) (s : State) (l' : Nat) :
    (rbInit k c s).line l' = s.line l' := rfl
@[simp] theorem rbInit_source (k : Nat) (c : Half) (s : State) (v' : Nat) :
    (rbInit k c s).source v' = s.source v' := rfl
@[simp] theorem rbInit_globalEnable (k : Nat) (c : Half) (s : State) (c' : PrioClass) :
    (rbInit k c s).globalEnable c' = s.globalEnable c' := by cases c' <;> rfl
@[simp] theorem rbInit_extReq (k : Nat) (c : Half) (s : State) (v' : Nat) :
    (rbInit k c s).extReq v' = s.extReq v' := rfl
@[simp] theorem rbInit_powerOn (k : Nat) (c : Half) (s : State) (k' : Nat) :
    (rbInit k c s).powerOn k' = s.powerOn k' := rfl

/-! ### `rbWrite` -/

@[simp] theorem rbWrite_cfg (k : Nat) (b : Byte) (s : State) :
    ((rbWrite k b s).2).cfg = s.cfg := rfl
@[simp] theorem rbWrite_life (k : Nat) (b : Byte) (s : State) :
    ((rbWrite k b s).2).life = s.life := rfl
@[simp] theorem rbWrite_rb (k : Nat) (b : Byte) (s : State) :
    ((rbWrite k b s).2).rb = s.rb.set k (ringWrite b (s.ring k)).2 := rfl
@[simp] theorem rbWrite_ul (k : Nat) (b : Byte) (s : State) : ((rbWrite k b s).2).ul = s.ul := rfl
@[simp] theorem rbWrite_it (k : Nat) (b : Byte) (s : State) : ((rbWrite k b s).2).it = s.it := rfl
@[simp] theorem rbWrite_extreq (k : Nat) (b : Byte) (s : State) :
    ((rbWrite k b s).2).extreq = s.extreq := rfl
@[simp] theorem rbWrite_fg (k : Nat) (b : Byte) (s : State) : ((rbWrite k b s).2).fg = s.fg := rfl
@[simp] theorem rbWrite_r0 (k : Nat) (b : Byte) (s : State) : ((rbWrite k b s).2).r0 = s.r0 := rfl
@[simp] theorem rbWrite_r1 (k : Nat) (b : Byte) (s : State) : ((rbWrite k b s).2).r1 = s.r1 := rfl
@[simp] theorem rbWrite_ih (k : Nat) (b : Byte) (s : State) : ((rbWrite k b s).2).ih = s.ih := rfl
@[simp] theorem rbWrite_fault (k : Nat) (b : Byte) (s : State) :
    ((rbWrite k b s).2).fault = s.fault := rfl
@[simp] theorem rbWrite_ev (k : Nat) (b : Byte) (s : State) : ((rbWrite k b s).2).ev = s.ev := rfl
@[simp] theorem rbWrite_prog (k : Nat) (b : Byte) (s : State) :
    ((rbWrite k b s).2).prog = s.prog := rfl
@[simp] theorem rbWrite_mem (k : Nat) (b : Byte) (s : State) :
    ((rbWrite k b s).2).mem = s.mem := rfl
@[simp] theorem rbWrite_turns (k : Nat) (b : Byte) (s : State) :
    ((rbWrite k b s).2).turns = s.turns := rfl
@[simp] theorem rbWrite_stalled (k : Nat) (b : Byte) (s : State) :
    ((rbWrite k b s).2).stalled = s.stalled := rfl
@[simp] theorem rbWrite_line (k : Nat) (b : Byte) (s : State) (l' : Nat) :
    ((rbWrite k b s).2).line l' = s.line l' := rfl
@[simp] theorem rbWrite_source (k : Nat) (b : Byte) (s : State) (v' : Nat) :
    ((rbWrite k b s).2).source v' = s.source v' := rfl
@[simp] theorem rbWrite_globalEnable (k : Nat) (b : Byte) (s : State) (c' : PrioClass) :
    ((rbWrite k b s).2).globalEnable c' = s.globalEnable c' := by cases c' <;> rfl
@[simp] theorem rbWrite_extReq (k : Nat) (b : Byte) (s : State) (v' : Nat) :
    ((rbWrite k b s).2).extReq v' = s.extReq v' := rfl
@[simp] theorem rbWrite_powerOn (k : Nat) (b : Byte) (s : State) (k' : Nat) :
    ((rbWrite k b s).2).powerOn k' = s.powerOn k' := rfl

/-! ### `rbRead` -/

@[simp] theorem rbRead_cfg (k : Nat) (s : State) : ((rbRead k s).2).cfg = s.cfg := rfl
@[simp] theorem rbRead_life (k : Nat) (s : State) : ((rbRead k s).2).life = s.life := rfl
@[simp] theorem rbRead_rb (k : Nat) (s : State) :
    ((rbRead k s).2).rb = s.rb.set k (ringRead (s.powerOn k) (s.ring k)).2 := rfl
@[simp] theorem rbRead_ul (k : Nat) (s : State) : ((rbRead k s).2).ul = s.ul := rfl
@[simp] theorem rbRead_it (k : Nat) (s : State) : ((rbRead k s).2).it = s.it := rfl
@[simp] theorem rbRead_extreq (k : Nat) (s : State) : ((rbRead k s).2).extreq = s.extreq := rfl
@[simp] theorem rbRead_fg (k : Nat) (s : State) : ((rbRead k s).2).fg = s.fg := rfl
@[simp] theorem rbRead_r0 (k : Nat) (s : State) : ((rbRead k s).2).r0 = s.r0 := rfl
@[simp] theorem rbRead_r1 (k : Nat) (s : State) : ((rbRead k s).2).r1 = s.r1 := rfl
@[simp] theorem rbRead_ih (k : Nat) (s : State) : ((rbRead k s).2).ih = s.ih := rfl
@[simp] theorem rbRead_fault (k : Nat) (s : State) : ((rbRead k s).2).fault = s.fault := rfl
@[simp] theorem rbRead_ev (k : Nat) (s : State) : ((rbRead k s).2).ev = s.ev := rfl
@[simp] theorem rbRead_prog (k : Nat) (s : State) : ((rbRead k s).2).prog = s.prog := rfl
@[simp] theorem rbRead_mem (k : Nat) (s : State) : ((rbRead k s).2).mem = s.mem := rfl
@[simp] theorem rbRead_turns (k : Nat) (s : State) : ((rbRead k s).2).turns = s.turns := rfl
@[simp] theorem rbRead_stalled (k : Nat) (s : State) : ((rbRead k s).2).stalled = s.stalled := rfl
@[simp] theorem rbRead_line (k : Nat) (s : State) (l' : Nat) :
    ((rbRead k s).2).line l' = s.line l' := rfl
@[simp] theorem rbRead_source (k : Nat) (s : State) (v' : Nat) :
    ((rbRead k s).2).source v' = s.source v' := rfl
@[simp] theorem rbRead_globalEnable (k : Nat) (s : State) (c' : PrioClass) :
    ((rbRead k s).2).globalEnable c' = s.globalEnable c' := by cases c' <;> rfl
@[simp] theorem rbRead_extReq (k : Nat) (s : State) (v' : Nat) :
    ((rbRead k s).2).extReq v' = s.extReq v' := rfl
@[simp] theorem rbRead_powerOn (k : Nat) (s : State) (k' : Nat) :
    ((rbRead k s).2).powerOn k' = s.powerOn k' := rfl

/-! ### `pushHwtx` -/

@[simp] theorem pushHwtx_cfg (l : Nat) (b : Byte) (s : State) : (pushHwtx l b s).cfg = s.cfg := rfl
@[simp] theorem pushHwtx_life (l : Nat) (b : Byte) (s : State) :
    (pushHwtx l b s).life = s.life := rfl
@[simp] theorem pushHwtx_rb (l : Nat) (b : Byte) (s : State) : (pushHwtx l b s).rb = s.rb := rfl
@[simp] theorem pushHwtx_ul (l : Nat) (b : Byte) (s : State) :
    (pushHwtx l b s).ul = s.ul.set l { s.line l with hwtx := (s.line l).hwtx ++ [b] } := rfl
@[simp] theorem pushHwtx_it (l : Nat) (b : Byte) (s : State) : (pushHwtx l b s).it = s.it := rfl
@[simp] theorem pushHwtx_extreq (l : Nat) (b : Byte) (s : State) :
    (pushHwtx l b s).extreq = s.extreq := rfl
@[simp] theorem pushHwtx_fg (l : Nat) (b : Byte) (s : State) : (pushHwtx l b s).fg = s.fg := rfl
@[simp] theorem pushHwtx_r0 (l : Nat) (b : Byte) (s : State) : (pushHwtx l b s).r0 = s.r0 := rfl
@[simp] theorem pushHwtx_r1 (l : Nat) (b : Byte) (s : State) : (pushHwtx l b s).r1 = s.r1 := rfl
@[simp] theorem pushHwtx_ih (l : Nat) (b : Byte) (s : State) : (pushHwtx l b s).ih = s.ih := rfl
@[simp] theorem pushHwtx_fault (l : Nat) (b : Byte) (s : State) :
    (pushHwtx l b s).fault = s.fault := rfl
@[simp] theorem pushHwtx_ev (l : Nat) (b : Byte) (s : State) : (pushHwtx l b s).ev = s.ev := rfl
@[simp] theorem pushHwtx_prog (l : Nat) (b : Byte) (s : State) :
    (pushHwtx l b s).prog = s.prog := rfl
@[simp] theorem pushHwtx_mem (l : Nat) (b : Byte) (s : State) : (pushHwtx l b s).mem = s.mem := rfl
@[simp] theorem pushHwtx_turns (l : Nat) (b : Byte) (s : State) :
    (pushHwtx l b s).turns = s.turns := rfl
@[simp] theorem pushHwtx_stalled (l : Nat) (b : Byte) (s : State) :
    (pushHwtx l b s).stalled = s.stalled := rfl
@[simp] theorem pushHwtx_ring (l : Nat) (b : Byte) (s : State) (k' : Nat) :
    (pushHwtx l b s).ring k' = s.ring k' := rfl
@[simp] theorem pushHwtx_source (l : Nat) (b : Byte) (s : State) (v' : Nat) :
    (pushHwtx l b s).source v' = s.source v' := rfl
@[simp] theorem pushHwtx_globalEnable (l : Nat) (b : Byte) (s : State) (c' : PrioClass) :
    (pushHwtx l b s).globalEnable c' = s.globalEnable c' := by cases c' <;> rfl
@[simp] theorem pushHwtx_extReq (l : Nat) (b : Byte) (s : State) (v' : Nat) :
    (pushHwtx l b s).extReq v' = s.extReq v' := rfl
@[simp] theorem pushHwtx_powerOn (l : Nat) (b : Byte) (s : State) (k' : Nat) :
    (pushHwtx l b s).powerOn k' = s.powerOn k' := rfl
@[simp] theorem pushHwtx_contents (l : Nat) (b : Byte) (s : State) (k' : Nat) :
    (pushHwtx l b s).contents k' = s.contents k' := rfl

/-! ### `pushHwrx` -/

@[simp] theorem pushHwrx_cfg (l : Nat) (b : Byte) (s : State) : (pushHwrx l b s).cfg = s.cfg := rfl
@[simp] theorem pushHwrx_life (l : Nat) (b : Byte) (s : State) :
    (pushHwrx l b s).life = s.life := rfl
@[simp] theorem pushHwrx_rb (l : Nat) (b : Byte) (s : State) : (pushHwrx l b s).rb = s.rb := rfl
@[simp] theorem pushHwrx_ul (l : Nat) (b : Byte) (s : State) :
    (pushHwrx l b s).ul = s.ul.set l { s.line l with hwrx := (s.line l).hwrx ++ [b] } := rfl
@[simp] theorem pushHwrx_it (l : Nat) (b : Byte) (s : State) : (pushHwrx l b s).it = s.it := rfl
@[simp] theorem pushHwrx_extreq (l : Nat) (b : Byte) (s : State) :
    (pushHwrx l b s).extreq = s.extreq := rfl
@[simp] theorem pushHwrx_fg (l : Nat) (b : Byte) (s : State) : (pushHwrx l b s).fg = s.fg := rfl
@[simp] theorem pushHwrx_r0 (l : Nat) (b : Byte) (s : State) : (pushHwrx l b s).r0 = s.r0 := rfl
@[simp] theorem pushHwrx_r1 (l : Nat) (b : Byte) (s : State) : (pushHwrx l b s).r1 = s.r1 := rfl
@[simp] theorem pushHwrx_ih (l : Nat) (b : Byte) (s : State) : (pushHwrx l b s).ih = s.ih := rfl
@[simp] theorem pushHwrx_fault (l : Nat) (b : Byte) (s : State) :
    (pushHwrx l b s).fault = s.fault := rfl
@[simp] theorem pushHwrx_ev (l : Nat) (b : Byte) (s : State) : (pushHwrx l b s).ev = s.ev := rfl
@[simp] theorem pushHwrx_prog (l : Nat) (b : Byte) (s : State) :
    (pushHwrx l b s).prog = s.prog := rfl
@[simp] theorem pushHwrx_mem (l : Nat) (b : Byte) (s : State) : (pushHwrx l b s).mem = s.mem := rfl
@[simp] theorem pushHwrx_turns (l : Nat) (b : Byte) (s : State) :
    (pushHwrx l b s).turns = s.turns := rfl
@[simp] theorem pushHwrx_stalled (l : Nat) (b : Byte) (s : State) :
    (pushHwrx l b s).stalled = s.stalled := rfl
@[simp] theorem pushHwrx_ring (l : Nat) (b : Byte) (s : State) (k' : Nat) :
    (pushHwrx l b s).ring k' = s.ring k' := rfl
@[simp] theorem pushHwrx_source (l : Nat) (b : Byte) (s : State) (v' : Nat) :
    (pushHwrx l b s).source v' = s.source v' := rfl
@[simp] theorem pushHwrx_globalEnable (l : Nat) (b : Byte) (s : State) (c' : PrioClass) :
    (pushHwrx l b s).globalEnable c' = s.globalEnable c' := by cases c' <;> rfl
@[simp] theorem pushHwrx_extReq (l : Nat) (b : Byte) (s : State) (v' : Nat) :
    (pushHwrx l b s).extReq v' = s.extReq v' := rfl
@[simp] theorem pushHwrx_powerOn (l : Nat) (b : Byte) (s : State) (k' : Nat) :
    (pushHwrx l b s).powerOn k' = s.powerOn k' := rfl
@[simp] theorem pushHwrx_contents (l : Nat) (b : Byte) (s : State) (k' : Nat) :
    (pushHwrx l b s).contents k' = s.contents k' := rfl

/-! ### `dropHwrx` -/

@[simp] theorem dropHwrx_cfg (l : Nat) (s : State) : (dropHwrx l s).cfg = s.cfg := rfl
@[simp] theorem dropHwrx_life (l : Nat) (s : State) : (dropHwrx l s).life = s.life := rfl
@[simp] theorem dropHwrx_rb (l : Nat) (s : State) : (dropHwrx l s).rb = s.rb := rfl
@[simp] theorem dropHwrx_ul (l : Nat) (s : State) :
    (dropHwrx l s).ul = s.ul.set l { s.line l with hwrx := (s.line l).hwrx.tail } := rfl
@[simp] theorem dropHwrx_it (l : Nat) (s : State) : (dropHwrx l s).it = s.it := rfl
@[simp] theorem dropHwrx_extreq (l : Nat) (s : State) : (dropHwrx l s).extreq = s.extreq := rfl
@[simp] theorem dropHwrx_fg (l : Nat) (s : State) : (dropHwrx l s).fg = s.fg := rfl
@[simp] theorem dropHwrx_r0 (l : Nat) (s : State) : (dropHwrx l s).r0 = s.r0 := rfl
@[simp] theorem dropHwrx_r1 (l : Nat) (s : State) : (dropHwrx l s).r1 = s.r1 := rfl
@[simp] theorem dropHwrx_ih (l : Nat) (s : State) : (dropHwrx l s).ih = s.ih := rfl
@[simp] theorem dropHwrx_fault (l : Nat) (s : State) : (dropHwrx l s).fault = s.fault := rfl
@[simp] theorem dropHwrx_ev (l : Nat) (s : State) : (dropHwrx l s).ev = s.ev := rfl
@[simp] theorem dropHwrx_prog (l : Nat) (s : State) : (dropHwrx l s).prog = s.prog := rfl
@[simp] theorem dropHwrx_mem (l : Nat) (s : State) : (dropHwrx l s).mem = s.mem := rfl
@[simp] theorem dropHwrx_turns (l : Nat) (s : State) : (dropHwrx l s).turns = s.turns := rfl
@[simp] theorem dropHwrx_stalled (l : Nat) (s : State) : (dropHwrx l s).stalled = s.stalled := rfl
@[simp] theorem dropHwrx_ring (l : Nat) (s : State) (k' : Nat) :
    (dropHwrx l s).ring k' = s.ring k' := rfl
@[simp] theorem dropHwrx_source (l : Nat) (s : State) (v' : Nat) :
    (dropHwrx l s).source v' = s.source v' := rfl
@[simp] theorem dropHwrx_globalEnable (l : Nat) (s : State) (c' : PrioClass) :
    (dropHwrx l s).globalEnable c' = s.globalEnable c' := by cases c' <;> rfl
@[simp] theorem dropHwrx_extReq (l : Nat) (s : State) (v' : Nat) :
    (dropHwrx l s).extReq v' = s.extReq v' := rfl
@[simp] theorem dropHwrx_powerOn (l : Nat) (s : State) (k' : Nat) :
    (dropHwrx l s).powerOn k' = s.powerOn k' := rfl
@[simp] theorem dropHwrx_contents (l : Nat) (s : State) (k' : Nat) :
    (dropHwrx l s).contents k' = s.contents k' := rfl

/-! ### `dropHwtx` -/

@[simp] theorem dropHwtx_cfg (l : Nat) (s : State) : (dropHwtx l s).cfg = s.cfg := rfl
@[simp] theorem dropHwtx_life (l : Nat) (s : State) : (dropHwtx l s).life = s.life := rfl
@[simp] theorem dropHwtx_rb (l : Nat) (s : State) : (dropHwtx l s).rb = s.rb := rfl
@[simp] theorem dropHwtx_ul (l : Nat) (s : State) :
    (dropHwtx l s).ul = s.ul.set l { s.line l with hwtx := (s.line l).hwtx.tail } := rfl
@[simp] theorem dropHwtx_it (l : Nat) (s : State) : (dropHwtx l s).it = s.it := rfl
@[simp] theorem dropHwtx_extreq (l : Nat) (s : State) : (dropHwtx l s).extreq = s.extreq := rfl
@[simp] theorem dropHwtx_fg (l : Nat) (s : State) : (dropHwtx l s).fg = s.fg := rfl
@[simp] theorem dropHwtx_r0 (l : Nat) (s : State) : (dropHwtx l s).r0 = s.r0 := rfl
@[simp] theorem dropHwtx_r1 (l : Nat) (s : State) : (dropHwtx l s).r1 = s.r1 := rfl
@[simp] theorem dropHwtx_ih (l : Nat) (s : State) : (dropHwtx l s).ih = s.ih := rfl
@[simp] theorem dropHwtx_fault (l : Nat) (s : State) : (dropHwtx l s).fault = s.fault := rfl
@[simp] theorem dropHwtx_ev (l : Nat) (s : State) : (dropHwtx l s).ev = s.ev := rfl
@[simp] theorem dropHwtx_prog (l : Nat) (s : State) : (dropHwtx l s).prog = s.prog := rfl
@[simp] theorem dropHwtx_mem (l : Nat) (s : State) : (dropHwtx l s).mem = s.mem := rfl
@[simp] theorem dropHwtx_turns (l : Nat) (s : State) : (dropHwtx l s).turns = s.turns := rfl
@[simp] theorem dropHwtx_stalled (l : Nat) (s : State) : (dropHwtx l s).stalled = s.stalled := rfl
@[simp] theorem dropHwtx_ring (l : Nat) (s : State) (k' : Nat) :
    (dropHwtx l s).ring k' = s.ring k' := rfl
@[simp] theorem dropHwtx_source (l : Nat) (s : State) (v' : Nat) :
    (dropHwtx l s).source v' = s.source v' := rfl
@[simp] theorem dropHwtx_globalEnable (l : Nat) (s : State) (c' : PrioClass) :
    (dropHwtx l s).globalEnable c' = s.globalEnable c' := by cases c' <;> rfl
@[simp] theorem dropHwtx_extReq (l : Nat) (s : State) (v' : Nat) :
    (dropHwtx l s).extReq v' = s.extReq v' := rfl
@[simp] theorem dropHwtx_powerOn (l : Nat) (s : State) (k' : Nat) :
    (dropHwtx l s).powerOn k' = s.powerOn k' := rfl
@[simp] theorem dropHwtx_contents (l : Nat) (s : State) (k' : Nat) :
    (dropHwtx l s).contents k' = s.contents k' := rfl

/-! ### `raise` -/

@[simp] theorem raise_cfg (f : BlockFault) (s : State) : (raise f s).cfg = s.cfg := by
  unfold raise; split <;> rfl
@[simp] theorem raise_life (f : BlockFault) (s : State) : (raise f s).life = s.life := by
  unfold raise; split <;> rfl
@[simp] theorem raise_rb (f : BlockFault) (s : State) : (raise f s).rb = s.rb := by
  unfold raise; split <;> rfl
@[simp] theorem raise_ul (f : BlockFault) (s : State) : (raise f s).ul = s.ul := by
  unfold raise; split <;> rfl
@[simp] theorem raise_it (f : BlockFault) (s : State) : (raise f s).it = s.it := by
  unfold raise; split <;> rfl
@[simp] theorem raise_extreq (f : BlockFault) (s : State) : (raise f s).extreq = s.extreq := by
  unfold raise; split <;> rfl
@[simp] theorem raise_fg (f : BlockFault) (s : State) : (raise f s).fg = s.fg := by
  unfold raise; split <;> rfl
@[simp] theorem raise_r0 (f : BlockFault) (s : State) : (raise f s).r0 = s.r0 := by
  unfold raise; split <;> rfl
@[simp] theorem raise_r1 (f : BlockFault) (s : State) : (raise f s).r1 = s.r1 := by
  unfold raise; split <;> rfl
@[simp] theorem raise_ih (f : BlockFault) (s : State) : (raise f s).ih = s.ih := by
  unfold raise; split <;> rfl
theorem raise_fault (f : BlockFault) (s : State) :
    (raise f s).fault = if s.fault = 0 then f.code else s.fault := by
  unfold raise; split <;> rfl
@[simp] theorem raise_ev (f : BlockFault) (s : State) : (raise f s).ev = s.ev := by
  unfold raise; split <;> rfl
@[simp] theorem raise_prog (f : BlockFault) (s : State) : (raise f s).prog = s.prog := by
  unfold raise; split <;> rfl
@[simp] theorem raise_mem (f : BlockFault) (s : State) : (raise f s).mem = s.mem := by
  unfold raise; split <;> rfl
@[simp] theorem raise_turns (f : BlockFault) (s : State) : (raise f s).turns = s.turns := by
  unfold raise; split <;> rfl
@[simp] theorem raise_stalled (f : BlockFault) (s : State) : (raise f s).stalled = s.stalled := by
  unfold raise; split <;> rfl

/-! ### Accessors over the updates of the same element -/

theorem getD_set_same {α : Type} (xs : List α) (i : Nat) (x d : α) (h : i < xs.length) :
    (xs.set i x).getD i d = x := by
  simp [List.getD, h]

theorem getD_set_of_ne {α : Type} (xs : List α) (i j : Nat) (x d : α) (h : i ≠ j) :
    (xs.set i x).getD j d = xs.getD j d := by
  simp [List.getD, List.getElem?_set_ne h]

@[simp] theorem ring_setRing_same (s : State) (k : Nat) (r : Ring) (h : k < s.rb.length) :
    (s.setRing k r).ring k = r := getD_set_same _ _ _ _ h

theorem ring_setRing_of_ne (s : State) (k j : Nat) (r : Ring) (h : k ≠ j) :
    (s.setRing k r).ring j = s.ring j := getD_set_of_ne _ _ _ _ _ h

@[simp] theorem line_setLine_same (s : State) (l : Nat) (u : Line) (h : l < s.ul.length) :
    (s.setLine l u).line l = u := getD_set_same _ _ _ _ h

theorem line_setLine_of_ne (s : State) (l j : Nat) (u : Line) (h : l ≠ j) :
    (s.setLine l u).line j = s.line j := getD_set_of_ne _ _ _ _ _ h

@[simp] theorem source_setSource_same (s : State) (v : Nat) (x : Source)
    (h : v < s.it.src.length) : (s.setSource v x).source v = x := getD_set_same _ _ _ _ h

theorem source_setSource_of_ne (s : State) (v j : Nat) (x : Source) (h : v ≠ j) :
    (s.setSource v x).source j = s.source j := getD_set_of_ne _ _ _ _ _ h

@[simp] theorem setSource_globalEnable (s : State) (v : Nat) (x : Source) (c : PrioClass) :
    (s.setSource v x).globalEnable c = s.globalEnable c := by cases c <;> rfl

@[simp] theorem setGlobal_source (s : State) (n f : Bool) (v : Nat) :
    (s.setGlobal n f).source v = s.source v := rfl

@[simp] theorem extReq_setExtReq_same (s : State) (v : Nat) (b : Bool)
    (h : v < s.extreq.length) : (s.setExtReq v b).extReq v = b := getD_set_same _ _ _ _ h

theorem extReq_setExtReq_of_ne (s : State) (v j : Nat) (b : Bool) (h : v ≠ j) :
    (s.setExtReq v b).extReq j = s.extReq j := getD_set_of_ne _ _ _ _ _ h

/-! ### Fields of a line record -/

@[simp] theorem mask_setMask (u : Line) (d : Dir) (b : Bool) : (u.setMask d b).mask d = b := by
  cases d <;> rfl
@[simp] theorem lineSetMask_inited (u : Line) (d : Dir) (b : Bool) :
    (u.setMask d b).inited = u.inited := by cases d <;> rfl
@[simp] theorem lineSetMask_rxcb (u : Line) (d : Dir) (b : Bool) :
    (u.setMask d b).rxcb = u.rxcb := by cases d <;> rfl
@[simp] theorem lineSetMask_txcb (u : Line) (d : Dir) (b : Bool) :
    (u.setMask d b).txcb = u.txcb := by cases d <;> rfl
@[simp] theorem lineSetMask_baud (u : Line) (d : Dir) (b : Bool) :
    (u.setMask d b).baud = u.baud := by cases d <;> rfl
@[simp] theorem lineSetMask_rxtrig (u : Line) (d : Dir) (b : Bool) :
    (u.setMask d b).rxtrig = u.rxtrig := by cases d <;> rfl
@[simp] theorem lineSetMask_txtrig (u : Line) (d : Dir) (b : Bool) :
    (u.setMask d b).txtrig = u.txtrig := by cases d <;> rfl
@[simp] theorem lineSetMask_hwrx (u : Line) (d : Dir) (b : Bool) :
    (u.setMask d b).hwrx = u.hwrx := by cases d <;> rfl
@[simp] theorem lineSetMask_hwtx (u : Line) (d : Dir) (b : Bool) :
    (u.setMask d b).hwtx = u.hwtx := by cases d <;> rfl

end Sys2Proof.Machine
end

