-- ==== Sys2Proof/Laws/Memory.lean ====
section
/-! SUPPORT. Read after write, and the canonical form, for lists of cells, `MEM` and ring storage. -/

namespace Sys2Proof.Machine

/-! ### Lists of cells -/

theorem cellsGet_put_same (a : Nat) (b : Byte) (cs : List Host.Cell) :
    cellsGet a (cellsPut a b cs) = some b := by
  induction cs with
  | nil => simp [cellsPut, cellsGet]
  | cons c cs ih =>
    unfold cellsPut
    split
    · simp [cellsGet]
    · split
      · simp [cellsGet]
      · rename_i h
        rw [cellsGet, if_neg (fun e => h e.symm), ih]

theorem cellsGet_put_of_ne (a x : Nat) (b : Byte) (cs : List Host.Cell) (hx : x ≠ a) :
    cellsGet x (cellsPut a b cs) = cellsGet x cs := by
  induction cs with
  | nil => simp [cellsPut, cellsGet, hx.symm]
  | cons c cs ih =>
    unfold cellsPut
    split
    · simp [cellsGet, hx.symm]
    · split
      · rename_i h
        subst h
        simp [cellsGet, hx.symm]
      · simp only [cellsGet, ih]

theorem cellsGet_drop_of_ne (a x : Nat) (cs : List Host.Cell) (hx : x ≠ a) :
    cellsGet x (cellsDrop a cs) = cellsGet x cs := by
  unfold cellsDrop
  induction cs with
  | nil => rfl
  | cons c cs ih =>
    by_cases h : c.1 = a
    · have hc : c.1 ≠ x := fun e => hx (e.symm.trans h)
      simp [h, cellsGet, ih]
      exact fun e => absurd e.symm hx
    · simp [h, cellsGet, ih]

theorem cellsGet_drop_same (a : Nat) (cs : List Host.Cell) :
    cellsGet a (cellsDrop a cs) = none := by
  unfold cellsDrop
  induction cs with
  | nil => rfl
  | cons c cs ih =>
    by_cases h : c.1 = a
    · simpa [h] using ih
    · simp [h, cellsGet, ih]

theorem mem_cellsPut {a : Nat} {b : Byte} {cs : List Host.Cell} {c : Host.Cell}
    (h : c ∈ cellsPut a b cs) : c = (a, b) ∨ c ∈ cs := by
  induction cs with
  | nil => left; simpa [cellsPut] using h
  | cons d cs ih =>
    unfold cellsPut at h
    split at h
    · simpa using h
    · split at h
      · rcases List.mem_cons.1 h with rfl | h
        · exact .inl rfl
        · exact .inr (List.mem_cons_of_mem _ h)
      · rcases List.mem_cons.1 h with rfl | h
        · exact .inr (List.mem_cons_self)
        · exact (ih h).imp_right (List.mem_cons_of_mem _)

theorem cellsRising_put (a : Nat) (b : Byte) (cs : List Host.Cell) (h : cellsRising cs) :
    cellsRising (cellsPut a b cs) := by
  induction cs with
  | nil => simp [cellsPut]
  | cons c cs ih =>
    obtain ⟨h1, h2⟩ := List.pairwise_cons.1 h
    unfold cellsPut
    split
    · rename_i hlt
      refine List.pairwise_cons.2 ⟨fun d hd => ?_, h⟩
      rcases List.mem_cons.1 hd with rfl | hd
      · exact hlt
      · exact hlt.trans (h1 d hd)
    · split
      · rename_i heq
        subst heq
        exact List.pairwise_cons.2 ⟨h1, h2⟩
      · refine List.pairwise_cons.2 ⟨fun d hd => ?_, ih h2⟩
        rcases mem_cellsPut hd with rfl | hd
        · show c.1 < a
          omega
        · exact h1 d hd

theorem cellsRising_drop (a : Nat) (cs : List Host.Cell) (h : cellsRising cs) :
    cellsRising (cellsDrop a cs) := List.Pairwise.filter _ h

/-! ### `MEM` -/

theorem mem_read_write_same (m : Memory) (a : Nat) (b : Byte) : (m.write a b).read a = b := by
  unfold Memory.write Memory.read
  split
  · next h => rw [cellsGet_drop_same, h]; rfl
  · rw [cellsGet_put_same]; rfl

theorem mem_read_write_of_ne (m : Memory) (a x : Nat) (b : Byte) (h : x ≠ a) :
    (m.write a b).read x = m.read x := by
  unfold Memory.write Memory.read
  split
  · rw [cellsGet_drop_of_ne _ _ _ h]
  · rw [cellsGet_put_of_ne _ _ _ _ h]

/-- The only memory operation keeps the canonical form. -/
theorem mem_wf_write (m : Memory) (a : Nat) (b : Byte) (h : m.wf) (ha : a < 2 ^ 32) :
    (m.write a b).wf := by
  obtain ⟨h1, h2⟩ := h
  unfold Memory.write
  split
  · exact ⟨cellsRising_drop a m h1, fun c hc => h2 c (List.mem_of_mem_filter hc)⟩
  · next hb =>
    refine ⟨cellsRising_put a b m h1, fun c hc => ?_⟩
    rcases mem_cellsPut hc with rfl | hc
    · exact ⟨ha, hb⟩
    · exact h2 c hc

/-- The memory of `State.reset` has the canonical form. -/
theorem reset_mem_wf : State.reset.mem.wf := ⟨List.Pairwise.nil, fun _ h => nomatch h⟩

end Sys2Proof.Machine
end

