-- ==== Sys2Proof/Laws/Ring.lean ====
section
/-! SUPPORT. What the ring primitives do (R140 to R145): their invariants kept, their effect on the
occupied bytes. -/

namespace Sys2Proof.Machine

/-! ### Indices -/

theorem ringNext_toNat (r : Ring) (i : Half) (h : i.toNat < r.cap.toNat) :
    (ringNext r i).toNat = (i.toNat + 1) % r.cap.toNat := by
  have hc := r.cap.isLt
  unfold ringNext
  split
  · next e =>
    have : (i + 1).toNat = r.cap.toNat := by rw [e]
    rw [BitVec.toNat_add] at this
    have h1 : (1 : Half).toNat = 1 := rfl
    rw [h1, Nat.mod_eq_of_lt (by omega)] at this
    simp [this]
  · next e =>
    have h1 : (i + 1).toNat = i.toNat + 1 := by
      rw [BitVec.toNat_add]
      exact Nat.mod_eq_of_lt (by have : (1 : Half).toNat = 1 := rfl; omega)
    have h2 : i.toNat + 1 ≠ r.cap.toNat := fun h3 => e (BitVec.eq_of_toNat_eq (h1.trans h3))
    rw [h1, Nat.mod_eq_of_lt (by omega)]

theorem ringNext_lt (r : Ring) (i : Half) (h : i.toNat < r.cap.toNat) :
    (ringNext r i).toNat < r.cap.toNat := by
  rw [ringNext_toNat r i h]
  exact Nat.mod_lt _ (by omega)

/-- The storage byte at a position given as a number. -/
def storedAt (powerOn : Nat → Byte) (r : Ring) (i : Nat) : Byte :=
  (cellsGet i r.mem).getD (powerOn i)

/-- The bytes walked over, as the storage at successive positions modulo the capacity (R152). -/
theorem ringWalk_eq (powerOn : Nat → Byte) (r : Ring) (n : Nat) (i : Half)
    (h : i.toNat < r.cap.toNat) :
    ringWalk powerOn r n i =
      (List.range n).map (fun j => storedAt powerOn r ((i.toNat + j) % r.cap.toNat)) := by
  induction n generalizing i with
  | zero => rfl
  | succ n ih =>
    rw [ringWalk, ih _ (ringNext_lt r i h), List.range_succ_eq_map, List.map_cons, List.map_map]
    refine congr (congrArg _ ?_) (List.map_congr_left fun j _ => ?_)
    · simp [storedAt, ringByte, Nat.mod_eq_of_lt h]
    · simp only [Function.comp]
      rw [ringNext_toNat r i h, Nat.mod_add_mod]
      congr 2
      omega

/-! ### What each primitive does -/

@[simp] theorem ringInit_cap (c : Half) (r : Ring) : (ringInit c r).cap = c := rfl
@[simp] theorem ringInit_rd (c : Half) (r : Ring) : (ringInit c r).rd = 0 := rfl
@[simp] theorem ringInit_wr (c : Half) (r : Ring) : (ringInit c r).wr = 0 := rfl
@[simp] theorem ringInit_cnt (c : Half) (r : Ring) : (ringInit c r).cnt = 0 := rfl
@[simp] theorem ringInit_mem (c : Half) (r : Ring) : (ringInit c r).mem = r.mem := rfl

theorem ringWrite_of_full (b : Byte) (r : Ring) (h : ringFull r = true) :
    ringWrite b r = (false, r) := by simp [ringWrite, h]

theorem ringWrite_of_room (b : Byte) (r : Ring) (h : ringFull r = false) :
    ringWrite b r = (true, { r with mem := cellsPut r.wr.toNat b r.mem, wr := ringNext r r.wr, cnt := r.cnt + 1 }) := by
  simp [ringWrite, h]

theorem ringRead_of_empty (f : Nat → Byte) (r : Ring) (h : ringEmpty r = true) :
    ringRead f r = (none, r) := by simp [ringRead, h]

theorem ringRead_of_bytes (f : Nat → Byte) (r : Ring) (h : ringEmpty r = false) :
    ringRead f r = (some (ringByte f r r.rd), { r with rd := ringNext r r.rd, cnt := r.cnt - 1 }) := by
  simp [ringRead, h]

@[simp] theorem ringWrite_cap (b : Byte) (r : Ring) : (ringWrite b r).2.cap = r.cap := by
  unfold ringWrite; split <;> rfl
@[simp] theorem ringWrite_rd (b : Byte) (r : Ring) : (ringWrite b r).2.rd = r.rd := by
  unfold ringWrite; split <;> rfl
@[simp] theorem ringRead_cap (f : Nat → Byte) (r : Ring) : (ringRead f r).2.cap = r.cap := by
  unfold ringRead; split <;> rfl
@[simp] theorem ringRead_wr (f : Nat → Byte) (r : Ring) : (ringRead f r).2.wr = r.wr := by
  unfold ringRead; split <;> rfl
@[simp] theorem ringRead_mem (f : Nat → Byte) (r : Ring) : (ringRead f r).2.mem = r.mem := by
  unfold ringRead; split <;> rfl

theorem ringFull_false_iff (r : Ring) : ringFull r = false ↔ r.cnt.toNat ≠ r.cap.toNat := by
  unfold ringFull
  rw [beq_eq_false_iff_ne, ne_eq, ne_eq, ← BitVec.toNat_inj]

theorem ringEmpty_false_iff (r : Ring) : ringEmpty r = false ↔ r.cnt.toNat ≠ 0 := by
  unfold ringEmpty
  rw [beq_eq_false_iff_ne, ne_eq, ne_eq, ← BitVec.toNat_inj]
  rfl

theorem ringCount_up {r : Ring} {cmax : Nat} (ok : r.Ok cmax) (h : ringFull r = false) :
    (r.cnt + 1).toNat = r.cnt.toNat + 1 ∧ r.cnt.toNat + 1 ≤ r.cap.toNat := by
  rw [ringFull_false_iff] at h
  have h1 := ok.2.1
  have h2 := r.cap.isLt
  refine ⟨?_, by omega⟩
  rw [BitVec.toNat_add]
  exact Nat.mod_eq_of_lt (by have : (1 : Half).toNat = 1 := rfl; omega)

theorem ringCount_down {r : Ring} (h : ringEmpty r = false) :
    (r.cnt - 1).toNat = r.cnt.toNat - 1 := by
  rw [ringEmpty_false_iff] at h
  have h2 := r.cnt.isLt
  rw [BitVec.toNat_sub]
  have h1 : (1 : Half).toNat = 1 := rfl
  rw [h1]
  omega

/-! ### The invariants are kept (R31, R155) -/

theorem ringOk_init {r : Ring} {cmax : Nat} (c : Half) (ok : r.Ok cmax) (h : c.toNat ≤ cmax) :
    (ringInit c r).Ok cmax := by
  obtain ⟨-, -, -, -, h5, h6, -⟩ := ok
  refine ⟨h, by simp, fun _ => ⟨rfl, rfl⟩, fun hc => ?_, h5, h6, fun j hj => ?_⟩
  · have hpos : 0 < c.toNat := by
      rcases Nat.eq_zero_or_pos c.toNat with h0 | h0
      · exact absurd (BitVec.eq_of_toNat_eq h0) hc
      · exact h0
    simp [hpos]
  · simp at hj

theorem ringOk_write {r : Ring} {cmax : Nat} (b : Byte) (ok : r.Ok cmax) :
    (ringWrite b r).2.Ok cmax := by
  cases hf : ringFull r with
  | true => rw [ringWrite_of_full b r hf]; exact ok
  | false =>
    obtain ⟨hc1, hc2⟩ := ringCount_up ok hf
    obtain ⟨h1, h2, -, h4, h5, h6, h7⟩ := ok
    have hcap : r.cap ≠ 0 := by
      intro h0
      rw [h0] at hc2
      exact absurd hc2 (by simp)
    obtain ⟨hrd, hwr, heq⟩ := h4 hcap
    rw [ringWrite_of_room b r hf]
    refine ⟨h1, hc1 ▸ hc2, fun h0 => absurd h0 hcap, fun _ => ⟨hrd, ?_, ?_⟩, ?_,
      ?_, ?_⟩
    · exact ringNext_lt r r.wr hwr
    · show (ringNext r r.wr).toNat = (r.rd.toNat + (r.cnt + 1).toNat) % r.cap.toNat
      rw [ringNext_toNat r r.wr hwr, heq, hc1, Nat.mod_add_mod, Nat.add_assoc]
    · exact cellsRising_put _ _ _ h5
    · intro c hc
      rcases mem_cellsPut hc with rfl | hc
      · exact lt_of_lt_of_le hwr h1
      · exact h6 c hc
    · intro j hj
      show (cellsGet ((r.rd.toNat + j) % r.cap.toNat) (cellsPut r.wr.toNat b r.mem)).isSome = true
      by_cases he : (r.rd.toNat + j) % r.cap.toNat = r.wr.toNat
      · rw [he, cellsGet_put_same]; rfl
      · rw [cellsGet_put_of_ne _ _ _ _ he]
        refine h7 j ?_
        have hj' : j < r.cnt.toNat + 1 := hc1 ▸ hj
        rcases Nat.lt_succ_iff_lt_or_eq.1 hj' with h | h
        · exact h
        · exact absurd (h ▸ heq.symm) he

theorem ringOk_read {r : Ring} {cmax : Nat} (f : Nat → Byte) (ok : r.Ok cmax) :
    (ringRead f r).2.Ok cmax := by
  cases he : ringEmpty r with
  | true => rw [ringRead_of_empty f r he]; exact ok
  | false =>
    have hd := ringCount_down he
    have hne := (ringEmpty_false_iff r).1 he
    obtain ⟨h1, h2, -, h4, h5, h6, h7⟩ := ok
    have hcap : r.cap ≠ 0 := by
      intro h0
      rw [h0] at h2
      simp at h2
      omega
    obtain ⟨hrd, hwr, heq⟩ := h4 hcap
    rw [ringRead_of_bytes f r he]
    refine ⟨h1, ?_, fun h0 => absurd h0 hcap, fun _ => ⟨ringNext_lt r r.rd hrd, hwr, ?_⟩, h5, h6,
      ?_⟩
    · show (r.cnt - 1).toNat ≤ r.cap.toNat
      omega
    · show r.wr.toNat = ((ringNext r r.rd).toNat + (r.cnt - 1).toNat) % r.cap.toNat
      rw [ringNext_toNat r r.rd hrd, hd, heq, Nat.mod_add_mod]
      congr 1
      omega
    · intro j hj
      have hj' : j < r.cnt.toNat - 1 := by rw [← hd]; exact hj
      have := h7 (j + 1) (by omega)
      show (cellsGet (((ringNext r r.rd).toNat + j) % r.cap.toNat) r.mem).isSome = true
      rw [ringNext_toNat r r.rd hrd, Nat.mod_add_mod, Nat.add_right_comm]
      exact this

/-! ### The occupied bytes (R152) -/

theorem ringContents_init (f : Nat → Byte) (c : Half) (r : Ring) :
    ringContents f (ringInit c r) = [] := rfl

theorem ringContents_length (f : Nat → Byte) (r : Ring) :
    (ringContents f r).length = r.cnt.toNat := by
  have h : ∀ n i, (ringWalk f r n i).length = n := by
    intro n
    induction n with
    | zero => intro i; rfl
    | succ n ih => intro i; simp [ringWalk, ih]
  exact h _ _

theorem ringContents_of_empty (f : Nat → Byte) (r : Ring) (h : ringEmpty r = true) :
    ringContents f r = [] := by
  have : r.cnt = 0 := by simpa [ringEmpty] using h
  simp [ringContents, this, ringWalk]

/-- A successful write stores its byte at `wr` and nowhere else (R144). -/
theorem ringByte_write (f : Nat → Byte) (b : Byte) (r : Ring) (h : ringFull r = false) :
    ringByte f (ringWrite b r).2 r.wr = b ∧
    ∀ i, i ≠ r.wr → ringByte f (ringWrite b r).2 i = ringByte f r i := by
  rw [ringWrite_of_room b r h]
  unfold ringByte
  refine ⟨by rw [cellsGet_put_same]; rfl, fun i hi => ?_⟩
  rw [cellsGet_put_of_ne]
  exact fun e => hi (BitVec.eq_of_toNat_eq e)

/-- A successful write appends its byte. -/
theorem ringContents_write {r : Ring} {cmax : Nat} (f : Nat → Byte) (b : Byte) (ok : r.Ok cmax)
    (h : ringFull r = false) :
    ringContents f (ringWrite b r).2 = ringContents f r ++ [b] := by
  obtain ⟨hc1, hc2⟩ := ringCount_up ok h
  have hcap : r.cap ≠ 0 := by
    intro h0
    rw [h0] at hc2
    exact absurd hc2 (by simp)
  obtain ⟨-, -, -, h4, -⟩ := ok
  obtain ⟨hrd, hwr, heq⟩ := h4 hcap
  rw [ringWrite_of_room b r h]
  unfold ringContents
  rw [ringWalk_eq _ _ _ _ hrd, ringWalk_eq _ _ _ _ (by exact hrd)]
  show List.map _ (List.range (r.cnt + 1).toNat) = _
  rw [hc1, List.range_succ, List.map_append, List.map_singleton]
  congr 1
  · refine List.map_congr_left fun j hj => ?_
    have hj := List.mem_range.1 hj
    show storedAt f _ _ = storedAt f _ _
    unfold storedAt
    have hne : (r.rd.toNat + j) % r.cap.toNat ≠ r.wr.toNat := by
      rw [heq]
      intro hmod
      have hjc : j ≡ r.cnt.toNat [MOD r.cap.toNat] := Nat.ModEq.add_left_cancel' r.rd.toNat hmod
      have := Nat.ModEq.eq_of_lt_of_lt hjc (by omega) (by omega)
      omega
    rw [cellsGet_put_of_ne _ _ _ _ hne]
  · show [storedAt f _ _] = [b]
    unfold storedAt
    rw [← heq, cellsGet_put_same]
    rfl

/-- A successful read removes the oldest byte and returns it. -/
theorem ringContents_read {r : Ring} (f : Nat → Byte) (h : ringEmpty r = false) :
    ringContents f r = ringByte f r r.rd :: ringContents f (ringRead f r).2 := by
  have hd := ringCount_down h
  have hne := (ringEmpty_false_iff r).1 h
  rw [ringRead_of_bytes f r h]
  unfold ringContents
  obtain ⟨n, hn⟩ : ∃ n, r.cnt.toNat = n + 1 := ⟨r.cnt.toNat - 1, by omega⟩
  show _ = _ :: ringWalk f _ (r.cnt - 1).toNat (ringNext r r.rd)
  rw [hd, hn, ringWalk]
  congr 1
  have hw : ∀ n i, ringWalk f r n i =
      ringWalk f { r with rd := ringNext r r.rd, cnt := r.cnt - 1 } n i := by
    intro n
    induction n with
    | zero => intro i; rfl
    | succ n ih => intro i; rw [ringWalk, ringWalk, ih]; rfl
  exact hw _ _

end Sys2Proof.Machine
end

