-- ==== Sys2Proof/Laws/Ops.lean ====
section
/-! SUPPORT. What each shared operation does, said once: the data invariant that all of them keep,
selectors, byte moves, buffer copies, faults. -/

namespace Sys2Proof.Machine

/-! ### The data part of the invariant -/

/-- The part of `State.Wf` that speaks of one element at a time. -/
structure State.DataOk (s : State) : Prop where
  params : s.cfg.Ok
  sizes : s.SizesOk
  rings : ∀ r ∈ s.rb, r.Ok s.cfg.cmax
  lines : ∀ u ∈ s.ul, u.Ok s.cfg
  memory : s.mem.wf

theorem State.Wf.data {s : State} (h : s.Wf) : s.DataOk :=
  ⟨h.params, h.sizes, h.rings, h.lines, h.memory⟩

theorem getD_mem {α : Type} (xs : List α) (i : Nat) (d : α) (h : i < xs.length) :
    xs.getD i d ∈ xs := by
  simp [List.getD, h]

theorem State.DataOk.ringOk {s : State} (h : s.DataOk) {k : Nat} (hk : k < s.cfg.nrings) :
    (s.ring k).Ok s.cfg.cmax :=
  h.rings _ (getD_mem _ _ _ (by rw [h.sizes.1]; exact hk))

theorem State.DataOk.lineOk {s : State} (h : s.DataOk) {l : Nat} (hl : l < s.cfg.nlines) :
    (s.line l).Ok s.cfg :=
  h.lines _ (getD_mem _ _ _ (by rw [h.sizes.2.1]; exact hl))

theorem State.DataOk.of_same {s t : State} (h : s.DataOk) (hc : t.cfg = s.cfg) (hr : t.rb = s.rb)
    (hl : t.ul = s.ul) (hi : t.it.src.length = s.it.src.length)
    (he : t.extreq.length = s.extreq.length) (hm : t.mem = s.mem) : t.DataOk := by
  obtain ⟨h1, ⟨h2, h3, h4, h5⟩, h6, h7, h8⟩ := h
  refine ⟨by rw [hc]; exact h1, ⟨by rw [hr, hc]; exact h2, by rw [hl, hc]; exact h3,
    by rw [hi, hc]; exact h4, by rw [he, hc]; exact h5⟩, by rw [hr, hc]; exact h6,
    by rw [hl, hc]; exact h7, by rw [hm]; exact h8⟩

theorem State.DataOk.setRing {s : State} (h : s.DataOk) (k : Nat) {r : Ring}
    (hr : r.Ok s.cfg.cmax) : (s.setRing k r).DataOk := by
  obtain ⟨h1, ⟨h2, h3, h4, h5⟩, h6, h7, h8⟩ := h
  refine ⟨h1, ⟨?_, h3, h4, h5⟩, fun x hx => ?_, h7, h8⟩
  · rw [setRing_rb, List.length_set]; exact h2
  · rcases List.mem_or_eq_of_mem_set hx with hx | rfl
    · exact h6 x hx
    · exact hr

theorem State.DataOk.setLine {s : State} (h : s.DataOk) (l : Nat) {u : Line}
    (hu : u.Ok s.cfg) : (s.setLine l u).DataOk := by
  obtain ⟨h1, ⟨h2, h3, h4, h5⟩, h6, h7, h8⟩ := h
  refine ⟨h1, ⟨h2, ?_, h4, h5⟩, h6, fun x hx => ?_, h8⟩
  · rw [setLine_ul, List.length_set]; exact h3
  · rcases List.mem_or_eq_of_mem_set hx with hx | rfl
    · exact h7 x hx
    · exact hu

theorem State.DataOk.storeByte {s : State} (h : s.DataOk) {a : Nat} (b : Byte) (ha : a < 2 ^ 32) :
    (s.storeByte a b).DataOk :=
  ⟨h.params, h.sizes, h.rings, h.lines, mem_wf_write _ _ _ h.memory ha⟩

/-- Setting a suppression flag keeps the invariant where the line is initialised or the flag is set
to 1. -/
theorem State.DataOk.setMask {s : State} (h : s.DataOk) {l : Nat} (d : Dir) (b : Bool)
    (hl : l < s.cfg.nlines) (hb : (s.line l).inited = true ∨ b = true) :
    (setMask l d b s).DataOk := by
  refine h.setLine l ?_
  obtain ⟨h1, h2, h3, h4⟩ := h.lineOk hl
  refine ⟨by simpa using h1, by simpa using h2, by simpa using h3, fun hi => ?_⟩
  rw [lineSetMask_inited] at hi
  obtain ⟨a1, a2, a3, a4, a5, a6, a7⟩ := h4 hi
  have hb' : b = true := by rcases hb with hb | hb <;> simp_all
  subst hb'
  cases d <;> simp_all [Line.setMask]

/-! ### Selectors -/

theorem rsel_lt {p : Params} {l : Nat} (d : Dir) (h : l < p.nlines) : rsel l d < p.nrings := by
  unfold Params.nrings rsel
  cases d <;> simp only <;> omega

theorem rsel_inj {l j : Nat} {d e : Dir} : rsel l d = rsel j e ↔ l = j ∧ d = e := by
  unfold rsel
  cases d <;> cases e <;> simp <;> omega

theorem rsel_half (l : Nat) (d : Dir) : rsel l d / 2 = l := by
  unfold rsel
  cases d <;> simp only <;> omega

theorem Params.Ok.nlines_lt {p : Params} (h : p.Ok) : p.nlines ≤ 32 := by
  obtain ⟨-, h2, h3, -⟩ := h
  omega

/-! ### Setting an element to itself, or twice -/

theorem set_getD_self {α : Type} (xs : List α) (i : Nat) (d : α) : xs.set i (xs.getD i d) = xs := by
  by_cases h : i < xs.length
  · simp [List.getD, h]
  · exact List.set_eq_of_length_le (by omega)

@[simp] theorem setRing_self (s : State) (k : Nat) : s.setRing k (s.ring k) = s := by
  show { s with rb := s.rb.set k (s.rb.getD k default) } = s
  rw [set_getD_self]

@[simp] theorem setRing_setRing (s : State) (k : Nat) (r r' : Ring) :
    (s.setRing k r).setRing k r' = s.setRing k r' := by
  show { s with rb := (s.rb.set k r).set k r' } = _
  rw [List.set_set]; rfl

@[simp] theorem setLine_self (s : State) (l : Nat) : s.setLine l (s.line l) = s := by
  show { s with ul := s.ul.set l (s.ul.getD l default) } = s
  rw [set_getD_self]

@[simp] theorem setLine_setLine (s : State) (l : Nat) (u u' : Line) :
    (s.setLine l u).setLine l u' = s.setLine l u' := by
  show { s with ul := (s.ul.set l u).set l u' } = _
  rw [List.set_set]; rfl

/-! ### Codes and `raise` -/

/-- The model's status codes are the numbers of Table R106. -/
theorem Status.code_eq (st : Status) : st.code = statusNumber st := by cases st <;> rfl

/-- The model's fault codes are the numbers of Table R263. -/
theorem BlockFault.code_eq (f : BlockFault) : f.code = faultNumber f := by cases f <;> rfl

theorem raise_eq (f : BlockFault) (s : State) : raise f s = withFault f s := by
  unfold raise withFault
  rw [BlockFault.code_eq]
  split <;> rfl

theorem BlockFault.code_pos (f : BlockFault) : 1 ≤ f.code.toNat ∧ f.code.toNat ≤ 5 := by
  cases f <;> decide

/-! ### Ring primitives on the machine -/

theorem rbRead_empty {s : State} {k : Nat} (h : ringEmpty (s.ring k) = true) :
    rbRead k s = (none, s) := by
  unfold rbRead
  rw [ringRead_of_empty _ _ h]
  simp

theorem rbWrite_full {s : State} {k : Nat} (b : Byte) (h : ringFull (s.ring k) = true) :
    rbWrite k b s = (false, s) := by
  unfold rbWrite
  rw [ringWrite_of_full _ _ h]
  simp

/-- `rb_write` on a ring with room: the byte becomes the newest. -/
theorem rbWrite_room {s : State} (hs : s.DataOk) {k : Nat} (hk : k < s.cfg.nrings) (b : Byte)
    (h : ringFull (s.ring k) = false) :
    ∃ r, rbWrite k b s = (true, s.setRing k r) ∧ r.Ok s.cfg.cmax ∧
      ringContents (s.powerOn k) r = s.contents k ++ [b] ∧ r.cap = (s.ring k).cap ∧
      r.rd = (s.ring k).rd ∧ r.cnt.toNat = (s.ring k).cnt.toNat + 1 ∧
      ∀ i, i ≠ (s.ring k).wr →
        ringByte (s.powerOn k) r i = ringByte (s.powerOn k) (s.ring k) i := by
  refine ⟨(ringWrite b (s.ring k)).2, ?_, ringOk_write b (hs.ringOk hk),
    ringContents_write _ b (hs.ringOk hk) h, ?_, ?_, ?_, (ringByte_write _ b _ h).2⟩
  · unfold rbWrite
    rw [ringWrite_of_room b _ h]
  · simp
  · rw [ringWrite_of_room b _ h]
  · rw [ringWrite_of_room b _ h]
    exact (ringCount_up (hs.ringOk hk) h).1

/-- `rb_read` on a ring with bytes: the oldest is returned and removed. -/
theorem rbRead_bytes {s : State} (hs : s.DataOk) {k : Nat} (hk : k < s.cfg.nrings)
    (h : ringEmpty (s.ring k) = false) :
    ∃ b r, rbRead k s = (some b, s.setRing k r) ∧ r.Ok s.cfg.cmax ∧
      s.contents k = b :: ringContents (s.powerOn k) r ∧ r.cap = (s.ring k).cap ∧
      r.wr = (s.ring k).wr ∧ r.mem = (s.ring k).mem ∧
      r.cnt.toNat = (s.ring k).cnt.toNat - 1 := by
  refine ⟨_, (ringRead (s.powerOn k) (s.ring k)).2, ?_, ringOk_read _ (hs.ringOk hk),
    ringContents_read _ h, ?_⟩
  · unfold rbRead
    rw [ringRead_of_bytes _ _ h]
  · rw [ringRead_of_bytes _ _ h]
    exact ⟨rfl, rfl, rfl, ringCount_down h⟩

theorem contents_setRing_same (s : State) (k : Nat) (r : Ring) (h : k < s.rb.length) :
    (s.setRing k r).contents k = ringContents (s.powerOn k) r := by
  unfold State.contents
  rw [ring_setRing_same s k r h, setRing_powerOn]

theorem contents_setRing_of_ne (s : State) (k j : Nat) (r : Ring) (h : k ≠ j) :
    (s.setRing k r).contents j = s.contents j := by
  unfold State.contents
  rw [ring_setRing_of_ne s k j r h, setRing_powerOn]

theorem contents_length (s : State) (k : Nat) :
    (s.contents k).length = (s.ring k).cnt.toNat := ringContents_length _ _

/-! ### Buffer copies -/

@[simp] theorem memBytes_zero (m : Memory) (a : Nat) : memBytes m a 0 = [] := rfl

theorem memBytes_succ (m : Memory) (a n : Nat) :
    memBytes m a (n + 1) = m.read a :: memBytes m (a + 1) n := by
  unfold memBytes
  rw [List.range_succ_eq_map, List.map_cons, List.map_map]
  refine congr (congrArg _ rfl) (List.map_congr_left fun j _ => ?_)
  show m.read (a + (j + 1)) = m.read (a + 1 + j)
  rw [Nat.add_comm j 1, Nat.add_assoc]

theorem memBytes_congr {m m' : Memory} {a n : Nat}
    (h : ∀ x, a ≤ x → x < a + n → m.read x = m'.read x) : memBytes m a n = memBytes m' a n := by
  unfold memBytes
  refine List.map_congr_left fun j hj => h _ (by omega) ?_
  have := List.mem_range.1 hj
  omega

/-- Action 7 of `UART_SEND`: bytes of `MEM` that fit join a ring in ascending order (R209). -/
theorem copyIn_spec {s : State} (hs : s.DataOk) {k : Nat} (hk : k < s.cfg.nrings) (q p : Nat)
    (hq : (s.ring k).cnt.toNat + q ≤ (s.ring k).cap.toNat) :
    ∃ r, copyIn k p q s = s.setRing k r ∧ r.Ok s.cfg.cmax ∧
      ringContents (s.powerOn k) r = s.contents k ++ memBytes s.mem p q ∧
      r.cap = (s.ring k).cap ∧ r.rd = (s.ring k).rd ∧
      r.cnt.toNat = (s.ring k).cnt.toNat + q := by
  induction q generalizing s p with
  | zero => exact ⟨s.ring k, by simp [copyIn], hs.ringOk hk, by simp; rfl, rfl, rfl, rfl⟩
  | succ q ih =>
    have hf : ringFull (s.ring k) = false := by
      rw [ringFull_false_iff]
      omega
    have hlen : k < s.rb.length := by rw [hs.sizes.1]; exact hk
    obtain ⟨r, e, ok, hc, h1, h2, h3, -⟩ := rbWrite_room hs hk (s.mem.read p) hf
    obtain ⟨r', e', ok', hc', h1', h2', h3'⟩ := ih (s := s.setRing k r) (hs.setRing k ok) hk
      (p + 1) (by rw [ring_setRing_same s k r hlen, h3, h1]; omega)
    rw [ring_setRing_same s k r hlen] at h1' h2' h3'
    refine ⟨r', ?_, ok', ?_, h1'.trans h1, h2'.trans h2, by omega⟩
    · rw [copyIn, e, e']; simp
    · rw [setRing_powerOn, contents_setRing_same s k r hlen, hc, setRing_mem] at hc'
      rw [hc', memBytes_succ]; simp

/-- Action 7 of `UART_RECEIVE`: the oldest bytes of a ring go to `MEM` in ascending order (R210). -/
theorem copyOut_spec {s : State} (hs : s.DataOk) {k : Nat} (hk : k < s.cfg.nrings) (q p : Nat)
    (hq : q ≤ (s.ring k).cnt.toNat) (hp : q = 0 ∨ p + q ≤ 2 ^ 32) :
    ∃ r m, copyOut k p q s = { s.setRing k r with mem := m } ∧ r.Ok s.cfg.cmax ∧ m.wf ∧
      ringContents (s.powerOn k) r = (s.contents k).drop q ∧
      memBytes m p q = (s.contents k).take q ∧
      (∀ a, a < p ∨ p + q ≤ a → m.read a = s.mem.read a) ∧
      r.cap = (s.ring k).cap ∧ r.wr = (s.ring k).wr ∧ r.mem = (s.ring k).mem ∧
      r.cnt.toNat = (s.ring k).cnt.toNat - q := by
  induction q generalizing s p with
  | zero =>
    exact ⟨s.ring k, s.mem, by simp [copyOut], hs.ringOk hk, hs.memory, rfl, by simp,
      fun _ _ => rfl, rfl, rfl, rfl, rfl⟩
  | succ q ih =>
    have he : ringEmpty (s.ring k) = false := by
      rw [ringEmpty_false_iff]
      omega
    have hlen : k < s.rb.length := by rw [hs.sizes.1]; exact hk
    obtain ⟨b, r, e, ok, hc, h1, h2, h3, h4⟩ := rbRead_bytes hs hk he
    obtain ⟨r', m, e', ok', wf', hc', hm', hf', h1', h2', h3', h4'⟩ :=
      ih (s := (s.setRing k r).storeByte p b) ((hs.setRing k ok).storeByte b (by omega)) hk
        (p + 1) (by rw [storeByte_ring, ring_setRing_same s k r hlen, h4]; omega) (by omega)
    simp only [storeByte_ring, ring_setRing_same s k r hlen] at h1' h2' h3' h4'
    have hcon : ((s.setRing k r).storeByte p b).contents k = ringContents (s.powerOn k) r :=
      contents_setRing_same s k r hlen
    rw [hcon] at hc' hm'
    refine ⟨r', m, ?_, ok', wf', ?_, ?_, fun a ha => ?_, h1'.trans h1, h2'.trans h2, h3'.trans h3,
      by omega⟩
    · rw [copyOut, e]
      show copyOut k (p + 1) q ((s.setRing k r).storeByte p b) = _
      rw [e']
      show { s with rb := (s.rb.set k r).set k r', mem := m } = _
      rw [List.set_set]; rfl
    · rw [hc, List.drop_succ_cons]; exact hc'
    · rw [memBytes_succ, hm', hc, List.take_succ_cons, hf' p (by omega)]
      exact congrArg (· :: _) (mem_read_write_same _ _ _)
    · rw [hf' a (by omega)]
      exact mem_read_write_of_ne _ _ _ _ (by omega)

/-! ### Byte moves between a ring and a hardware FIFO -/

/-- The oldest byte of a transmit ring moves to `hwtx` (R201, R255). -/
theorem moveTx_spec {s : State} (hs : s.DataOk) {l : Nat} (hl : l < s.cfg.nlines)
    (h : ringEmpty (s.ring (rsel l .tx)) = false) :
    ∃ x r, moveTx l s =
        (s.setRing (rsel l .tx) r).setLine l { s.line l with hwtx := (s.line l).hwtx ++ [x] } ∧
      r.Ok s.cfg.cmax ∧
      s.contents (rsel l .tx) = x :: ringContents (s.powerOn (rsel l .tx)) r ∧
      r.cap = (s.ring (rsel l .tx)).cap ∧ r.wr = (s.ring (rsel l .tx)).wr ∧
      r.mem = (s.ring (rsel l .tx)).mem ∧
      r.cnt.toNat = (s.ring (rsel l .tx)).cnt.toNat - 1 := by
  obtain ⟨x, r, e, h⟩ := rbRead_bytes hs (rsel_lt .tx hl) h
  exact ⟨x, r, by rw [moveTx, e]; rfl, h⟩

/-- The oldest byte of `hwrx` moves to a receive ring with room (R252). -/
theorem moveRx_spec {s : State} (hs : s.DataOk) {l : Nat} (hl : l < s.cfg.nlines) {b : Byte}
    {rest : List Byte} (hb : (s.line l).hwrx = b :: rest)
    (h : ringFull (s.ring (rsel l .rx)) = false) :
    ∃ r, moveRx l s =
        (s.setLine l { s.line l with hwrx := rest }).setRing (rsel l .rx) r ∧
      r.Ok s.cfg.cmax ∧
      ringContents (s.powerOn (rsel l .rx)) r = s.contents (rsel l .rx) ++ [b] ∧
      r.cap = (s.ring (rsel l .rx)).cap ∧ r.rd = (s.ring (rsel l .rx)).rd ∧
      ∀ i, i ≠ (s.ring (rsel l .rx)).wr →
        ringByte (s.powerOn (rsel l .rx)) r i =
          ringByte (s.powerOn (rsel l .rx)) (s.ring (rsel l .rx)) i := by
  have hd : dropHwrx l s = s.setLine l { s.line l with hwrx := rest } := by
    unfold dropHwrx
    rw [hb]; rfl
  have hds : (dropHwrx l s).DataOk := by
    rw [hd]
    refine hs.setLine l ?_
    obtain ⟨h1, h2, h3, h4⟩ := hs.lineOk hl
    rw [hb, List.length_cons] at h1
    exact ⟨by show rest.length ≤ _; omega, h2, h3, h4⟩
  obtain ⟨r, e, ok, hc, h1, h2, -, h3⟩ := rbWrite_room hds (k := rsel l .rx) (rsel_lt .rx hl) b h
  refine ⟨r, ?_, ok, hc, h1, h2, h3⟩
  unfold moveRx
  rw [hb]
  show (rbWrite (rsel l .rx) b (dropHwrx l s)).2 = _
  rw [e, hd]

end Sys2Proof.Machine
end

