-- ==== Sys2Proof/Laws/Step.lean ====
section
/-! SUPPORT. What a step can do, said once (R240 to R242): the claims about every step start from
`step_cases` and never unfold the step. -/

namespace Sys2Proof.Machine

theorem afterTurn_eq (s : State) : afterTurn s = { s with turns := s.turns.tail } := rfl

/-- A step by the agent whose turn it is. -/
theorem step_of_turn {s : State} {t : Turn} (h : nextTurn s = some t) :
    step s = takeTurn t (afterTurn s) := by
  show machineStep s = _
  unfold machineStep
  rw [h]; rfl

theorem step_of_none {s : State} (h : nextTurn s = none) : step s = .next s := by
  show machineStep s = _
  unfold machineStep
  rw [h]

theorem foregroundFree_iff (s : State) :
    foregroundFree s = true ↔ s.fault = 0 ∧ s.ih.phase = .idle := by
  simp [foregroundFree]

@[simp] theorem foregroundFree_afterTurn (s : State) :
    foregroundFree (afterTurn s) = foregroundFree s := rfl
@[simp] theorem handlerEnabled_afterTurn (s : State) :
    handlerEnabled (afterTurn s) = handlerEnabled s := rfl
@[simp] theorem take_afterTurn (s : State) (c : PrioClass) : take (afterTurn s) c = take s c := by
  cases c <;> rfl
@[simp] theorem fetch_afterTurn (s : State) : fetch (afterTurn s) = fetch s := rfl
@[simp] theorem contents_afterTurn (s : State) (k : Nat) :
    (afterTurn s).contents k = s.contents k := rfl

@[simp] theorem activationEnabled_afterTurn (s : State) :
    activationEnabled (afterTurn s) = activationEnabled s := rfl
@[simp] theorem wireReady_afterTurn (s : State) : wireReady (afterTurn s) = wireReady s := rfl

/-- What a quiescent state is (R309). -/
theorem quiescent_iff (s : State) :
    quiescent s = true ↔ s.fg.phase = .idle ∧ s.prog.length ≤ s.fg.pc.toNat ∧
      s.ih.phase = .idle ∧ activationEnabled s = false ∧
      (∀ e, Turn.env e ∉ s.turns) ∧ wireReady s = none := by
  have hany : s.turns.any Turn.isEnv = false ↔ ∀ e, Turn.env e ∉ s.turns := by
    rw [List.any_eq_false]
    refine ⟨fun h e m => h _ m rfl, fun h t m => ?_⟩
    cases t with
    | env e => exact absurd m (h e)
    | _ => exact Bool.false_ne_true
  simp [quiescent, scriptDone, hany, and_assoc]

/-- The command a foreground turn starts. -/
theorem starting_of_fetch {s : State} {i : Instr} (h1 : nextTurn s = some .fg)
    (h2 : foregroundFree s = true) (h3 : s.fg.phase = .idle)
    (h4 : s.fg.pc.toNat < s.prog.length) (h5 : fetch s = .ok i) : starting s = some i := by
  simp [starting, h1, h2, h3, h4, h5]

/-- What fetch gives is a stream command. -/
theorem fetch_agent {s : State} {i : Instr} (h : fetch s = .ok i) : i.agent = .fg := by
  unfold fetch at h
  split at h
  · split at h
    · cases h
    · next hj =>
      cases h
      cases e : i.agent
      · rfl
      · exact absurd e hj
  · cases h

theorem starting_fetch {s : State} {i : Instr} (h : starting s = some i) :
    nextTurn s = some .fg ∧ foregroundFree s = true ∧ s.fg.phase = .idle ∧
      s.fg.pc.toNat < s.prog.length ∧ fetch s = .ok i := by
  unfold starting at h
  split at h
  · next hc =>
    refine ⟨hc.1, hc.2.1, hc.2.2.1, hc.2.2.2, ?_⟩
    split at h
    · next e => cases h; exact e
    · cases h
  · cases h

theorem fetch_of_decode {s : State} {i : Instr} (h : decode (streamWords s) = .ok i)
    (ha : i.agent = .fg) : fetch s = .ok i := by
  unfold fetch
  rw [h]
  simp [ha]

theorem decode_of_fetch {s : State} {i : Instr} (h : fetch s = .ok i) :
    decode (streamWords s) = .ok i := by
  unfold fetch at h
  split at h
  · next e =>
    split at h
    · cases h
    · cases h; exact e
  · cases h

/-- Everything a step can do. -/
theorem step_cases {s t : State} (h : step s = .next t) :
    (nextTurn s = none ∧ t = s) ∨
    (∃ e, nextTurn s = some (.env e) ∧ t = envStep e (afterTurn s)) ∨
    (nextTurn s = some .fg ∧ t = afterTurn s ∧ starting s = none) ∨
    (nextTurn s = some .ih ∧ t = afterTurn s) ∨
    (∃ i, starting s = some i ∧ exec i (afterTurn s) = .next t) ∨
    (nextTurn s = some .fg ∧ starting s = none ∧ foregroundFree s = true ∧ s.fg.phase = .idle ∧
      t = raise .illegalCmd (afterTurn s)) ∨
    (nextTurn s = some .fg ∧ starting s = none ∧ foregroundFree s = true ∧
      s.fg.phase.sending = true ∧ exec (.uartSendByte s.fg.ll s.fg.lb) (afterTurn s) = .next t) ∨
    (nextTurn s = some .fg ∧ starting s = none ∧ foregroundFree s = true ∧
      s.fg.phase.receiving = true ∧ exec (.uartReceiveByte s.fg.ll) (afterTurn s) = .next t) ∨
    (nextTurn s = some .ih ∧ s.fault = 0 ∧ s.ih.phase = .idle ∧
      ∃ c, take s c = true ∧ service c (afterTurn s) = .next t) ∨
    (nextTurn s = some .ih ∧ s.fault = 0 ∧ s.ih.phase ≠ .idle ∧
      exec (.uartIsr s.ih.line) (afterTurn s) = .next t) := by
  cases hn : nextTurn s with
  | none =>
    rw [step_of_none hn] at h
    exact .inl ⟨rfl, (Host.Outcome.next.inj h).symm⟩
  | some u =>
    rw [step_of_turn hn] at h
    cases u with
    | env e => exact .inr (.inl ⟨e, rfl, (Host.Outcome.next.inj h).symm⟩)
    | fg =>
      replace h : foregroundStep (afterTurn s) = .next t := h
      unfold foregroundStep at h
      rw [foregroundFree_afterTurn] at h
      split at h
      · next hf =>
        have hs : s.fg.phase ≠ .idle → starting s = none := fun hp => by simp [starting, hp]
        have hp : (afterTurn s).fg.phase = s.fg.phase := rfl
        split at h
        · next hi =>
          rw [hp] at hi
          unfold startCommand at h
          split at h
          · next hl =>
            refine .inr (.inr (.inl ⟨rfl, (Host.Outcome.next.inj h).symm, ?_⟩))
            have : ¬ s.fg.pc.toNat < s.prog.length := Nat.not_lt.2 hl
            simp [starting, this]
          · next hl =>
            rw [fetch_afterTurn] at h
            split at h
            · next i e =>
              exact .inr (.inr (.inr (.inr (.inl
                ⟨i, starting_of_fetch hn hf hi (Nat.not_le.1 hl) e, h⟩))))
            · next e =>
              refine .inr (.inr (.inr (.inr (.inr (.inl
                ⟨rfl, ?_, hf, hi, (Host.Outcome.next.inj h).symm⟩)))))
              simp [starting, e]
        all_goals next hi =>
          rw [hp] at hi
          first
          | exact .inr (.inr (.inr (.inr (.inr (.inr (.inl
              ⟨rfl, hs (by simp [hi]), hf, by rw [hi]; rfl, h⟩))))))
          | exact .inr (.inr (.inr (.inr (.inr (.inr (.inr (.inl
              ⟨rfl, hs (by simp [hi]), hf, by rw [hi]; rfl, h⟩)))))))
      · next hf =>
        refine .inr (.inr (.inl ⟨rfl, (Host.Outcome.next.inj h).symm, ?_⟩))
        simp [starting, hf]
    | ih =>
      replace h : handlerStep (afterTurn s) = .next t := h
      unfold handlerStep at h
      rw [handlerEnabled_afterTurn] at h
      split at h
      · next he =>
        have hz : s.fault = 0 := by
          simp only [handlerEnabled, Bool.and_eq_true, beq_iff_eq] at he
          exact he.1
        split at h
        · next hi =>
          replace hi : s.ih.phase = .idle := hi
          refine .inr (.inr (.inr (.inr (.inr (.inr (.inr (.inr (.inl ⟨rfl, hz, hi, ?_⟩))))))))
          unfold activate activationClass at h
          rw [take_afterTurn] at h
          by_cases hfast : take s .fast = true
          · exact ⟨.fast, hfast, by rw [if_pos hfast] at h; exact h⟩
          · refine ⟨.normal, ?_, by rw [if_neg hfast] at h; exact h⟩
            simpa [handlerEnabled, hi, hfast, hz] using he
        · next hi =>
          exact .inr (.inr (.inr (.inr (.inr (.inr (.inr (.inr (.inr ⟨rfl, hz, hi, h⟩))))))))
      · exact .inr (.inr (.inr (.inl ⟨rfl, (Host.Outcome.next.inj h).symm⟩)))

end Sys2Proof.Machine
end

