-- ==== Sys2Proof/Laws/Exec.lean ====
section
/-! SUPPORT. What a stream command can do when it starts, said once: a fault, a completion after its
effect, or the entry into its first phase. -/

namespace Sys2Proof.Machine

/-- The outcomes of starting command `i` in state `s`: a fault, whose number is 3, 4 or 5 (Table R263,
the rows that a started command raises), a completion, an entry. -/
inductive Effect (s : State) : Instr → State → Prop where
  | faults (i : Instr) (f : BlockFault) (hf : 3 ≤ (faultNumber f).toNat := by decide) :
      Effect s i (raise f s)
  | rbInit (k : Byte) (cap : Half) (hk : k.toNat < s.cfg.nrings) (hc : cap.toNat ≤ s.cfg.cmax) :
      Effect s (.rbInit k cap) (done 1 .ok 0 (rbInit k.toNat cap s))
  | rbWriteRoom (k b : Byte) (hk : k.toNat < s.cfg.nrings)
      (h : ringFull (s.ring k.toNat) = false) :
      Effect s (.rbWrite k b) (done 1 .ok 1 (rbWrite k.toNat b s).2)
  | rbWriteFull (k b : Byte) (hk : k.toNat < s.cfg.nrings)
      (h : ringFull (s.ring k.toNat) = true) :
      Effect s (.rbWrite k b) (done 1 .overrun 0 s)
  | rbReadByte (k : Byte) (b : Byte) (hk : k.toNat < s.cfg.nrings)
      (h : ringEmpty (s.ring k.toNat) = false) (hb : (rbRead k.toNat s).1 = some b) :
      Effect s (.rbRead k) (done 1 .ok (b.setWidth 32) (rbRead k.toNat s).2)
  | rbReadEmpty (k : Byte) (hk : k.toNat < s.cfg.nrings)
      (h : ringEmpty (s.ring k.toNat) = true) :
      Effect s (.rbRead k) (done 1 .underrun 0xFFFFFFFF s)
  | rbIsFull (k : Byte) (hk : k.toNat < s.cfg.nrings) :
      Effect s (.rbIsFull k) (done 1 .ok (boolWord (ringFull (s.ring k.toNat))) s)
  | rbIsEmpty (k : Byte) (hk : k.toNat < s.cfg.nrings) :
      Effect s (.rbIsEmpty k) (done 1 .ok (boolWord (ringEmpty (s.ring k.toNat))) s)
  | itcInit (it : IntTable)
      (h : it =
        { src := s.it.src.map (fun x => { x with handler := 0, forced := false, enable := false })
          gnorm := true, gfast := true }) :
      Effect s .itcInit (done 1 .ok 0 { s with it := it })
  | setHandler (v : Byte) (h : Word) (hv : v.toNat < s.cfg.nsrc) :
      Effect s (.itcSetHandler v h)
        (done 2 .ok 0 (s.setSource v.toNat { s.source v.toNat with handler := h }))
  | enable (v : Byte) (hv : v.toNat < s.cfg.nsrc) :
      Effect s (.itcEnable v)
        (done 1 .ok 0 (s.setSource v.toNat { s.source v.toNat with enable := true }))
  | disable (v : Byte) (hv : v.toNat < s.cfg.nsrc) :
      Effect s (.itcDisable v)
        (done 1 .ok 0 (s.setSource v.toNat { s.source v.toNat with enable := false }))
  | setPriority (v c : Byte) (hv : v.toNat < s.cfg.nsrc) :
      Effect s (.itcSetPriority v c)
        (done 1 .ok 0
          (s.setSource v.toNat { s.source v.toNat with prio := classOfBit (c.getLsbD 0) }))
  | disableAll :
      Effect s .itcDisableAll (done 1 .ok (globalWord s) (s.setGlobal false false))
  | restoreAll (p : Byte) :
      Effect s (.itcRestoreAll p) (done 1 .ok 0 (s.setGlobal (p.getLsbD 0) (p.getLsbD 1)))
  | force (v : Byte) (hv : v.toNat < s.cfg.nsrc) :
      Effect s (.itcForce v)
        (done 1 .ok 0 (s.setSource v.toNat { s.source v.toNat with forced := true }))
  | unforce (v : Byte) (hv : v.toNat < s.cfg.nsrc) :
      Effect s (.itcUnforce v)
        (done 1 .ok 0 (s.setSource v.toNat { s.source v.toNat with forced := false }))
  | turnedAway (i : Instr) (st : Status) : Effect s i (done i.words st 0 s)
  | uartInit (l : Byte) (baud name div : Word) (hl : l.toNat < s.cfg.nlines)
      (hi : (s.line l.toNat).inited = false) (hd : divisor s.cfg baud = some div) :
      Effect s (.uartInit l baud name) (done 3 .ok 0 (initUart div l.toNat s))
  | sendByteEnters (l b : Byte) (hl : l.toNat < s.cfg.nlines)
      (hi : (s.line l.toNat).inited = true) :
      Effect s (.uartSendByte l b)
        { setMask l.toNat .tx true s with
          fg := { pc := s.fg.pc, phase := .sbDrain, sv := (s.line l.toNat).mtx, lb := b, ll := l } }
  | receiveByteEnters (l : Byte) (hl : l.toNat < s.cfg.nlines)
      (hi : (s.line l.toNat).inited = true) :
      Effect s (.uartReceiveByte l)
        { setMask l.toNat .rx true s with
          fg := { s.fg with phase := .rbGet, sv := (s.line l.toNat).mrx, ll := l } }
  | send (l : Byte) (p n : Word) (q : Nat)
      (hq : q = sendCount n (s.ring (rsel l.toNat .tx)))
      (hg : transferGoes s l p n q = true) :
      Effect s (.uartSend l p n)
        (done 3 .ok (BitVec.ofNat 32 q)
          (setMask l.toNat .tx (if 1 ≤ q then false else (s.line l.toNat).mtx)
            (copyIn (rsel l.toNat .tx) p.toNat q (setMask l.toNat .tx true s))))
  | receive (l : Byte) (p n : Word) (q : Nat)
      (hq : q = receiveCount n (s.ring (rsel l.toNat .rx)))
      (hg : transferGoes s l p n q = true) :
      Effect s (.uartReceive l p n)
        (done 3 .ok (BitVec.ofNat 32 q)
          (setMask l.toNat .rx (if 1 ≤ q then false else (s.line l.toNat).mrx)
            (copyOut (rsel l.toNat .rx) p.toNat q (setMask l.toNat .rx true s))))
  | setRxCallback (l : Byte) (tok : Word) (hl : l.toNat < s.cfg.nlines)
      (hi : (s.line l.toNat).inited = true) :
      Effect s (.uartSetRxCallback l tok)
        (done 2 .ok 0 (s.setLine l.toNat { s.line l.toNat with rxcb := tok }))
  | setTxCallback (l : Byte) (tok : Word) (hl : l.toNat < s.cfg.nlines)
      (hi : (s.line l.toNat).inited = true) :
      Effect s (.uartSetTxCallback l tok)
        (done 2 .ok 0 (s.setLine l.toNat { s.line l.toNat with txcb := tok }))
  | rdreg (inst regno : Byte) (r : Reg) (h : validReg s.cfg regno inst = some r) :
      Effect s (.rdreg inst regno) (done 1 .ok (regValue s inst.toNat r) s)

theorem transferGoes_iff {s : State} {l : Byte} {p n : Word} {q : Nat} :
    transferGoes s l p n q = true ↔ l.toNat < s.cfg.nlines ∧ p ≠ 0 ∧ n ≠ 0 ∧
      (s.line l.toNat).inited = true ∧ passesTop p q = false := by
  simp [transferGoes, and_assoc]

/-- The common checks of R190: turned away, faulted, or on to the command itself. -/
theorem checked_cases (n : Nat) (l : Byte) (bad wanted : Bool) (s : State)
    (f : Nat → State → State) :
    (∃ st, checked n l bad wanted s f = done n st 0 s) ∨
    checked n l bad wanted s f = raise .lineState s ∨
    (l.toNat < s.cfg.nlines ∧ bad = false ∧ (s.line l.toNat).inited = wanted ∧
      checked n l bad wanted s f = f l.toNat s) := by
  unfold checked
  split
  · exact .inl ⟨_, rfl⟩
  · split
    · exact .inl ⟨_, rfl⟩
    · split
      · exact .inr (.inl rfl)
      · next h1 h2 h3 =>
        exact .inr (.inr ⟨by omega, by simpa using h2, by simpa using h3, rfl⟩)

/-- A stream command started between commands has one of its effects. -/
theorem exec_effect {i : Instr} {s t : State} (ha : i.agent = .fg) (hp : s.fg.phase = .idle)
    (h : exec i s = .next t) : Effect s i t := by
  cases i <;> first | (cases ha; done) | skip
  case rbInit k cap =>
    cases h; unfold onRing; beta_reduce; split
    · exact .faults _ _
    · split
      · exact .faults _ _
      · exact .rbInit k cap (by omega) (by omega)
  case rbWrite k b =>
    cases h; unfold onRing; beta_reduce; split
    · exact .faults _ _
    · cases hf : ringFull (s.ring k.toNat) with
      | true => rw [rbWrite_full b hf]; exact .rbWriteFull k b (by omega) hf
      | false =>
        have e : (rbWrite k.toNat b s).1 = true := by
          unfold rbWrite; rw [ringWrite_of_room _ _ hf]
        have := Effect.rbWriteRoom (s := s) k b (by omega) hf
        split
        · next s1 e1 => rw [e1] at this; exact this
        · next s1 e1 => rw [e1] at e; cases e
  case rbRead k =>
    cases h; unfold onRing; beta_reduce; split
    · exact .faults _ _
    · cases hf : ringEmpty (s.ring k.toNat) with
      | true => rw [rbRead_empty hf]; exact .rbReadEmpty k (by omega) hf
      | false =>
        have e : ∃ b, (rbRead k.toNat s).1 = some b := by
          unfold rbRead; rw [ringRead_of_bytes _ _ hf]; exact ⟨_, rfl⟩
        obtain ⟨b, hb⟩ := e
        have := Effect.rbReadByte (s := s) k b (by omega) hf hb
        generalize rbRead k.toNat s = x at hb this ⊢
        obtain ⟨x1, x2⟩ := x
        subst hb
        exact this
  case rbIsFull k =>
    cases h; unfold onRing; beta_reduce; split
    · exact .faults _ _
    · exact .rbIsFull k (by omega)
  case rbIsEmpty k =>
    cases h; unfold onRing; beta_reduce; split
    · exact .faults _ _
    · exact .rbIsEmpty k (by omega)
  case itcInit => cases h; exact .itcInit _ rfl
  case itcDisableAll => cases h; exact .disableAll
  case itcRestoreAll p => cases h; exact .restoreAll p
  case itcSetHandler v x =>
    cases h; unfold onSource; beta_reduce; split
    · exact .faults _ _
    · exact .setHandler v x (by omega)
  case itcEnable v =>
    cases h; unfold onSource; beta_reduce; split
    · exact .faults _ _
    · exact .enable v (by omega)
  case itcDisable v =>
    cases h; unfold onSource; beta_reduce; split
    · exact .faults _ _
    · exact .disable v (by omega)
  case itcSetPriority v c =>
    cases h; unfold onSource; beta_reduce; split
    · exact .faults _ _
    · exact .setPriority v c (by omega)
  case itcForce v =>
    cases h; unfold onSource; beta_reduce; split
    · exact .faults _ _
    · exact .force v (by omega)
  case itcUnforce v =>
    cases h; unfold onSource; beta_reduce; split
    · exact .faults _ _
    · exact .unforce v (by omega)
  case uartInit l baud name =>
    replace h := Host.Outcome.next.inj h
    rw [← h]
    rcases checked_cases 3 l (name == 0 || s.mem.read name.toNat == 0) false s _ with
      ⟨st, e⟩ | e | ⟨hl, -, hi, e⟩ <;> rw [e]
    · exact .turnedAway (.uartInit l baud name) st
    · exact .faults _ _
    · split
      · exact .faults _ _
      · next div hd => exact .uartInit l baud name div hl hi hd
  case uartSend l p n =>
    replace h := Host.Outcome.next.inj h
    rw [← h]
    rcases checked_cases 3 l (p == 0 || n == 0) true s _ with
      ⟨st, e⟩ | e | ⟨hl, hb, hi, e⟩ <;> rw [e]
    · exact .turnedAway (.uartSend l p n) st
    · exact .faults _ _
    · unfold transfer; split
      · exact .faults _ _
      · next hpt =>
        simp only [Bool.or_eq_false_iff, beq_eq_false_iff_ne] at hb
        exact .send l p n _ rfl (transferGoes_iff.2 ⟨hl, hb.1, hb.2, hi, by simpa using hpt⟩)
  case uartReceive l p n =>
    replace h := Host.Outcome.next.inj h
    rw [← h]
    rcases checked_cases 3 l (p == 0 || n == 0) true s _ with
      ⟨st, e⟩ | e | ⟨hl, hb, hi, e⟩ <;> rw [e]
    · exact .turnedAway (.uartReceive l p n) st
    · exact .faults _ _
    · unfold transfer; split
      · exact .faults _ _
      · next hpt =>
        simp only [Bool.or_eq_false_iff, beq_eq_false_iff_ne] at hb
        exact .receive l p n _ rfl (transferGoes_iff.2 ⟨hl, hb.1, hb.2, hi, by simpa using hpt⟩)
  case uartSetRxCallback l tok =>
    replace h := Host.Outcome.next.inj h
    rw [← h]
    rcases checked_cases 2 l (tok == 0) true s _ with ⟨st, e⟩ | e | ⟨hl, -, hi, e⟩ <;> rw [e]
    · exact .turnedAway (.uartSetRxCallback l tok) st
    · exact .faults _ _
    · exact .setRxCallback l tok hl hi
  case uartSetTxCallback l tok =>
    replace h := Host.Outcome.next.inj h
    rw [← h]
    rcases checked_cases 2 l (tok == 0) true s _ with ⟨st, e⟩ | e | ⟨hl, -, hi, e⟩ <;> rw [e]
    · exact .turnedAway (.uartSetTxCallback l tok) st
    · exact .faults _ _
    · exact .setTxCallback l tok hl hi
  case uartSendByte l b =>
    simp only [exec, execUartSendByte, hp] at h
    cases h; unfold enterBlocking; split
    · exact .faults _ _
    · split
      · exact .faults _ _
      · next hl hi => exact .sendByteEnters l b (by omega) (by simpa using hi)
  case uartReceiveByte l =>
    simp only [exec, execUartReceiveByte, hp] at h
    cases h; unfold enterBlocking; split
    · exact .faults _ _
    · split
      · exact .faults _ _
      · next hl hi => exact .receiveByteEnters l (by omega) (by simpa using hi)
  case rdreg inst regno =>
    cases h; split
    · next r hr => exact .rdreg inst regno r hr
    · exact .faults _ _

end Sys2Proof.Machine
end

