-- ==== Sys2Proof/Laws/Frames.lean ====
section
/-! SUPPORT. What the larger operations leave unchanged, said once: the buffer copies, the steps of
`ENV`, of a running handler and of a blocking command, the start of a command. -/

namespace Sys2Proof.Machine

/-! ### Reading back any element -/

theorem ring_setRing (s : State) (k j : Nat) (r : Ring) :
    (s.setRing k r).ring j = if k = j ∧ k < s.rb.length then r else s.ring j := by
  by_cases e : k = j
  · subst e
    by_cases hl : k < s.rb.length
    · simp [hl]
    · simp only [hl, and_false, if_false]
      show (s.rb.set k r).getD k default = _
      rw [List.set_eq_of_length_le (by omega)]; rfl
  · simp [e, ring_setRing_of_ne]

theorem line_setLine (s : State) (l j : Nat) (u : Line) :
    (s.setLine l u).line j = if l = j ∧ l < s.ul.length then u else s.line j := by
  by_cases e : l = j
  · subst e
    by_cases hl : l < s.ul.length
    · simp [hl]
    · simp only [hl, and_false, if_false]
      show (s.ul.set l u).getD l default = _
      rw [List.set_eq_of_length_le (by omega)]; rfl
  · simp [e, line_setLine_of_ne]

theorem source_setSource (s : State) (v j : Nat) (x : Source) :
    (s.setSource v x).source j = if v = j ∧ v < s.it.src.length then x else s.source j := by
  by_cases e : v = j
  · subst e
    by_cases hl : v < s.it.src.length
    · simp [hl]
    · simp only [hl, and_false, if_false]
      show (s.it.src.set v x).getD v Source.atReset = _
      rw [List.set_eq_of_length_le (by omega)]; rfl
  · simp [e, source_setSource_of_ne]

theorem find_range {n v : Nat} {p : Nat → Bool} (h : (List.range n).find? p = some v) :
    v < n ∧ p v = true := by
  refine ⟨?_, by have := List.find?_some h; exact this⟩
  simpa using List.mem_of_find?_eq_some h

/-- A ready condition needs a trigger, which only an initialised line has (R10, R40, R56). -/
theorem ready_inited {s : State} (h : s.DataOk) {l : Nat} {d : Dir} (hl : l < s.cfg.nlines)
    (hr : ready s l d = true) : (s.line l).inited = true := by
  cases hi : (s.line l).inited
  · obtain ⟨-, -, -, h4⟩ := h.lineOk hl
    obtain ⟨-, -, -, -, -, a, b⟩ := h4 hi
    cases d <;> simp [ready, rxReady, txReady, a, b] at hr
  · rfl

/-- What the parameters of a line satisfy (R7, R8). -/
theorem line_param {p : Params} (ok : p.Ok) {l : Nat} (hl : l < p.nlines) :
    (p.line l).src < p.nsrc ∧ (p.line l).capRx ≤ p.cmax ∧ (p.line l).capTx ≤ p.cmax ∧
      1 ≤ (p.line l).capRx ∧ 1 ≤ (p.line l).capTx := by
  obtain ⟨-, -, -, -, h5, -, -, h8, -⟩ := ok
  have m : p.line l ∈ p.lines := getD_mem _ _ _ hl
  have := h8 _ m
  exact ⟨h5 _ m, by omega, by omega, by omega, by omega⟩

/-! ### Buffer copies, whatever the ring and the range -/

theorem copyIn_same (k : Nat) (q p : Nat) (s : State) : ∃ r, copyIn k p q s = s.setRing k r := by
  induction q generalizing s p with
  | zero => exact ⟨s.ring k, by simp [copyIn]⟩
  | succ q ih =>
    obtain ⟨r, e⟩ := ih (p + 1) (rbWrite k (s.mem.read p) s).2
    exact ⟨r, by rw [copyIn, e]; simp [rbWrite]⟩

theorem copyOut_same (k : Nat) (q p : Nat) (s : State) :
    ∃ r m, copyOut k p q s = { s.setRing k r with mem := m } ∧
      ∀ a, a < p ∨ p + q ≤ a → m.read a = s.mem.read a := by
  induction q generalizing s p with
  | zero => exact ⟨s.ring k, s.mem, by simp [copyOut], fun _ _ => rfl⟩
  | succ q ih =>
    rw [copyOut]
    cases hb : (rbRead k s).1 with
    | none =>
      have : rbRead k s = (none, (rbRead k s).2) := by rw [← hb]
      rw [this]
      exact ⟨(ringRead (s.powerOn k) (s.ring k)).2, s.mem, rfl, fun _ _ => rfl⟩
    | some b =>
      have : rbRead k s = (some b, (rbRead k s).2) := by rw [← hb]
      rw [this]
      obtain ⟨r, m, e, hm⟩ := ih (p + 1) ((rbRead k s).2.storeByte p b)
      refine ⟨r, m, ?_, fun a ha => ?_⟩
      · dsimp only
        rw [e]
        show { s with rb := (s.rb.set k _).set k r, mem := m } = _
        rw [List.set_set]; rfl
      · rw [hm a (by omega)]
        exact mem_read_write_of_ne _ _ _ _ (by omega)

/-! ### One byte moved, one flag and one event: which fields can differ -/

theorem moveTx_eq (l : Nat) (s : State) :
    moveTx l s = { s with rb := (moveTx l s).rb, ul := (moveTx l s).ul } := by
  unfold moveTx rbRead
  generalize (ringRead (s.powerOn (rsel l .tx)) (s.ring (rsel l .tx))).1 = x
  cases x <;> rfl

theorem moveRx_eq (l : Nat) (s : State) :
    moveRx l s = { s with rb := (moveRx l s).rb, ul := (moveRx l s).ul } := by
  unfold moveRx rbWrite
  split <;> rfl

theorem isrRxEnd_eq (l : Nat) (s : State) :
    isrRxEnd l s =
      { s with
        ul := (isrRxEnd l s).ul, ev := (isrRxEnd l s).ev, ih := { s.ih with phase := .txTest } } := by
  unfold isrRxEnd suppressIf announce
  split <;> split <;> rfl

theorem isrTxEnd_eq (l : Nat) (s : State) :
    isrTxEnd l s =
      { s with
        ul := (isrTxEnd l s).ul, ev := (isrTxEnd l s).ev, ih := { s.ih with phase := .idle } } := by
  unfold isrTxEnd suppressIf announce
  split <;> split <;> rfl

theorem sendByteDrain_eq (l : Nat) (s : State) :
    sendByteDrain l s =
      { s with
        rb := (sendByteDrain l s).rb, ul := (sendByteDrain l s).ul,
        fg := { s.fg with phase := (sendByteDrain l s).fg.phase } } := by
  unfold sendByteDrain
  split
  · rfl
  · split
    · rw [moveTx_eq]
    · rfl

theorem sendBytePut_eq (l : Nat) (s : State) :
    sendBytePut l s =
      { s with
        ul := (sendBytePut l s).ul, fg := { s.fg with phase := (sendBytePut l s).fg.phase } } := by
  unfold sendBytePut
  split <;> rfl

theorem receiveByteGet_eq (l : Nat) (s : State) :
    receiveByteGet l s =
      { s with
        rb := (receiveByteGet l s).rb, ul := (receiveByteGet l s).ul,
        fg :=
          { s.fg with
            phase := (receiveByteGet l s).fg.phase, lb := (receiveByteGet l s).fg.lb } } := by
  unfold receiveByteGet rbRead
  generalize (ringRead (s.powerOn (rsel l .rx)) (s.ring (rsel l .rx))).1 = x
  cases x with
  | some v => rfl
  | none => cases (s.line l).hwrx <;> rfl

/-! ### The environment -/

/-- A step of `ENV` writes the FIFOs, the request inputs and `EV` only, and `EV` only grows
(R268 to R270). -/
theorem envStep_eq (e : EnvStep) (s : State) :
    envStep e s =
        { s with
          ul := (envStep e s).ul, extreq := (envStep e s).extreq, ev := (envStep e s).ev } ∧
      s.ev <+: (envStep e s).ev := by
  cases e with
  | rxArrive l b =>
    show rxArrive l b s = { s with
      ul := (rxArrive l b s).ul, extreq := (rxArrive l b s).extreq, ev := (rxArrive l b s).ev } ∧
      s.ev <+: (rxArrive l b s).ev
    unfold rxArrive
    split
    · exact ⟨rfl, ⟨[], List.append_nil _⟩⟩
    · split
      · exact ⟨rfl, ⟨[], List.append_nil _⟩⟩
      · exact ⟨rfl, ⟨_, rfl⟩⟩
  | txDepart l =>
    show txDepart l s = { s with
      ul := (txDepart l s).ul, extreq := (txDepart l s).extreq, ev := (txDepart l s).ev } ∧
      s.ev <+: (txDepart l s).ev
    unfold txDepart
    split
    · exact ⟨rfl, ⟨[], List.append_nil _⟩⟩
    · split
      · exact ⟨rfl, ⟨_, rfl⟩⟩
      · exact ⟨rfl, ⟨[], List.append_nil _⟩⟩
  | extSet v b =>
    show extSet v b s = { s with
      ul := (extSet v b s).ul, extreq := (extSet v b s).extreq, ev := (extSet v b s).ev } ∧
      s.ev <+: (extSet v b s).ev
    unfold extSet
    split <;> exact ⟨rfl, ⟨[], List.append_nil _⟩⟩

/-! ### The handler engine -/

/-- The service routine faults, enters a UART handler or announces an external one (R247 to
R249). -/
theorem service_cases {s t : State} {c : PrioClass} (h : service c s = .next t) :
    ∃ v, vector s c = some v ∧ v < s.cfg.nsrc ∧ liveIn s c v = true ∧
      (((s.source v).handler = 0 ∧ t = raise .noHandler s) ∨
       ((s.source v).handler ≠ 0 ∧ ∃ l, uartLineOf s.cfg (s.source v).handler = some l ∧
          l < s.cfg.nlines ∧ t = startIsr c v l s) ∨
       ((s.source v).handler ≠ 0 ∧ uartLineOf s.cfg (s.source v).handler = none ∧
          t = s.emit (.external v (s.source v).handler))) := by
  unfold service at h
  split at h
  · next v hv =>
    cases h
    refine ⟨v, hv, (find_range hv).1, (find_range hv).2, ?_⟩
    unfold dispatch
    split
    · next hz => exact .inl ⟨hz, rfl⟩
    · next hz =>
      split
      · next l hl => exact .inr (.inl ⟨hz, l, hl, (find_range hl).1, rfl⟩)
      · next hl => exact .inr (.inr ⟨hz, hl, rfl⟩)
  · cases h

/-- A step of the running handler, by its phase (R251 to R256). -/
theorem uartIsr_cases {s t : State} {l : Byte} (hi : s.ih.phase ≠ .idle)
    (h : exec (.uartIsr l) s = .next t) :
    s.ihLine < s.cfg.nlines ∧
      ((s.ih.phase = .rxTest ∧ t = isrRxTest s.ihLine s) ∨
       (s.ih.phase = .rxLoop ∧ t = isrRxLoop s.ihLine s) ∨
       (s.ih.phase = .rxEnd ∧ t = isrRxEnd s.ihLine s) ∨
       (s.ih.phase = .txTest ∧ t = isrTxTest s.ihLine s) ∨
       (s.ih.phase = .txLoop ∧ t = isrTxLoop s.ihLine s) ∨
       (s.ih.phase = .txEnd ∧ t = isrTxEnd s.ihLine s)) := by
  cases hp : s.ih.phase
  · exact absurd hp hi
  all_goals
    simp only [exec, execUartIsr, hp, onHandlerLine] at h
    split at h
    · cases h
    · next hl =>
      cases h
      exact ⟨Nat.not_le.1 hl, by simp [State.ihLine]⟩

/-- A step of the running handler writes the rings, the line records, its phase and `EV` only
(R171, R258). -/
theorem uartIsr_frame {s t : State} {l : Byte} (hi : s.ih.phase ≠ .idle)
    (h : exec (.uartIsr l) s = .next t) :
    t = { s with rb := t.rb, ul := t.ul, ev := t.ev, ih := { s.ih with phase := t.ih.phase } } := by
  obtain ⟨-, h⟩ := uartIsr_cases hi h
  rcases h with ⟨-, rfl⟩ | ⟨-, rfl⟩ | ⟨-, rfl⟩ | ⟨-, rfl⟩ | ⟨-, rfl⟩ | ⟨-, rfl⟩
  · rfl
  · unfold isrRxLoop
    split
    · rw [moveRx_eq]
    · rfl
  · rw [isrRxEnd_eq]
  · rfl
  · unfold isrTxLoop
    split
    · rw [moveTx_eq]
    · rfl
  · rw [isrTxEnd_eq]

/-! ### Blocking commands -/

/-- A later step of a blocking command: it moves data and its own phase and latch, or it restores
the flag and completes (R201 to R203, R206, R207). -/
inductive Later (s : State) : State → Prop where
  | goesOn (t : State)
      (h : t = { s with
        rb := t.rb, ul := t.ul, fg := { s.fg with phase := t.fg.phase, lb := t.fg.lb } }) : Later s t
  | completes (d : Dir) (v : Word)
      (h : (s.fg.phase = .sbRestore ∧ d = .tx ∧ v = 0) ∨
        (s.fg.phase = .rbRestore ∧ d = .rx ∧ v = s.fg.lb.setWidth 32)) :
      Later s (done 1 .ok v (setMask s.fgLine d s.fg.sv s))

theorem later_sendByte {s t : State} {l b : Byte} (h : s.fg.phase.sending = true)
    (he : exec (.uartSendByte l b) s = .next t) : Later s t := by
  cases hp : s.fg.phase <;> simp only [hp, FgPhase.sending] at h <;> first | (cases h; done) | skip
  all_goals
    simp only [exec, execUartSendByte, hp, onLatchedLine] at he
    split at he
    · cases he
    cases he
  · exact .goesOn _ (by rw [sendByteDrain_eq])
  · exact .goesOn _ (by rw [sendBytePut_eq])
  · exact .completes .tx 0 (.inl ⟨hp, rfl, rfl⟩)

theorem later_receiveByte {s t : State} {l : Byte} (h : s.fg.phase.receiving = true)
    (he : exec (.uartReceiveByte l) s = .next t) : Later s t := by
  cases hp : s.fg.phase <;> simp only [hp, FgPhase.receiving] at h <;>
    first | (cases h; done) | skip
  all_goals
    simp only [exec, execUartReceiveByte, hp, onLatchedLine] at he
    split at he
    · cases he
    cases he
  · exact .goesOn _ (receiveByteGet_eq _ _)
  · exact .completes .rx _ (.inr ⟨hp, rfl, rfl⟩)

/-! ### The start of a command -/

/-- What the start of any command leaves unchanged (R116, R240, R264). -/
theorem effect_frame {s t : State} {i : Instr} (h : Effect s i t) :
    t.cfg = s.cfg ∧ t.life = s.life ∧ t.prog = s.prog ∧ t.extreq = s.extreq ∧
      t.turns = s.turns ∧ t.stalled = s.stalled ∧ t.ih = s.ih ∧ s.ev <+: t.ev := by
  cases h with
  | send l p n q hq hg =>
    obtain ⟨r, e⟩ := copyIn_same (rsel l.toNat .tx) q p.toNat (setMask l.toNat .tx true s)
    rw [e]
    exact ⟨rfl, rfl, rfl, rfl, rfl, rfl, rfl, ⟨_, rfl⟩⟩
  | receive l p n q hq hg =>
    obtain ⟨r, m, e, -⟩ := copyOut_same (rsel l.toNat .rx) q p.toNat (setMask l.toNat .rx true s)
    rw [e]
    exact ⟨rfl, rfl, rfl, rfl, rfl, rfl, rfl, ⟨_, rfl⟩⟩
  | faults => simp
  | uartInit => exact ⟨rfl, rfl, rfl, rfl, rfl, rfl, rfl, ⟨_, (List.append_assoc _ _ _).symm⟩⟩
  | sendByteEnters => exact ⟨rfl, rfl, rfl, rfl, rfl, rfl, rfl, ⟨[], List.append_nil _⟩⟩
  | receiveByteEnters => exact ⟨rfl, rfl, rfl, rfl, rfl, rfl, rfl, ⟨[], List.append_nil _⟩⟩
  | _ => exact ⟨rfl, rfl, rfl, rfl, rfl, rfl, rfl, ⟨_, rfl⟩⟩

/-- What a step that starts `i` does is one of the effects of `i`. -/
theorem effect_of_starting {s t : State} {i : Instr} (hi : starting s = some i)
    (he : exec i (afterTurn s) = .next t) : Effect (afterTurn s) i t := by
  obtain ⟨-, -, hp, -, hf⟩ := starting_fetch hi
  exact exec_effect (fetch_agent hf) hp he

end Sys2Proof.Machine
end

