-- ==== Sys2Proof/Laws/PerInstr.lean ====
section
/-! SUPPORT. A fact about every instruction as syntax, one lemma per constructor: a command has one,
two or three words, and its first word carries its opcode (R100, R104, R105). -/

namespace Sys2Proof.Laws

/-- The opcode of a row of the opcode map (R105). -/
def opcodeOf : Instr → Byte
  | .rbInit _ _ => 0x01
  | .rbWrite _ _ => 0x02
  | .rbRead _ => 0x03
  | .rbIsFull _ => 0x04
  | .rbIsEmpty _ => 0x05
  | .itcInit => 0x10
  | .itcSetHandler _ _ => 0x11
  | .itcEnable _ => 0x12
  | .itcDisable _ => 0x13
  | .itcSetPriority _ _ => 0x14
  | .itcDisableAll => 0x15
  | .itcRestoreAll _ => 0x16
  | .itcForce _ => 0x17
  | .itcUnforce _ => 0x18
  | .itcServiceNormal => 0x19
  | .itcServiceFast => 0x1A
  | .uartInit _ _ _ => 0x20
  | .uartSendByte _ _ => 0x21
  | .uartReceiveByte _ => 0x22
  | .uartSend _ _ _ => 0x23
  | .uartReceive _ _ _ => 0x24
  | .uartSetRxCallback _ _ => 0x25
  | .uartSetTxCallback _ _ => 0x26
  | .uartIsr _ => 0x27
  | .rdreg _ _ => 0x30

/-- The length of a row in words (R105). -/
def lengthOf : Instr → Nat
  | .uartInit _ _ _ => 3
  | .uartSend _ _ _ => 3
  | .uartReceive _ _ _ => 3
  | .itcSetHandler _ _ => 2
  | .uartSetRxCallback _ _ => 2
  | .uartSetTxCallback _ _ => 2
  | .rbInit _ _ => 1
  | .rbWrite _ _ => 1
  | .rbRead _ => 1
  | .rbIsFull _ => 1
  | .rbIsEmpty _ => 1
  | .itcInit => 1
  | .itcEnable _ => 1
  | .itcDisable _ => 1
  | .itcSetPriority _ _ => 1
  | .itcDisableAll => 1
  | .itcRestoreAll _ => 1
  | .itcForce _ => 1
  | .itcUnforce _ => 1
  | .itcServiceNormal => 1
  | .itcServiceFast => 1
  | .uartSendByte _ _ => 1
  | .uartReceiveByte _ => 1
  | .uartIsr _ => 1
  | .rdreg _ _ => 1

/-- The words of an instruction are as many as its row says, and the first carries its opcode. -/
def encodedForm.Statement (i : Instr) : Prop :=
  i.words = lengthOf i ∧ ∃ cw ops, encode i = cw :: ops ∧ opcOf cw = opcodeOf i

theorem encodedForm.rbInit (k : Byte) (cap : Half) : encodedForm.Statement (.rbInit k cap) :=
  ⟨rfl, _, _, rfl, opcOf_capacityWord _ _ _⟩

theorem encodedForm.rbWrite (k b : Byte) : encodedForm.Statement (.rbWrite k b) :=
  ⟨rfl, _, _, rfl, opcOf_commandWord _ _ _ _⟩

theorem encodedForm.rbRead (k : Byte) : encodedForm.Statement (.rbRead k) :=
  ⟨rfl, _, _, rfl, opcOf_commandWord _ _ _ _⟩

theorem encodedForm.rbIsFull (k : Byte) : encodedForm.Statement (.rbIsFull k) :=
  ⟨rfl, _, _, rfl, opcOf_commandWord _ _ _ _⟩

theorem encodedForm.rbIsEmpty (k : Byte) : encodedForm.Statement (.rbIsEmpty k) :=
  ⟨rfl, _, _, rfl, opcOf_commandWord _ _ _ _⟩

theorem encodedForm.itcInit : encodedForm.Statement .itcInit :=
  ⟨rfl, _, _, rfl, opcOf_commandWord _ _ _ _⟩

theorem encodedForm.itcSetHandler (s : Byte) (h : Word) :
    encodedForm.Statement (.itcSetHandler s h) :=
  ⟨rfl, _, _, rfl, opcOf_commandWord _ _ _ _⟩

theorem encodedForm.itcEnable (s : Byte) : encodedForm.Statement (.itcEnable s) :=
  ⟨rfl, _, _, rfl, opcOf_commandWord _ _ _ _⟩

theorem encodedForm.itcDisable (s : Byte) : encodedForm.Statement (.itcDisable s) :=
  ⟨rfl, _, _, rfl, opcOf_commandWord _ _ _ _⟩

theorem encodedForm.itcSetPriority (s c : Byte) : encodedForm.Statement (.itcSetPriority s c) :=
  ⟨rfl, _, _, rfl, opcOf_commandWord _ _ _ _⟩

theorem encodedForm.itcDisableAll : encodedForm.Statement .itcDisableAll :=
  ⟨rfl, _, _, rfl, opcOf_commandWord _ _ _ _⟩

theorem encodedForm.itcRestoreAll (p : Byte) : encodedForm.Statement (.itcRestoreAll p) :=
  ⟨rfl, _, _, rfl, opcOf_commandWord _ _ _ _⟩

theorem encodedForm.itcForce (s : Byte) : encodedForm.Statement (.itcForce s) :=
  ⟨rfl, _, _, rfl, opcOf_commandWord _ _ _ _⟩

theorem encodedForm.itcUnforce (s : Byte) : encodedForm.Statement (.itcUnforce s) :=
  ⟨rfl, _, _, rfl, opcOf_commandWord _ _ _ _⟩

theorem encodedForm.itcServiceNormal : encodedForm.Statement .itcServiceNormal :=
  ⟨rfl, _, _, rfl, opcOf_commandWord _ _ _ _⟩

theorem encodedForm.itcServiceFast : encodedForm.Statement .itcServiceFast :=
  ⟨rfl, _, _, rfl, opcOf_commandWord _ _ _ _⟩

theorem encodedForm.uartInit (l : Byte) (baud name : Word) :
    encodedForm.Statement (.uartInit l baud name) :=
  ⟨rfl, _, _, rfl, opcOf_commandWord _ _ _ _⟩

theorem encodedForm.uartSendByte (l b : Byte) : encodedForm.Statement (.uartSendByte l b) :=
  ⟨rfl, _, _, rfl, opcOf_commandWord _ _ _ _⟩

theorem encodedForm.uartReceiveByte (l : Byte) : encodedForm.Statement (.uartReceiveByte l) :=
  ⟨rfl, _, _, rfl, opcOf_commandWord _ _ _ _⟩

theorem encodedForm.uartSend (l : Byte) (p n : Word) : encodedForm.Statement (.uartSend l p n) :=
  ⟨rfl, _, _, rfl, opcOf_commandWord _ _ _ _⟩

theorem encodedForm.uartReceive (l : Byte) (p n : Word) :
    encodedForm.Statement (.uartReceive l p n) :=
  ⟨rfl, _, _, rfl, opcOf_commandWord _ _ _ _⟩

theorem encodedForm.uartSetRxCallback (l : Byte) (t : Word) :
    encodedForm.Statement (.uartSetRxCallback l t) :=
  ⟨rfl, _, _, rfl, opcOf_commandWord _ _ _ _⟩

theorem encodedForm.uartSetTxCallback (l : Byte) (t : Word) :
    encodedForm.Statement (.uartSetTxCallback l t) :=
  ⟨rfl, _, _, rfl, opcOf_commandWord _ _ _ _⟩

theorem encodedForm.uartIsr (l : Byte) : encodedForm.Statement (.uartIsr l) :=
  ⟨rfl, _, _, rfl, opcOf_commandWord _ _ _ _⟩

theorem encodedForm.rdreg (inst regno : Byte) : encodedForm.Statement (.rdreg inst regno) :=
  ⟨rfl, _, _, rfl, opcOf_commandWord _ _ _ _⟩

end Sys2Proof.Laws
end

