-- ==== Sys2Proof/Tests/Slice0.lean ====
section
/-! SUPPORT. Tests: which terms are ill-formed, one word per operation from the spec's encodings, one
or two steps per operation from the examples of its rule, and for every statement with hypotheses a
state and operands that meet them. -/

namespace Sys2Proof.Tests

open Sys2Proof.Machine

/-! ### States built by the commands themselves -/

/-- The answer is a next state of which `p` holds. -/
def nextIs (r : Result) (p : State → Bool) : Bool :=
  match r with
  | .next t => p t
  | .fault _ => false
  | .refused _ => false

/-- The state after a command; the state itself where it has none. -/
def after (s : State) (i : Instr) : State :=
  match exec i s with
  | .next t => t
  | .fault _ => s
  | .refused _ => s

/-- A run's first state with these parameters, commands in `PROG`, the byte `'u'` at `MEM[0x100]`. -/
def start (p : Params) (prog : List Word) (turns : List Turn) : State :=
  State.boot
    { cfg := p, prog := prog, mem := [(0x100, 0x75)], extreq := List.replicate p.nsrc false,
      turns := turns, stalled := [] } 0

/-- The state after `is`, with `next` still to come in `PROG`. -/
def demo (p : Params) (is next : List Instr) (turns : List Turn) : State :=
  is.foldl after (start p ((is ++ next).flatMap encode) turns)

/-- The state after `is` with the default parameters (R6 to R11). -/
def std (is : List Instr) : State := demo Config.defaults is [] []

def tinyLine (l : Nat) : LineParams :=
  { src := l + 1, capRx := 3, capTx := 3, txd := 10, rxd := 11, cts := 12, rts := 13, base := 0 }

/-- Two lines, four sources, rings of at most four bytes, FIFOs of two. -/
def tiny : Params :=
  { lines := [tinyLine 0, tinyLine 1], nsrc := 4, cmax := 4, depth := 2, txTrig := 1,
    coreClockHz := 24000000, uartPinMode := 1 }

/-- A byte arrives on line 0. -/
def arrive (b : Byte) (s : State) : State := envStep (.rxArrive 0 b) s

/-- The handler of line 0 runs, in phase `p`. -/
def inHandler (p : IhPhase) (s : State) : State :=
  { s with ih := { phase := p, line := 0, src := 1, cls := .normal } }

/-- The next turns are `ts`. -/
def sched (ts : List Turn) (s : State) : State := { s with turns := ts }

/-! ### Ill-formed terms (R102, R109, R164, R166) -/

theorem test_wf_priority_refused : (Instr.itcSetPriority 2 2).wf = false := by decide
theorem test_wf_priority_top_refused : (Instr.itcSetPriority 2 0x81).wf = false := by decide
theorem test_wf_restore_refused : (Instr.itcRestoreAll 4).wf = false := by decide
theorem test_wf_restore_top_refused : (Instr.itcRestoreAll 0x83).wf = false := by decide
theorem test_wf_limits : (Instr.itcSetPriority 2 1).wf ∧ (Instr.itcRestoreAll 3).wf := by decide

/-! ### Words of the spec's examples (R146 to R168, R192 to R213, R230, R245 to R250) -/

theorem test_decode_rbInit : decode [0x01000004] = .ok (.rbInit 0 4) := by decide
theorem test_decode_rbInit_fields : decode [0x0103ABCD] = .ok (.rbInit 3 0xABCD) := by decide
theorem test_decode_rbWrite : decode [0x02000041] = .ok (.rbWrite 0 0x41) := by decide
theorem test_decode_rbRead : decode [0x03000000] = .ok (.rbRead 0) := by decide
theorem test_decode_rbIsFull : decode [0x04000000] = .ok (.rbIsFull 0) := by decide
theorem test_decode_rbIsEmpty : decode [0x05000000] = .ok (.rbIsEmpty 0) := by decide
theorem test_decode_itcInit : decode [0x10000000] = .ok .itcInit := by decide
theorem test_decode_itcSetHandler :
    decode [0x11050000, 0x00001234] = .ok (.itcSetHandler 5 0x1234) := by decide
theorem test_decode_itcEnable : decode [0x12010000] = .ok (.itcEnable 1) := by decide
theorem test_decode_itcDisable : decode [0x13010000] = .ok (.itcDisable 1) := by decide
theorem test_decode_itcSetPriority : decode [0x14020100] = .ok (.itcSetPriority 2 1) := by decide
theorem test_decode_itcDisableAll : decode [0x15000000] = .ok .itcDisableAll := by decide
theorem test_decode_itcRestoreAll : decode [0x16000003] = .ok (.itcRestoreAll 3) := by decide
theorem test_decode_itcForce : decode [0x17050000] = .ok (.itcForce 5) := by decide
theorem test_decode_itcUnforce : decode [0x18050000] = .ok (.itcUnforce 5) := by decide
theorem test_decode_itcServiceNormal : decode [0x19000000] = .ok .itcServiceNormal := by decide
theorem test_decode_itcServiceFast : decode [0x1A000000] = .ok .itcServiceFast := by decide
theorem test_decode_uartInit :
    decode [0x20000000, 0x00002580, 0x00000100] = .ok (.uartInit 0 9600 0x100) := by decide
theorem test_decode_uartSendByte : decode [0x21000063] = .ok (.uartSendByte 0 0x63) := by decide
theorem test_decode_uartReceiveByte : decode [0x22000000] = .ok (.uartReceiveByte 0) := by decide
theorem test_decode_uartSend :
    decode [0x23000000, 0x00000200, 0x00000002] = .ok (.uartSend 0 0x200 2) := by decide
theorem test_decode_uartReceive :
    decode [0x24000000, 0x00000300, 0x00000002] = .ok (.uartReceive 0 0x300 2) := by decide
theorem test_decode_uartSetRxCallback :
    decode [0x25000000, 0x0000CB01] = .ok (.uartSetRxCallback 0 0xCB01) := by decide
theorem test_decode_uartSetTxCallback :
    decode [0x26010000, 0x0000CB02] = .ok (.uartSetTxCallback 1 0xCB02) := by decide
theorem test_decode_uartIsr : decode [0x27010000] = .ok (.uartIsr 1) := by decide
theorem test_decode_rdreg : decode [0x30000300] = .ok (.rdreg 0 3) := by decide
theorem test_decode_zero : decode [0x00000000] = .error (.reservedOpcode 0) := by decide
theorem test_decode_ones : decode [0xFFFFFFFF] = .error (.reservedOpcode 0xFF) := by decide
theorem test_decode_mbz : decode [0x02000141] = .error .mustBeZero := by decide
theorem test_decode_truncated : decode [0x20000000, 0x00002580] = .error .truncated := by decide
theorem test_table_word : decodeTableWord 32 0x30000300 = some (.rdreg 0 3) := by decide
theorem test_encode_uartInit :
    encode (.uartInit 0 9600 0x100) = [0x20000000, 0x00002580, 0x00000100] := by decide

/-! ### The assembler (R112) -/

theorem test_asm_rbInit : assembleLine "RB_INIT 0, 4" = some (.rbInit 0 4) := by decide
theorem test_asm_selector_names :
    assembleLine "  RDREG 1.TX, RB_STAT ; status" = some (.rdreg 3 4) := by decide
theorem test_asm_class : assembleLine "ITC_SET_PRIORITY 2, FAST" = some (.itcSetPriority 2 1) := by
  decide
theorem test_asm_no_isr : assembleLine "UART_ISR 0" = none := by decide

/-! ### One step each, from the examples of the rules -/

/-- R146. -/
theorem test_rbInit :
    nextIs (exec (.rbInit 0 4) (std [])) (fun t =>
      t.ring 0 = { cap := 4, rd := 0, wr := 0, cnt := 0, mem := [] } ∧ t.r0 = 0 ∧ t.r1 = 0) := by
  decide
/-- R147. -/
theorem test_rbWrite :
    nextIs (exec (.rbWrite 0 0x41) (std [.rbInit 0 4])) (fun t =>
      t.ring 0 = { cap := 4, rd := 0, wr := 1, cnt := 1, mem := [(0, 0x41)] } ∧ t.r0 = 0 ∧
      t.r1 = 1) := by decide
/-- R147: at capacity 0 every write overruns. -/
theorem test_rbWrite_overrun :
    nextIs (exec (.rbWrite 0 0x41) (std [])) (fun t => t.r0 = 3 ∧ t.r1 = 0) := by decide
/-- R148. -/
theorem test_rbRead :
    nextIs (exec (.rbRead 0) (std [.rbInit 0 4, .rbWrite 0 0x41])) (fun t =>
      (t.ring 0).rd = 1 ∧ (t.ring 0).cnt = 0 ∧ t.r0 = 0 ∧ t.r1 = 0x41) := by decide
/-- R148, R117: the "no value" result. -/
theorem test_rbRead_underrun :
    nextIs (exec (.rbRead 0) (std [.rbInit 0 4])) (fun t => t.r0 = 4 ∧ t.r1 = 0xFFFFFFFF) := by
  decide
/-- R149. -/
theorem test_rbIsFull :
    nextIs (exec (.rbIsFull 0) (std [.rbInit 0 1, .rbWrite 0 9])) (fun t =>
      t.r0 = 0 ∧ t.r1 = 1) := by decide
/-- R150. -/
theorem test_rbIsEmpty :
    nextIs (exec (.rbIsEmpty 0) (std [.rbInit 0 4])) (fun t => t.r0 = 0 ∧ t.r1 = 1) := by decide
/-- R160. -/
theorem test_itcInit :
    nextIs (exec .itcInit (std [.itcForce 3, .itcEnable 3])) (fun t =>
      globalWord t = 3 ∧ (t.source 3).enable = false ∧ (t.source 3).forced = false) := by decide
/-- R161. -/
theorem test_itcSetHandler :
    nextIs (exec (.itcSetHandler 5 0x1234) (std [])) (fun t =>
      (t.source 5).handler = 0x1234 ∧ t.fg.pc = 2) := by decide
/-- R162. -/
theorem test_itcEnable :
    nextIs (exec (.itcEnable 1) (std [])) (fun t => regValue t 0 .itEnable = 2) := by decide
/-- R163. -/
theorem test_itcDisable :
    nextIs (exec (.itcDisable 1) (std [.itcEnable 1])) (fun t => regValue t 0 .itEnable = 0) := by
  decide
/-- R164. -/
theorem test_itcSetPriority :
    nextIs (exec (.itcSetPriority 2 1) (std [])) (fun t => regValue t 0 .itPrio = 4) := by decide
/-- R165. -/
theorem test_itcDisableAll :
    nextIs (exec .itcDisableAll (std [.itcInit])) (fun t =>
      globalWord t = 0 ∧ t.r0 = 0 ∧ t.r1 = 3) := by decide
/-- R166: bit 0 is the normal class. -/
theorem test_itcRestoreAll :
    nextIs (exec (.itcRestoreAll 1) (std [])) (fun t => t.it.gnorm ∧ !t.it.gfast) := by decide
/-- R167. -/
theorem test_itcForce :
    nextIs (exec (.itcForce 5) (std [])) (fun t =>
      regValue t 0 .itForced = 0x20 ∧ regValue t 0 .itPending = 0x20) := by decide
/-- R168. -/
theorem test_itcUnforce :
    nextIs (exec (.itcUnforce 5) (std [.itcForce 5])) (fun t => regValue t 0 .itForced = 0) := by
  decide
/-- R169: a bad source faults with nothing else changed. -/
theorem test_itcForce_bad_source :
    nextIs (exec (.itcForce 11) (std [])) (fun t => t.fault = 3 ∧ t.fg.pc = 0 ∧ t.ev = []) := by
  decide
/-- R192. -/
theorem test_uartInit :
    nextIs (exec (.uartInit 0 9600 0x100) (std [])) (fun t =>
      (t.line 0).baud = 0x003F270F ∧ lineCtrl (t.line 0) = 6 ∧ lineTrig (t.line 0) = 0x1F01 ∧
      (t.source 1).handler = 0xFFFF0000 ∧ (t.source 1).enable ∧ t.r0 = 0) := by decide
/-- R192: an absent device name. -/
theorem test_uartInit_inval :
    nextIs (exec (.uartInit 0 9600 0x101) (std [])) (fun t =>
      t.r0 = 2 ∧ (t.line 0).inited = false ∧ t.fg.pc = 3) := by decide
/-- R200. -/
theorem test_uartSendByte_enters :
    nextIs (exec (.uartSendByte 0 0x63) (std [.uartInit 0 9600 0x100])) (fun t =>
      t.fg.phase = .sbDrain ∧ t.fg.lb = 0x63 ∧ (t.line 0).mtx ∧ t.fg.pc = 3) := by decide
/-- R200: a line that is not initialised. -/
theorem test_uartSendByte_state :
    nextIs (exec (.uartSendByte 0 0x63) (std [])) (fun t => t.fault = 4 ∧ t.fg.phase = .idle) := by
  decide
/-- R205. -/
theorem test_uartReceiveByte_enters :
    nextIs (exec (.uartReceiveByte 0) (std [.uartInit 0 9600 0x100])) (fun t =>
      t.fg.phase = .rbGet ∧ (t.line 0).mrx ∧ t.fg.sv = false) := by decide
/-- R207. -/
theorem test_uartReceiveByte_result :
    nextIs
      (exec (.uartReceiveByte 0)
        (after (after (arrive 0x41 (std [.uartInit 0 9600 0x100])) (.uartReceiveByte 0))
          (.uartReceiveByte 0)))
      (fun t => t.r0 = 0 ∧ t.r1 = 0x41 ∧ (t.line 0).mrx = false) := by decide
/-- R209, on the bytes `75 00` of `MEM`. -/
theorem test_uartSend :
    nextIs (exec (.uartSend 0 0x100 2) (std [.uartInit 0 9600 0x100])) (fun t =>
      t.ring 1 = { cap := 256, rd := 0, wr := 2, cnt := 2, mem := [(0, 0x75), (1, 0)] } ∧
      (t.line 0).mtx = false ∧ t.r0 = 0 ∧ t.r1 = 2) := by decide
/-- R209: a count of 0 is an absent argument. -/
theorem test_uartSend_inval :
    nextIs (exec (.uartSend 0 0x100 0) (std [.uartInit 0 9600 0x100])) (fun t => t.r0 = 2) := by
  decide
/-- R210. -/
theorem test_uartReceive :
    nextIs
      (exec (.uartReceive 0 0x300 2)
        (std [.uartInit 0 9600 0x100, .rbWrite 0 0x41, .rbWrite 0 0x42, .rbWrite 0 0x43]))
      (fun t => t.mem.read 0x300 = 0x41 ∧ t.mem.read 0x301 = 0x42 ∧ (t.ring 0).cnt = 1 ∧
        t.mem.read 0x302 = 0 ∧ (t.line 0).mrx = false ∧ t.r1 = 2) := by decide
/-- R212. -/
theorem test_uartSetRxCallback :
    nextIs (exec (.uartSetRxCallback 0 0xCB01) (std [.uartInit 0 9600 0x100])) (fun t =>
      (t.line 0).rxcb = 0xCB01 ∧ (t.line 0).txcb = 0) := by decide
/-- R213. -/
theorem test_uartSetTxCallback :
    nextIs (exec (.uartSetTxCallback 1 0xCB02) (std [.uartInit 1 9600 0x100])) (fun t =>
      (t.line 1).txcb = 0xCB02 ∧ (t.line 1).rxcb = 0) := by decide
/-- R230. -/
theorem test_rdreg :
    nextIs (exec (.rdreg 0 3) (std [.rbInit 0 4, .rbWrite 0 1, .rbWrite 0 2])) (fun t =>
      t.r0 = 0 ∧ t.r1 = 2) := by decide
/-- R231. -/
theorem test_rdreg_invalid :
    nextIs (exec (.rdreg 0 5) (std [])) (fun t => t.fault = 3 ∧ t.fg.pc = 0) := by decide
/-- R245, with the request of line 0. -/
theorem test_itcServiceNormal :
    nextIs
      (exec .itcServiceNormal (arrive 7 (std [.itcInit, .uartInit 0 9600 0x100])))
      (fun t => t.ih = { phase := .rxTest, line := 0, src := 1, cls := .normal }) := by decide
/-- R246: of sources 2 and 7 the lower. -/
theorem test_itcServiceFast :
    nextIs
      (exec .itcServiceFast
        (std [.itcInit, .itcSetHandler 2 0xAB, .itcForce 7, .itcForce 2, .itcEnable 7,
          .itcEnable 2, .itcSetPriority 7 1, .itcSetPriority 2 1]))
      (fun t => t.ev.getLast? = some (.external 2 0xAB) ∧ t.ih.phase = .idle) := by decide
/-- R282: the first byte of the worked run. -/
theorem test_uartIsr_txLoop :
    nextIs
      (exec (.uartIsr 0)
        (inHandler .txLoop (std [.uartInit 0 9600 0x100, .rbWrite 1 0x68, .rbWrite 1 0x69])))
      (fun t => (t.line 0).hwtx = [0x68] ∧ (t.ring 1).cnt = 1 ∧ t.ih.phase = .txLoop) := by decide
/-- R253: backpressure. -/
theorem test_uartIsr_rxEnd :
    nextIs (exec (.uartIsr 0) (inHandler .rxEnd (demo tiny [.rbInit 0 1, .rbWrite 0 5] [] [])))
      (fun t => (t.line 0).mrx ∧ t.ih.phase = .txTest) := by decide

/-- `withFetchWord` places each kind of operation where the next step runs it (log 7, log 10). -/
theorem test_withFetchWord :
    nextIs (step (State.reset.withFetchWord 32 0x01000004)) (fun t => (t.ring 0).cap = 4) ∧
    nextIs (step (State.reset.withFetchWord 32 0x1A000000)) (fun t => t.ih.phase = .rxTest) ∧
    nextIs (step (State.reset.withFetchWord 32 0x27010000)) (fun t => t.ih.phase = .txTest) := by
  decide

/-! ### Well-formed states for the witnesses -/

/-- Line 0 initialised with two bytes to send, ring 2 full, ring 3 with one byte, source 3 forced
and enabled. -/
def busyCommands : List Instr :=
  [.uartInit 0 9600 0x100, .rbInit 2 1, .rbWrite 2 0x41, .rbInit 3 2, .rbWrite 3 7,
   .uartSend 0 0x100 2, .itcForce 3, .itcEnable 3]

def busy : State := demo tiny busyCommands [] []

/-- Nothing has run yet. -/
def fresh : State := demo tiny [] [] []

/-- Line 0 initialised, its transmit ring holding `n` bytes, `next` to come. -/
def loaded (n : Nat) (next : List Instr) : State :=
  demo tiny (.uartInit 0 9600 0x100 :: List.replicate n (.rbWrite 1 0x68)) next []

/-- Line 0 initialised, its receive ring holding `n` bytes, `next` to come. -/
def filled (n : Nat) (next : List Instr) : State :=
  demo tiny (.uartInit 0 9600 0x100 :: List.replicate n (.rbWrite 0 0x52)) next []

/-- `UART_SEND_BYTE 0, 0x63` after its entry and `m` more steps, on a transmit ring of `n` bytes. -/
def sendingState (n m : Nat) : State :=
  (List.replicate (m + 1) (Instr.uartSendByte 0 0x63)).foldl after (loaded n [.uartSendByte 0 0x63])

/-- `UART_RECEIVE_BYTE 0` after its entry, on a receive ring of `n` bytes. -/
def receivingState (n : Nat) : State :=
  after (filled n [.uartReceiveByte 0]) (.uartReceiveByte 0)

/-- The parts of `State.Wf` that do not depend on the turns. -/
theorem wf_sched {s : State} (h : s.Wf) (ts : List Turn) : (sched ts s).Wf :=
  ⟨h.params, h.sizes, h.rings, h.lines, h.memory, h.pointer, h.sending, h.receiving, h.handler,
    h.faultCode⟩

/-- A handler of line 0 in a phase that the state allows. -/
theorem wf_inHandler {s : State} (h : s.Wf) (p : IhPhase) (hp : (inHandler p s).HandlerOk) :
    (inHandler p s).Wf :=
  ⟨h.params, h.sizes, h.rings, h.lines, h.memory, h.pointer, h.sending, h.receiving, hp,
    h.faultCode⟩

theorem wf_busy : busy.Wf := by constructor <;> decide
theorem wf_fresh : fresh.Wf := by constructor <;> decide
theorem wf_loaded : (loaded 2 []).Wf := by constructor <;> decide
theorem wf_filled : (filled 2 [.uartReceive 0 0x300 2]).Wf := by constructor <;> decide
theorem wf_sending : ∀ n < 4, (sendingState n 0).Wf := by
  intro n h
  rcases n with _ | _ | _ | _ | n <;> first | (exfalso; omega) | (constructor <;> decide)
theorem wf_sending_held : (sendingState 3 2).Wf ∧ (sendingState 2 3).Wf :=
  ⟨by constructor <;> decide, by constructor <;> decide⟩
theorem wf_sending_last : (sendingState 0 1).Wf ∧ (sendingState 0 2).Wf :=
  ⟨by constructor <;> decide, by constructor <;> decide⟩
theorem wf_receiving : (receivingState 0).Wf ∧ (receivingState 1).Wf :=
  ⟨by constructor <;> decide, by constructor <;> decide⟩
theorem wf_receiving_arrived : (arrive 0x41 (receivingState 0)).Wf := by constructor <;> decide
theorem wf_receiving_last : (after (receivingState 1) (.uartReceiveByte 0)).Wf := by
  constructor <;> decide

/-! ### Witnesses: a state and operands that meet the hypotheses of each statement, one for each
clause and at the ends of its ranges -/

theorem wit_DecodeOfEncode :
    (Instr.itcSetPriority 0xFF 1).wf = true ∧ (Instr.itcRestoreAll 3).wf = true ∧
    (Instr.uartInit 0xFF 0xFFFFFFFF 0).wf = true := by decide

theorem wit_EncodeOfDecode : decode [0x14FF0100] = .ok (.itcSetPriority 0xFF 1) := by decide

theorem wit_OpcodeTableDecides :
    decode [0x16000003] = .ok (.itcRestoreAll 3) ∧
    ⟨0x16000000, 0xFFFFFFFC, 1, .fg⟩ ∈ opcodeRows ∧
    (0x16000003 : Word) &&& 0xFFFFFFFC = 0x16000000 := by decide

theorem wit_AssembledIsStreamCommand :
    assembleLine "ITC_RESTORE_ALL 3" = some (.itcRestoreAll 3) := by decide

/-- A line with a ring selector by line and direction, a register name and a comment. -/
theorem wit_AssembledIsStreamCommand_forms :
    (Instr.rdreg 3 4).wf = true ∧
    OperandTexts (.rdreg 3 4) ["1.TX".toList, "RB_STAT".toList] ∧
    (∃ c, "; status".toList = ';' :: c) := by
  refine ⟨by decide, ⟨_, _, rfl, .inr ⟨"RB_STAT", by decide, rfl⟩, .inr ⟨by decide, .inr
    ⟨1, ['1'], ⟨1, by decide, .inl ⟨by decide, by decide⟩⟩, .inr ⟨by decide, by decide⟩⟩⟩⟩,
    ⟨" status".toList, by decide⟩⟩

/-- The next turn is the foreground's, between commands, with words left. -/
def atFetch (s : State) : Prop :=
  nextTurn s = some .fg ∧ s.fault = 0 ∧ s.ih.phase = .idle ∧ s.fg.phase = .idle ∧
    s.fg.pc.toNat < s.prog.length

/-- One for each way of being illegal: reserved opcode, must-be-zero bit, handler-engine operation,
truncated. -/
theorem wit_IllegalCommandFaults :
    (atFetch (start tiny [0] []) ∧ illegalStream (streamWords (start tiny [0] []))) ∧
    (atFetch (start tiny [0x14000200] []) ∧
      illegalStream (streamWords (start tiny [0x14000200] []))) ∧
    (atFetch (start tiny [0x27000000] []) ∧
      illegalStream (streamWords (start tiny [0x27000000] []))) ∧
    (atFetch (start tiny [0x20000000, 9600] []) ∧
      illegalStream (streamWords (start tiny [0x20000000, 9600] []))) ∧
    opcOf 0x00FFFFFF = 0 := by
  unfold atFetch
  refine ⟨⟨by decide, ?_⟩, ⟨by decide, ?_⟩, ⟨by decide, ?_⟩, ⟨by decide, ?_⟩, by decide⟩
  · show ∀ row ∈ opcodeRows, (0 : Word) &&& row.mask = row.bits → row.agent = .ih ∨ 1 < row.words
    decide
  · show ∀ row ∈ opcodeRows, (0x14000200 : Word) &&& row.mask = row.bits →
      row.agent = .ih ∨ 1 < row.words
    decide
  · show ∀ row ∈ opcodeRows, (0x27000000 : Word) &&& row.mask = row.bits →
      row.agent = .ih ∨ 1 < row.words
    decide
  · show ∀ row ∈ opcodeRows, (0x20000000 : Word) &&& row.mask = row.bits →
      row.agent = .ih ∨ 2 < row.words
    decide

/-- Source 3 live in a class that is enabled: `fast` says which. -/
def takeable (fast : Bool) : State :=
  sched [.ih] (demo tiny
    [.itcInit, .itcSetHandler 3 9, .itcForce 3, .itcEnable 3,
     .itcSetPriority 3 (if fast then 1 else 0)] [] [])

theorem wit_StepRunsTheTurn :
    (atFetch (start tiny [0x03000000] []) ∧
      decode ((start tiny [0x03000000] []).prog.drop (start tiny [0x03000000] []).fg.pc.toNat) =
        .ok (.rbRead 0) ∧ (Instr.rbRead 0).agent = .fg) ∧
    (nextTurn (sendingState 0 0) = some .fg ∧ (sendingState 0 0).ih.phase = .idle ∧
      (sendingState 0 0).fg.phase.sending = true) ∧
    (nextTurn (receivingState 0) = some .fg ∧ (receivingState 0).fg.phase.receiving = true) ∧
    ((inHandler .rxTest busy).fault = 0 ∧ nextTurn (inHandler .rxTest busy) = some .ih ∧
      (inHandler .rxTest busy).ih.phase ≠ .idle) ∧
    ((takeable true).fault = 0 ∧ nextTurn (takeable true) = some .ih ∧
      take (takeable true) .fast = true) ∧
    ((takeable false).ih.phase = .idle ∧ take (takeable false) .fast = false ∧
      take (takeable false) .normal = true) := by
  unfold atFetch
  decide

theorem wit_BootIsWellFormed :
    Launch.Ok
      { cfg := tiny, prog := [0], mem := [(0xFFFFFFFF, 1)], extreq := List.replicate 4 true,
        turns := [.ih], stalled := [1] } := by decide

theorem wit_ResetValues :
    applyReset busy = applyReset busy ∧ 3 < busy.cfg.nrings ∧ 1 < busy.cfg.nlines ∧
    3 < busy.cfg.nsrc := ⟨rfl, by decide⟩

theorem wit_InterruptsStayOffUntilEnabled :
    ((demo tiny [] [.itcInit] []).globalEnable .fast = false ∧
      nextIs (step (demo tiny [] [.itcInit] [])) (fun t => t.globalEnable .fast)) ∧
    ((demo tiny [] [.itcRestoreAll 1] []).globalEnable .normal = false ∧
      nextIs (step (demo tiny [] [.itcRestoreAll 1] [])) (fun t => t.globalEnable .normal)) := by
  decide

theorem wit_RbInitBindsRing :
    busy.SizesOk ∧ busy.cfg.nrings ≤ (4 : Byte).toNat ∧ (3 : Byte).toNat < busy.cfg.nrings ∧
    busy.cfg.cmax < (5 : Half).toNat ∧ (4 : Half).toNat ≤ busy.cfg.cmax := by decide

theorem wit_RbWriteAppends :
    busy.Wf ∧ busy.cfg.nrings ≤ (4 : Byte).toNat ∧
    ((2 : Byte).toNat < busy.cfg.nrings ∧ (busy.ring 2).cnt = (busy.ring 2).cap) ∧
    ((3 : Byte).toNat < busy.cfg.nrings ∧ (busy.ring 3).cnt ≠ (busy.ring 3).cap) :=
  ⟨wf_busy, by decide⟩

theorem wit_RbReadTakesOldest :
    busy.Wf ∧ busy.cfg.nrings ≤ (4 : Byte).toNat ∧
    ((0 : Byte).toNat < busy.cfg.nrings ∧ (busy.ring 0).cnt = 0) ∧
    ((3 : Byte).toNat < busy.cfg.nrings ∧ (busy.ring 3).cnt ≠ 0) := ⟨wf_busy, by decide⟩

theorem wit_RbPredicatesRead :
    busy.cfg.nrings ≤ (4 : Byte).toNat ∧ (3 : Byte).toNat < busy.cfg.nrings ∧
    (fresh.Wf ∧ (3 : Byte).toNat < fresh.cfg.nrings ∧ (fresh.ring 3).cap = 0) :=
  ⟨by decide, by decide, wf_fresh, by decide⟩

theorem wit_RingRunIsFifo :
    (busy.ring 2).Ok 4 ∧ (4 : Half).toNat ≤ 4 ∧ (0 : Half).toNat ≤ 4 := by decide

theorem wit_RingForgetsItsPast :
    (busy.ring 2).Ok 4 ∧ (busy.ring 3).Ok 4 ∧ (4 : Half).toNat ≤ 4 ∧ (4 : Half) ≠ 0 := by decide

theorem wit_EmptyAndFullExclusive :
    ((busy.ring 2).Ok 4 ∧ (busy.ring 2).cap ≠ 0) ∧ ((fresh.ring 2).Ok 4 ∧ (fresh.ring 2).cap = 0) ∧
    (1 : Half) ≠ 0 := by decide

/-- Also for `ItcEnableDisableGate` and `ItcForceUnforce`. -/
theorem wit_ItcSetHandlerRegisters :
    busy.SizesOk ∧ busy.cfg.nsrc ≤ (4 : Byte).toNat ∧ (3 : Byte).toNat < busy.cfg.nsrc := by decide

theorem wit_ItcEnableDisableGate :
    busy.SizesOk ∧ (3 : Byte).toNat < busy.cfg.nsrc ∧
    nextIs (exec (.itcEnable 3) busy) (fun _ => true) ∧
    nextIs (exec (.itcDisable 3) busy) (fun _ => true) := by decide

theorem wit_ItcSetPriorityClassifies :
    busy.SizesOk ∧ (1 : Byte).toNat < 2 ∧ 2 ≤ (2 : Byte).toNat ∧ 2 ≤ (0xFF : Byte).toNat ∧
    ((3 : Byte).toNat < busy.cfg.nsrc ∧ live busy 3 = true ∧
      nextIs (exec (.itcSetPriority 3 1) busy) (fun _ => true)) := by decide

theorem wit_ItcForceUnforce :
    busy.SizesOk ∧ (0 : Byte).toNat < busy.cfg.nsrc ∧
    nextIs (exec (.itcForce 0) busy) (fun _ => true) ∧
    nextIs (exec (.itcUnforce 3) busy) (fun _ => true) := by decide

theorem wit_ForceStays :
    ((demo tiny [.itcForce 3] [.itcUnforce 3] []).source 3).forced = true ∧
    nextIs (step (demo tiny [.itcForce 3] [.itcUnforce 3] [])) (fun t =>
      (t.source 3).forced = false) := by decide

theorem wit_ItcDisableRestoreAll :
    (3 : Byte).toNat < 4 ∧ 4 ≤ (4 : Byte).toNat ∧ 4 ≤ (0xFF : Byte).toNat := by decide

theorem wit_RequestConditions :
    busy.Wf ∧ (1 < busy.cfg.nlines ∧ (busy.line 1).inited = false) ∧
    (0 < busy.cfg.nlines ∧ (busy.line 0).inited = true) ∧
    (∀ l < busy.cfg.nlines, srcOf busy.cfg l ≠ 3) := ⟨wf_busy, by decide⟩

theorem wit_DivisorArithmetic :
    (16 ≤ tiny.coreClockHz ∧ 2 ^ 32 ≤ (429540 : Word).toNat * 9999) ∧
    (429539 : Word).toNat * 9999 < 2 ^ 32 ∧
    (16 ≤ { tiny with coreClockHz := 16 }.coreClockHz ∧ 2 ^ 16 ≤ (7 : Word).toNat * 9999 / (16 / 16)) ∧
    (6 : Word).toNat * 9999 / (16 / 16) < 2 ^ 16 ∧ tiny.coreClockHz = 24000000 := by decide

/-- The checks of R190 in `busy`: line 0 is initialised, line 1 is not. -/
theorem wit_UartInitSetsUpLine :
    busy.Wf ∧ busy.cfg.nlines ≤ (2 : Byte).toNat ∧ (1 : Byte).toNat < busy.cfg.nlines ∧
    busy.mem.read (0x101 : Word).toNat = 0 ∧
    ((0x100 : Word) ≠ 0 ∧ busy.mem.read (0x100 : Word).toNat ≠ 0) ∧
    (busy.line (0 : Byte).toNat).inited = true ∧ (busy.line (1 : Byte).toNat).inited = false ∧
    divisor busy.cfg 429540 = none ∧ divisor busy.cfg 9600 = some 0x003F270F :=
  ⟨wf_busy, by decide⟩

/-- Also for `ReceiveByteEnters`. -/
theorem wit_SendByteEnters :
    busy.SizesOk ∧ busy.fg.phase = .idle ∧ busy.cfg.nlines ≤ (2 : Byte).toNat ∧
    ((1 : Byte).toNat < busy.cfg.nlines ∧ (busy.line (1 : Byte).toNat).inited = false) ∧
    ((0 : Byte).toNat < busy.cfg.nlines ∧ (busy.line (0 : Byte).toNat).inited = true) := by decide

theorem wit_ReceiveByteEnters :
    busy.SizesOk ∧ busy.fg.phase = .idle ∧ busy.cfg.nlines ≤ (2 : Byte).toNat ∧
    (busy.line (1 : Byte).toNat).inited = false ∧ (busy.line (0 : Byte).toNat).inited = true := by
  decide

theorem wit_SendByteDrains :
    ((sendingState 0 0).Wf ∧ (sendingState 0 0).fg.phase = .sbDrain ∧
      ((sendingState 0 0).ring 1).cnt = 0) ∧
    ((sendingState 3 0).Wf ∧ (sendingState 3 0).fg.phase = .sbDrain ∧
      ((sendingState 3 0).ring 1).cnt ≠ 0 ∧ ((sendingState 3 0).line 0).hwtx.length < 2) ∧
    ((sendingState 3 2).Wf ∧ (sendingState 3 2).fg.phase = .sbDrain ∧
      ((sendingState 3 2).ring 1).cnt ≠ 0 ∧ ((sendingState 3 2).line 0).hwtx.length = 2) :=
  ⟨⟨wf_sending 0 (by decide), by decide⟩, ⟨wf_sending 3 (by decide), by decide⟩,
    wf_sending_held.1, by decide⟩

theorem wit_SendBytePutsAndRestores :
    ((sendingState 0 1).Wf ∧ (sendingState 0 1).fg.phase = .sbPut ∧
      ((sendingState 0 1).line 0).hwtx.length < 2) ∧
    ((sendingState 2 3).Wf ∧ (sendingState 2 3).fg.phase = .sbPut ∧
      ((sendingState 2 3).line 0).hwtx.length = 2) ∧
    ((sendingState 0 2).Wf ∧ (sendingState 0 2).fg.phase = .sbRestore) :=
  ⟨⟨wf_sending_last.1, by decide⟩, ⟨wf_sending_held.2, by decide⟩, wf_sending_last.2, by decide⟩

theorem wf_toSend : (loaded 1 [.uartSendByte 0 0x63]).Wf := by constructor <;> decide

theorem wit_SendByteNetEffect :
    (sched (List.replicate 5 .fg) (loaded 1 [.uartSendByte 0 0x63])).Wf ∧
    atFetch (sched (List.replicate 5 .fg) (loaded 1 [.uartSendByte 0 0x63])) ∧
    decode ((loaded 1 [.uartSendByte 0 0x63]).prog.drop
      (loaded 1 [.uartSendByte 0 0x63]).fg.pc.toNat) = .ok (.uartSendByte 0 0x63) ∧
    0 < tiny.nlines ∧ ((loaded 1 [.uartSendByte 0 0x63]).line 0).inited = true ∧
    ((loaded 1 [.uartSendByte 0 0x63]).line 0).hwtx.length +
      ((loaded 1 [.uartSendByte 0 0x63]).contents 1).length < tiny.depth ∧
    List.replicate 5 Turn.fg =
      List.replicate (((loaded 1 [.uartSendByte 0 0x63]).contents 1).length + 4) .fg ++ [] := by
  unfold atFetch
  exact ⟨wf_sched wf_toSend _, by decide⟩

theorem wit_ReceiveByteGetsAndRestores :
    ((receivingState 1).Wf ∧ (receivingState 1).fg.phase = .rbGet ∧
      ((receivingState 1).ring 0).cnt ≠ 0) ∧
    ((arrive 0x41 (receivingState 0)).Wf ∧ (arrive 0x41 (receivingState 0)).fg.phase = .rbGet ∧
      ((arrive 0x41 (receivingState 0)).ring 0).cnt = 0 ∧
      ((arrive 0x41 (receivingState 0)).line 0).hwrx = [0x41]) ∧
    ((receivingState 0).Wf ∧ ((receivingState 0).ring 0).cnt = 0 ∧
      ((receivingState 0).line 0).hwrx = []) ∧
    ((after (receivingState 1) (.uartReceiveByte 0)).Wf ∧
      (after (receivingState 1) (.uartReceiveByte 0)).fg.phase = .rbRestore) :=
  ⟨⟨wf_receiving.2, by decide⟩, ⟨wf_receiving_arrived, by decide⟩, ⟨wf_receiving.1, by decide⟩,
    wf_receiving_last, by decide⟩

/-- `busy` has one free place in the transmit ring of line 0: `q = 1` at the top address, `q = 0` for
the full ring of `loaded 3`, and `q = 2` past the top on an empty ring. -/
theorem wit_UartSendQueues :
    busy.Wf ∧ busy.cfg.nlines ≤ (2 : Byte).toNat ∧ (0 : Byte).toNat < busy.cfg.nlines ∧
    (0xFFFFFFFF : Word) ≠ 0 ∧ (2 : Word) ≠ 0 ∧ (busy.line (0 : Byte).toNat).inited = true ∧
    (busy.line (1 : Byte).toNat).inited = false ∧
    1 = min (2 : Word).toNat ((busy.ring 1).cap.toNat - (busy.ring 1).cnt.toNat) ∧
    ¬(1 ≤ 1 ∧ 2 ^ 32 ≤ (0xFFFFFFFF : Word).toNat + 1 - 1) ∧
    0 = min (2 : Word).toNat
      (((loaded 3 []).ring 1).cap.toNat - ((loaded 3 []).ring 1).cnt.toNat) ∧
    2 = min (2 : Word).toNat
      (((loaded 0 []).ring 1).cap.toNat - ((loaded 0 []).ring 1).cnt.toNat) ∧
    (1 ≤ 2 ∧ 2 ^ 32 ≤ (0xFFFFFFFF : Word).toNat + 2 - 1) := ⟨wf_busy, by decide⟩

theorem wit_UartReceiveCopies :
    (filled 2 [.uartReceive 0 0x300 2]).Wf ∧
    2 = min (2 : Word).toNat ((filled 2 [.uartReceive 0 0x300 2]).ring 0).cnt.toNat ∧
    ((filled 2 [.uartReceive 0 0x300 2]).line (0 : Byte).toNat).inited = true ∧
    ¬(1 ≤ 2 ∧ 2 ^ 32 ≤ (0xFFFFFFFE : Word).toNat + 2 - 1) ∧
    (1 ≤ 2 ∧ 2 ^ 32 ≤ (0xFFFFFFFF : Word).toNat + 2 - 1) ∧
    0 = min (2 : Word).toNat (busy.ring 0).cnt.toNat := ⟨wf_filled, by decide⟩

theorem wit_CallbacksInstall :
    busy.SizesOk ∧ busy.cfg.nlines ≤ (2 : Byte).toNat ∧ (0 : Byte).toNat < busy.cfg.nlines ∧
    (0xFFFFFFFF : Word) ≠ 0 ∧ (busy.line (0 : Byte).toNat).inited = true ∧
    (busy.line (1 : Byte).toNat).inited = false := by decide

theorem wit_RdregRingRegisters : (3 : Byte).toNat < busy.cfg.nrings := by decide

theorem wit_RdregLineRegisters : busy.Wf ∧ (1 : Byte).toNat < busy.cfg.nlines :=
  ⟨wf_busy, by decide⟩

theorem wit_RdregTableRegisters : busy.cfg.Ok ∧ (3 : Byte).toNat < busy.cfg.nsrc := by decide

/-- Source 3 live with this handler, the lowest live one of its class. -/
def servable (h : Word) : State :=
  demo tiny [.itcInit, .itcSetHandler 3 h, .itcForce 3, .itcEnable 3] [] []

theorem wit_ServiceDispatches_line :
    (servable 0xFFFF0001).cfg.Ok ∧ 3 < (servable 0xFFFF0001).cfg.nsrc ∧
    live (servable 0xFFFF0001) 3 = true ∧ ((servable 0xFFFF0001).source 3).prio = .normal ∧
    ((servable 0xFFFF0001).source 3).handler = 0xFFFF0001 := by
  decide

theorem wit_ServiceDispatches_null :
    live (servable 0) 3 = true ∧ ((servable 0).source 3).handler = 0 := by decide

theorem wit_ServiceDispatches_external :
    live (servable 0x1234) 3 = true ∧ ((servable 0x1234).source 3).handler = 0x1234 := by decide

theorem wit_ServiceDispatches_lowest :
    ∀ u < 3, ¬(live (servable 0x1234) u = true ∧ ((servable 0x1234).source u).prio = .normal) := by
  decide

/-- The boundary entry numbers: the last line of `tiny`, and the first number past it. -/
theorem wit_ServiceDispatches_edges :
    (0xFFFF0001 : Word) = 0xFFFF0000 + BitVec.ofNat 32 1 ∧ 1 < (servable 0).cfg.nlines ∧
    (∀ l < (servable 0).cfg.nlines, (0xFFFF0002 : Word) ≠ 0xFFFF0000 + BitVec.ofNat 32 l) := by
  refine ⟨by decide, by decide, ?_⟩
  have h : (servable 0).cfg.nlines = 2 := by decide
  rw [h]; decide

/-- Line 0 initialised with two bytes in its receive FIFO, its receive ring holding `n` bytes. -/
def arrived (n : Nat) : State := arrive 2 (arrive 1 (filled n []))

theorem wf_arrived : (arrived 0).Wf ∧ (arrived 3).Wf :=
  ⟨by constructor <;> decide, by constructor <;> decide⟩

theorem wit_IsrReceivePart :
    ((inHandler .rxTest (arrived 0)).Wf ∧ rxReady (inHandler .rxTest (arrived 0)) 0 = true ∧
      ((inHandler .rxTest (arrived 0)).line 0).mrx = false) ∧
    ((inHandler .rxTest busy).Wf ∧ rxReady (inHandler .rxTest busy) 0 = false) ∧
    ((inHandler .rxLoop (arrived 0)).Wf ∧ ((inHandler .rxLoop (arrived 0)).line 0).hwrx = [1, 2] ∧
      ((arrived 0).ring 0).cnt ≠ ((arrived 0).ring 0).cap) ∧
    ((inHandler .rxLoop busy).Wf ∧ ((inHandler .rxLoop busy).line 0).hwrx = []) ∧
    ((inHandler .rxLoop (arrived 3)).Wf ∧ ((arrived 3).ring 0).cnt = ((arrived 3).ring 0).cap) ∧
    (inHandler .rxEnd (arrived 3)).Wf :=
  ⟨⟨wf_inHandler wf_arrived.1 _ (by decide), by decide⟩,
    ⟨wf_inHandler wf_busy _ (by decide), by decide⟩,
    ⟨wf_inHandler wf_arrived.1 _ (by decide), by decide⟩,
    ⟨wf_inHandler wf_busy _ (by decide), by decide⟩,
    ⟨wf_inHandler wf_arrived.2 _ (by decide), by decide⟩,
    wf_inHandler wf_arrived.2 _ (by decide)⟩

/-- Line 0 with its transmit flag clear, its transmit ring holding three bytes less those that `m`
steps of the transmit loop have moved. -/
def transmitting (m : Nat) : State :=
  (List.replicate m (Instr.uartIsr 0)).foldl after
    (inHandler .txLoop (demo tiny [.uartInit 0 9600 0x100, .uartSend 0 0x100 3] [] []))

theorem wf_transmitting : (transmitting 0).Wf ∧ (transmitting 2).Wf :=
  ⟨by constructor <;> decide, by constructor <;> decide⟩

/-- The same with a transmit ring that the loop has emptied. -/
def emptied : State :=
  after (inHandler .txLoop (demo tiny [.uartInit 0 9600 0x100, .uartSend 0 0x100 1] [] []))
    (.uartIsr 0)

theorem wf_emptied : emptied.Wf := by constructor <;> decide

theorem wit_IsrTransmitPart :
    ((inHandler .txTest busy).Wf ∧ txReady (inHandler .txTest busy) 0 = true ∧
      ((inHandler .txTest busy).line 0).mtx = false) ∧
    ((inHandler .txTest (arrived 0)).Wf ∧ ((inHandler .txTest (arrived 0)).line 0).mtx = true) ∧
    ((transmitting 0).Wf ∧ (transmitting 0).ih.phase = .txLoop ∧
      ((transmitting 0).ring 1).cnt ≠ 0 ∧ ((transmitting 0).line 0).hwtx.length < 2) ∧
    ((transmitting 2).Wf ∧ (transmitting 2).ih.phase = .txLoop ∧
      ((transmitting 2).line 0).hwtx.length = (transmitting 2).cfg.depth) ∧
    (emptied.Wf ∧ emptied.ih.phase = .txLoop ∧ (emptied.ring 1).cnt = 0) ∧
    (inHandler .txEnd busy).Wf :=
  ⟨⟨wf_inHandler wf_busy _ (by decide), by decide⟩,
    ⟨wf_inHandler wf_arrived.1 _ (by decide), by decide⟩, ⟨wf_transmitting.1, by decide⟩,
    ⟨wf_transmitting.2, by decide⟩, ⟨wf_emptied, by decide⟩,
    wf_inHandler wf_busy _ (by decide)⟩

theorem wit_HandlerLeavesForegroundAlone :
    (nextIs (step (transmitting 0)) (fun _ => true) ∧ nextTurn (transmitting 0) = some .ih) ∧
    (nextIs (step (sched [.env (.rxArrive 0 1)] busy)) (fun _ => true) ∧
      nextTurn (sched [.env (.rxArrive 0 1)] busy) ≠ some .fg) := by decide

theorem wit_HandlerIsNotInterrupted :
    (transmitting 0).ih.phase ≠ .idle ∧ nextIs (step (transmitting 0)) (fun _ => true) ∧
    nextIs (step (sched [.fg] (transmitting 0))) (fun _ => true) ∧
    nextTurn (sched [.fg] (transmitting 0)) = some .fg := by decide

theorem wit_HandlerReturns :
    (sched (List.replicate 5 .ih ++ [.fg]) (transmitting 0)).Wf ∧ (transmitting 0).fault = 0 ∧
    (transmitting 0).ih.phase ≠ .idle ∧
    List.replicate 5 Turn.ih ++ [.fg] =
      List.replicate (handlerSteps (transmitting 0)) .ih ++ [.fg] :=
  ⟨wf_sched wf_transmitting.1 _, by decide⟩

theorem wit_HandlerRespectsSuppression :
    ((inHandler .rxLoop (arrived 0)).Wf ∧ nextTurn (inHandler .rxLoop (arrived 0)) = some .ih ∧
      nextIs (step (inHandler .rxLoop (arrived 0))) (fun t =>
        t.ring 0 ≠ (arrived 0).ring 0 ∧ (t.line 0).hwrx ≠ ((arrived 0).line 0).hwrx)) ∧
    ((transmitting 0).Wf ∧ nextTurn (transmitting 0) = some .ih ∧
      nextIs (step (transmitting 0)) (fun t =>
        t.ring 1 ≠ (transmitting 0).ring 1 ∧
        (t.line 0).hwtx ≠ ((transmitting 0).line 0).hwtx)) :=
  ⟨⟨wf_inHandler wf_arrived.1 _ (by decide), by decide⟩, wf_transmitting.1, by decide⟩

theorem wit_EnvironmentSteps :
    busy.SizesOk ∧ 1 < busy.cfg.nlines ∧
    nextTurn (sched [.env (.rxArrive 1 9)] busy) = some (.env (.rxArrive 1 9)) ∧
    (busy.line 1).hwrx.length < busy.cfg.depth ∧
    ((arrived 0).cfg.depth ≤ ((arrived 0).line 0).hwrx.length ∧
      nextTurn (sched [.env (.rxArrive 0 9)] (arrived 0)) = some (.env (.rxArrive 0 9))) ∧
    (nextTurn (transmitting 2) = some (.env (.txDepart 0)) ∨
      nextTurn (sched [.env (.txDepart 0)] (transmitting 2)) = some (.env (.txDepart 0))) ∧
    ((transmitting 2).line 0).hwtx = [0x75, 0] ∧
    (nextTurn (sched [.env (.extSet 3 true)] busy) = some (.env (.extSet 3 true)) ∧
      3 < busy.cfg.nsrc ∧ ∀ l < busy.cfg.nlines, srcOf busy.cfg l ≠ 3) := by decide

/-- Also for `StepAlwaysNext`. -/
theorem wit_StepKeepsWellFormed :
    busy.Wf ∧ nextIs (step busy) (fun _ => true) ∧
    ((transmitting 0).Wf ∧ nextIs (step (transmitting 0)) (fun _ => true)) :=
  ⟨wf_busy, by decide, wf_transmitting.1, by decide⟩

theorem wit_StepAlwaysNext : (sendingState 3 2).Wf := wf_sending_held.1

/-- The end of a run (R309), and what is none: an arrival that the script still lists (as in program
P3), a byte still to leave, unless its line is stalled. -/
theorem wit_StepAlwaysNext_quiescent :
    quiescent (demo tiny [.rbInit 2 1] [] []) = true ∧
    (demo tiny [.rbInit 2 1] [] []).fault = 0 ∧
    atRest (sched [.env (.rxArrive 0 0x41)] (demo tiny [.rbInit 2 1] [] [])) = false ∧
    quiescent (pushHwtx 1 0x41 (demo tiny [.rbInit 2 1] [] [])) = false ∧
    quiescent { pushHwtx 1 0x41 (demo tiny [.rbInit 2 1] [] []) with stalled := [1] } = true := by
  decide

theorem wit_FaultChangesNothingElse :
    ((start tiny [0] []).fault = 0 ∧ nextIs (step (start tiny [0] [])) (fun t => t.fault ≠ 0)) ∧
    (nextIs (exec (.itcEnable 4) busy) (fun t =>
      t.fault ≠ 0 ∧ nextIs (step t) (fun _ => true) ∧ nextTurn t = none)) := by decide

/-- A `UART_SEND` that is next, and a byte that leaves for the wire. -/
theorem wit_TransmitOrderKept :
    ((filled 2 [.uartReceive 0 0x300 2]).Wf ∧
      disciplined (filled 2 [.uartReceive 0 0x300 2]) 0 .tx = true ∧
      nextIs (step (filled 2 [.uartReceive 0 0x300 2])) (fun _ => true)) ∧
    (busy.Wf ∧ disciplined busy 0 .tx = true ∧ nextIs (step busy) (fun _ => true)) ∧
    0 < tiny.nlines := ⟨⟨wf_filled, by decide⟩, ⟨wf_busy, by decide⟩, by decide⟩

theorem wit_ReceiveOrderKept :
    ((filled 2 [.uartReceive 0 0x300 2]).Wf ∧
      disciplined (filled 2 [.uartReceive 0 0x300 2]) 0 .rx = true ∧
      nextIs (step (filled 2 [.uartReceive 0 0x300 2])) (fun t =>
        obtainedRx (filled 2 [.uartReceive 0 0x300 2]) t 0 = [0x52, 0x52])) ∧
    ((receivingState 1).Wf ∧ disciplined (receivingState 1) 0 .rx = true ∧
      nextIs (step (receivingState 1)) (fun t => obtainedRx (receivingState 1) t 0 = [0x52])) :=
  ⟨⟨wf_filled, by decide⟩, wf_receiving.2, by decide⟩

/-- Commands that R296 and R298 leave alone: `RB_WRITE` on a ring of another line and `UART_INIT` of
another line keep the discipline of line 0; `RB_WRITE` on its own ring does not. -/
theorem wit_OrderKept_otherLine :
    ((filled 2 [.rbWrite 2 0x41]).Wf ∧ disciplined (filled 2 [.rbWrite 2 0x41]) 0 .rx = true ∧
      disciplined (filled 2 [.rbWrite 2 0x41]) 0 .tx = true) ∧
    disciplined (filled 2 [.uartInit 1 9600 0x100]) 0 .rx = true ∧
    disciplined (filled 2 [.uartInit 1 9600 0x100]) 1 .rx = true ∧
    disciplined (filled 2 [.rbWrite 0 0x41]) 0 .rx = false :=
  ⟨⟨by constructor <;> decide, by decide⟩, by decide⟩

theorem wit_LineFlagWriters :
    nextIs (step (demo tiny [] [.uartInit 1 9600 0x100] [])) (fun t =>
      (t.line 1).inited ≠ (fresh.line 1).inited ∧ (t.line 1).mrx ≠ (fresh.line 1).mrx) ∧
    nextIs (step (filled 2 [.uartReceiveByte 0])) (fun t =>
      (t.line 0).mrx ≠ ((filled 2 [.uartReceiveByte 0]).line 0).mrx) ∧
    nextIs (step (demo tiny [.uartInit 0 9600 0x100] [.uartSend 0 0x100 1] [])) (fun t =>
      (t.line 0).mtx = false) ∧
    nextIs (step (inHandler .rxEnd (arrived 3))) (fun t =>
      (t.line 0).mrx ≠ ((arrived 3).line 0).mrx) := by decide

theorem wit_LinesAreIsolated :
    busy.Wf ∧ nextIs (step (transmitting 0)) (fun _ => true) ∧ 1 < (transmitting 0).cfg.nlines ∧
    (transmitting 0).Wf ∧ stepLine (transmitting 0) = some 0 ∧ stepLine (transmitting 0) ≠ some 1 :=
  ⟨wf_busy, by decide, by decide, wf_transmitting.1, by decide⟩

theorem wit_PointerMovesOnCompletion :
    (filled 2 [.uartReceive 0 0x300 2]).Wf ∧
    nextIs (step (filled 2 [.uartReceive 0 0x300 2])) (fun t => t.fg.pc = 8) :=
  ⟨wf_filled, by decide⟩

theorem wit_WhoWritesTheMemories :
    ((filled 2 [.uartReceive 0 0x300 2]).Wf ∧
      nextIs (step (filled 2 [.uartReceive 0 0x300 2])) (fun t => t.mem.read 0x301 ≠ 0)) ∧
    ((sched [.env (.extSet 3 true)] busy).Wf ∧
      nextIs (step (sched [.env (.extSet 3 true)] busy)) (fun t => t.extReq 3 ≠ busy.extReq 3)) :=
  ⟨⟨wf_filled, by decide⟩, wf_sched wf_busy _, by decide⟩

theorem wit_TableWriters :
    nextIs (step (demo tiny [] [.itcEnable 3] [])) (fun t => t.source 3 ≠ fresh.source 3) ∧
    nextIs (step (demo tiny [] [.uartInit 1 9600 0x100] [])) (fun t =>
      t.source 2 ≠ fresh.source 2) ∧
    nextIs (step (demo tiny [.itcInit] [.itcDisableAll] [])) (fun t =>
      ∀ c ∈ [PrioClass.normal, .fast],
        t.globalEnable c ≠ (demo tiny [.itcInit] [.itcDisableAll] []).globalEnable c) := by decide

theorem wit_ExecOutsideItsPhase :
    busy.ih.phase = .idle ∧ (1 : Byte).toNat < busy.cfg.nlines ∧
    busy.cfg.nlines ≤ (2 : Byte).toNat ∧ (receivingState 0).fg.phase.receiving = true ∧
    (sendingState 0 0).fg.phase.sending = true := by decide

end Sys2Proof.Tests
end

section
/-! Reset: every run with legal launch inputs begins in a well-formed state (R6 to R14, R56). -/

namespace Sys2Proof.Machine

/-! ### The elements after reset -/

theorem Ring.atReset_ok (cmax : Nat) : Ring.atReset.Ok cmax := by
  simp [Ring.Ok, Ring.atReset, cellsRising]

theorem Line.atReset_ok (p : Params) : Line.atReset.Ok p := by
  simp [Line.Ok, Line.atReset]

/-! ### The state in which a run begins -/

theorem boot_sizesOk {i : Launch} (hext : i.extreq.length = i.cfg.nsrc) (life : Nat) :
    (State.boot i life).SizesOk :=
  ⟨List.length_replicate, List.length_replicate, List.length_replicate, hext⟩

theorem boot_pointerOk {i : Launch} (hprog : i.prog.length < 2 ^ 32) (life : Nat) :
    (State.boot i life).PointerOk :=
  ⟨hprog, Nat.zero_le _⟩

theorem boot_rings (i : Launch) (life : Nat) :
    ∀ r ∈ (State.boot i life).rb, r.Ok i.cfg.cmax := by
  intro r hr
  obtain rfl := List.eq_of_mem_replicate hr
  exact Ring.atReset_ok i.cfg.cmax

theorem boot_lines (i : Launch) (life : Nat) :
    ∀ u ∈ (State.boot i life).ul, u.Ok i.cfg := by
  intro u hu
  obtain rfl := List.eq_of_mem_replicate hu
  exact Line.atReset_ok i.cfg

/-- No agent is inside a command or a handler at the start, so what the invariant asks of the later
phases asks nothing (R56). -/
theorem boot_idle (i : Launch) (life : Nat) :
    (State.boot i life).SendingOk ∧ (State.boot i life).ReceivingOk ∧
      (State.boot i life).HandlerOk := by
  have hfg : (State.boot i life).fg.phase = .idle := rfl
  have hih : (State.boot i life).ih.phase = .idle := rfl
  simp [State.SendingOk, State.ReceivingOk, State.HandlerOk, hfg, hih, FgPhase.sending,
    FgPhase.receiving]

theorem boot_wf {i : Launch} (h : i.Ok) (life : Nat) : (State.boot i life).Wf := by
  obtain ⟨hcfg, hprog, hmem, hext⟩ := h
  obtain ⟨hsending, hreceiving, hhandler⟩ := boot_idle i life
  exact {
    params := hcfg
    sizes := boot_sizesOk hext life
    rings := boot_rings i life
    lines := boot_lines i life
    memory := hmem
    pointer := boot_pointerOk hprog life
    sending := hsending
    receiving := hreceiving
    handler := hhandler
    faultCode := Nat.zero_le 5 }

/-- The launch inputs of `State.reset` are legal, whatever the free values of R12 and R13 are
(log 3, 4). -/
theorem Launch.blank_ok : Launch.blank.Ok := by decide

/-- Settles O8: reset puts every element at a value that the invariant allows, and the launch inputs
of `State.reset` are legal ones. -/
theorem bootIsWellFormed : Obligations.BootIsWellFormed :=
  ⟨fun _ life hi => boot_wf hi life, boot_wf Launch.blank_ok 0⟩

end Sys2Proof.Machine
end

section
/-! Every step, one case for each thing that a turn can do, and the ways in which a started command
ends (R115, R240 to R242, R250). The claims about every step below go by these cases. -/

namespace Sys2Proof.Machine

/-! ### The turn -/

/-- With no turn to take the schedule is empty, so removing its first turn does nothing. -/
theorem afterTurn_of_none {s : State} (h : nextTurn s = none) : afterTurn s = s := by
  have ht : s.turns = [] := by
    unfold nextTurn at h
    split at h
    · cases h
    · assumption
  show { s with turns := s.turns.tail } = s
  rw [ht, List.tail_nil, ← ht]

/-! ### The phases of a blocking command -/

/-- A later step of `UART_SEND_BYTE`, by its phase (R201 to R203). -/
theorem sendByte_cases {s t : State} {l b : Byte} (h : s.fg.phase.sending = true)
    (he : exec (.uartSendByte l b) s = .next t) :
    s.fgLine < s.cfg.nlines ∧
      ((s.fg.phase = .sbDrain ∧ t = sendByteDrain s.fgLine s) ∨
       (s.fg.phase = .sbPut ∧ t = sendBytePut s.fgLine s) ∨
       (s.fg.phase = .sbRestore ∧ t = restoreBlocking s.fgLine .tx 0 s)) := by
  cases hp : s.fg.phase
  case idle | rbGet | rbRestore => simp [hp, FgPhase.sending] at h
  all_goals
    simp only [exec, execUartSendByte, hp, onLatchedLine] at he
    split at he
    · cases he
    · next hl =>
      cases he
      exact ⟨Nat.not_le.1 hl, by simp [State.fgLine]⟩

/-- A later step of `UART_RECEIVE_BYTE`, by its phase (R206, R207). -/
theorem receiveByte_cases {s t : State} {l : Byte} (h : s.fg.phase.receiving = true)
    (he : exec (.uartReceiveByte l) s = .next t) :
    s.fgLine < s.cfg.nlines ∧
      ((s.fg.phase = .rbGet ∧ t = receiveByteGet s.fgLine s) ∨
       (s.fg.phase = .rbRestore ∧
          t = restoreBlocking s.fgLine .rx (s.fg.lb.setWidth 32) s)) := by
  cases hp : s.fg.phase
  case idle | sbDrain | sbPut | sbRestore => simp [hp, FgPhase.receiving] at h
  all_goals
    simp only [exec, execUartReceiveByte, hp, onLatchedLine] at he
    split at he
    · cases he
    · next hl =>
      cases he
      exact ⟨Nat.not_le.1 hl, by simp [State.fgLine]⟩

/-! ### What a turn does -/

/-- A foreground turn that is enabled, with `FG` in phase `p` (R241). -/
structure FgTurn (s : State) (p : FgPhase) : Prop where
  now : nextTurn s = some .fg
  clear : s.fault = 0
  free : s.ih.phase = .idle
  phase : s.fg.phase = p

/-- A turn of the handler engine that is enabled, with `IH` in phase `p` (R242, R250). -/
structure IhTurn (s : State) (p : IhPhase) : Prop where
  now : nextTurn s = some .ih
  clear : s.fault = 0
  phase : s.ih.phase = p

/-- Everything that a step from `s` can lead to. -/
inductive StepKind (s : State) : State → Prop where
  | passes : StepKind s (afterTurn s)
  | env (e : EnvStep) (turn : nextTurn s = some (.env e)) : StepKind s (envStep e (afterTurn s))
  | starts (i : Instr) (t : State) (hi : starting s = some i) (turn : FgTurn s .idle)
      (effect : Effect (afterTurn s) i t) : StepKind s t
  | illegal (hi : starting s = none) (turn : FgTurn s .idle) :
      StepKind s (raise .illegalCmd (afterTurn s))
  | sendDrain (hl : s.fgLine < s.cfg.nlines) (turn : FgTurn s .sbDrain) :
      StepKind s (sendByteDrain s.fgLine (afterTurn s))
  | sendPut (hl : s.fgLine < s.cfg.nlines) (turn : FgTurn s .sbPut) :
      StepKind s (sendBytePut s.fgLine (afterTurn s))
  | sendRestore (hl : s.fgLine < s.cfg.nlines) (turn : FgTurn s .sbRestore) :
      StepKind s (restoreBlocking s.fgLine .tx 0 (afterTurn s))
  | receiveGet (hl : s.fgLine < s.cfg.nlines) (turn : FgTurn s .rbGet) :
      StepKind s (receiveByteGet s.fgLine (afterTurn s))
  | receiveRestore (hl : s.fgLine < s.cfg.nlines) (turn : FgTurn s .rbRestore) :
      StepKind s (restoreBlocking s.fgLine .rx (s.fg.lb.setWidth 32) (afterTurn s))
  | noHandler (turn : IhTurn s .idle) : StepKind s (raise .noHandler (afterTurn s))
  | enters (c : PrioClass) (v l : Nat) (hv : v < s.cfg.nsrc) (hl : l < s.cfg.nlines)
      (turn : IhTurn s .idle) : StepKind s (startIsr c v l (afterTurn s))
  | external (e : Event) (turn : IhTurn s .idle) : StepKind s ((afterTurn s).emit e)
  | rxTest (hl : s.ihLine < s.cfg.nlines) (turn : IhTurn s .rxTest) :
      StepKind s (isrRxTest s.ihLine (afterTurn s))
  | rxLoop (hl : s.ihLine < s.cfg.nlines) (turn : IhTurn s .rxLoop) :
      StepKind s (isrRxLoop s.ihLine (afterTurn s))
  | rxEnd (hl : s.ihLine < s.cfg.nlines) (turn : IhTurn s .rxEnd) :
      StepKind s (isrRxEnd s.ihLine (afterTurn s))
  | txTest (hl : s.ihLine < s.cfg.nlines) (turn : IhTurn s .txTest) :
      StepKind s (isrTxTest s.ihLine (afterTurn s))
  | txLoop (hl : s.ihLine < s.cfg.nlines) (turn : IhTurn s .txLoop) :
      StepKind s (isrTxLoop s.ihLine (afterTurn s))
  | txEnd (hl : s.ihLine < s.cfg.nlines) (turn : IhTurn s .txEnd) :
      StepKind s (isrTxEnd s.ihLine (afterTurn s))

theorem FgTurn.of_free {s : State} (hn : nextTurn s = some .fg) (hf : foregroundFree s = true) :
    FgTurn s s.fg.phase :=
  have h := (foregroundFree_iff s).1 hf
  ⟨hn, h.1, h.2, rfl⟩

/-- Every step is of one of these kinds. -/
theorem stepKind {s t : State} (h : step s = .next t) : StepKind s t := by
  rcases step_cases h with ⟨hn, rfl⟩ | ⟨e, hn, rfl⟩ | ⟨-, rfl, -⟩ | ⟨-, rfl⟩ | ⟨i, hi, he⟩ |
    ⟨hn, hi, hf, hp, rfl⟩ | ⟨hn, -, hf, hp, he⟩ | ⟨hn, -, hf, hp, he⟩ | ⟨hn, hz, hp, c, -, he⟩ |
    ⟨hn, hz, hp, he⟩
  · have := StepKind.passes (s := t)
    rwa [afterTurn_of_none hn] at this
  · exact .env e hn
  · exact .passes
  · exact .passes
  · obtain ⟨hn, hf, hp, -⟩ := starting_fetch hi
    exact .starts i t hi (hp ▸ FgTurn.of_free hn hf) (effect_of_starting hi he)
  · exact .illegal hi (hp ▸ FgTurn.of_free hn hf)
  · have hfg := FgTurn.of_free hn hf
    obtain ⟨hl, ⟨hp, rfl⟩ | ⟨hp, rfl⟩ | ⟨hp, rfl⟩⟩ := sendByte_cases (s := afterTurn s) hp he
    · exact .sendDrain hl (hp ▸ hfg)
    · exact .sendPut hl (hp ▸ hfg)
    · exact .sendRestore hl (hp ▸ hfg)
  · have hfg := FgTurn.of_free hn hf
    obtain ⟨hl, ⟨hp, rfl⟩ | ⟨hp, rfl⟩⟩ := receiveByte_cases (s := afterTurn s) hp he
    · exact .receiveGet hl (hp ▸ hfg)
    · exact .receiveRestore hl (hp ▸ hfg)
  · obtain ⟨v, -, hv, -, ⟨-, rfl⟩ | ⟨-, l, -, hl, rfl⟩ | ⟨-, -, rfl⟩⟩ := service_cases he
    · exact .noHandler ⟨hn, hz, hp⟩
    · exact .enters c v l hv hl ⟨hn, hz, hp⟩
    · exact .external _ ⟨hn, hz, hp⟩
  · obtain ⟨hl, ⟨hp, rfl⟩ | ⟨hp, rfl⟩ | ⟨hp, rfl⟩ | ⟨hp, rfl⟩ | ⟨hp, rfl⟩ | ⟨hp, rfl⟩⟩ :=
      uartIsr_cases (s := afterTurn s) hp he
    · exact .rxTest hl ⟨hn, hz, hp⟩
    · exact .rxLoop hl ⟨hn, hz, hp⟩
    · exact .rxEnd hl ⟨hn, hz, hp⟩
    · exact .txTest hl ⟨hn, hz, hp⟩
    · exact .txLoop hl ⟨hn, hz, hp⟩
    · exact .txEnd hl ⟨hn, hz, hp⟩

/-! ### Which elements a step can write -/

/-- A step by what it writes: the environment's elements, those of a started command, `FAULT` alone,
a restored flag with the results, or rings, line records, phases, the latched byte and `EV`. -/
inductive StepShape (s : State) : State → Prop where
  | env (e : EnvStep) (turn : nextTurn s = some (.env e)) : StepShape s (envStep e (afterTurn s))
  | starts (i : Instr) (t : State) (hi : starting s = some i) (effect : Effect (afterTurn s) i t) :
      StepShape s t
  | raises (f : BlockFault)
      (hf : (nextTurn s = some .ih ∧ f = .noHandler) ∨
        (nextTurn s = some .fg ∧ starting s = none ∧ f = .illegalCmd)) :
      StepShape s (raise f (afterTurn s))
  | restores (d : Dir) (val : Word)
      (hp : s.fg.phase = .sbRestore ∨ s.fg.phase = .rbRestore) :
      StepShape s (restoreBlocking s.fgLine d val (afterTurn s))
  | moves (t : State)
      (h : t = { afterTurn s with
        rb := t.rb, ul := t.ul, ev := t.ev, ih := t.ih,
        fg := { s.fg with phase := t.fg.phase, lb := t.fg.lb } })
      (hev : s.ev <+: t.ev) : StepShape s t

theorem announce_ev_grows (l : Nat) (d : Dir) (s : State) : s.ev <+: (announce l d s).ev := by
  unfold announce
  split
  · exact List.prefix_rfl
  · exact List.prefix_append _ _

theorem suppressIf_ev (c : Bool) (l : Nat) (d : Dir) (s : State) :
    (suppressIf c l d s).ev = s.ev := by
  unfold suppressIf
  split <;> rfl

theorem isrRxEnd_ev_grows (l : Nat) (s : State) : s.ev <+: (isrRxEnd l s).ev := by
  rw [isrRxEnd, setIhPhase_ev, suppressIf_ev]
  exact announce_ev_grows l .rx s

theorem isrTxEnd_ev_grows (l : Nat) (s : State) : s.ev <+: (isrTxEnd l s).ev := by
  rw [isrTxEnd, setIhPhase_ev, suppressIf_ev]
  exact announce_ev_grows l .tx s

theorem isrRxLoop_eq (l : Nat) (s : State) :
    isrRxLoop l s =
      { s with
        rb := (isrRxLoop l s).rb, ul := (isrRxLoop l s).ul,
        ih := { s.ih with phase := (isrRxLoop l s).ih.phase } } := by
  unfold isrRxLoop
  split
  · rw [moveRx_eq]
  · rfl

theorem isrTxLoop_eq (l : Nat) (s : State) :
    isrTxLoop l s =
      { s with
        rb := (isrTxLoop l s).rb, ul := (isrTxLoop l s).ul,
        ih := { s.ih with phase := (isrTxLoop l s).ih.phase } } := by
  unfold isrTxLoop
  split
  · rw [moveTx_eq]
  · rfl

/-- What any step can write. -/
theorem StepKind.shape {s t : State} (h : StepKind s t) : StepShape s t := by
  cases h with
  | env e turn => exact .env e turn
  | starts i _ hi _ effect => exact .starts i t hi effect
  | illegal hi turn => exact .raises _ (.inr ⟨turn.now, hi, rfl⟩)
  | noHandler turn => exact .raises _ (.inl ⟨turn.now, rfl⟩)
  | sendRestore _ turn => exact .restores .tx 0 (.inl turn.phase)
  | receiveRestore _ turn => exact .restores .rx _ (.inr turn.phase)
  | sendDrain => rw [sendByteDrain_eq]; exact .moves _ rfl List.prefix_rfl
  | sendPut => rw [sendBytePut_eq]; exact .moves _ rfl List.prefix_rfl
  | receiveGet => rw [receiveByteGet_eq]; exact .moves _ rfl List.prefix_rfl
  | external => exact .moves _ rfl (List.prefix_append _ _)
  | rxLoop => rw [isrRxLoop_eq]; exact .moves _ rfl List.prefix_rfl
  | rxEnd => rw [isrRxEnd_eq]; exact .moves _ rfl (isrRxEnd_ev_grows _ (afterTurn s))
  | txLoop => rw [isrTxLoop_eq]; exact .moves _ rfl List.prefix_rfl
  | txEnd => rw [isrTxEnd_eq]; exact .moves _ rfl (isrTxEnd_ev_grows _ (afterTurn s))
  | _ => exact .moves _ rfl List.prefix_rfl

/-! ### How a started command ends -/

/-- A started command faults with number 3, 4 or 5, enters its first phase, or completes after an
effect that is not on the foreground or `FAULT` (R116, R200, R205, R264). -/
theorem effect_outcome {s t : State} {i : Instr} (h : Effect s i t) :
    (∃ f, 3 ≤ (faultNumber f).toNat ∧ t = raise f s) ∨
    (t.fg.pc = s.fg.pc ∧ t.r0 = s.r0 ∧ t.r1 = s.r1 ∧ t.fault = s.fault) ∨
    ∃ st val u, t = done i.words st val u ∧ u.fg = s.fg ∧ u.fault = s.fault := by
  cases h with
  | faults _ f hf => exact .inl ⟨f, hf, rfl⟩
  | sendByteEnters => exact .inr (.inl ⟨rfl, rfl, rfl, rfl⟩)
  | receiveByteEnters => exact .inr (.inl ⟨rfl, rfl, rfl, rfl⟩)
  | send l p n q =>
    obtain ⟨r, e⟩ := copyIn_same (rsel l.toNat .tx) q p.toNat (setMask l.toNat .tx true s)
    rw [e]
    exact .inr (.inr ⟨_, _, _, rfl, rfl, rfl⟩)
  | receive l p n q =>
    obtain ⟨r, m, e, -⟩ := copyOut_same (rsel l.toNat .rx) q p.toNat (setMask l.toNat .rx true s)
    rw [e]
    exact .inr (.inr ⟨_, _, _, rfl, rfl, rfl⟩)
  | _ => exact .inr (.inr ⟨_, _, _, rfl, rfl, rfl⟩)

end Sys2Proof.Machine
end

section
/-! Faults (R48, R263, R264). -/

namespace Sys2Proof.Machine

/-- Raising where no fault is held changes `FAULT` alone. -/
theorem raise_of_clear {s : State} (f : BlockFault) (h : s.fault = 0) :
    raise f s = { s with fault := faultNumber f } := by
  rw [raise, if_pos h, BlockFault.code_eq]

/-- The numbers that a started command raises (Table R263). -/
theorem faultNumber_of_started {f : BlockFault} (h : 3 ≤ (faultNumber f).toNat) :
    faultNumber f = 3 ∨ faultNumber f = 4 ∨ faultNumber f = 5 := by
  revert h
  cases f <;> decide

theorem envStep_fault (e : EnvStep) (s : State) : (envStep e s).fault = s.fault := by
  rw [(envStep_eq e s).1]

/-- A step either keeps `FAULT` or raises: the handler engine for a missing handler, the foreground
for an illegal command, or a started command. -/
theorem step_fault {s t : State} (h : StepKind s t) :
    t.fault = s.fault ∨
    ∃ f, t = raise f (afterTurn s) ∧
      ((nextTurn s = some .ih ∧ f = .noHandler) ∨
       (nextTurn s = some .fg ∧ starting s = none ∧ f = .illegalCmd) ∨
       ((∃ i, starting s = some i) ∧ 3 ≤ (faultNumber f).toNat)) := by
  cases h.shape with
  | env e => exact .inl (envStep_fault e _)
  | starts i _ hi effect =>
    rcases effect_outcome effect with ⟨f, hf, e⟩ | ⟨-, -, -, e⟩ | ⟨st, val, u, rfl, -, hu⟩
    · exact .inr ⟨f, e, .inr (.inr ⟨⟨i, hi⟩, hf⟩)⟩
    · exact .inl e
    · exact .inl hu
  | raises f hf => exact .inr ⟨f, rfl, hf.imp_right .inl⟩
  | restores => exact .inl rfl
  | moves _ e => rw [e]; exact .inl rfl

/-- After a fault only the environment acts (R264). -/
theorem step_after_fault {s t : State} (h : StepKind s t) (hz : s.fault ≠ 0) :
    t = afterTurn s ∨ ∃ e, nextTurn s = some (.env e) ∧ t = envStep e (afterTurn s) := by
  cases h with
  | passes => exact .inl rfl
  | env e turn => exact .inr ⟨e, turn, rfl⟩
  | starts i _ hi turn effect => exact absurd turn.clear hz
  | _ =>
    rename_i turn
    exact absurd turn.clear hz

/-- Settles O52: the step that raises is one of three kinds, each a `raise`, and a held fault leaves
the environment alone to act. -/
theorem faultChangesNothingElse : Obligations.FaultChangesNothingElse := by
  intro s t h
  have kind := stepKind h
  refine ⟨fun hz ht => ?_, fun hz => ?_, fun hz henv => ?_⟩
  · rcases step_fault kind with e | ⟨f, e, hwho⟩
    · exact absurd (e.trans hz) ht
    rw [raise_of_clear f (s := afterTurn s) hz] at e
    have hcode : t.fault = faultNumber f := by rw [e]
    refine ⟨by rw [hcode]; exact e, ?_⟩
    rw [hcode]
    rcases hwho with ⟨hn, rfl⟩ | ⟨hn, hst, rfl⟩ | ⟨⟨i, hi⟩, hf⟩
    · exact .inl ⟨hn, rfl⟩
    · exact .inr (.inl ⟨hn, hst, rfl⟩)
    · exact .inr (.inr ⟨i, hi, faultNumber_of_started hf⟩)
  · rcases step_after_fault kind hz with rfl | ⟨e, -, rfl⟩
    · rfl
    · exact envStep_fault e _
  · rcases step_after_fault kind hz with e | ⟨e, hn, -⟩
    · exact e
    · exact absurd hn (henv e)

end Sys2Proof.Machine
end

section
/-! The command pointer, the results and the event log (R44, R45, R49, R116); who writes the
memories and the inputs (R42, R70, R78, R85). -/

namespace Sys2Proof

/-! ### A command that decodes stands in the stream with all its words (R104) -/

theorem formatN_fits {cw : Word} {ops : List Word} {i j : Instr} (hj : j.words = 1)
    (h : formatN cw j = .ok i) : i.words ≤ (cw :: ops).length := by
  obtain ⟨-, e⟩ := whenMbz_ok h
  cases e
  simp [hj]

theorem formatNB_fits {cw : Word} {ops : List Word} {x : Bool} {f : Byte → Instr} {i : Instr}
    (hf : ∀ a, (f a).words = 1) (h : formatNB cw x f = .ok i) : i.words ≤ (cw :: ops).length := by
  obtain ⟨-, e⟩ := whenMbz_ok h
  cases e
  simp [hf]

theorem formatS_fits {cw : Word} {ops : List Word} {f : Byte → Instr} {i : Instr}
    (hf : ∀ a, (f a).words = 1) (h : formatS cw f = .ok i) : i.words ≤ (cw :: ops).length := by
  obtain ⟨-, e⟩ := whenMbz_ok h
  cases e
  simp [hf]

theorem formatSB_fits {cw : Word} {ops : List Word} {f : Byte → Byte → Instr} {i : Instr}
    (hf : ∀ a b, (f a b).words = 1) (h : formatSB cw f = .ok i) :
    i.words ≤ (cw :: ops).length := by
  obtain ⟨-, e⟩ := whenMbz_ok h
  cases e
  simp [hf]

theorem formatSH_fits {cw : Word} {ops : List Word} {f : Byte → Half → Instr} {i : Instr}
    (hf : ∀ a b, (f a b).words = 1) (h : formatSH cw f = .ok i) :
    i.words ≤ (cw :: ops).length := by
  cases h
  simp [hf]

theorem formatSA_fits {cw : Word} {ops : List Word} {x : Bool} {f : Byte → Byte → Instr}
    {i : Instr} (hf : ∀ a b, (f a b).words = 1) (h : formatSA cw x f = .ok i) :
    i.words ≤ (cw :: ops).length := by
  obtain ⟨-, e⟩ := whenMbz_ok h
  cases e
  simp [hf]

theorem formatSW1_fits {cw : Word} {ops : List Word} {f : Byte → Word → Instr} {i : Instr}
    (hf : ∀ a b, (f a b).words = 2) (h : formatSW1 cw ops f = .ok i) :
    i.words ≤ (cw :: ops).length := by
  obtain ⟨-, e⟩ := whenMbz_ok h
  match ops, e with
  | w1 :: rest, rfl => simp [hf]

theorem formatSW2_fits {cw : Word} {ops : List Word} {f : Byte → Word → Word → Instr} {i : Instr}
    (hf : ∀ a b c, (f a b c).words = 3) (h : formatSW2 cw ops f = .ok i) :
    i.words ≤ (cw :: ops).length := by
  obtain ⟨-, e⟩ := whenMbz_ok h
  match ops, e with
  | w1 :: w2 :: rest, rfl => simp [hf]

/-- The words of a decoded command are all there, one arm for each row of the opcode map. -/
theorem decode_fits {ws : List Word} {i : Instr} (h : decode ws = .ok i) :
    i.words ≤ ws.length := by
  cases ws with
  | nil => cases h
  | cons cw ops =>
    unfold decode at h
    dsimp only at h
    split at h
    · exact formatSH_fits (fun _ _ => rfl) h
    · exact formatSB_fits (fun _ _ => rfl) h
    · exact formatS_fits (fun _ => rfl) h
    · exact formatS_fits (fun _ => rfl) h
    · exact formatS_fits (fun _ => rfl) h
    · exact formatN_fits rfl h
    · exact formatSW1_fits (fun _ _ => rfl) h
    · exact formatS_fits (fun _ => rfl) h
    · exact formatS_fits (fun _ => rfl) h
    · exact formatSA_fits (fun _ _ => rfl) h
    · exact formatN_fits rfl h
    · exact formatNB_fits (fun _ => rfl) h
    · exact formatS_fits (fun _ => rfl) h
    · exact formatS_fits (fun _ => rfl) h
    · exact formatN_fits rfl h
    · exact formatN_fits rfl h
    · exact formatSW2_fits (fun _ _ _ => rfl) h
    · exact formatSB_fits (fun _ _ => rfl) h
    · exact formatS_fits (fun _ => rfl) h
    · exact formatSW2_fits (fun _ _ _ => rfl) h
    · exact formatSW2_fits (fun _ _ _ => rfl) h
    · exact formatSW1_fits (fun _ _ => rfl) h
    · exact formatSW1_fits (fun _ _ => rfl) h
    · exact formatS_fits (fun _ => rfl) h
    · exact formatSA_fits (fun _ _ => rfl) h
    · cases h

end Sys2Proof

namespace Sys2Proof.Machine

/-- A fetched command ends within `PROG`. -/
theorem fetch_fits {s : State} {i : Instr} (h : fetch s = .ok i) :
    s.fg.pc.toNat + i.words ≤ s.prog.length := by
  have hw : i.words ≤ (streamWords s).length := decode_fits (decode_of_fetch h)
  have h0 : 0 < i.words := List.length_pos_iff.2 (encode_ne_nil i)
  rw [streamWords, List.length_drop] at hw
  omega

/-! ### The pointer, the results and the log -/

/-- From `s` to `t` the command at the pointer has completed (R116). -/
def CompletesIn (s t : State) : Prop :=
  ∃ i st val u, fetch s = .ok i ∧ t = done i.words st val u ∧ u.fg.pc = s.fg.pc

/-- In a restore phase the pointer names the blocking command, which is one word long (R44). -/
theorem fetch_of_restoring {s : State} (hs : s.Wf)
    (hp : s.fg.phase = .sbRestore ∨ s.fg.phase = .rbRestore) :
    ∃ i, fetch s = .ok i ∧ i.words = 1 := by
  rcases hp with hp | hp
  · obtain ⟨hf, -⟩ := hs.sending (by rw [hp]; rfl)
    exact ⟨_, hf, rfl⟩
  · obtain ⟨hf, -⟩ := hs.receiving (by rw [hp]; rfl)
    exact ⟨_, hf, rfl⟩

/-- A step completes a command or leaves the command pointer and the results alone. -/
theorem step_completes {s t : State} (hs : s.Wf) (h : StepKind s t) :
    (t.fg.pc = s.fg.pc ∧ t.r0 = s.r0 ∧ t.r1 = s.r1) ∨ CompletesIn s t := by
  cases h.shape with
  | env e => rw [(envStep_eq e _).1]; exact .inl ⟨rfl, rfl, rfl⟩
  | starts i _ hi effect =>
    rcases effect_outcome effect with ⟨f, -, rfl⟩ | ⟨h1, h2, h3, -⟩ | ⟨st, val, u, rfl, hu, -⟩
    · exact .inl ⟨by rw [raise_fg]; rfl, raise_r0 _ _, raise_r1 _ _⟩
    · exact .inl ⟨h1, h2, h3⟩
    · obtain ⟨-, -, -, -, hf⟩ := starting_fetch hi
      exact .inr ⟨i, st, val, u, hf, rfl, by rw [hu]; rfl⟩
  | raises f => exact .inl ⟨by rw [raise_fg]; rfl, raise_r0 _ _, raise_r1 _ _⟩
  | restores d val hp =>
    obtain ⟨i, hf, h1⟩ := fetch_of_restoring hs hp
    exact .inr ⟨i, .ok, val, setMask s.fgLine d s.fg.sv (afterTurn s), hf, by rw [h1]; rfl, rfl⟩
  | moves _ e => rw [e]; exact .inl ⟨rfl, rfl, rfl⟩

/-- `EV` only grows (R49). -/
theorem step_ev_grows {s t : State} (h : StepKind s t) : s.ev <+: t.ev := by
  cases h.shape with
  | env e => exact (envStep_eq e (afterTurn s)).2
  | starts i _ _ effect =>
    obtain ⟨-, -, -, -, -, -, -, hev⟩ := effect_frame effect
    exact hev
  | raises => rw [raise_ev]; exact List.prefix_rfl
  | restores => exact List.prefix_append _ _
  | moves _ _ hev => exact hev

/-- Settles O57: the pointer and the results move by `done` alone, which logs the completion. -/
theorem pointerMovesOnCompletion : Obligations.PointerMovesOnCompletion := by
  intro s t hs h
  have kind := stepKind h
  refine ⟨step_ev_grows kind, (step_completes hs kind).imp_right ?_⟩
  rintro ⟨i, st, val, u, hf, rfl, hpc⟩
  refine ⟨i, hf, by rw [done_fg, hpc], rfl, ?_⟩
  rw [done_ev, List.getLast?_concat, hpc]
  rfl

/-! ### Who writes the memories and the inputs -/

/-- What no step writes: `PROG`, the parameters, the count of resets. -/
theorem step_keeps_inputs {s t : State} (h : StepKind s t) :
    t.prog = s.prog ∧ t.cfg = s.cfg ∧ t.life = s.life := by
  cases h.shape with
  | env e => rw [(envStep_eq e _).1]; exact ⟨rfl, rfl, rfl⟩
  | starts i _ _ effect =>
    obtain ⟨hcfg, hlife, hprog, -⟩ := effect_frame effect
    exact ⟨hprog, hcfg, hlife⟩
  | raises => exact ⟨raise_prog _ _, raise_cfg _ _, raise_life _ _⟩
  | restores => exact ⟨rfl, rfl, rfl⟩
  | moves _ e => rw [e]; exact ⟨rfl, rfl, rfl⟩

/-- `MEM` is written by a `UART_RECEIVE` alone, from its address on, one byte for each byte that it
takes (R210). -/
theorem effect_mem {s t : State} {i : Instr} (h : Effect s i t) :
    t.mem = s.mem ∨
    ∃ l p n, i = .uartReceive l p n ∧
      ∀ a, a < p.toNat ∨ p.toNat + n.toNat ≤ a → t.mem.read a = s.mem.read a := by
  cases h with
  | faults => exact .inl (raise_mem _ _)
  | send l p n q =>
    obtain ⟨r, e⟩ := copyIn_same (rsel l.toNat .tx) q p.toNat (setMask l.toNat .tx true s)
    rw [e]
    exact .inl rfl
  | receive l p n q hq =>
    obtain ⟨r, m, e, hm⟩ := copyOut_same (rsel l.toNat .rx) q p.toNat (setMask l.toNat .rx true s)
    have hle : q ≤ n.toNat := hq ▸ Nat.min_le_left _ _
    rw [e]
    exact .inr ⟨l, p, n, rfl, fun a ha => hm a (ha.imp_right fun h => by omega)⟩
  | _ => exact .inl rfl

theorem step_mem {s t : State} (h : StepKind s t) :
    t.mem = s.mem ∨
    ∃ l p n, starting s = some (.uartReceive l p n) ∧
      ∀ a, a < p.toNat ∨ p.toNat + n.toNat ≤ a → t.mem.read a = s.mem.read a := by
  cases h.shape with
  | env e => rw [(envStep_eq e _).1]; exact .inl rfl
  | starts i _ hi effect =>
    rcases effect_mem effect with e | ⟨l, p, n, rfl, hout⟩
    · exact .inl e
    · exact .inr ⟨l, p, n, hi, hout⟩
  | raises => exact .inl (raise_mem _ _)
  | restores => exact .inl rfl
  | moves _ e => rw [e]; exact .inl rfl

theorem extReq_congr {s t : State} (h : t.extreq = s.extreq) (v : Nat) :
    t.extReq v = s.extReq v := by
  unfold State.extReq
  rw [h]

theorem rxArrive_extreq (l : Nat) (b : Byte) (s : State) : (rxArrive l b s).extreq = s.extreq := by
  unfold rxArrive
  split
  · rfl
  · split <;> rfl

theorem txDepart_extreq (l : Nat) (s : State) : (txDepart l s).extreq = s.extreq := by
  unfold txDepart
  split
  · rfl
  · split <;> rfl

/-- `EXT_SET` drives its own input only, to its own value (R270). -/
theorem extSet_extReq {u v : Nat} {b : Bool} {s : State}
    (h : (extSet u b s).extReq v ≠ s.extReq v) : u = v ∧ (extSet u b s).extReq v = b := by
  unfold extSet at h ⊢
  split at h
  · exact absurd rfl h
  · next hs =>
    rw [if_neg hs]
    by_cases huv : u = v
    · subst huv
      by_cases hlen : u < s.extreq.length
      · exact ⟨rfl, extReq_setExtReq_same s u b hlen⟩
      · have hnoop : (s.setExtReq u b).extreq = s.extreq :=
          List.set_eq_of_length_le (Nat.le_of_not_lt hlen)
        exact absurd (extReq_congr hnoop u) h
    · exact absurd (extReq_setExtReq_of_ne s u v b huv) h

/-- A request input that a step of `ENV` changes. -/
theorem envStep_extReq {e : EnvStep} {s : State} {v : Nat}
    (h : (envStep e s).extReq v ≠ s.extReq v) : e = .extSet v ((envStep e s).extReq v) := by
  cases e with
  | rxArrive l b => exact absurd (extReq_congr (rxArrive_extreq l b s) v) h
  | txDepart l => exact absurd (extReq_congr (txDepart_extreq l s) v) h
  | extSet u b =>
    obtain ⟨rfl, hb⟩ := extSet_extReq h
    exact congrArg (EnvStep.extSet u) hb.symm

/-- A request input that a step changes is driven by the environment, to its new value. -/
theorem step_extReq {s t : State} (h : StepKind s t) {v : Nat}
    (hv : t.extReq v ≠ s.extReq v) : nextTurn s = some (.env (.extSet v (t.extReq v))) := by
  cases h.shape with
  | env e turn => exact turn.trans (congrArg (some ∘ Turn.env) (envStep_extReq hv))
  | starts i _ _ effect =>
    obtain ⟨-, -, -, hext, -⟩ := effect_frame effect
    exact absurd (extReq_congr hext v) hv
  | raises => exact absurd (extReq_congr (raise_extreq _ _) v) hv
  | restores => exact absurd rfl hv
  | moves _ e => exact absurd (extReq_congr (congrArg State.extreq e) v) hv

/-- Settles O58: of all steps only a started `UART_RECEIVE` writes `MEM`, within its range, and only
`EXT_SET` a request input. -/
theorem whoWritesTheMemories : Obligations.WhoWritesTheMemories := by
  intro s t _ h
  have kind := stepKind h
  obtain ⟨hprog, hcfg, hlife⟩ := step_keeps_inputs kind
  refine ⟨hprog, hcfg, hlife, fun a ha => ?_, fun v hv => step_extReq kind hv⟩
  rcases step_mem kind with e | ⟨l, p, n, hi, hout⟩
  · exact absurd (by rw [e]) ha
  · refine ⟨l, p, n, hi, ?_⟩
    by_contra hr
    exact ha (hout a (by omega))

end Sys2Proof.Machine
end

section
/-! Reset values, and the global enables from reset on (R56, R57, R160, R166, R290, R291). -/

namespace Sys2Proof.Machine

/-- Settles O9: reset is `State.boot` on the launch inputs that the state carries, so each element
is read off Table R56. -/
theorem resetValues : Obligations.ResetValues := by
  rintro s t rfl
  refine ⟨fun k hk => ?_, fun l hl => ?_, fun v hv => ?_, rfl, rfl, rfl, rfl, rfl, rfl, rfl, rfl,
    List.length_replicate, List.length_replicate, List.length_replicate, rfl, rfl, rfl, rfl⟩
  · have hring : (applyReset s).ring k = Ring.atReset := List.getD_replicate _ hk
    rw [hring]
    exact ⟨rfl, rfl, rfl, rfl⟩
  · exact List.getD_replicate _ hl
  · exact List.getD_replicate _ hv

/-- No line is initialised after reset, whatever its number. -/
theorem boot_inited (i : Launch) (life l : Nat) :
    ((State.boot i life).line l).inited = false := by
  show ((List.replicate i.cfg.nlines Line.atReset).getD l default).inited = false
  by_cases hl : l < i.cfg.nlines
  · rw [List.getD_replicate _ hl]
    rfl
  · rw [List.getD_eq_default _ _ (by rw [List.length_replicate]; omega)]
    rfl

theorem globalEnable_congr {s t : State} (h : t.it = s.it) (c : PrioClass) :
    t.globalEnable c = s.globalEnable c := by
  cases c with
  | normal => exact congrArg IntTable.gnorm h
  | fast => exact congrArg IntTable.gfast h

/-- What a started command does to the global enables: three commands write them (R160, R165,
R166). -/
theorem effect_globalEnable {s t : State} {i : Instr} (h : Effect s i t) :
    (∀ c, t.globalEnable c = s.globalEnable c) ∨ i = .itcInit ∨
    (i = .itcDisableAll ∧ ∀ c, t.globalEnable c = false) ∨
    ∃ p, i = .itcRestoreAll p ∧ ∀ c, t.globalEnable c = p.getLsbD (if c = .fast then 1 else 0) := by
  cases h with
  | faults => exact .inl (globalEnable_congr (raise_it _ _))
  | itcInit => exact .inr (.inl rfl)
  | disableAll => exact .inr (.inr (.inl ⟨rfl, fun c => by cases c <;> rfl⟩))
  | restoreAll p => exact .inr (.inr (.inr ⟨p, rfl, fun c => by cases c <;> rfl⟩))
  | send l p n q =>
    obtain ⟨r, e⟩ := copyIn_same (rsel l.toNat .tx) q p.toNat (setMask l.toNat .tx true s)
    rw [e]
    exact .inl fun c => by cases c <;> rfl
  | receive l p n q =>
    obtain ⟨r, m, e, -⟩ := copyOut_same (rsel l.toNat .rx) q p.toNat (setMask l.toNat .rx true s)
    rw [e]
    exact .inl fun c => by cases c <;> rfl
  | _ => exact .inl fun c => by cases c <;> rfl

/-- A step writes the interrupt table only where it starts a command (R171). -/
theorem step_table {s t : State} (h : StepKind s t) :
    t.it = s.it ∨ ∃ i, starting s = some i ∧ Effect (afterTurn s) i t := by
  cases h.shape with
  | env e => rw [(envStep_eq e _).1]; exact .inl rfl
  | starts i _ hi effect => exact .inr ⟨i, hi, effect⟩
  | raises => exact .inl (raise_it _ _)
  | restores => exact .inl rfl
  | moves _ e => rw [e]; exact .inl rfl

/-- Settles O10: reset clears both enables and every `inited`; of the three commands that write an
enable, `ITC_DISABLE_ALL` sets none. -/
theorem interruptsStayOffUntilEnabled : Obligations.InterruptsStayOffUntilEnabled := by
  refine ⟨fun i life c l => ⟨?_, ?_⟩, fun s t c h hoff hon => ?_⟩
  · have hoff : (State.boot i life).globalEnable c = false := by cases c <;> rfl
    rw [take, hoff, Bool.false_and]
  · rw [lineIrq, boot_inited, Bool.false_and]
  · rcases step_table (stepKind h) with e | ⟨i, hi, effect⟩
    · rw [globalEnable_congr e, hoff] at hon
      cases hon
    · rcases effect_globalEnable effect with e | rfl | ⟨-, e⟩ | ⟨p, rfl, e⟩
      · rw [e c] at hon
        exact absurd (hoff.symm.trans hon) Bool.false_ne_true
      · exact .inl hi
      · rw [e c] at hon
        cases hon
      · exact .inr ⟨p, hi, (e c).symm.trans hon⟩

end Sys2Proof.Machine
end

section
/-! What a step leaves of the lines it does not work on, and of the flags and byte queues of the one
it does (R32, R34 to R36, R297). -/

namespace Sys2Proof.Machine

/-! ### Flags, byte queues, untouched lines -/

/-- The hardware FIFO of a direction (R39). -/
def Line.fifo (u : Line) : Dir → List Byte
  | .rx => u.hwrx
  | .tx => u.hwtx

/-- The flags of line `l` unchanged (R34, R36). -/
abbrev SameFlagsAt (l : Nat) (s t : State) : Prop :=
  (t.line l).inited = (s.line l).inited ∧ ∀ d, (t.line l).mask d = (s.line l).mask d

/-- The record of line `l` and both its rings unchanged (R32). -/
abbrev Untouched (l : Nat) (s t : State) : Prop :=
  t.line l = s.line l ∧ ∀ d, t.ring (rsel l d) = s.ring (rsel l d)

/-- Of all rings, line records and flags, only the ring and the FIFO of line `l`, direction `d` may
have changed: bytes were moved. -/
structure MovesBytes (l : Nat) (d : Dir) (s t : State) : Prop where
  flags : ∀ j, SameFlagsAt j s t
  other : ∀ j, j ≠ l → Untouched j s t
  ring : ∀ e, e ≠ d → t.ring (rsel l e) = s.ring (rsel l e)
  fifo : ∀ e, e ≠ d → (t.line l).fifo e = (s.line l).fifo e

theorem MovesBytes.refl (l : Nat) (d : Dir) (s : State) : MovesBytes l d s s :=
  ⟨fun _ => ⟨rfl, fun _ => rfl⟩, fun _ _ => ⟨rfl, fun _ => rfl⟩, fun _ _ => rfl, fun _ _ => rfl⟩

/-- Writing one ring, and the FIFO of its direction in the line's record, moves bytes. -/
theorem MovesBytes.of_set {l : Nat} {d : Dir} {s t : State} {r : Ring} {u : Line}
    (hrb : t.rb = s.rb.set (rsel l d) r) (hul : t.ul = s.ul.set l u)
    (hi : u.inited = (s.line l).inited) (hm : ∀ e, u.mask e = (s.line l).mask e)
    (hf : ∀ e, e ≠ d → u.fifo e = (s.line l).fifo e) : MovesBytes l d s t := by
  have hline : ∀ j, t.line j = (s.setLine l u).line j := fun j => by
    rw [State.line, hul]
    rfl
  have hring : ∀ k, t.ring k = (s.setRing (rsel l d) r).ring k := fun k => by
    rw [State.ring, hrb]
    rfl
  refine ⟨fun j => ?_, fun j hj => ⟨?_, fun e => ?_⟩, fun e he => ?_, fun e he => ?_⟩
  · rw [SameFlagsAt, hline, line_setLine]
    split
    · next h => rw [← h.1]; exact ⟨hi, hm⟩
    · exact ⟨rfl, fun _ => rfl⟩
  · rw [hline, line_setLine_of_ne _ _ _ _ hj.symm]
  · rw [hring, ring_setRing_of_ne _ _ _ _ fun h => hj (rsel_inj.1 h).1.symm]
  · rw [hring, ring_setRing_of_ne _ _ _ _ fun h => he (rsel_inj.1 h).2.symm]
  · rw [hline, line_setLine]
    split
    · exact hf e he
    · rfl

/-! ### The operations that move bytes -/

theorem mask_with_hwtx (u : Line) (ys : List Byte) (d : Dir) :
    Line.mask { u with hwtx := ys } d = u.mask d := by cases d <;> rfl

theorem mask_with_hwrx (u : Line) (ys : List Byte) (d : Dir) :
    Line.mask { u with hwrx := ys } d = u.mask d := by cases d <;> rfl

/-- A ring and the transmit FIFO written. -/
theorem movesBytes_tx {l : Nat} {s t : State} {r : Ring} {ys : List Byte}
    (hrb : t.rb = s.rb.set (rsel l .tx) r)
    (hul : t.ul = s.ul.set l { s.line l with hwtx := ys }) : MovesBytes l .tx s t := by
  refine .of_set hrb hul rfl (mask_with_hwtx _ _) fun e he => ?_
  cases e with
  | rx => rfl
  | tx => exact absurd rfl he

/-- A ring and the receive FIFO written. -/
theorem movesBytes_rx {l : Nat} {s t : State} {r : Ring} {ys : List Byte}
    (hrb : t.rb = s.rb.set (rsel l .rx) r)
    (hul : t.ul = s.ul.set l { s.line l with hwrx := ys }) : MovesBytes l .rx s t := by
  refine .of_set hrb hul rfl (mask_with_hwrx _ _) fun e he => ?_
  cases e with
  | rx => exact absurd rfl he
  | tx => rfl

theorem rb_unchanged (s : State) (k : Nat) : s.rb = s.rb.set k (s.ring k) :=
  (set_getD_self s.rb k default).symm

theorem ul_unchanged (s : State) (l : Nat) : s.ul = s.ul.set l (s.line l) :=
  (set_getD_self s.ul l default).symm

theorem moveTx_moves (l : Nat) (s : State) : MovesBytes l .tx s (moveTx l s) := by
  unfold moveTx rbRead
  generalize (ringRead (s.powerOn (rsel l .tx)) (s.ring (rsel l .tx))).1 = x
  cases x with
  | some b => exact movesBytes_tx rfl rfl
  | none => exact movesBytes_tx rfl (ul_unchanged s l)

theorem moveRx_moves (l : Nat) (s : State) : MovesBytes l .rx s (moveRx l s) := by
  unfold moveRx
  split
  · exact movesBytes_rx rfl rfl
  · exact .refl l .rx s

theorem isrRxLoop_moves (l : Nat) (s : State) : MovesBytes l .rx s (isrRxLoop l s) := by
  unfold isrRxLoop
  split
  · exact moveRx_moves l s
  · exact movesBytes_rx (rb_unchanged s _) (ul_unchanged s l)

theorem isrTxLoop_moves (l : Nat) (s : State) : MovesBytes l .tx s (isrTxLoop l s) := by
  unfold isrTxLoop
  split
  · exact moveTx_moves l s
  · exact movesBytes_tx (rb_unchanged s _) (ul_unchanged s l)

theorem sendByteDrain_moves (l : Nat) (s : State) : MovesBytes l .tx s (sendByteDrain l s) := by
  unfold sendByteDrain
  split
  · exact movesBytes_tx (rb_unchanged s _) (ul_unchanged s l)
  · split
    · exact moveTx_moves l s
    · exact .refl l .tx s

theorem sendBytePut_moves (l : Nat) (s : State) : MovesBytes l .tx s (sendBytePut l s) := by
  unfold sendBytePut
  split
  · exact movesBytes_tx (rb_unchanged s _) rfl
  · exact .refl l .tx s

theorem receiveByteGet_moves (l : Nat) (s : State) : MovesBytes l .rx s (receiveByteGet l s) := by
  unfold receiveByteGet rbRead
  generalize (ringRead (s.powerOn (rsel l .rx)) (s.ring (rsel l .rx))).1 = x
  cases x with
  | some b => exact movesBytes_rx rfl (ul_unchanged s l)
  | none =>
    cases hb : (s.line l).hwrx with
    | nil => exact .refl l .rx s
    | cons b rest => exact movesBytes_rx (rb_unchanged s _) rfl

/-! ### The environment -/

theorem rxArrive_moves (l : Nat) (b : Byte) (s : State) : MovesBytes l .rx s (rxArrive l b s) := by
  unfold rxArrive
  split
  · exact .refl l .rx s
  · split
    · exact movesBytes_rx (rb_unchanged s _) rfl
    · exact movesBytes_rx (rb_unchanged s _) (ul_unchanged s l)

theorem txDepart_moves (l : Nat) (s : State) : MovesBytes l .tx s (txDepart l s) := by
  unfold txDepart
  split
  · exact .refl l .tx s
  · split
    · exact movesBytes_tx (rb_unchanged s _) rfl
    · exact .refl l .tx s

theorem extSet_ul (v : Nat) (b : Bool) (s : State) : (extSet v b s).ul = s.ul := by
  unfold extSet
  split <;> rfl

/-- No step of `ENV` writes a flag (R36). -/
theorem envStep_flags (e : EnvStep) (s : State) (j : Nat) : SameFlagsAt j s (envStep e s) := by
  cases e with
  | rxArrive l b => exact (rxArrive_moves l b s).flags j
  | txDepart l => exact (txDepart_moves l s).flags j
  | extSet v b =>
    have hline : (extSet v b s).line j = s.line j := by
      rw [State.line, extSet_ul]
      rfl
    show SameFlagsAt j s (extSet v b s)
    rw [SameFlagsAt, hline]
    exact ⟨rfl, fun _ => rfl⟩

/-- A step of `ENV` touches its own line only (R268 to R270). -/
theorem envStep_untouched {e : EnvStep} {l : Nat} (s : State) (h : envLine e ≠ some l) :
    Untouched l s (envStep e s) := by
  cases e with
  | rxArrive j b => exact (rxArrive_moves j b s).other l fun hlj => h (congrArg some hlj.symm)
  | txDepart j => exact (txDepart_moves j s).other l fun hlj => h (congrArg some hlj.symm)
  | extSet v b =>
    refine ⟨?_, fun d => ?_⟩
    · show (extSet v b s).ul.getD l default = _
      rw [extSet_ul]
      rfl
    · rw [(envStep_eq (.extSet v b) s).1]
      rfl

end Sys2Proof.Machine
end

section
/-! Who writes the flags of a line, and which line a step touches (R32, R34 to R36, R297). -/

namespace Sys2Proof.Machine

/-! ### One suppression flag written -/

/-- From `s` to `t` no flag of line `l` but the suppression flag of direction `d` has changed. -/
abbrev OnlyMask (l : Nat) (d : Dir) (s t : State) : Prop :=
  (t.line l).inited = (s.line l).inited ∧ ∀ e, e ≠ d → (t.line l).mask e = (s.line l).mask e

theorem mask_setMask_of_ne (u : Line) {d e : Dir} (b : Bool) (h : e ≠ d) :
    (u.setMask d b).mask e = u.mask e := by
  cases d <;> cases e
  case rx.rx | tx.tx => exact absurd rfl h
  case rx.tx | tx.rx => rfl

theorem setMask_line_of_ne (s : State) {l j : Nat} (d : Dir) (b : Bool) (h : l ≠ j) :
    (setMask l d b s).line j = s.line j :=
  line_setLine_of_ne s l j _ h

theorem setMask_onlyMask (l : Nat) (d : Dir) (b : Bool) (s : State) :
    OnlyMask l d s (setMask l d b s) := by
  rw [OnlyMask, setMask, line_setLine]
  split
  · exact ⟨lineSetMask_inited _ _ _, fun e he => mask_setMask_of_ne _ b he⟩
  · exact ⟨rfl, fun _ _ => rfl⟩

/-! ### Untouched lines -/

theorem Untouched.trans {l : Nat} {s t u : State} (h1 : Untouched l s t) (h2 : Untouched l t u) :
    Untouched l s u :=
  ⟨h2.1.trans h1.1, fun d => (h2.2 d).trans (h1.2 d)⟩

theorem Untouched.of_lists {s t : State} (l : Nat) (hul : t.ul = s.ul) (hrb : t.rb = s.rb) :
    Untouched l s t := by
  refine ⟨?_, fun d => ?_⟩
  · unfold State.line
    rw [hul]
  · unfold State.ring
    rw [hrb]

theorem raise_untouched (f : BlockFault) (l : Nat) (s : State) : Untouched l s (raise f s) :=
  .of_lists l (raise_ul f s) (raise_rb f s)

theorem setLine_untouched (s : State) {l j : Nat} (u : Line) (h : j ≠ l) :
    Untouched l s (s.setLine j u) :=
  ⟨line_setLine_of_ne s j l u h, fun _ => rfl⟩

/-- A ring belongs to one line (R30). -/
theorem setRing_untouched (s : State) {l k : Nat} (r : Ring) (h : k / 2 ≠ l) :
    Untouched l s (s.setRing k r) :=
  ⟨rfl, fun d => ring_setRing_of_ne s k _ r fun e => h (by rw [e, rsel_half])⟩

theorem setMask_untouched (s : State) {l j : Nat} (d : Dir) (b : Bool) (h : j ≠ l) :
    Untouched l s (setMask j d b s) :=
  setLine_untouched s _ h

theorem initUart_line (div : Word) (l j : Nat) (s : State) :
    (initUart div l s).line j = (s.setLine l (initLine s.cfg div (s.line l))).line j := rfl

/-- `UART_INIT` writes the rings of its line only (R195). -/
theorem initUart_untouched (div : Word) {l j : Nat} (s : State) (h : j ≠ l) :
    Untouched l s (initUart div j s) := by
  have hk : ∀ d e, rsel j e ≠ rsel l d := fun d e hr => h (rsel_inj.1 hr).1
  refine ⟨line_setLine_of_ne s j l _ h, fun d => ?_⟩
  calc (initUart div j s).ring (rsel l d)
      = ((s.setRing (rsel j .rx) _).setRing (rsel j .tx) _).ring (rsel l d) := rfl
    _ = (s.setRing (rsel j .rx) _).ring (rsel l d) := ring_setRing_of_ne _ _ _ _ (hk d .tx)
    _ = s.ring (rsel l d) := ring_setRing_of_ne _ _ _ _ (hk d .rx)

/-- A started command touches no line but its own (R32). -/
theorem effect_untouched {s t : State} {i : Instr} {l : Nat} (h : Effect s i t)
    (hl : commandLine i ≠ some l) : Untouched l s t := by
  have hne : ∀ {j}, commandLine i = some j → j ≠ l := fun e h => hl (h ▸ e)
  cases h with
  | faults => exact raise_untouched _ l _
  | rbInit => exact setRing_untouched s _ (hne rfl)
  | rbWriteRoom => exact setRing_untouched s _ (hne rfl)
  | rbReadByte => exact setRing_untouched s _ (hne rfl)
  | uartInit => exact initUart_untouched _ s (hne rfl)
  | sendByteEnters => exact setMask_untouched s _ _ (hne rfl)
  | receiveByteEnters => exact setMask_untouched s _ _ (hne rfl)
  | send j p n q =>
    obtain ⟨r, e⟩ := copyIn_same (rsel j.toNat .tx) q p.toNat (setMask j.toNat .tx true s)
    rw [e]
    exact ((setMask_untouched s _ _ (hne rfl)).trans
      (setRing_untouched _ r (by rw [rsel_half]; exact hne rfl))).trans
      (setMask_untouched _ _ _ (hne rfl))
  | receive j p n q =>
    obtain ⟨r, m, e, -⟩ := copyOut_same (rsel j.toNat .rx) q p.toNat (setMask j.toNat .rx true s)
    rw [e]
    have h1 := (setMask_untouched s .rx true (hne rfl)).trans
      (setRing_untouched _ (k := rsel j.toNat .rx) r (by rw [rsel_half]; exact hne rfl))
    exact h1.trans (setMask_untouched
      { (setMask j.toNat .rx true s).setRing (rsel j.toNat .rx) r with mem := m } .rx _ (hne rfl))
  | setRxCallback => exact setLine_untouched s _ (hne rfl)
  | setTxCallback => exact setLine_untouched s _ (hne rfl)
  | _ => exact .of_lists l rfl rfl

/-! ### The ends of the handler's two parts -/

theorem isrRxEnd_line (l j : Nat) (s : State) :
    (isrRxEnd l s).line j =
      if ringFull (s.ring (rsel l .rx)) then (setMask l .rx true s).line j else s.line j := by
  unfold isrRxEnd suppressIf announce
  split <;> split <;> rfl

theorem isrTxEnd_line (l j : Nat) (s : State) :
    (isrTxEnd l s).line j =
      if ringEmpty (s.ring (rsel l .tx)) then (setMask l .tx true s).line j else s.line j := by
  unfold isrTxEnd suppressIf announce
  split <;> split <;> rfl

theorem isrRxEnd_rb (l : Nat) (s : State) : (isrRxEnd l s).rb = s.rb := by
  rw [isrRxEnd_eq]

theorem isrTxEnd_rb (l : Nat) (s : State) : (isrTxEnd l s).rb = s.rb := by
  rw [isrTxEnd_eq]

theorem isrRxEnd_untouched {l j : Nat} (s : State) (h : l ≠ j) :
    Untouched j s (isrRxEnd l s) := by
  refine ⟨?_, fun d => by rw [State.ring, isrRxEnd_rb]; rfl⟩
  rw [isrRxEnd_line, setMask_line_of_ne s _ _ h, ite_self]

theorem isrTxEnd_untouched {l j : Nat} (s : State) (h : l ≠ j) :
    Untouched j s (isrTxEnd l s) := by
  refine ⟨?_, fun d => by rw [State.ring, isrTxEnd_rb]; rfl⟩
  rw [isrTxEnd_line, setMask_line_of_ne s _ _ h, ite_self]

/-! ### The line of a step -/

theorem stepLine_of_starting {s : State} {i : Instr} (h : starting s = some i) :
    stepLine s = commandLine i := by
  obtain ⟨hn, -, hp, -⟩ := starting_fetch h
  simp [stepLine, hn, hp, h]

theorem FgTurn.stepLine {s : State} {p : FgPhase} (h : FgTurn s p) (hp : p ≠ .idle) :
    stepLine s = some s.fgLine := by
  simp [Machine.stepLine, h.now, h.phase, hp]

theorem IhTurn.stepLine {s : State} {p : IhPhase} (h : IhTurn s p) (hp : p ≠ .idle) :
    stepLine s = some s.ihLine := by
  simp [Machine.stepLine, h.now, h.phase, hp]

/-- A step touches no line but its own. -/
theorem step_untouched {s t : State} {l : Nat} (h : StepKind s t) (hl : stepLine s ≠ some l) :
    Untouched l s t := by
  have hne : ∀ {j}, stepLine s = some j → j ≠ l := fun e h => hl (h ▸ e)
  cases h with
  | env e turn =>
    have hs : stepLine s = envLine e := by simp [stepLine, turn]
    exact envStep_untouched (afterTurn s) (hs ▸ hl)
  | starts i _ hi _ effect =>
    have hs : Untouched l (afterTurn s) t := effect_untouched effect (stepLine_of_starting hi ▸ hl)
    exact hs
  | illegal => exact raise_untouched _ l _
  | noHandler => exact raise_untouched _ l _
  | sendDrain _ turn =>
    exact (sendByteDrain_moves _ (afterTurn s)).other l (hne (turn.stepLine nofun)).symm
  | sendPut _ turn =>
    exact (sendBytePut_moves _ (afterTurn s)).other l (hne (turn.stepLine nofun)).symm
  | sendRestore _ turn =>
    exact setMask_untouched (afterTurn s) _ _ (hne (turn.stepLine nofun))
  | receiveGet _ turn =>
    exact (receiveByteGet_moves _ (afterTurn s)).other l (hne (turn.stepLine nofun)).symm
  | receiveRestore _ turn =>
    exact setMask_untouched (afterTurn s) _ _ (hne (turn.stepLine nofun))
  | rxLoop _ turn =>
    exact (isrRxLoop_moves _ (afterTurn s)).other l (hne (turn.stepLine nofun)).symm
  | rxEnd _ turn => exact isrRxEnd_untouched (afterTurn s) (hne (turn.stepLine nofun))
  | txLoop _ turn =>
    exact (isrTxLoop_moves _ (afterTurn s)).other l (hne (turn.stepLine nofun)).symm
  | txEnd _ turn => exact isrTxEnd_untouched (afterTurn s) (hne (turn.stepLine nofun))
  | _ => exact .of_lists l rfl rfl

/-- Settles O56: every kind of step leaves untouched each line that is not its own. -/
theorem linesAreIsolated : Obligations.LinesAreIsolated := by
  intro s t l _ h _ hl
  obtain ⟨hline, hring⟩ := step_untouched (stepKind h) hl
  exact ⟨hline, hring .rx, hring .tx⟩

/-! ### The handler engine and the suppression flags -/

/-- The phase in which the handler moves bytes of a direction (R252, R255). -/
def loopPhase : Dir → IhPhase
  | .rx => .rxLoop
  | .tx => .txLoop

/-- No ring and no FIFO has changed. -/
abbrev SameBytes (s t : State) : Prop :=
  ∀ l d, t.ring (rsel l d) = s.ring (rsel l d) ∧ (t.line l).fifo d = (s.line l).fifo d

theorem fifo_setMask (u : Line) (d e : Dir) (b : Bool) : (u.setMask d b).fifo e = u.fifo e := by
  cases e
  · exact lineSetMask_hwrx u d b
  · exact lineSetMask_hwtx u d b

theorem setMask_fifo (l j : Nat) (d e : Dir) (b : Bool) (s : State) :
    ((setMask l d b s).line j).fifo e = (s.line j).fifo e := by
  rw [setMask, line_setLine]
  split
  · next h => rw [fifo_setMask, h.1]
  · rfl

theorem isrRxEnd_sameBytes (l : Nat) (s : State) : SameBytes s (isrRxEnd l s) := by
  refine fun j e => ⟨by rw [State.ring, isrRxEnd_rb]; rfl, ?_⟩
  rw [isrRxEnd_line]
  split
  · exact setMask_fifo _ _ _ _ _ _
  · rfl

theorem isrTxEnd_sameBytes (l : Nat) (s : State) : SameBytes s (isrTxEnd l s) := by
  refine fun j e => ⟨by rw [State.ring, isrTxEnd_rb]; rfl, ?_⟩
  rw [isrTxEnd_line]
  split
  · exact setMask_fifo _ _ _ _ _ _
  · rfl

theorem raise_sameBytes (f : BlockFault) (s : State) : SameBytes s (raise f s) := fun l d => by
  obtain ⟨hline, hring⟩ := raise_untouched f l s
  exact ⟨hring d, by rw [hline]⟩

/-- A turn of the handler engine moves the bytes of one direction of its line, in the loop of that
direction, or no byte at all. -/
theorem ihTurn_moves {s t : State} (h : StepKind s t) (hn : nextTurn s = some .ih) :
    (∃ d, s.ih.phase = loopPhase d ∧ MovesBytes s.ihLine d (afterTurn s) t) ∨
    SameBytes (afterTurn s) t := by
  cases h with
  | env e turn => cases turn.symm.trans hn
  | starts _ _ _ turn => cases turn.now.symm.trans hn
  | illegal _ turn => cases turn.now.symm.trans hn
  | sendDrain _ turn => cases turn.now.symm.trans hn
  | sendPut _ turn => cases turn.now.symm.trans hn
  | sendRestore _ turn => cases turn.now.symm.trans hn
  | receiveGet _ turn => cases turn.now.symm.trans hn
  | receiveRestore _ turn => cases turn.now.symm.trans hn
  | noHandler => exact .inr (raise_sameBytes _ _)
  | rxLoop _ turn => exact .inl ⟨.rx, turn.phase, isrRxLoop_moves _ _⟩
  | rxEnd => exact .inr (isrRxEnd_sameBytes _ _)
  | txLoop _ turn => exact .inl ⟨.tx, turn.phase, isrTxLoop_moves _ _⟩
  | txEnd => exact .inr (isrTxEnd_sameBytes _ _)
  | _ => exact .inr fun _ _ => ⟨rfl, rfl⟩

/-- In the loop of a direction the line is initialised and the direction's flag clear (R251,
R254). -/
theorem State.HandlerOk.loop {s : State} (h : s.HandlerOk) {d : Dir}
    (hp : s.ih.phase = loopPhase d) :
    (s.line s.ihLine).mask d = false ∧ (s.line s.ihLine).inited = true := by
  obtain ⟨-, hrx, htx⟩ := h
  cases d with
  | rx => exact (hrx (.inl hp)).symm
  | tx => exact (htx (.inl hp)).symm

/-- A turn of the handler engine that changes the bytes of a direction finds its flag clear. -/
theorem ihTurn_respects {s t : State} (hs : s.Wf) (h : StepKind s t)
    (hn : nextTurn s = some .ih) {l : Nat} {d : Dir}
    (hc : t.ring (rsel l d) ≠ s.ring (rsel l d) ∨ (t.line l).fifo d ≠ (s.line l).fifo d) :
    (s.line l).mask d = false ∧ (s.line l).inited = true := by
  rcases ihTurn_moves h hn with ⟨e, hp, hm⟩ | hsame
  · by_cases hl : l = s.ihLine
    · subst hl
      by_cases hd : d = e
      · exact hd ▸ hs.handler.loop hp
      · rcases hc with hc | hc
        · exact absurd (hm.ring d hd) hc
        · exact absurd (hm.fifo d hd) hc
    · obtain ⟨hline, hring⟩ := hm.other l hl
      rcases hc with hc | hc
      · exact absurd (hring d) hc
      · exact absurd (by rw [hline]; rfl) hc
  · obtain ⟨hring, hfifo⟩ := hsame l d
    rcases hc with hc | hc
    · exact absurd hring hc
    · exact absurd hfifo hc

/-- Settles O48: the handler moves bytes in its two loops alone, which it enters with the flag
clear. -/
theorem handlerRespectsSuppression : Obligations.HandlerRespectsSuppression :=
  fun _ _ _ hs hn h =>
    ⟨fun hc => ihTurn_respects hs (stepKind h) hn (d := .rx) hc,
      fun hc => ihTurn_respects hs (stepKind h) hn (d := .tx) hc⟩

/-! ### Who writes the flags -/

/-- A command that a foreground runs with the flag of line `l`, direction `d` set (R200, R205, R209,
R210). -/
def MasksLine (l : Nat) : Dir → Instr → Prop
  | .rx, i => (∃ b, i = .uartReceiveByte b ∧ b.toNat = l) ∨
      ∃ b p n, i = .uartReceive b p n ∧ b.toNat = l
  | .tx, i => (∃ b x, i = .uartSendByte b x ∧ b.toNat = l) ∨
      ∃ b p n, i = .uartSend b p n ∧ b.toNat = l

/-- `UART_INIT` of line `l` is done: the line's flags as R192 and R198 leave them. -/
def InitsLine (l : Nat) (i : Instr) (t : State) : Prop :=
  ∃ b baud name, i = .uartInit b baud name ∧ b.toNat = l ∧ (t.line l).inited = true ∧
    (t.line l).mrx = false ∧ (t.line l).mtx = true

theorem SameFlagsAt.of_line {l : Nat} {s t : State} (h : t.line l = s.line l) :
    SameFlagsAt l s t := by
  rw [SameFlagsAt, h]
  exact ⟨rfl, fun _ => rfl⟩

theorem OnlyMask.trans {l : Nat} {d : Dir} {s t u : State} (h1 : OnlyMask l d s t)
    (h2 : OnlyMask l d t u) : OnlyMask l d s u :=
  ⟨h2.1.trans h1.1, fun e he => (h2.2 e he).trans (h1.2 e he)⟩

/-- A record written with the flags that it had. -/
theorem setLine_sameFlags {l : Nat} {s : State} {u : Line} (hi : u.inited = (s.line l).inited)
    (hm : ∀ d, u.mask d = (s.line l).mask d) : SameFlagsAt l s (s.setLine l u) := by
  rw [SameFlagsAt, line_setLine]
  split
  · exact ⟨hi, hm⟩
  · exact ⟨rfl, fun _ => rfl⟩

/-- The flags that `UART_INIT` leaves; nothing where the model holds no such line (log 13). -/
theorem initUart_flags (div : Word) (l : Nat) (s : State) :
    SameFlagsAt l s (initUart div l s) ∨
    (((initUart div l s).line l).inited = true ∧ ((initUart div l s).line l).mrx = false ∧
      ((initUart div l s).line l).mtx = true) := by
  rw [SameFlagsAt, initUart_line, line_setLine]
  split
  · exact .inr ⟨rfl, rfl, rfl⟩
  · exact .inl ⟨rfl, fun _ => rfl⟩

/-- What a started command does to the flags of a line. -/
theorem effect_flags {s t : State} {i : Instr} (h : Effect s i t) (l : Nat) :
    SameFlagsAt l s t ∨ InitsLine l i t ∨ ∃ d, MasksLine l d i ∧ OnlyMask l d s t := by
  by_cases hl : commandLine i = some l
  case neg => exact .inl (.of_line (effect_untouched h hl).1)
  have hlen : ∀ {j : Byte}, commandLine i = some j.toNat → j.toNat = l := fun e =>
    Option.some.inj (e.symm.trans hl)
  cases h with
  | faults => exact .inl (.of_line (raise_untouched _ l _).1)
  | uartInit b baud name div =>
    obtain rfl := hlen rfl
    exact (initUart_flags div b.toNat s).imp_right fun hf => .inl ⟨b, baud, name, rfl, rfl, hf⟩
  | sendByteEnters b x =>
    obtain rfl := hlen rfl
    exact .inr (.inr ⟨.tx, .inl ⟨b, x, rfl, rfl⟩, setMask_onlyMask _ _ _ s⟩)
  | receiveByteEnters b =>
    obtain rfl := hlen rfl
    exact .inr (.inr ⟨.rx, .inl ⟨b, rfl, rfl⟩, setMask_onlyMask _ _ _ s⟩)
  | send b p n q =>
    obtain rfl := hlen rfl
    obtain ⟨r, e⟩ := copyIn_same (rsel b.toNat .tx) q p.toNat (setMask b.toNat .tx true s)
    rw [e]
    exact .inr (.inr ⟨.tx, .inr ⟨b, p, n, rfl, rfl⟩, (setMask_onlyMask _ _ _ s).trans
      (setMask_onlyMask b.toNat .tx _ ((setMask b.toNat .tx true s).setRing _ r))⟩)
  | receive b p n q =>
    obtain rfl := hlen rfl
    obtain ⟨r, m, e, -⟩ := copyOut_same (rsel b.toNat .rx) q p.toNat (setMask b.toNat .rx true s)
    rw [e]
    exact .inr (.inr ⟨.rx, .inr ⟨b, p, n, rfl, rfl⟩, (setMask_onlyMask _ _ _ s).trans
      (setMask_onlyMask b.toNat .rx _
        { (setMask b.toNat .rx true s).setRing (rsel b.toNat .rx) r with mem := m })⟩)
  | setRxCallback b tok =>
    obtain rfl := hlen rfl
    exact .inl (setLine_sameFlags (s := s) rfl fun d => by cases d <;> rfl)
  | setTxCallback b tok =>
    obtain rfl := hlen rfl
    exact .inl (setLine_sameFlags (s := s) rfl fun d => by cases d <;> rfl)
  | _ => exact .inl ⟨rfl, fun _ => rfl⟩

/-- The phase in which a blocking command of a direction restores the flag (R203, R207). -/
def restorePhase : Dir → FgPhase
  | .rx => .rbRestore
  | .tx => .sbRestore

/-- The phase in which the handler may suppress a direction, and the ring's condition for it (R253,
R256). -/
def Suppresses (s : State) (l : Nat) : Dir → Prop
  | .rx => s.ih.phase = .rxEnd ∧ ringFull (s.ring (rsel l .rx)) = true
  | .tx => s.ih.phase = .txEnd ∧ ringEmpty (s.ring (rsel l .tx)) = true

/-- A step that may write the suppression flag of line `l`, direction `d`, and no other flag of the
line (R36). -/
def WritesMask (l : Nat) (d : Dir) (s t : State) : Prop :=
  (∃ i, starting s = some i ∧ MasksLine l d i) ∨
  (nextTurn s = some .fg ∧ s.fg.phase = restorePhase d ∧ s.fgLine = l) ∨
  (nextTurn s = some .ih ∧ s.ihLine = l ∧ (t.line l).mask d = true ∧ Suppresses s l d)

/-- A flag written reads as written, or nothing has changed where the model holds no such line
(log 13). -/
theorem setMask_flags (l j : Nat) (d : Dir) (b : Bool) (s : State) :
    SameFlagsAt l s (setMask j d b s) ∨
    (j = l ∧ ((setMask j d b s).line l).mask d = b ∧ OnlyMask l d s (setMask j d b s)) := by
  have honly := setMask_onlyMask j d b s
  rw [OnlyMask] at honly
  rw [SameFlagsAt, OnlyMask]
  rw [setMask, line_setLine] at honly ⊢
  split
  · next h =>
    obtain ⟨rfl, hlen⟩ := h
    rw [if_pos ⟨rfl, hlen⟩] at honly
    exact .inr ⟨rfl, mask_setMask _ d b, honly⟩
  · exact .inl ⟨rfl, fun _ => rfl⟩

/-- What the end of a part of the handler does to the flags: it suppresses the direction if `c`. -/
theorem suppressed_flags {c : Bool} {l : Nat} {d : Dir} {s t : State}
    (ht : ∀ j, t.line j = if c then (setMask l d true s).line j else s.line j) (j : Nat) :
    SameFlagsAt j s t ∨
    (c = true ∧ l = j ∧ (t.line j).mask d = true ∧ OnlyMask j d s t) := by
  cases c with
  | false => exact .inl (.of_line (ht j))
  | true =>
    rw [SameFlagsAt, OnlyMask, ht j]
    exact (setMask_flags j l d true s).imp_right fun h => ⟨rfl, h⟩

/-- What a step does to the flags of a line. -/
theorem step_flags {s t : State} (h : StepKind s t) (l : Nat) :
    SameFlagsAt l s t ∨ (∃ i, starting s = some i ∧ InitsLine l i t) ∨
    ∃ d, WritesMask l d s t ∧ OnlyMask l d s t := by
  cases h with
  | env e => exact .inl (envStep_flags e (afterTurn s) l)
  | starts i _ hi _ effect =>
    rcases effect_flags effect l with hf | hf | ⟨d, hm, hf⟩
    · exact .inl hf
    · exact .inr (.inl ⟨i, hi, hf⟩)
    · exact .inr (.inr ⟨d, .inl ⟨i, hi, hm⟩, hf⟩)
  | illegal => exact .inl (.of_line (raise_untouched _ l _).1)
  | noHandler => exact .inl (.of_line (raise_untouched _ l _).1)
  | sendDrain => exact .inl ((sendByteDrain_moves _ (afterTurn s)).flags l)
  | sendPut => exact .inl ((sendBytePut_moves _ (afterTurn s)).flags l)
  | receiveGet => exact .inl ((receiveByteGet_moves _ (afterTurn s)).flags l)
  | sendRestore _ turn =>
    rcases setMask_flags l s.fgLine .tx s.fg.sv (afterTurn s) with hf | ⟨hl, -, hf⟩
    · exact .inl hf
    · exact .inr (.inr ⟨.tx, .inr (.inl ⟨turn.now, turn.phase, hl⟩), hf⟩)
  | receiveRestore _ turn =>
    rcases setMask_flags l s.fgLine .rx s.fg.sv (afterTurn s) with hf | ⟨hl, -, hf⟩
    · exact .inl hf
    · exact .inr (.inr ⟨.rx, .inr (.inl ⟨turn.now, turn.phase, hl⟩), hf⟩)
  | rxLoop => exact .inl ((isrRxLoop_moves _ (afterTurn s)).flags l)
  | txLoop => exact .inl ((isrTxLoop_moves _ (afterTurn s)).flags l)
  | rxEnd _ turn =>
    rcases suppressed_flags (isrRxEnd_line s.ihLine · (afterTurn s)) l with hf | ⟨hc, hl, ht, hf⟩
    · exact .inl hf
    · exact .inr (.inr ⟨.rx, .inr (.inr ⟨turn.now, hl, ht, turn.phase, hl ▸ hc⟩), hf⟩)
  | txEnd _ turn =>
    rcases suppressed_flags (isrTxEnd_line s.ihLine · (afterTurn s)) l with hf | ⟨hc, hl, ht, hf⟩
    · exact .inl hf
    · exact .inr (.inr ⟨.tx, .inr (.inr ⟨turn.now, hl, ht, turn.phase, hl ▸ hc⟩), hf⟩)
  | _ => exact .inl ⟨rfl, fun _ => rfl⟩

/-- Settles O55: a step keeps the flags of a line, initialises it, or writes one suppression flag as
R36 lists. -/
theorem lineFlagWriters : Obligations.LineFlagWriters := by
  intro s t l h
  rcases step_flags (stepKind h) l with ⟨hi, hm⟩ | ⟨_, hst, b, baud, name, rfl, hb, hi, hrx, htx⟩ |
    ⟨d, hw, hi, hm⟩
  · exact ⟨fun hc => absurd hi hc, fun hc => absurd (hm .rx) hc, fun hc => absurd (hm .tx) hc⟩
  · exact ⟨fun _ => ⟨hi, b, baud, name, hst, hb⟩, fun _ => .inl ⟨b, baud, name, hst, hb, hrx⟩,
      fun _ => .inl ⟨b, baud, name, hst, hb, htx⟩⟩
  · cases d with
    | rx =>
      refine ⟨fun hc => absurd hi hc, fun _ => .inr ?_, fun hc => absurd (hm .tx nofun) hc⟩
      rcases hw with ⟨i, hst, ⟨b, rfl, hb⟩ | ⟨b, p, n, rfl, hb⟩⟩ | hw | ⟨hn, hl, ht, hp, hr⟩
      · exact .inl ⟨b, hst, hb⟩
      · exact .inr (.inl ⟨b, p, n, hst, hb⟩)
      · exact .inr (.inr (.inl hw))
      · exact .inr (.inr (.inr ⟨hn, hp, hl, ht, hr⟩))
    | tx =>
      refine ⟨fun hc => absurd hi hc, fun hc => absurd (hm .rx nofun) hc, fun _ => .inr ?_⟩
      rcases hw with ⟨i, hst, ⟨b, x, rfl, hb⟩ | ⟨b, p, n, rfl, hb⟩⟩ | hw | ⟨hn, hl, ht, hp, hr⟩
      · exact .inl ⟨b, x, hst, hb⟩
      · exact .inr (.inl ⟨b, p, n, hst, hb⟩)
      · exact .inr (.inr (.inl hw))
      · exact .inr (.inr (.inr ⟨hn, hp, hl, ht, hr⟩))

end Sys2Proof.Machine
end

section
/-! Every step keeps the data part of the invariant: rings, line records, table and memory (R30,
R31, R34, R39, R155). -/

namespace Sys2Proof.Machine

/-! ### Updates of one element -/

theorem State.DataOk.raise {s : State} (h : s.DataOk) (f : BlockFault) : (raise f s).DataOk :=
  h.of_same (raise_cfg f s) (raise_rb f s) (raise_ul f s) (by rw [raise_it]) (by rw [raise_extreq])
    (raise_mem f s)

theorem State.DataOk.done {s : State} (h : s.DataOk) (n : Nat) (st : Status) (val : Word) :
    (done n st val s).DataOk := h.of_same rfl rfl rfl rfl rfl rfl

theorem State.DataOk.setSource {s : State} (h : s.DataOk) (v : Nat) (x : Source) :
    (s.setSource v x).DataOk := h.of_same rfl rfl rfl List.length_set rfl rfl

theorem Line.Ok.withFifos {p : Params} {u : Line} (h : u.Ok p) {xs ys : List Byte}
    (hx : xs.length ≤ p.depth) (hy : ys.length ≤ p.depth) :
    Line.Ok p { u with hwrx := xs, hwtx := ys } := by
  obtain ⟨-, -, h3, h4⟩ := h
  exact ⟨hx, hy, h3, h4⟩

/-- The receive FIFO of an existing line written, within its depth (R39). -/
theorem State.DataOk.setHwrx {s : State} (h : s.DataOk) {l : Nat} (hl : l < s.cfg.nlines)
    {xs : List Byte} (hx : xs.length ≤ s.cfg.depth) :
    (s.setLine l { s.line l with hwrx := xs }).DataOk :=
  h.setLine l ((h.lineOk hl).withFifos hx (h.lineOk hl).2.1)

/-- The transmit FIFO of an existing line written, within its depth (R39). -/
theorem State.DataOk.setHwtx {s : State} (h : s.DataOk) {l : Nat} (hl : l < s.cfg.nlines)
    {ys : List Byte} (hy : ys.length ≤ s.cfg.depth) :
    (s.setLine l { s.line l with hwtx := ys }).DataOk :=
  h.setLine l ((h.lineOk hl).withFifos (h.lineOk hl).1 hy)

/-- A record of an initialised line written, its FIFOs and triggers kept. -/
theorem State.DataOk.setInited {s : State} (h : s.DataOk) {l : Nat} {u : Line}
    (hl : l < s.cfg.nlines) (hi : (s.line l).inited = true) (hu : u.inited = true)
    (hrx : u.rxtrig = (s.line l).rxtrig) (htx : u.txtrig = (s.line l).txtrig)
    (hwrx : u.hwrx = (s.line l).hwrx) (hwtx : u.hwtx = (s.line l).hwtx) :
    (s.setLine l u).DataOk := by
  obtain ⟨h1, h2, h3, -⟩ := h.lineOk hl
  exact h.setLine l ⟨hwrx ▸ h1, hwtx ▸ h2, fun _ => by rw [hrx, htx]; exact h3 hi,
    fun hn => absurd (hu.symm.trans hn) nofun⟩

/-! ### Bytes moved -/

theorem hwtxRoom_iff (s : State) (l : Nat) :
    hwtxRoom s l = true ↔ (s.line l).hwtx.length < s.cfg.depth := decide_eq_true_iff

theorem length_concat_le {xs : List Byte} {n : Nat} (b : Byte) (h : xs.length < n) :
    (xs ++ [b]).length ≤ n := by
  rw [List.length_append, List.length_singleton]
  exact h

theorem pushHwtx_data {s : State} (h : s.DataOk) {l : Nat} (hl : l < s.cfg.nlines)
    (hroom : hwtxRoom s l = true) (b : Byte) : (pushHwtx l b s).DataOk :=
  h.setHwtx hl (length_concat_le b ((hwtxRoom_iff s l).1 hroom))

theorem tail_length_le {xs : List Byte} {n : Nat} (h : xs.length ≤ n) : xs.tail.length ≤ n := by
  rw [List.length_tail]
  omega

theorem dropHwrx_data {s : State} (h : s.DataOk) {l : Nat} (hl : l < s.cfg.nlines) :
    (dropHwrx l s).DataOk := h.setHwrx hl (tail_length_le (h.lineOk hl).1)

theorem dropHwtx_data {s : State} (h : s.DataOk) {l : Nat} (hl : l < s.cfg.nlines) :
    (dropHwtx l s).DataOk := h.setHwtx hl (tail_length_le (h.lineOk hl).2.1)

theorem rbRead_data {s : State} (h : s.DataOk) {k : Nat} (hk : k < s.cfg.nrings) :
    (rbRead k s).2.DataOk := h.setRing k (ringOk_read _ (h.ringOk hk))

theorem rbWrite_data {s : State} (h : s.DataOk) {k : Nat} (hk : k < s.cfg.nrings) (b : Byte) :
    (rbWrite k b s).2.DataOk := h.setRing k (ringOk_write b (h.ringOk hk))

theorem rbInit_data {s : State} (h : s.DataOk) {k : Nat} (hk : k < s.cfg.nrings) {c : Half}
    (hc : c.toNat ≤ s.cfg.cmax) : (rbInit k c s).DataOk :=
  h.setRing k (ringOk_init c (h.ringOk hk) hc)

theorem moveTx_data {s : State} (h : s.DataOk) {l : Nat} (hl : l < s.cfg.nlines)
    (hroom : hwtxRoom s l = true) : (moveTx l s).DataOk := by
  have hread := rbRead_data h (rsel_lt .tx hl)
  unfold moveTx
  split
  · next x s1 e =>
    rw [e] at hread
    have hs1 : (rbRead (rsel l .tx) s).2 = s1 := by rw [e]
    exact pushHwtx_data hread (by rw [← hs1]; exact hl) (by rw [← hs1]; exact hroom) x
  · next s1 e =>
    rw [e] at hread
    exact hread

theorem moveRx_data {s : State} (h : s.DataOk) {l : Nat} (hl : l < s.cfg.nlines) :
    (moveRx l s).DataOk := by
  unfold moveRx
  split
  · next b _ _ => exact rbWrite_data (dropHwrx_data h hl) (rsel_lt .rx hl) b
  · exact h

/-! ### The steps after the start of a command -/

theorem sendByteDrain_data {s : State} (h : s.DataOk) {l : Nat} (hl : l < s.cfg.nlines) :
    (sendByteDrain l s).DataOk := by
  unfold sendByteDrain
  split
  · exact h.of_same rfl rfl rfl rfl rfl rfl
  · split
    · next hroom => exact moveTx_data h hl hroom
    · exact h

theorem sendBytePut_data {s : State} (h : s.DataOk) {l : Nat} (hl : l < s.cfg.nlines) :
    (sendBytePut l s).DataOk := by
  unfold sendBytePut
  split
  · next hroom => exact (pushHwtx_data h hl hroom s.fg.lb).of_same rfl rfl rfl rfl rfl rfl
  · exact h

theorem receiveByteGet_data {s : State} (h : s.DataOk) {l : Nat} (hl : l < s.cfg.nlines) :
    (receiveByteGet l s).DataOk := by
  have hread := rbRead_data h (rsel_lt .rx hl)
  unfold receiveByteGet
  split
  · next v s1 e =>
    rw [e] at hread
    exact hread.of_same rfl rfl rfl rfl rfl rfl
  · split
    · exact (dropHwrx_data h hl).of_same rfl rfl rfl rfl rfl rfl
    · exact h

theorem restoreBlocking_data {s : State} (h : s.DataOk) {l : Nat} (hl : l < s.cfg.nlines)
    (hi : (s.line l).inited = true) (d : Dir) (val : Word) :
    (restoreBlocking l d val s).DataOk :=
  (h.setMask d _ hl (.inl hi)).done 1 .ok val

theorem isrRxLoop_data {s : State} (h : s.DataOk) {l : Nat} (hl : l < s.cfg.nlines) :
    (isrRxLoop l s).DataOk := by
  unfold isrRxLoop
  split
  · exact moveRx_data h hl
  · exact h.of_same rfl rfl rfl rfl rfl rfl

theorem isrTxLoop_data {s : State} (h : s.DataOk) {l : Nat} (hl : l < s.cfg.nlines) :
    (isrTxLoop l s).DataOk := by
  unfold isrTxLoop
  split
  · next hgo => exact moveTx_data h hl hgo.2
  · exact h.of_same rfl rfl rfl rfl rfl rfl

theorem announce_data {s : State} (h : s.DataOk) (l : Nat) (d : Dir) : (announce l d s).DataOk := by
  unfold announce
  split
  · exact h
  · exact h.of_same rfl rfl rfl rfl rfl rfl

theorem suppressIf_data {s : State} (h : s.DataOk) {l : Nat} (hl : l < s.cfg.nlines) (c : Bool)
    (d : Dir) : (suppressIf c l d s).DataOk := by
  unfold suppressIf
  split
  · exact h.setMask d true hl (.inr rfl)
  · exact h

theorem announce_cfg (l : Nat) (d : Dir) (s : State) : (announce l d s).cfg = s.cfg := by
  unfold announce
  split <;> rfl

/-- The end of either part of the handler: a callback, a suppression, the next phase. -/
theorem isrEnd_data {s : State} (h : s.DataOk) {l : Nat} (hl : l < s.cfg.nlines) (c : Bool)
    (d : Dir) (p : IhPhase) : ((suppressIf c l d (announce l d s)).setIhPhase p).DataOk :=
  (suppressIf_data (announce_data h l d) (by rw [announce_cfg]; exact hl) c d).of_same
    rfl rfl rfl rfl rfl rfl

theorem envStep_data {s : State} (h : s.DataOk) (e : EnvStep) : (envStep e s).DataOk := by
  cases e with
  | rxArrive l b =>
    show (rxArrive l b s).DataOk
    unfold rxArrive
    split
    · exact h
    · next hl =>
      split
      · next hroom => exact h.setHwrx (Nat.not_le.1 hl) (length_concat_le b hroom)
      · exact h.of_same rfl rfl rfl rfl rfl rfl
  | txDepart l =>
    show (txDepart l s).DataOk
    unfold txDepart
    split
    · exact h
    · next hl =>
      split
      · exact (dropHwtx_data h (Nat.not_le.1 hl)).of_same rfl rfl rfl rfl rfl rfl
      · exact h
  | extSet v b =>
    show (extSet v b s).DataOk
    unfold extSet
    split
    · exact h
    · exact h.of_same rfl rfl rfl rfl List.length_set rfl

/-! ### The start of a command -/

theorem toNat_ofNat_le (w n : Nat) : (BitVec.ofNat w n).toNat ≤ n := by
  rw [BitVec.toNat_ofNat]
  exact Nat.mod_le _ _

/-- The record that `UART_INIT` leaves: its triggers are those of R10 and R38. -/
theorem initLine_ok {p : Params} (hp : p.Ok) (div : Word) {u : Line} (hu : u.Ok p) :
    (initLine p div u).Ok p := by
  obtain ⟨h1, h2, -⟩ := hu
  obtain ⟨-, -, -, -, -, -, -, -, -, hdepth, -, htrig, -⟩ := hp
  refine ⟨h1, h2, fun _ => ⟨rfl, ?_⟩, nofun⟩
  show (BitVec.ofNat 8 p.txTrig).toNat = p.txTrig
  rw [BitVec.toNat_ofNat]
  exact Nat.mod_eq_of_lt (by omega)

theorem initUart_data {s : State} (h : s.DataOk) {l : Nat} (hl : l < s.cfg.nlines) (div : Word) :
    (initUart div l s).DataOk := by
  obtain ⟨-, hrx, htx, -⟩ := line_param h.params hl
  have h1 : State.DataOk { s with ev := s.ev ++ pinEvents s.cfg l } :=
    h.of_same rfl rfl rfl rfl rfl rfl
  have h2 := rbInit_data h1 (rsel_lt .rx hl) ((toNat_ofNat_le 16 _).trans hrx)
  have h3 := rbInit_data h2 (rsel_lt .tx hl) ((toNat_ofNat_le 16 _).trans htx)
  exact (h3.setSource _ _).setLine l (initLine_ok h.params div (h.lineOk hl))

theorem passesTop_false {p : Word} {q : Nat} (h : passesTop p q = false) :
    q = 0 ∨ p.toNat + q ≤ 2 ^ 32 := by
  by_contra hc
  have hq : 1 ≤ q := by omega
  simp only [passesTop, hq, decide_true, Bool.true_and, decide_eq_false_iff_not] at h
  omega

theorem copyIn_data {s : State} (h : s.DataOk) {k : Nat} (hk : k < s.cfg.nrings) (q p : Nat) :
    (copyIn k p q s).DataOk := by
  induction q generalizing s p with
  | zero => exact h
  | succ q ih => exact ih (rbWrite_data h hk _) hk (p + 1)

theorem copyOut_data {s : State} (h : s.DataOk) {k : Nat} (hk : k < s.cfg.nrings) (q p : Nat)
    (hp : q = 0 ∨ p + q ≤ 2 ^ 32) : (copyOut k p q s).DataOk := by
  induction q generalizing s p with
  | zero => exact h
  | succ q ih =>
    have hread := rbRead_data h hk
    have hcfg := rbRead_cfg k s
    rw [copyOut]
    split
    · next b s1 e =>
      rw [e] at hread hcfg
      have hk1 : k < s1.cfg.nrings := by rw [hcfg]; exact hk
      exact ih (hread.storeByte b (by omega)) hk1 (p + 1) (by omega)
    · next s1 e =>
      rw [e] at hread
      exact hread

theorem send_data {s : State} (h : s.DataOk) {l : Nat} (hl : l < s.cfg.nlines)
    (hi : (s.line l).inited = true) (p q : Nat) (b : Bool) :
    (setMask l .tx b (copyIn (rsel l .tx) p q (setMask l .tx true s))).DataOk := by
  have hc := copyIn_data (h.setMask .tx true hl (.inr rfl)) (rsel_lt .tx hl) q p
  obtain ⟨r, e⟩ := copyIn_same (rsel l .tx) q p (setMask l .tx true s)
  rw [e] at hc ⊢
  exact hc.setMask .tx b hl (.inl ((setMask_onlyMask l .tx true s).1.trans hi))

theorem receive_data {s : State} (h : s.DataOk) {l : Nat} (hl : l < s.cfg.nlines)
    (hi : (s.line l).inited = true) (p q : Nat) (hp : q = 0 ∨ p + q ≤ 2 ^ 32) (b : Bool) :
    (setMask l .rx b (copyOut (rsel l .rx) p q (setMask l .rx true s))).DataOk := by
  have hc := copyOut_data (h.setMask .rx true hl (.inr rfl)) (rsel_lt .rx hl) q p hp
  obtain ⟨r, m, e, -⟩ := copyOut_same (rsel l .rx) q p (setMask l .rx true s)
  rw [e] at hc ⊢
  exact hc.setMask .rx b hl (.inl ((setMask_onlyMask l .rx true s).1.trans hi))

theorem effect_data {s t : State} {i : Instr} (hs : s.DataOk) (h : Effect s i t) : t.DataOk := by
  cases h with
  | faults => exact hs.raise _
  | rbInit _ _ hk hc => exact (rbInit_data hs hk hc).done _ _ _
  | rbWriteRoom _ b hk => exact (rbWrite_data hs hk b).done _ _ _
  | rbReadByte _ _ hk => exact (rbRead_data hs hk).done _ _ _
  | itcInit it hit =>
    have hlen : it.src.length = s.it.src.length := by rw [hit]; exact List.length_map _
    exact hs.of_same rfl rfl rfl hlen rfl rfl
  | setHandler => exact (hs.setSource _ _).done _ _ _
  | enable => exact (hs.setSource _ _).done _ _ _
  | disable => exact (hs.setSource _ _).done _ _ _
  | setPriority => exact (hs.setSource _ _).done _ _ _
  | force => exact (hs.setSource _ _).done _ _ _
  | unforce => exact (hs.setSource _ _).done _ _ _
  | uartInit l _ _ div hl => exact (initUart_data hs hl div).done _ _ _
  | sendByteEnters l b hl =>
    exact (hs.setMask .tx true hl (.inr rfl)).of_same rfl rfl rfl rfl rfl rfl
  | receiveByteEnters l hl =>
    exact (hs.setMask .rx true hl (.inr rfl)).of_same rfl rfl rfl rfl rfl rfl
  | send l p n q _ hg =>
    obtain ⟨hl, -, -, hi, -⟩ := transferGoes_iff.1 hg
    exact (send_data hs hl hi p.toNat q _).done _ _ _
  | receive l p n q _ hg =>
    obtain ⟨hl, -, -, hi, hpt⟩ := transferGoes_iff.1 hg
    exact (receive_data hs hl hi p.toNat q (passesTop_false hpt) _).done _ _ _
  | setRxCallback l tok hl hi =>
    exact (hs.setInited (u := { s.line l.toNat with rxcb := tok }) hl hi hi rfl rfl rfl
      rfl).done _ _ _
  | setTxCallback l tok hl hi =>
    exact (hs.setInited (u := { s.line l.toNat with txcb := tok }) hl hi hi rfl rfl rfl
      rfl).done _ _ _
  | _ => exact hs.of_same rfl rfl rfl rfl rfl rfl

/-! ### Any step -/

/-- In a restore phase the latched line is initialised (R200, R205). -/
theorem inited_of_restoring {s : State} (hs : s.Wf)
    (hp : s.fg.phase = .sbRestore ∨ s.fg.phase = .rbRestore) :
    (s.line s.fgLine).inited = true := by
  rcases hp with hp | hp
  · obtain ⟨-, -, hi, -⟩ := hs.sending (by rw [hp]; rfl)
    exact hi
  · obtain ⟨-, -, hi, -⟩ := hs.receiving (by rw [hp]; rfl)
    exact hi

/-- Every step keeps the data part of the invariant. -/
theorem step_data {s t : State} (hs : s.Wf) (h : StepKind s t) : t.DataOk := by
  have hd : (afterTurn s).DataOk := hs.data.of_same rfl rfl rfl rfl rfl rfl
  cases h with
  | env e => exact envStep_data hd e
  | starts _ _ _ _ effect => exact effect_data hd effect
  | illegal => exact hd.raise _
  | noHandler => exact hd.raise _
  | sendDrain hl => exact sendByteDrain_data hd hl
  | sendPut hl => exact sendBytePut_data hd hl
  | sendRestore hl turn =>
    have hi := inited_of_restoring hs (.inl turn.phase)
    exact restoreBlocking_data hd hl hi _ _
  | receiveGet hl => exact receiveByteGet_data hd hl
  | receiveRestore hl turn =>
    have hi := inited_of_restoring hs (.inr turn.phase)
    exact restoreBlocking_data hd hl hi _ _
  | rxLoop hl => exact isrRxLoop_data hd hl
  | rxEnd hl => exact isrEnd_data hd hl _ _ _
  | txLoop hl => exact isrTxLoop_data hd hl
  | txEnd hl => exact isrEnd_data hd hl _ _ _
  | _ => exact hd.of_same rfl rfl rfl rfl rfl rfl

end Sys2Proof.Machine
end

section
/-! Every step keeps the invariant of the machine (R31, R34, R39, R44, R155, R200 to R205, R251,
R254, R297). -/

namespace Sys2Proof.Machine

/-! ### Inside a blocking command -/

theorem fetch_congr {s t : State} (hprog : t.prog = s.prog) (hpc : t.fg.pc = s.fg.pc) :
    fetch t = fetch s := by
  unfold fetch streamWords
  rw [hprog, hpc]

/-- No flag that is set has been cleared. -/
abbrev KeepsSetFlags (s t : State) : Prop :=
  ∀ l, ((s.line l).inited = true → (t.line l).inited = true) ∧
    ∀ d, (s.line l).mask d = true → (t.line l).mask d = true

theorem keepsSetFlags_of_same {s t : State} (h : ∀ l, SameFlagsAt l s t) : KeepsSetFlags s t :=
  fun l => ⟨fun hi => (h l).1.trans hi, fun d hm => ((h l).2 d).trans hm⟩

/-- Between commands the invariant asks nothing of the latches. -/
theorem blocking_of_idle {t : State} (h : t.fg.phase = .idle) : t.SendingOk ∧ t.ReceivingOk := by
  simp [State.SendingOk, State.ReceivingOk, h, FgPhase.sending, FgPhase.receiving]

/-- What keeps `UART_SEND_BYTE` in order: its latches kept, no set flag cleared, the transmit ring
empty from the put step on. -/
theorem State.SendingOk.step {s t : State} (hs : s.SendingOk) (hcfg : t.cfg = s.cfg)
    (hprog : t.prog = s.prog) (hfg : t.fg = { s.fg with phase := t.fg.phase })
    (hph : t.fg.phase.sending = true → s.fg.phase.sending = true) (hset : KeepsSetFlags s t)
    (hempty : t.fg.phase ≠ .sbDrain →
      (s.fg.phase ≠ .sbDrain → ringEmpty (s.ring (rsel s.fgLine .tx)) = true) →
      ringEmpty (t.ring (rsel s.fgLine .tx)) = true) : t.SendingOk := by
  intro ht
  obtain ⟨hf, hl, hi, hm, he⟩ := hs (hph ht)
  have hpc : t.fg.pc = s.fg.pc := by rw [hfg]
  have hll : t.fg.ll = s.fg.ll := by rw [hfg]
  have hlb : t.fg.lb = s.fg.lb := by rw [hfg]
  have hline : t.fgLine = s.fgLine := congrArg BitVec.toNat hll
  rw [fetch_congr hprog hpc, hll, hlb, hline, hcfg]
  exact ⟨hf, hl, (hset _).1 hi, (hset _).2 .tx hm, fun hp => hempty hp he⟩

/-- What keeps `UART_RECEIVE_BYTE` in order. -/
theorem State.ReceivingOk.step {s t : State} (hs : s.ReceivingOk) (hcfg : t.cfg = s.cfg)
    (hprog : t.prog = s.prog) (hpc : t.fg.pc = s.fg.pc) (hll : t.fg.ll = s.fg.ll)
    (hph : t.fg.phase.receiving = true → s.fg.phase.receiving = true)
    (hset : KeepsSetFlags s t) : t.ReceivingOk := by
  intro ht
  obtain ⟨hf, hl, hi, hm⟩ := hs (hph ht)
  have hline : t.fgLine = s.fgLine := congrArg BitVec.toNat hll
  rw [fetch_congr hprog hpc, hll, hline, hcfg]
  exact ⟨hf, hl, (hset _).1 hi, (hset _).2 .rx hm⟩

/-- What a step of another agent leaves of the foreground: its registers, the flags it has set, and
a transmit ring that it has emptied (R81, R204, R258). -/
structure KeepsForeground (s t : State) : Prop where
  cfg : t.cfg = s.cfg
  prog : t.prog = s.prog
  fg : t.fg = s.fg
  set : KeepsSetFlags s t
  empty : ∀ l, ringEmpty (s.ring (rsel l .tx)) = true → ringEmpty (t.ring (rsel l .tx)) = true

theorem KeepsForeground.blocking {s t : State} (h : KeepsForeground s t) (hsend : s.SendingOk)
    (hreceive : s.ReceivingOk) : t.SendingOk ∧ t.ReceivingOk := by
  have hp : t.fg.phase = s.fg.phase := by rw [h.fg]
  refine ⟨hsend.step h.cfg h.prog (by rw [h.fg]) (fun ht => hp ▸ ht) h.set fun ht he => ?_,
    hreceive.step h.cfg h.prog (by rw [h.fg]) (by rw [h.fg]) (fun ht => hp ▸ ht) h.set⟩
  exact h.empty _ (he (hp ▸ ht))

theorem KeepsForeground.of_lists {s t : State} (hcfg : t.cfg = s.cfg) (hprog : t.prog = s.prog)
    (hfg : t.fg = s.fg) (hul : t.ul = s.ul) (hrb : t.rb = s.rb) : KeepsForeground s t :=
  ⟨hcfg, hprog, hfg, keepsSetFlags_of_same fun l => .of_line (Untouched.of_lists l hul hrb).1,
    fun l he => by rw [(Untouched.of_lists l hul hrb).2 .tx]; exact he⟩

theorem raise_keepsForeground (f : BlockFault) (s : State) : KeepsForeground s (raise f s) :=
  .of_lists (raise_cfg f s) (raise_prog f s) (raise_fg f s) (raise_ul f s) (raise_rb f s)

theorem envStep_keepsForeground (e : EnvStep) (s : State) : KeepsForeground s (envStep e s) := by
  have heq := (envStep_eq e s).1
  refine ⟨by rw [heq], by rw [heq], by rw [heq], keepsSetFlags_of_same (envStep_flags e s),
    fun l he => ?_⟩
  rw [heq]
  exact he

theorem isrRxLoop_keepsForeground (l : Nat) (s : State) : KeepsForeground s (isrRxLoop l s) := by
  have hmoves := isrRxLoop_moves l s
  have heq := isrRxLoop_eq l s
  refine ⟨by rw [heq], by rw [heq], by rw [heq], keepsSetFlags_of_same hmoves.flags,
    fun j he => ?_⟩
  by_cases hj : j = l
  · rw [hj, hmoves.ring .tx nofun, ← hj]
    exact he
  · rw [(hmoves.other j hj).2 .tx]
    exact he

/-- The transmit loop takes nothing from an empty ring (R255). -/
theorem isrTxLoop_keepsForeground (l : Nat) (s : State) : KeepsForeground s (isrTxLoop l s) := by
  have hmoves := isrTxLoop_moves l s
  have heq := isrTxLoop_eq l s
  refine ⟨by rw [heq], by rw [heq], by rw [heq], keepsSetFlags_of_same hmoves.flags,
    fun j he => ?_⟩
  by_cases hj : j = l
  · subst hj
    have hstop : isrTxLoop j s = s.setIhPhase .txEnd := if_neg fun hgo => by
      rw [he] at hgo
      exact absurd hgo.1 nofun
    rw [hstop]
    exact he
  · rw [(hmoves.other j hj).2 .tx]
    exact he

/-- The end of a part of the handler clears no flag. -/
theorem suppressed_keepsSetFlags {c : Bool} {l : Nat} {d : Dir} {s t : State}
    (ht : ∀ j, t.line j = if c then (setMask l d true s).line j else s.line j) :
    KeepsSetFlags s t := by
  intro j
  rcases suppressed_flags ht j with ⟨hi, hm⟩ | ⟨-, -, hset, hi, hm⟩
  · exact ⟨fun h => hi.trans h, fun e h => (hm e).trans h⟩
  · refine ⟨fun h => hi.trans h, fun e h => ?_⟩
    by_cases he : e = d
    · rw [he]; exact hset
    · exact (hm e he).trans h

theorem isrRxEnd_keepsForeground (l : Nat) (s : State) : KeepsForeground s (isrRxEnd l s) := by
  have heq := isrRxEnd_eq l s
  refine ⟨by rw [heq], by rw [heq], by rw [heq],
    suppressed_keepsSetFlags (isrRxEnd_line l · s), fun j he => ?_⟩
  rw [State.ring, isrRxEnd_rb]
  exact he

theorem isrTxEnd_keepsForeground (l : Nat) (s : State) : KeepsForeground s (isrTxEnd l s) := by
  have heq := isrTxEnd_eq l s
  refine ⟨by rw [heq], by rw [heq], by rw [heq],
    suppressed_keepsSetFlags (isrTxEnd_line l · s), fun j he => ?_⟩
  rw [State.ring, isrTxEnd_rb]
  exact he

/-! ### The steps of the foreground -/

/-- A started command enters its first phase, or the foreground stays between commands. -/
theorem effect_enters {s t : State} {i : Instr} (hp : s.fg.phase = .idle) (h : Effect s i t) :
    t.fg.phase = .idle ∨
    (∃ l b, i = .uartSendByte l b ∧ l.toNat < s.cfg.nlines ∧ (s.line l.toNat).inited = true ∧
      t = { setMask l.toNat .tx true s with
        fg :=
          { pc := s.fg.pc, phase := .sbDrain, sv := (s.line l.toNat).mtx, lb := b, ll := l } }) ∨
    (∃ l, i = .uartReceiveByte l ∧ l.toNat < s.cfg.nlines ∧ (s.line l.toNat).inited = true ∧
      t = { setMask l.toNat .rx true s with
        fg := { s.fg with phase := .rbGet, sv := (s.line l.toNat).mrx, ll := l } }) := by
  cases h with
  | faults => rw [raise_fg]; exact .inl hp
  | sendByteEnters l b hl hi => exact .inr (.inl ⟨l, b, rfl, hl, hi, rfl⟩)
  | receiveByteEnters l hl hi => exact .inr (.inr ⟨l, rfl, hl, hi, rfl⟩)
  | _ => exact .inl rfl

/-- The line of an entry step afterwards: still initialised, its flag set (R200, R205). -/
theorem setMask_entered {s : State} (hs : s.DataOk) {l : Nat} (hl : l < s.cfg.nlines) (d : Dir) :
    (setMask l d true s).line l = (s.line l).setMask d true :=
  line_setLine_same s l _ (by rw [hs.sizes.2.1]; exact hl)

theorem effect_blocking {s t : State} {i : Instr} (hs : s.DataOk) (hf : fetch s = .ok i)
    (hp : s.fg.phase = .idle) (h : Effect s i t) : t.SendingOk ∧ t.ReceivingOk := by
  rcases effect_enters hp h with hidle | ⟨l, b, rfl, hl, hi, rfl⟩ | ⟨l, rfl, hl, hi, rfl⟩
  · exact blocking_of_idle hidle
  · refine ⟨fun _ => ⟨hf, hl, ?_⟩, nofun⟩
    show ((setMask l.toNat .tx true s).line l.toNat).inited = true ∧
      ((setMask l.toNat .tx true s).line l.toNat).mtx = true ∧ _
    rw [setMask_entered hs hl]
    exact ⟨hi, rfl, fun hne => absurd rfl hne⟩
  · refine ⟨nofun, fun _ => ⟨hf, hl, ?_⟩⟩
    show ((setMask l.toNat .rx true s).line l.toNat).inited = true ∧
      ((setMask l.toNat .rx true s).line l.toNat).mrx = true
    rw [setMask_entered hs hl]
    exact ⟨hi, rfl⟩

/-- The drain step goes to the put step on an empty ring only (R201). -/
theorem sendByteDrain_phase (l : Nat) (s : State) :
    (sendByteDrain l s).fg.phase = s.fg.phase ∨
    ((sendByteDrain l s).fg.phase = .sbPut ∧ (sendByteDrain l s).rb = s.rb ∧
      ringEmpty (s.ring (rsel l .tx)) = true) := by
  unfold sendByteDrain
  split
  · next he => exact .inr ⟨rfl, rfl, he⟩
  · split
    · rw [moveTx_eq]; exact .inl rfl
    · exact .inl rfl

theorem sendByteDrain_blocking {s : State} (hs : s.SendingOk) (hp : s.fg.phase = .sbDrain) :
    (sendByteDrain s.fgLine s).SendingOk ∧ (sendByteDrain s.fgLine s).ReceivingOk := by
  have heq := sendByteDrain_eq s.fgLine s
  have hset := keepsSetFlags_of_same (sendByteDrain_moves s.fgLine s).flags
  rcases sendByteDrain_phase s.fgLine s with hph | ⟨hph, hrb, he⟩
  · rw [hp] at hph
    refine ⟨hs.step (by rw [heq]) (by rw [heq]) (by rw [heq]) (fun _ => by rw [hp]; rfl) hset
      fun hne => absurd hph hne, fun ht => ?_⟩
    rw [hph] at ht
    cases ht
  · refine ⟨hs.step (by rw [heq]) (by rw [heq]) (by rw [heq]) (fun _ => by rw [hp]; rfl) hset
      fun _ _ => ?_, fun ht => ?_⟩
    · rw [State.ring, hrb]
      exact he
    · rw [hph] at ht
      cases ht

/-- The put step stays or goes to the restore step, and writes no ring (R202). -/
theorem sendBytePut_phase (l : Nat) (s : State) :
    ((sendBytePut l s).fg.phase = s.fg.phase ∨ (sendBytePut l s).fg.phase = .sbRestore) ∧
      (sendBytePut l s).rb = s.rb := by
  unfold sendBytePut
  split
  · exact ⟨.inr rfl, rfl⟩
  · exact ⟨.inl rfl, rfl⟩

theorem sendBytePut_blocking {s : State} (hs : s.SendingOk) (hp : s.fg.phase = .sbPut) :
    (sendBytePut s.fgLine s).SendingOk ∧ (sendBytePut s.fgLine s).ReceivingOk := by
  have heq := sendBytePut_eq s.fgLine s
  have hset := keepsSetFlags_of_same (sendBytePut_moves s.fgLine s).flags
  obtain ⟨hph, hrb⟩ := sendBytePut_phase s.fgLine s
  refine ⟨hs.step (by rw [heq]) (by rw [heq]) (by rw [heq]) (fun _ => by rw [hp]; rfl) hset
    fun _ he => ?_, fun ht => ?_⟩
  · rw [State.ring, hrb]
    exact he (by rw [hp]; nofun)
  · rcases hph with hph | hph
    · rw [hph, hp] at ht
      cases ht
    · rw [hph] at ht
      cases ht

/-- The get step stays or goes to the restore step (R206). -/
theorem receiveByteGet_phase (l : Nat) (s : State) :
    (receiveByteGet l s).fg.phase = s.fg.phase ∨ (receiveByteGet l s).fg.phase = .rbRestore := by
  unfold receiveByteGet
  split
  · exact .inr rfl
  · split
    · exact .inr rfl
    · exact .inl rfl

theorem receiveByteGet_blocking {s : State} (hs : s.ReceivingOk) (hp : s.fg.phase = .rbGet) :
    (receiveByteGet s.fgLine s).SendingOk ∧ (receiveByteGet s.fgLine s).ReceivingOk := by
  have heq := receiveByteGet_eq s.fgLine s
  have hset := keepsSetFlags_of_same (receiveByteGet_moves s.fgLine s).flags
  refine ⟨fun ht => ?_, hs.step (by rw [heq]) (by rw [heq]) (by rw [heq]) (by rw [heq])
    (fun _ => by rw [hp]; rfl) hset⟩
  rcases receiveByteGet_phase s.fgLine s with hph | hph
  · rw [hph, hp] at ht
    cases ht
  · rw [hph] at ht
    cases ht

/-- Every step keeps the order of the blocking commands. -/
theorem step_blocking {s t : State} (hs : s.Wf) (h : StepKind s t) :
    t.SendingOk ∧ t.ReceivingOk := by
  have hsend : (afterTurn s).SendingOk := hs.sending
  have hreceive : (afterTurn s).ReceivingOk := hs.receiving
  cases h with
  | passes => exact ⟨hsend, hreceive⟩
  | starts i _ hi turn effect =>
    obtain ⟨-, -, -, -, hf⟩ := starting_fetch hi
    exact effect_blocking (s := afterTurn s) (hs.data.of_same rfl rfl rfl rfl rfl rfl) hf
      turn.phase effect
  | sendDrain _ turn => exact sendByteDrain_blocking hsend turn.phase
  | sendPut _ turn => exact sendBytePut_blocking hsend turn.phase
  | receiveGet _ turn => exact receiveByteGet_blocking hreceive turn.phase
  | sendRestore => exact blocking_of_idle rfl
  | receiveRestore => exact blocking_of_idle rfl
  | env e => exact (envStep_keepsForeground e _).blocking hsend hreceive
  | illegal => exact (raise_keepsForeground _ _).blocking hsend hreceive
  | noHandler => exact (raise_keepsForeground _ _).blocking hsend hreceive
  | rxLoop => exact (isrRxLoop_keepsForeground _ _).blocking hsend hreceive
  | rxEnd => exact (isrRxEnd_keepsForeground _ _).blocking hsend hreceive
  | txLoop => exact (isrTxLoop_keepsForeground _ _).blocking hsend hreceive
  | txEnd => exact (isrTxEnd_keepsForeground _ _).blocking hsend hreceive
  | _ => exact (KeepsForeground.of_lists rfl rfl rfl rfl rfl).blocking hsend hreceive

/-! ### The running handler -/

/-- The phase that ends the handler's part for a direction (R253, R256). -/
def endPhase : Dir → IhPhase
  | .rx => .rxEnd
  | .tx => .txEnd

/-- While the handler services direction `d`, its line is initialised and the flag clear. -/
abbrev ServicesClear (s : State) : Prop :=
  ∀ d, s.ih.phase = loopPhase d ∨ s.ih.phase = endPhase d →
    (s.line s.ihLine).inited = true ∧ (s.line s.ihLine).mask d = false

theorem handlerOk_iff (s : State) :
    s.HandlerOk ↔
      (s.ih.phase ≠ .idle → s.ihLine < s.cfg.nlines ∧ s.ih.src.toNat < s.cfg.nsrc) ∧
        ServicesClear s := by
  refine and_congr_right fun _ => ⟨fun h d => ?_, fun h => ⟨h .rx, h .tx⟩⟩
  cases d with
  | rx => exact h.1
  | tx => exact h.2

theorem handlerOk_of_idle {t : State} (h : t.ih.phase = .idle) : t.HandlerOk := by
  simp [State.HandlerOk, h]

/-- A step of the running handler keeps its line and vector. -/
theorem State.HandlerOk.step {s t : State} (h : s.HandlerOk) (hp : s.ih.phase ≠ .idle)
    (hcfg : t.cfg = s.cfg) (hih : t.ih = { s.ih with phase := t.ih.phase })
    (hclear : ServicesClear t) : t.HandlerOk := by
  have hline : t.ihLine = s.ihLine := by rw [State.ihLine, hih]; rfl
  have hsrc : t.ih.src = s.ih.src := by rw [hih]
  refine (handlerOk_iff t).2 ⟨fun _ => ?_, hclear⟩
  rw [hline, hsrc, hcfg]
  exact h.1 hp

/-- The phases in which a direction is serviced are no others than its own. -/
theorem servicedPhase_inj {p : IhPhase} {d e : Dir} (hd : p = loopPhase d ∨ p = endPhase d)
    (he : p = loopPhase e ∨ p = endPhase e) : d = e := by
  cases d <;> cases e
  case rx.rx | tx.tx => rfl
  case rx.tx | tx.rx => rcases hd with rfl | rfl <;> simp [loopPhase, endPhase] at he

theorem servicesClear_in {t : State} {d : Dir}
    (hp : t.ih.phase = loopPhase d ∨ t.ih.phase = endPhase d)
    (h : (t.line t.ihLine).inited = true ∧ (t.line t.ihLine).mask d = false) :
    ServicesClear t := fun _ he => servicedPhase_inj hp he ▸ h

theorem servicesClear_outside {t : State}
    (hp : t.ih.phase = .idle ∨ t.ih.phase = .rxTest ∨ t.ih.phase = .txTest) :
    ServicesClear t := by
  intro d hd
  cases d <;> rcases hp with hp | hp | hp <;> simp [hp, loopPhase, endPhase] at hd

/-- The test of a direction enters its loop only where it is serviced (R251, R254). -/
theorem serviced_clear {s : State} (hs : s.DataOk) {l : Nat} {d : Dir} (hl : l < s.cfg.nlines)
    (h : serviced s l d = true) :
    (s.line l).inited = true ∧ (s.line l).mask d = false := by
  obtain ⟨hr, hm⟩ : ready s l d = true ∧ (s.line l).mask d = false := by
    simpa [serviced] using h
  exact ⟨ready_inited hs hl hr, hm⟩

theorem isrRxTest_clear {s : State} (hs : s.DataOk) (hl : s.ihLine < s.cfg.nlines) :
    ServicesClear (isrRxTest s.ihLine s) := by
  unfold isrRxTest
  split
  · next h => exact servicesClear_in (d := .rx) (.inl rfl) (serviced_clear hs hl h)
  · exact servicesClear_outside (.inr (.inr rfl))

theorem isrTxTest_clear {s : State} (hs : s.DataOk) (hl : s.ihLine < s.cfg.nlines) :
    ServicesClear (isrTxTest s.ihLine s) := by
  unfold isrTxTest
  split
  · next h => exact servicesClear_in (d := .tx) (.inl rfl) (serviced_clear hs hl h)
  · exact servicesClear_outside (.inl rfl)

theorem isrRxLoop_phase (l : Nat) (s : State) :
    (isrRxLoop l s).ih.phase = s.ih.phase ∨ (isrRxLoop l s).ih.phase = .rxEnd := by
  unfold isrRxLoop
  split
  · rw [moveRx_eq]; exact .inl rfl
  · exact .inr rfl

theorem isrTxLoop_phase (l : Nat) (s : State) :
    (isrTxLoop l s).ih.phase = s.ih.phase ∨ (isrTxLoop l s).ih.phase = .txEnd := by
  unfold isrTxLoop
  split
  · rw [moveTx_eq]; exact .inl rfl
  · exact .inr rfl

/-- A step of the loop of a direction keeps the line's flags, so the direction stays clear. -/
theorem loop_handlerOk {s t : State} {d : Dir} (h : s.HandlerOk) (hp : s.ih.phase = loopPhase d)
    (hcfg : t.cfg = s.cfg) (hih : t.ih = { s.ih with phase := t.ih.phase })
    (hph : t.ih.phase = s.ih.phase ∨ t.ih.phase = endPhase d)
    (hflags : ∀ l, SameFlagsAt l s t) : t.HandlerOk := by
  have hne : s.ih.phase ≠ .idle := by rw [hp]; cases d <;> nofun
  have hline : t.ihLine = s.ihLine := by rw [State.ihLine, hih]; rfl
  obtain ⟨hm, hi⟩ := h.loop hp
  refine h.step hne hcfg hih (servicesClear_in (hph.imp_left fun e => e.trans hp) ?_)
  rw [hline]
  exact ⟨(hflags _).1.trans hi, ((hflags _).2 d).trans hm⟩

theorem envStep_handlerOk {s : State} (h : s.HandlerOk) (e : EnvStep) :
    (envStep e s).HandlerOk := by
  have heq := (envStep_eq e s).1
  have hih : (envStep e s).ih = s.ih := by rw [heq]
  have hline : (envStep e s).ihLine = s.ihLine := congrArg (fun x => x.line.toNat) hih
  have hcfg : (envStep e s).cfg = s.cfg := by rw [heq]
  obtain ⟨hbound, hclear⟩ := (handlerOk_iff s).1 h
  refine (handlerOk_iff _).2 ⟨?_, fun d => ?_⟩
  · rw [hih, hline, hcfg]
    exact hbound
  · obtain ⟨hi, hm⟩ := envStep_flags e s s.ihLine
    rw [hih, hline, hi, hm d]
    exact hclear d

/-- The handler entered names an existing line and vector (R245 to R247). -/
theorem startIsr_handlerOk {s : State} (hs : s.cfg.Ok) (c : PrioClass) {v l : Nat}
    (hv : v < s.cfg.nsrc) (hl : l < s.cfg.nlines) : (startIsr c v l s).HandlerOk := by
  have hlines := Params.Ok.nlines_lt hs
  obtain ⟨-, -, hsrc, -⟩ := hs
  refine (handlerOk_iff _).2 ⟨fun _ => ⟨?_, ?_⟩, servicesClear_outside (.inr (.inl rfl))⟩
  · show (BitVec.ofNat 8 l).toNat < s.cfg.nlines
    rwa [BitVec.toNat_ofNat, Nat.mod_eq_of_lt (by omega)]
  · show (BitVec.ofNat 8 v).toNat < s.cfg.nsrc
    rwa [BitVec.toNat_ofNat, Nat.mod_eq_of_lt (by omega)]

theorem IhTurn.busy {s : State} {p : IhPhase} (h : IhTurn s p) (hp : p ≠ .idle) :
    (afterTurn s).ih.phase ≠ .idle := h.phase.trans_ne hp

/-- Every step keeps the invariant of the handler engine. -/
theorem step_handlerOk {s t : State} (hs : s.Wf) (h : StepKind s t) : t.HandlerOk := by
  have hd : (afterTurn s).DataOk := hs.data.of_same rfl rfl rfl rfl rfl rfl
  have hh : (afterTurn s).HandlerOk := hs.handler
  cases h with
  | passes => exact hh
  | env e => exact envStep_handlerOk hh e
  | starts _ _ _ turn effect =>
    obtain ⟨-, -, -, -, -, -, hih, -⟩ := effect_frame effect
    exact handlerOk_of_idle (by rw [hih]; exact turn.free)
  | illegal _ turn => exact handlerOk_of_idle (by rw [raise_ih]; exact turn.free)
  | noHandler turn => exact handlerOk_of_idle (by rw [raise_ih]; exact turn.phase)
  | sendDrain _ turn => exact handlerOk_of_idle (by rw [sendByteDrain_eq]; exact turn.free)
  | sendPut _ turn => exact handlerOk_of_idle (by rw [sendBytePut_eq]; exact turn.free)
  | sendRestore _ turn => exact handlerOk_of_idle turn.free
  | receiveGet _ turn => exact handlerOk_of_idle (by rw [receiveByteGet_eq]; exact turn.free)
  | receiveRestore _ turn => exact handlerOk_of_idle turn.free
  | enters c v l hv hl => exact startIsr_handlerOk (s := afterTurn s) hs.params c hv hl
  | external _ turn => exact handlerOk_of_idle turn.phase
  | rxTest hl turn =>
    exact hh.step (turn.busy nofun) rfl rfl
      (isrRxTest_clear hd hl)
  | rxLoop _ turn =>
    have heq := isrRxLoop_eq s.ihLine (afterTurn s)
    exact loop_handlerOk (d := .rx) hh turn.phase (by rw [heq]) (by rw [heq])
      (isrRxLoop_phase _ _) (isrRxLoop_moves _ _).flags
  | rxEnd _ turn =>
    have heq := isrRxEnd_eq s.ihLine (afterTurn s)
    exact hh.step (turn.busy nofun) (by rw [heq])
      (by rw [heq]) (servicesClear_outside (.inr (.inr (by rw [heq]))))
  | txTest hl turn =>
    exact hh.step (turn.busy nofun) rfl rfl
      (isrTxTest_clear hd hl)
  | txLoop _ turn =>
    have heq := isrTxLoop_eq s.ihLine (afterTurn s)
    exact loop_handlerOk (d := .tx) hh turn.phase (by rw [heq]) (by rw [heq])
      (isrTxLoop_phase _ _) (isrTxLoop_moves _ _).flags
  | txEnd => exact handlerOk_of_idle (by rw [isrTxEnd_eq])

/-! ### The whole invariant -/

/-- A completed command ends within `PROG`, so the pointer stays there (R44). -/
theorem step_pointerOk {s t : State} (hs : s.Wf) (h : StepKind s t) : t.PointerOk := by
  obtain ⟨hprog, -, -⟩ := step_keeps_inputs h
  obtain ⟨hlen, hpc⟩ := hs.pointer
  rw [State.PointerOk, hprog]
  refine ⟨hlen, ?_⟩
  rcases step_completes hs h with ⟨e, -, -⟩ | ⟨i, st, val, u, hf, rfl, hu⟩
  · rw [e]
    exact hpc
  · have hfits := fetch_fits hf
    rw [done_fg, hu, BitVec.toNat_add, BitVec.toNat_ofNat, Nat.add_mod_mod]
    exact (Nat.mod_le _ _).trans hfits

theorem step_faultCode {s t : State} (hs : s.Wf) (h : StepKind s t) : t.fault.toNat ≤ 5 := by
  rcases step_fault h with e | ⟨f, rfl, -⟩
  · rw [e]
    exact hs.faultCode
  · rw [raise_fault]
    split
    · exact f.code_pos.2
    · exact hs.faultCode

theorem step_wf {s t : State} (hs : s.Wf) (h : StepKind s t) : t.Wf := by
  obtain ⟨params, sizes, rings, lines, memory⟩ := step_data hs h
  obtain ⟨sending, receiving⟩ := step_blocking hs h
  exact {
    params, sizes, rings, lines, memory, sending, receiving
    pointer := step_pointerOk hs h
    handler := step_handlerOk hs h
    faultCode := step_faultCode hs h }

/-- Settles O50: each part of the invariant is kept by every kind of step. -/
theorem stepKeepsWellFormed : Obligations.StepKeepsWellFormed :=
  fun _ _ hs h => step_wf hs (stepKind h)

end Sys2Proof.Machine
end

section
/-! The derived request conditions (R40, R41, R43). -/

namespace Sys2Proof.Machine

theorem rxReady_iff (s : State) (l : Nat) :
    rxReady s l = true ↔
      1 ≤ (s.line l).rxtrig.toNat ∧ (s.line l).rxtrig.toNat ≤ (s.line l).hwrx.length := by
  simp [rxReady, and_comm]

theorem txReady_iff (s : State) (l : Nat) :
    txReady s l = true ↔
      1 ≤ (s.line l).txtrig.toNat ∧
        (s.line l).txtrig.toNat + (s.line l).hwtx.length ≤ s.cfg.depth := by
  simp only [txReady, Bool.and_eq_true, decide_eq_true_iff]
  omega

theorem lineIrq_iff (s : State) (l : Nat) :
    lineIrq s l = true ↔ (s.line l).inited = true ∧
      ((rxReady s l = true ∧ (s.line l).mrx = false) ∨
        (txReady s l = true ∧ (s.line l).mtx = false)) := by
  simp [lineIrq, serviced, ready, Line.mask]

/-- No line is ready before its initialisation: its triggers are 0 (R40, R56). -/
theorem not_ready_of_not_inited {s : State} (hs : s.DataOk) {l : Nat} (hl : l < s.cfg.nlines)
    (hi : (s.line l).inited = false) (d : Dir) : ready s l d = false := by
  cases hr : ready s l d
  · rfl
  · rw [ready_inited hs hl hr] at hi
    cases hi

/-- Distinct lines have distinct sources (R7). -/
theorem srcOf_inj {p : Params} (hp : p.Ok) {l j : Nat} (hl : l < p.nlines) (hj : j < p.nlines)
    (h : srcOf p l = srcOf p j) : l = j := by
  obtain ⟨-, -, -, hnodup, -⟩ := hp
  have hget : ∀ {i} (hi : i < p.lines.length),
      srcOf p i = (p.lines.map LineParams.src)[i]'(by rwa [List.length_map]) := fun hi => by
    simp [srcOf, Params.line, List.getD, hi]
  rw [hget hl, hget hj] at h
  exact (hnodup.getElem_inj_iff).1 h

/-- The line found for its own source (R43). -/
theorem lineOfSource_srcOf {p : Params} (hp : p.Ok) {l : Nat} (hl : l < p.nlines) :
    lineOfSource p (srcOf p l) = some l := by
  cases hf : lineOfSource p (srcOf p l) with
  | none =>
    have hnone := List.find?_eq_none.1 hf l (List.mem_range.2 hl)
    exact absurd (beq_self_eq_true _) hnone
  | some j =>
    obtain ⟨hj, he⟩ := find_range hf
    rw [srcOf_inj hp hj hl (beq_iff_eq.1 he)]

theorem lineOfSource_none {p : Params} {v : Nat} (h : ∀ l < p.nlines, srcOf p l ≠ v) :
    lineOfSource p v = none :=
  List.find?_eq_none.2 fun l hl he => h l (List.mem_range.1 hl) (beq_iff_eq.1 he)

theorem request_iff (s : State) (c : PrioClass) :
    request s c = true ↔ ∃ v < s.cfg.nsrc, live s v = true ∧ (s.source v).prio = c := by
  simp [request, liveIn]

/-- Settles O26: each condition unfolded once; a line's source is its own because the parameters
give no source twice. -/
theorem requestConditions : Obligations.RequestConditions := by
  intro s hs
  refine ⟨rxReady_iff s, txReady_iff s, fun l hl hi => ?_, fun l hl hi => ?_, lineIrq_iff s,
    fun l hl => ?_, fun v hv => ?_, fun v => Bool.or_eq_true_iff, fun v => Bool.and_eq_true_iff,
    request_iff s, fun c => Bool.and_eq_true_iff⟩
  · exact ⟨not_ready_of_not_inited hs.data hl hi .rx, not_ready_of_not_inited hs.data hl hi .tx⟩
  · obtain ⟨-, -, htrig, -⟩ := hs.data.lineOk hl
    rw [rxReady_iff, (htrig hi).1]
    exact and_iff_right (Nat.le_refl 1)
  · rw [hwReq, lineOfSource_srcOf hs.params hl]
  · rw [hwReq, lineOfSource_none hv]

end Sys2Proof.Machine
end

section
/-! `RDREG` and the layout of its registers (R50 to R53, R230 to R232). -/

namespace Sys2Proof.Machine

/-! ### Bits and fields of a word laid out by `++` -/

theorem getLsbD_flag_zero {n : Nat} (x : BitVec n) (b : Bool) :
    (x ++ BitVec.ofBool b).getLsbD 0 = b := by
  rw [BitVec.getLsbD_append, if_pos Nat.zero_lt_one, BitVec.getLsbD_ofBool, decide_eq_true rfl,
    Bool.true_and]

theorem getLsbD_flag_succ {n : Nat} (x : BitVec n) (b : Bool) (j : Nat) :
    (x ++ BitVec.ofBool b).getLsbD (j + 1) = x.getLsbD j := by
  rw [BitVec.getLsbD_append, if_neg (by omega), Nat.add_sub_cancel]

/-- Two flags in bits 0 and 1, the rest above them. -/
theorem flags_two {n : Nat} (x : BitVec n) (a b : Bool) :
    (x ++ BitVec.ofBool a ++ BitVec.ofBool b).getLsbD 0 = b ∧
    (x ++ BitVec.ofBool a ++ BitVec.ofBool b).getLsbD 1 = a ∧
    ∀ j, (x ++ BitVec.ofBool a ++ BitVec.ofBool b).getLsbD (j + 2) = x.getLsbD j :=
  ⟨getLsbD_flag_zero _ _, (getLsbD_flag_succ _ _ 0).trans (getLsbD_flag_zero _ _),
    fun j => (getLsbD_flag_succ _ _ (j + 1)).trans (getLsbD_flag_succ _ _ j)⟩

/-- Three flags in bits 0 to 2, the rest above them. -/
theorem flags_three {n : Nat} (x : BitVec n) (a b c : Bool) :
    (x ++ BitVec.ofBool a ++ BitVec.ofBool b ++ BitVec.ofBool c).getLsbD 0 = c ∧
    (x ++ BitVec.ofBool a ++ BitVec.ofBool b ++ BitVec.ofBool c).getLsbD 1 = b ∧
    (x ++ BitVec.ofBool a ++ BitVec.ofBool b ++ BitVec.ofBool c).getLsbD 2 = a ∧
    ∀ j, (x ++ BitVec.ofBool a ++ BitVec.ofBool b ++ BitVec.ofBool c).getLsbD (j + 3) =
      x.getLsbD j := by
  obtain ⟨hb, ha, hx⟩ := flags_two x a b
  exact ⟨getLsbD_flag_zero _ _, (getLsbD_flag_succ _ _ 0).trans hb,
    (getLsbD_flag_succ _ _ 1).trans ha, fun j => (getLsbD_flag_succ _ _ (j + 2)).trans (hx j)⟩

theorem extract_flags_three {n : Nat} (x : BitVec n) (a b c : Bool) (k w : Nat) :
    (x ++ BitVec.ofBool a ++ BitVec.ofBool b ++ BitVec.ofBool c).extractLsb' (k + 3) w =
      x.extractLsb' k w := by
  obtain ⟨-, -, -, hx⟩ := flags_three x a b c
  refine BitVec.eq_of_getLsbD_eq fun j hj => ?_
  rw [BitVec.getLsbD_extractLsb', BitVec.getLsbD_extractLsb', Nat.add_right_comm k 3 j, hx]

theorem extract_append_low {m n : Nat} (x : BitVec m) (y : BitVec n) :
    (x ++ y).extractLsb' 0 n = y := by
  refine BitVec.eq_of_getLsbD_eq fun j hj => ?_
  simp [BitVec.getLsbD_append, hj]

theorem extract_append_high {m n : Nat} (k w : Nat) (x : BitVec m) (y : BitVec n) :
    (x ++ y).extractLsb' (n + k) w = x.extractLsb' k w := by
  refine BitVec.eq_of_getLsbD_eq fun j hj => ?_
  rw [BitVec.getLsbD_extractLsb', BitVec.getLsbD_extractLsb', BitVec.getLsbD_append,
    if_neg (by omega), Nat.add_assoc, Nat.add_sub_cancel_left]

/-- The mask words of Table R53, bit by bit. -/
theorem getLsbD_maskWord (f : Nat → Bool) (n v : Nat) (h : n ≤ 32) :
    (maskWord f n).getLsbD v = (decide (v < n) && f v) := by
  induction n with
  | zero => exact BitVec.getLsbD_zero
  | succ n ih =>
    have hbit : (maskWord f (n + 1)).getLsbD v =
        ((maskWord f n).getLsbD v || (f n && decide (n = v))) := by
      cases hf : f n <;> simp [maskWord, hf, BitVec.getLsbD_twoPow, Nat.lt_of_succ_le h]
    rw [hbit, ih (by omega)]
    by_cases hv : n = v
    · subst hv
      simp
    · have hlt : v < n + 1 ↔ v < n := by omega
      simp [hv, hlt]

/-! ### A valid pair -/

/-- `RDREG` of a valid pair completes with the register's value and changes nothing else. -/
theorem readsAs_of_valid {inst regno : Byte} {s : State} {r : Reg} {P : Word → Prop}
    (hv : validReg s.cfg regno inst = some r) (hP : P (regValue s inst.toNat r)) :
    ReadsAs inst regno s P := by
  refine ⟨done 1 .ok (regValue s inst.toNat r) s, ?_, ?_, ?_, hP⟩
  · show Host.Outcome.next _ = _
    rw [hv]
  · exact ⟨rfl, rfl, by rw [done_ev, List.append_nil]; rfl, rfl, rfl, rfl, rfl, rfl, rfl, rfl, rfl,
      rfl⟩
  · exact ⟨fun _ => rfl, fun _ => rfl, ⟨fun _ => rfl, rfl, rfl⟩, fun _ => rfl⟩

theorem validReg_of_lt {p : Params} {regno inst : Byte} {r : Reg}
    (hr : regOfNumber regno = some r) (hi : inst.toNat < r.instances p) :
    validReg p regno inst = some r := by
  rw [validReg, hr]
  exact if_pos hi

/-! ### The ring registers -/

theorem ringStat_bits (r : Ring) :
    (ringStat r).getLsbD 0 = ringEmpty r ∧ (ringStat r).getLsbD 1 = ringFull r ∧
    ∀ j, 2 ≤ j → (ringStat r).getLsbD j = false := by
  obtain ⟨hempty, hfull, hrest⟩ := flags_two 0#30 (ringFull r) (ringEmpty r)
  refine ⟨hempty, hfull, fun j hj => ?_⟩
  obtain ⟨i, rfl⟩ := Nat.exists_eq_add_of_le' hj
  exact (hrest i).trans BitVec.getLsbD_zero

/-- Settles O38: the four plain registers are ring fields zero-extended, `RB_STAT` is two flags. -/
theorem rdregRingRegisters : Obligations.RdregRingRegisters := fun k s hk =>
  ⟨readsAs_of_valid (validReg_of_lt (r := .rbCap) rfl hk) rfl,
    readsAs_of_valid (validReg_of_lt (r := .rbRd) rfl hk) rfl,
    readsAs_of_valid (validReg_of_lt (r := .rbWr) rfl hk) rfl,
    readsAs_of_valid (validReg_of_lt (r := .rbCnt) rfl hk) rfl,
    readsAs_of_valid (validReg_of_lt (r := .rbStat) rfl hk) (ringStat_bits (s.ring k.toNat))⟩

/-! ### The line registers -/

theorem lineCtrl_bits (u : Line) :
    (lineCtrl u).getLsbD 0 = u.mrx ∧ (lineCtrl u).getLsbD 1 = u.mtx ∧
    (lineCtrl u).getLsbD 2 = u.inited ∧ ∀ j, 3 ≤ j → (lineCtrl u).getLsbD j = false := by
  obtain ⟨hrx, htx, hi, hrest⟩ := flags_three 0#29 u.inited u.mtx u.mrx
  refine ⟨hrx, htx, hi, fun j hj => ?_⟩
  obtain ⟨i, rfl⟩ := Nat.exists_eq_add_of_le' hj
  exact (hrest i).trans BitVec.getLsbD_zero

theorem lineTrig_fields (u : Line) :
    (lineTrig u).extractLsb' 0 8 = u.rxtrig ∧ (lineTrig u).extractLsb' 8 8 = u.txtrig ∧
    ∀ j, 16 ≤ j → (lineTrig u).getLsbD j = false := by
  refine ⟨extract_append_low _ _, ?_, fun j hj => ?_⟩
  · exact (extract_append_high 0 8 _ _).trans (extract_append_low _ _)
  · rw [lineTrig, BitVec.getLsbD_append, BitVec.getLsbD_append, if_neg (by omega),
      if_neg (by omega)]
    exact BitVec.getLsbD_zero

theorem lineStat_bits (s : State) (l : Nat) :
    (lineStat s l).getLsbD 0 = rxReady s l ∧ (lineStat s l).getLsbD 1 = txReady s l ∧
    (lineStat s l).getLsbD 2 = lineIrq s l ∧ ∀ j, 24 ≤ j → (lineStat s l).getLsbD j = false := by
  obtain ⟨hrx, htx, hirq, hrest⟩ := flags_three
    (0#8 ++ BitVec.ofNat 8 (s.line l).hwtx.length ++ BitVec.ofNat 8 (s.line l).hwrx.length ++ 0#5)
    (lineIrq s l) (txReady s l) (rxReady s l)
  refine ⟨hrx, htx, hirq, fun j hj => ?_⟩
  obtain ⟨i, rfl⟩ := Nat.exists_eq_add_of_le' (Nat.le_trans (by decide : 3 ≤ 24) hj)
  refine (hrest i).trans ?_
  rw [BitVec.getLsbD_append, BitVec.getLsbD_append, BitVec.getLsbD_append, if_neg (by omega),
    if_neg (by omega), if_neg (by omega)]
  exact BitVec.getLsbD_zero

/-- The fields of `UL_STAT` above its flags: five zero bits and the two FIFO lengths. -/
theorem lineStat_fields (s : State) (l : Nat) :
    (lineStat s l).extractLsb' 3 5 = 0 ∧
    (lineStat s l).extractLsb' 8 8 = BitVec.ofNat 8 (s.line l).hwrx.length ∧
    (lineStat s l).extractLsb' 16 8 = BitVec.ofNat 8 (s.line l).hwtx.length :=
  ⟨(extract_flags_three _ _ _ _ 0 5).trans (extract_append_low _ _),
    (extract_flags_three _ _ _ _ 5 8).trans <| (extract_append_high 0 8 _ _).trans
      (extract_append_low _ _),
    (extract_flags_three _ _ _ _ 13 8).trans <| (extract_append_high 8 8 _ _).trans <|
      (extract_append_high 0 8 _ _).trans (extract_append_low _ _)⟩

/-- A FIFO length fits its 8-bit field, since `DEPTH` is at most 255 (R10, R39). -/
theorem toNat_fifoLength {p : Params} (hp : p.Ok) {n : Nat} (h : n ≤ p.depth) :
    (BitVec.ofNat 8 n).toNat = n := by
  obtain ⟨-, -, -, -, -, -, -, -, -, hdepth, -⟩ := hp
  rw [BitVec.toNat_ofNat]
  exact Nat.mod_eq_of_lt (by omega)

/-- Settles O39: each layout is read off bit by bit; the FIFO lengths fit their fields. -/
theorem rdregLineRegisters : Obligations.RdregLineRegisters := by
  intro l s hs hl
  obtain ⟨hrx, htx, -⟩ := hs.data.lineOk hl
  obtain ⟨b0, b1, b2, btop⟩ := lineStat_bits s l.toNat
  obtain ⟨fzero, frx, ftx⟩ := lineStat_fields s l.toNat
  refine ⟨readsAs_of_valid (validReg_of_lt (r := .ulCtrl) rfl hl) (lineCtrl_bits _),
    readsAs_of_valid (validReg_of_lt (r := .ulRxcb) rfl hl) rfl,
    readsAs_of_valid (validReg_of_lt (r := .ulTxcb) rfl hl) rfl,
    readsAs_of_valid (validReg_of_lt (r := .ulBaud) rfl hl) rfl,
    readsAs_of_valid (validReg_of_lt (r := .ulTrig) rfl hl) (lineTrig_fields _),
    readsAs_of_valid (validReg_of_lt (r := .ulStat) rfl hl) ⟨b0, b1, b2, fzero, ?_, ?_, btop⟩⟩
  · exact (congrArg BitVec.toNat frx).trans (toNat_fifoLength hs.params hrx)
  · exact (congrArg BitVec.toNat ftx).trans (toNat_fifoLength hs.params htx)

/-! ### The interrupt-table registers -/

theorem globalWord_bits (s : State) :
    (globalWord s).getLsbD 0 = s.it.gnorm ∧ (globalWord s).getLsbD 1 = s.it.gfast ∧
    ∀ j, 2 ≤ j → (globalWord s).getLsbD j = false := by
  obtain ⟨hnorm, hfast, hrest⟩ := flags_two 0#30 s.it.gfast s.it.gnorm
  refine ⟨hnorm, hfast, fun j hj => ?_⟩
  obtain ⟨i, rfl⟩ := Nat.exists_eq_add_of_le' hj
  exact (hrest i).trans BitVec.getLsbD_zero

theorem prioBit_eq (c : PrioClass) : c.bit = decide (c = .fast) := by cases c <;> rfl

/-- Settles O40: the mask registers show one bit for each of the at most 32 sources. -/
theorem rdregTableRegisters : Obligations.RdregTableRegisters := by
  intro s hcfg
  obtain ⟨-, -, hsrc, -⟩ := hcfg
  refine ⟨readsAs_of_valid (validReg_of_lt (r := .itGlobal) rfl Nat.one_pos) (globalWord_bits s),
    readsAs_of_valid (validReg_of_lt (r := .itEnable) rfl Nat.one_pos) fun v =>
      getLsbD_maskWord _ _ v hsrc,
    readsAs_of_valid (validReg_of_lt (r := .itPrio) rfl Nat.one_pos) fun v => ?_,
    readsAs_of_valid (validReg_of_lt (r := .itForced) rfl Nat.one_pos) fun v =>
      getLsbD_maskWord _ _ v hsrc,
    readsAs_of_valid (validReg_of_lt (r := .itPending) rfl Nat.one_pos) fun v =>
      getLsbD_maskWord _ _ v hsrc,
    fun v hv => readsAs_of_valid (validReg_of_lt (r := .itHandler) rfl hv) rfl⟩
  exact (getLsbD_maskWord _ _ v hsrc).trans (by rw [prioBit_eq])

end Sys2Proof.Machine
end

section
/-! The decoder reads back what the encoder writes (R100 to R105, R73). -/

namespace Sys2Proof

/-! ### Each format takes back its fields (R102); zero fields in the form `simp` gives them -/

theorem formatN_commandWord (o : Byte) (i : Instr) :
    formatN (commandWord o 0#8 0#8 0#8) i = .ok i := by
  simp [formatN, whenMbz]

theorem formatNB_commandWord (o b : Byte) {x : Bool} (hx : x = true) (f : Byte → Instr) :
    formatNB (commandWord o 0#8 0#8 b) x f = .ok (f b) := by
  simp [formatNB, whenMbz, hx]

theorem formatS_commandWord (o k : Byte) (f : Byte → Instr) :
    formatS (commandWord o k 0#8 0#8) f = .ok (f k) := by
  simp [formatS, whenMbz]

theorem formatSB_commandWord (o k b : Byte) (f : Byte → Byte → Instr) :
    formatSB (commandWord o k 0#8 b) f = .ok (f k b) := by
  simp [formatSB, whenMbz]

theorem formatSH_capacityWord (o k : Byte) (c : Half) (f : Byte → Half → Instr) :
    formatSH (capacityWord o k c) f = .ok (f k c) := by
  simp [formatSH]

theorem formatSA_commandWord (o k a : Byte) {x : Bool} (hx : x = true)
    (f : Byte → Byte → Instr) : formatSA (commandWord o k a 0#8) x f = .ok (f k a) := by
  simp [formatSA, whenMbz, hx]

theorem formatSW1_commandWord (o k : Byte) (w : Word) (rest : List Word)
    (f : Byte → Word → Instr) :
    formatSW1 (commandWord o k 0#8 0#8) (w :: rest) f = .ok (f k w) := by
  simp [formatSW1, whenMbz]

theorem formatSW2_commandWord (o k : Byte) (w x : Word) (rest : List Word)
    (f : Byte → Word → Word → Instr) :
    formatSW2 (commandWord o k 0#8 0#8) (w :: x :: rest) f = .ok (f k w x) := by
  simp [formatSW2, whenMbz]

/-- The words of a well-formed command decode to it, whatever follows: its opcode selects its row,
and the format of the row takes back the operands. -/
theorem decode_encode (i : Instr) (rest : List Word) (hi : i.wf = true) :
    decode (encode i ++ rest) = .ok i := by
  cases i with
  | rbInit => simp [encode, decode, formatSH_capacityWord]
  | rbWrite => simp [encode, decode, formatSB_commandWord]
  | uartSendByte => simp [encode, decode, formatSB_commandWord]
  | itcInit => simp [encode, decode, formatN_commandWord]
  | itcDisableAll => simp [encode, decode, formatN_commandWord]
  | itcServiceNormal => simp [encode, decode, formatN_commandWord]
  | itcServiceFast => simp [encode, decode, formatN_commandWord]
  | itcRestoreAll p =>
    have hp : decide (p.toNat < 4) = true := hi
    simp [encode, decode, formatNB_commandWord _ _ hp]
  | itcSetPriority v c =>
    have hc : decide (c.toNat ≤ 1) = true := by simpa [Instr.wf, Nat.lt_succ_iff] using hi
    simp [encode, decode, formatSA_commandWord _ _ _ hc]
  | rdreg => simp [encode, decode, formatSA_commandWord]
  | itcSetHandler => simp [encode, decode, formatSW1_commandWord]
  | uartSetRxCallback => simp [encode, decode, formatSW1_commandWord]
  | uartSetTxCallback => simp [encode, decode, formatSW1_commandWord]
  | uartInit => simp [encode, decode, formatSW2_commandWord]
  | uartSend => simp [encode, decode, formatSW2_commandWord]
  | uartReceive => simp [encode, decode, formatSW2_commandWord]
  | _ => simp [encode, decode, formatS_commandWord]

/-- Settles O1: the serialised stream holds the same words, so both halves are `decode_encode`. -/
theorem decodeOfEncode : Obligations.DecodeOfEncode := by
  intro i rest hi
  refine ⟨decode_encode i rest hi, ?_⟩
  rw [decodeBytes, wordsOfBytes_flatMap]
  exact decode_encode i rest hi

end Sys2Proof
end

section
/-! The machine always takes a next step, and a run ends where the block is quiescent (R71, R250,
R264, R266, R309). -/

namespace Sys2Proof.Machine

/-! ### No agent is ever without its step -/

/-- A stream command started between commands has a next state (R264). -/
theorem exec_next {i : Instr} {s : State} (ha : i.agent = .fg) (hp : s.fg.phase = .idle) :
    ∃ t, exec i s = .next t := by
  cases i
  case itcServiceNormal | itcServiceFast | uartIsr => cases ha
  case uartSendByte l b => exact ⟨_, by simp only [exec, execUartSendByte, hp]; rfl⟩
  case uartReceiveByte l => exact ⟨_, by simp only [exec, execUartReceiveByte, hp]; rfl⟩
  all_goals exact ⟨_, rfl⟩

theorem onLatchedLine_next {s : State} (f : Nat → State → State) (hl : s.fgLine < s.cfg.nlines) :
    onLatchedLine s f = .next (f s.fgLine s) :=
  if_neg (Nat.not_le.2 hl)

theorem onHandlerLine_next {s : State} (f : Nat → State → State) (hl : s.ihLine < s.cfg.nlines) :
    onHandlerLine s f = .next (f s.ihLine s) :=
  if_neg (Nat.not_le.2 hl)

/-- Inside `UART_SEND_BYTE` on an existing line there is a next step (R201 to R203). -/
theorem sendByte_next {s : State} {l b : Byte} (hp : s.fg.phase.sending = true)
    (hl : s.fgLine < s.cfg.nlines) : ∃ t, exec (.uartSendByte l b) s = .next t := by
  unfold exec execUartSendByte
  cases h : s.fg.phase
  case idle | rbGet | rbRestore => simp [h, FgPhase.sending] at hp
  all_goals exact ⟨_, onLatchedLine_next _ hl⟩

/-- Inside `UART_RECEIVE_BYTE` on an existing line there is a next step (R206, R207). -/
theorem receiveByte_next {s : State} {l : Byte} (hp : s.fg.phase.receiving = true)
    (hl : s.fgLine < s.cfg.nlines) : ∃ t, exec (.uartReceiveByte l) s = .next t := by
  unfold exec execUartReceiveByte
  cases h : s.fg.phase
  case idle | sbDrain | sbPut | sbRestore => simp [h, FgPhase.receiving] at hp
  all_goals exact ⟨_, onLatchedLine_next _ hl⟩

/-- The running handler of an existing line has a next step (R250 to R256). -/
theorem uartIsr_next {s : State} {l : Byte} (hp : s.ih.phase ≠ .idle)
    (hl : s.ihLine < s.cfg.nlines) : ∃ t, exec (.uartIsr l) s = .next t := by
  unfold exec execUartIsr
  cases h : s.ih.phase
  case idle => exact absurd h hp
  all_goals exact ⟨_, onHandlerLine_next _ hl⟩

/-- A class that can be taken has a vector, so its service routine has a next state (R43, R244). -/
theorem service_next {s : State} {c : PrioClass} (h : take s c = true) :
    ∃ t, service c s = .next t := by
  obtain ⟨-, hreq⟩ : s.globalEnable c = true ∧ request s c = true := by simpa [take] using h
  unfold service
  cases hv : vector s c with
  | some v => exact ⟨_, rfl⟩
  | none =>
    obtain ⟨v, hmem, hlive⟩ := List.any_eq_true.1 hreq
    exact absurd hlive (List.find?_eq_none.1 hv v hmem)

/-- The step of the handler engine with something to do: the running handler goes on, or a class
that can be taken is served. -/
theorem handlerEnabled_iff (s : State) :
    handlerEnabled s = true ↔ s.fault = 0 ∧ (s.ih.phase ≠ .idle ∨ ∃ c, take s c = true) := by
  have hc : (∃ c, take s c = true) ↔ take s .fast = true ∨ take s .normal = true := by
    refine ⟨fun ⟨c, h⟩ => ?_, fun h => h.elim (⟨_, ·⟩) (⟨_, ·⟩)⟩
    cases c
    · exact .inr h
    · exact .inl h
  simp [handlerEnabled, hc, or_assoc]

theorem activate_next {s : State} (h : ∃ c, take s c = true) : ∃ t, activate s = .next t := by
  unfold activate activationClass
  by_cases hfast : take s .fast = true
  · rw [if_pos hfast]
    exact service_next hfast
  · rw [if_neg hfast]
    obtain ⟨c, hc⟩ := h
    cases c
    · exact service_next hc
    · exact absurd hc hfast

theorem startCommand_next {s : State} (hp : s.fg.phase = .idle) :
    ∃ t, startCommand s = .next t := by
  unfold startCommand
  split
  · exact ⟨_, rfl⟩
  · split
    · next hf => exact exec_next (fetch_agent hf) hp
    · exact ⟨_, rfl⟩

theorem foregroundStep_next {s : State} (hsend : s.SendingOk) (hreceive : s.ReceivingOk) :
    ∃ t, foregroundStep s = .next t := by
  have sends (hp : s.fg.phase.sending = true) :
      ∃ t, exec (.uartSendByte s.fg.ll s.fg.lb) s = .next t := by
    obtain ⟨-, hl, -⟩ := hsend hp
    exact sendByte_next hp hl
  have receives (hp : s.fg.phase.receiving = true) :
      ∃ t, exec (.uartReceiveByte s.fg.ll) s = .next t := by
    obtain ⟨-, hl, -⟩ := hreceive hp
    exact receiveByte_next hp hl
  unfold foregroundStep
  split
  · cases hp : s.fg.phase with
    | idle => exact startCommand_next hp
    | sbDrain | sbPut | sbRestore => exact sends (by rw [hp]; rfl)
    | rbGet | rbRestore => exact receives (by rw [hp]; rfl)
  · exact ⟨_, rfl⟩

theorem handlerStep_next {s : State} (h : s.HandlerOk) : ∃ t, handlerStep s = .next t := by
  unfold handlerStep
  split
  · next he =>
    obtain ⟨-, hwhat⟩ := (handlerEnabled_iff s).1 he
    split
    · next hp => exact activate_next (hwhat.resolve_left fun hne => hne hp)
    · next hp => exact uartIsr_next hp (h.1 hp).1
  · exact ⟨_, rfl⟩

theorem step_next {s : State} (hs : s.Wf) : ∃ t, step s = .next t := by
  cases hn : nextTurn s with
  | none => exact ⟨s, step_of_none hn⟩
  | some turn =>
    rw [step_of_turn hn]
    cases turn with
    | fg => exact foregroundStep_next (s := afterTurn s) hs.sending hs.receiving
    | ih => exact handlerStep_next (s := afterTurn s) hs.handler
    | env e => exact ⟨_, rfl⟩

/-! ### The end of a run (R309) -/

theorem activationEnabled_iff (s : State) :
    activationEnabled s = true ↔ s.ih.phase = .idle ∧ handlerEnabled s = true := by
  simp only [activationEnabled, handlerEnabled, foregroundFree]
  by_cases hp : s.ih.phase = .idle <;> simp [hp]

theorem wireReady_none_iff (s : State) :
    wireReady s = none ↔ ∀ l < s.cfg.nlines, l ∈ s.stalled ∨ (s.line l).hwtx = [] := by
  simp [wireReady, List.find?_eq_none, or_iff_not_imp_left]

/-- The turn of a quiescent state is one of the block's own agents. -/
theorem nextTurn_of_quiescent {s : State} (hz : s.fault = 0) (h : quiescent s = true) :
    nextTurn s = some .fg ∨ nextTurn s = some .ih := by
  obtain ⟨-, -, -, -, henv, hwire⟩ := (quiescent_iff s).1 h
  unfold nextTurn
  split
  · next turn rest ht =>
    rw [ht] at henv
    cases turn with
    | fg => exact .inl rfl
    | ih => exact .inr rfl
    | env e => exact absurd List.mem_cons_self (henv e)
  · rw [defaultTurn, if_pos hz, hwire]
    dsimp only
    split
    · exact .inr rfl
    · exact .inl rfl

theorem quiescent_afterTurn {s : State} (h : quiescent s = true) :
    quiescent (afterTurn s) = true := by
  obtain ⟨h1, h2, h3, h4, h5, h6⟩ := (quiescent_iff s).1 h
  exact (quiescent_iff _).2 ⟨h1, h2, h3, h4, fun e he => h5 e (List.mem_of_mem_tail he), h6⟩

/-- In a quiescent state neither agent has anything to do. -/
theorem step_of_quiescent {s : State} (hz : s.fault = 0) (h : quiescent s = true) :
    step s = .next (afterTurn s) := by
  obtain ⟨hp, hend, hidle, hact, -⟩ := (quiescent_iff s).1 h
  rcases nextTurn_of_quiescent hz h with hn | hn
  · have hfree : foregroundFree (afterTurn s) = true := (foregroundFree_iff s).2 ⟨hz, hidle⟩
    have hp' : (afterTurn s).fg.phase = .idle := hp
    rw [step_of_turn hn]
    calc foregroundStep (afterTurn s)
        = startCommand (afterTurn s) := by rw [foregroundStep, if_pos hfree, hp']
      _ = .next (afterTurn s) := if_pos hend
  · have hoff : ¬ handlerEnabled s = true := fun he =>
      Bool.false_ne_true (hact.symm.trans ((activationEnabled_iff s).2 ⟨hidle, he⟩))
    rw [step_of_turn hn]
    exact if_neg hoff

/-- R309 spelled out. -/
theorem quiescent_iff_rules (s : State) :
    quiescent s = true ↔
      s.fg.phase = .idle ∧ s.prog.length ≤ s.fg.pc.toNat ∧ s.ih.phase = .idle ∧
      ¬(s.fault = 0 ∧ ∃ c, take s c = true) ∧ (∀ e, Turn.env e ∉ s.turns) ∧
      ∀ l < s.cfg.nlines, l ∈ s.stalled ∨ (s.line l).hwtx = [] := by
  rw [quiescent_iff, wireReady_none_iff]
  refine and_congr_right fun _ => and_congr_right fun _ => and_congr_right fun hidle =>
    and_congr_left fun _ => ?_
  rw [← Bool.not_eq_true, activationEnabled_iff, handlerEnabled_iff]
  simp [hidle]

/-- Settles O51: the invariant gives every agent's step its line or its vector, and the end of a run
is the state in which no agent has anything to do. -/
theorem stepAlwaysNext : Obligations.StepAlwaysNext :=
  ⟨fun _ hs => step_next hs,
    fun _ hz h => ⟨step_of_quiescent hz h, quiescent_afterTurn h⟩,
    quiescent_iff_rules⟩

end Sys2Proof.Machine
end

section
/-! The bytes in flight on a line, and what a step does to them (R80, R81, R204, R296, R298). -/

namespace Sys2Proof.Machine

/-! ### Facts about the data part of the invariant -/

theorem afterTurn_data {s : State} (hs : s.DataOk) : (afterTurn s).DataOk :=
  hs.of_same rfl rfl rfl rfl rfl rfl

theorem State.DataOk.ring_lt {s : State} (hs : s.DataOk) {l : Nat} (hl : l < s.cfg.nlines)
    (d : Dir) : rsel l d < s.rb.length := by
  rw [hs.sizes.1]
  exact rsel_lt d hl

theorem State.DataOk.line_lt {s : State} (hs : s.DataOk) {l : Nat} (hl : l < s.cfg.nlines) :
    l < s.ul.length := by
  rw [hs.sizes.2.1]
  exact hl

/-- What `UART_SEND` queues fits (R209, action 4). -/
theorem sendCount_fits {r : Ring} {cmax : Nat} (ok : r.Ok cmax) (n : Word) :
    r.cnt.toNat + sendCount n r ≤ r.cap.toNat := by
  have hcnt := ok.2.1
  unfold sendCount
  omega

/-! ### The bytes of a direction -/

/-- The bytes that line `l` holds in a direction, oldest first: transmitted bytes go from the ring
to the hardware FIFO, received ones from the FIFO to the ring (R39, R81). -/
def State.queue (s : State) (l : Nat) : Dir → List Byte
  | .rx => s.contents (rsel l .rx) ++ (s.line l).hwrx
  | .tx => (s.line l).hwtx ++ s.contents (rsel l .tx)

theorem txStream_eq (s : State) (l : Nat) :
    txStream s l = wireBytes l s.ev ++ (s.queue l .tx ++ latchedTx s l) := by
  simp [txStream, State.queue]

theorem rxStream_eq (s : State) (l : Nat) : rxStream s l = s.queue l .rx := rfl

theorem contents_congr {s t : State} {k : Nat} (hlife : t.life = s.life)
    (hring : t.ring k = s.ring k) : t.contents k = s.contents k := by
  rw [State.contents, State.powerOn, hlife, hring]
  rfl

theorem queue_congr {s t : State} {l : Nat} {d : Dir}
    (hc : t.contents (rsel l d) = s.contents (rsel l d))
    (hf : (t.line l).fifo d = (s.line l).fifo d) : t.queue l d = s.queue l d := by
  cases d with
  | rx => exact congrArg₂ (· ++ ·) hc hf
  | tx => exact congrArg₂ (· ++ ·) hf hc

theorem Untouched.queue {l : Nat} {s t : State} (h : Untouched l s t) (hlife : t.life = s.life)
    (d : Dir) : t.queue l d = s.queue l d :=
  queue_congr (contents_congr hlife (h.2 d)) (by rw [h.1])

theorem SameBytes.queue {s t : State} (h : SameBytes s t) (hlife : t.life = s.life) (l : Nat)
    (d : Dir) : t.queue l d = s.queue l d :=
  queue_congr (contents_congr hlife (h l d).1) (h l d).2

/-- Moving bytes of one direction leaves the bytes of every other line and direction. -/
theorem MovesBytes.queue_other {j : Nat} {e : Dir} {s t : State} (h : MovesBytes j e s t)
    (hlife : t.life = s.life) {l : Nat} {d : Dir} (hne : ¬(l = j ∧ d = e)) :
    t.queue l d = s.queue l d := by
  by_cases hl : l = j
  · subst hl
    have hd : d ≠ e := fun hd => hne ⟨rfl, hd⟩
    exact queue_congr (contents_congr hlife (h.ring d hd)) (h.fifo d hd)
  · exact (h.other l hl).queue hlife d

theorem setMask_queue (j : Nat) (e : Dir) (b : Bool) (s : State) (l : Nat) (d : Dir) :
    (setMask j e b s).queue l d = s.queue l d :=
  queue_congr rfl (setMask_fifo j l e d b s)

theorem done_queue (n : Nat) (st : Status) (val : Word) (s : State) (l : Nat) (d : Dir) :
    (done n st val s).queue l d = s.queue l d :=
  queue_congr rfl rfl

theorem setRing_queue {s : State} {k l : Nat} {d : Dir} (r : Ring) (h : k ≠ rsel l d) :
    (s.setRing k r).queue l d = s.queue l d :=
  queue_congr (contents_setRing_of_ne s k _ r h) rfl

theorem setLine_queue {s : State} {j : Nat} {u : Line}
    (hu : ∀ d, u.fifo d = (s.line j).fifo d) (l : Nat) (d : Dir) :
    (s.setLine j u).queue l d = s.queue l d := by
  refine queue_congr rfl ?_
  rw [line_setLine]
  split
  · next e => rw [hu, e.1]
  · rfl

theorem raise_queue (f : BlockFault) (s : State) (l : Nat) (d : Dir) :
    (raise f s).queue l d = s.queue l d :=
  (raise_sameBytes f s).queue (raise_life f s) l d

/-! ### Bytes that move between a ring and its FIFO keep their order (R81) -/

theorem moveTx_queue {s : State} (hs : s.DataOk) {j : Nat} (hj : j < s.cfg.nlines)
    (he : ringEmpty (s.ring (rsel j .tx)) = false) (l : Nat) (d : Dir) :
    (moveTx j s).queue l d = s.queue l d := by
  by_cases hne : l = j ∧ d = .tx
  · obtain ⟨rfl, rfl⟩ := hne
    obtain ⟨x, r, e, -, hc, -⟩ := moveTx_spec hs hj he
    rw [e, State.queue, line_setLine_same _ _ _ (by exact hs.line_lt hj), setLine_contents,
      contents_setRing_same _ _ _ (hs.ring_lt hj .tx)]
    rw [State.queue, hc, List.append_assoc]
    rfl
  · exact (moveTx_moves j s).queue_other (by rw [moveTx_eq]) hne

theorem moveRx_queue {s : State} (hs : s.DataOk) {j : Nat} (hj : j < s.cfg.nlines)
    (hf : ringFull (s.ring (rsel j .rx)) = false) (l : Nat) (d : Dir) :
    (moveRx j s).queue l d = s.queue l d := by
  by_cases hne : l = j ∧ d = .rx
  · obtain ⟨rfl, rfl⟩ := hne
    cases hb : (s.line l).hwrx with
    | nil => simp [moveRx, hb]
    | cons b rest =>
      obtain ⟨r, e, -, hc, -⟩ := moveRx_spec hs hj hb hf
      rw [e, State.queue, contents_setRing_same _ _ _ (by exact hs.ring_lt hj .rx), setRing_line,
        line_setLine_same _ _ _ (hs.line_lt hj), setLine_powerOn, hc]
      rw [State.queue, hb, List.append_assoc]
      rfl
  · exact (moveRx_moves j s).queue_other (by rw [moveRx_eq]) hne

theorem isrRxLoop_queue {s : State} (hs : s.DataOk) {j : Nat} (hj : j < s.cfg.nlines) (l : Nat)
    (d : Dir) : (isrRxLoop j s).queue l d = s.queue l d := by
  unfold isrRxLoop
  split
  · next hgo => exact moveRx_queue hs hj hgo.2 l d
  · cases d <;> rfl

theorem isrTxLoop_queue {s : State} (hs : s.DataOk) {j : Nat} (hj : j < s.cfg.nlines) (l : Nat)
    (d : Dir) : (isrTxLoop j s).queue l d = s.queue l d := by
  unfold isrTxLoop
  split
  · next hgo => exact moveTx_queue hs hj hgo.1 l d
  · cases d <;> rfl

theorem sendByteDrain_queue {s : State} (hs : s.DataOk) {j : Nat} (hj : j < s.cfg.nlines)
    (l : Nat) (d : Dir) : (sendByteDrain j s).queue l d = s.queue l d := by
  unfold sendByteDrain
  split
  · cases d <;> rfl
  · next he =>
    split
    · exact moveTx_queue hs hj (Bool.not_eq_true _ ▸ he) l d
    · rfl

/-! ### The wire and the latch -/

theorem wireBytes_append (l : Nat) (xs ys : List Event) :
    wireBytes l (xs ++ ys) = wireBytes l xs ++ wireBytes l ys := List.filterMap_append

theorem wireBytes_wireTx (l : Nat) (b : Byte) : wireBytes l [.wireTx l b] = [b] := by
  simp [wireBytes]

theorem wireBytes_wireTx_of_ne {l j : Nat} (b : Byte) (h : j ≠ l) :
    wireBytes l [.wireTx j b] = [] := by
  simp [wireBytes, h]

/-- Events that put no byte on a wire. -/
theorem wireBytes_silent {l : Nat} {xs ys : List Event} (h : wireBytes l ys = []) :
    wireBytes l (xs ++ ys) = wireBytes l xs := by
  rw [wireBytes_append, h, List.append_nil]

theorem announce_wire (j : Nat) (d : Dir) (s : State) (l : Nat) :
    wireBytes l (announce j d s).ev = wireBytes l s.ev := by
  unfold announce
  split
  · rfl
  · exact wireBytes_silent rfl

theorem isrRxEnd_wire (j : Nat) (s : State) (l : Nat) :
    wireBytes l (isrRxEnd j s).ev = wireBytes l s.ev := by
  rw [isrRxEnd, setIhPhase_ev, suppressIf_ev, announce_wire]

theorem isrTxEnd_wire (j : Nat) (s : State) (l : Nat) :
    wireBytes l (isrTxEnd j s).ev = wireBytes l s.ev := by
  rw [isrTxEnd, setIhPhase_ev, suppressIf_ev, announce_wire]

theorem latchedTx_congr {s t : State} (h : t.fg = s.fg) (l : Nat) :
    latchedTx t l = latchedTx s l := by
  rw [latchedTx, State.fgLine, h]
  rfl

/-- Outside the drain and put steps of `UART_SEND_BYTE` no byte waits in the latch (R200 to
R202). -/
theorem latchedTx_none {s : State} {p : FgPhase} (hp : s.fg.phase = p) (h1 : p ≠ .sbDrain)
    (h2 : p ≠ .sbPut) (l : Nat) : latchedTx s l = [] :=
  if_neg fun h => h.1.elim (fun e => h1 (hp.symm.trans e)) fun e => h2 (hp.symm.trans e)

theorem latchedTx_idle {s : State} (h : s.fg.phase = .idle) (l : Nat) : latchedTx s l = [] :=
  latchedTx_none h nofun nofun l

/-! ### A step that is neither the environment's nor the start of a command -/

theorem step_of_starting {s : State} {i : Instr} (hi : starting s = some i) :
    step s = exec i (afterTurn s) := by
  obtain ⟨hn, hfree, hp, hlt, hf⟩ := starting_fetch hi
  have hp' : (afterTurn s).fg.phase = .idle := hp
  have hlt' : ¬ (afterTurn s).prog.length ≤ (afterTurn s).fg.pc.toNat := Nat.not_le.2 hlt
  have hf' : fetch (afterTurn s) = .ok i := hf
  rw [step_of_turn hn]
  show foregroundStep (afterTurn s) = _
  rw [foregroundStep, if_pos (by exact hfree), hp']
  dsimp only
  rw [startCommand, if_neg hlt', hf']

/-- A step of the environment, the start of a command, or neither. -/
theorem step_split {s t : State} (h : step s = .next t) :
    (∃ e, nextTurn s = some (.env e) ∧ t = envStep e (afterTurn s)) ∨
    (∃ i, starting s = some i ∧ exec i (afterTurn s) = .next t) ∨
    ((∀ e, nextTurn s ≠ some (.env e)) ∧ starting s = none) := by
  by_cases henv : ∃ e, nextTurn s = some (.env e)
  · obtain ⟨e, he⟩ := henv
    rw [step_of_turn he] at h
    exact .inl ⟨e, he, (Host.Outcome.next.inj h).symm⟩
  · cases hi : starting s with
    | some i => exact .inr (.inl ⟨i, rfl, step_of_starting hi ▸ h⟩)
    | none => exact .inr (.inr ⟨fun e he => henv ⟨e, he⟩, rfl⟩)

/-- An activation puts no byte on a wire (R247 to R249). -/
theorem activation_wire {s t : State} (h : step s = .next t) (turn : IhTurn s .idle) (l : Nat) :
    wireBytes l t.ev = wireBytes l s.ev := by
  have fgTurn {p : Prop} (hn : nextTurn s = some .fg) : p := by cases turn.now.symm.trans hn
  rcases step_cases h with ⟨-, rfl⟩ | ⟨e, hn, -⟩ | ⟨hn, -⟩ | ⟨-, rfl⟩ | ⟨i, hi, -⟩ | ⟨hn, -⟩ |
    ⟨hn, -⟩ | ⟨hn, -⟩ | ⟨-, -, -, c, -, he⟩ | ⟨-, -, hp, -⟩
  · rfl
  · cases turn.now.symm.trans hn
  · exact fgTurn hn
  · rfl
  · exact fgTurn (starting_fetch hi).1
  · exact fgTurn hn
  · exact fgTurn hn
  · exact fgTurn hn
  · obtain ⟨v, -, -, -, ⟨-, rfl⟩ | ⟨-, j, -, -, rfl⟩ | ⟨-, -, rfl⟩⟩ := service_cases he
    · rw [raise_ev]; rfl
    · rfl
    · exact wireBytes_silent rfl
  · exact absurd turn.phase hp

/-- No byte is accepted, obtained, or put on a wire, and those in flight keep their order. -/
structure KeepsStreams (s t : State) : Prop where
  queue : ∀ l d, t.queue l d = s.queue l d
  wire : ∀ l, wireBytes l t.ev = wireBytes l s.ev
  latched : ∀ l, latchedTx t l = latchedTx s l
  nothing : s.fg.phase = .rbGet → t.fg.phase ≠ .rbRestore

theorem KeepsStreams.of_fg {s t : State} (hfg : t.fg = s.fg)
    (queue : ∀ l d, t.queue l d = s.queue l d) (wire : ∀ l, wireBytes l t.ev = wireBytes l s.ev) :
    KeepsStreams s t :=
  ⟨queue, wire, latchedTx_congr hfg, fun hp => by rw [hfg, hp]; nofun⟩

theorem raise_keepsStreams (f : BlockFault) (s : State) : KeepsStreams s (raise f s) :=
  .of_fg (raise_fg f s) (raise_queue f s) fun _ => by rw [raise_ev]

/-- The drain step keeps the latched byte (R201). -/
theorem sendByteDrain_keepsStreams {s : State} (hs : s.DataOk) {j : Nat} (hj : j < s.cfg.nlines)
    (hp : s.fg.phase = .sbDrain) : KeepsStreams s (sendByteDrain j s) := by
  have heq := sendByteDrain_eq j s
  refine ⟨sendByteDrain_queue hs hj, fun l => by rw [heq], fun l => ?_, fun h => ?_⟩
  · have hph : (sendByteDrain j s).fg.phase = .sbDrain ∨ (sendByteDrain j s).fg.phase = .sbPut :=
      (sendByteDrain_phase j s).imp (fun e => e.trans hp) fun e => e.1
    have hline : (sendByteDrain j s).fgLine = s.fgLine := by rw [State.fgLine, heq]; rfl
    have hlb : (sendByteDrain j s).fg.lb = s.fg.lb := by rw [heq]
    simp only [latchedTx, hph, hline, hlb, hp, true_or]
  · cases hp.symm.trans h

/-- A restore step only restores the flag and completes (R203, R207). -/
theorem restoreBlocking_keepsStreams {s : State} (j : Nat) (d : Dir) (val : Word)
    (hp : s.fg.phase = .sbRestore ∨ s.fg.phase = .rbRestore) :
    KeepsStreams s (restoreBlocking j d val s) := by
  refine ⟨setMask_queue j d _ s, fun l => wireBytes_silent rfl, fun l => ?_, fun _ => nofun⟩
  rw [latchedTx_idle rfl]
  rcases hp with hp | hp <;> rw [latchedTx_none hp nofun nofun]

/-- Of the steps that are neither the environment's nor the start of a command, only the put step
and the get step take a byte in or out. -/
theorem step_keepsStreams {s t : State} (hs : s.Wf) (h : step s = .next t)
    (henv : ∀ e, nextTurn s ≠ some (.env e)) (hst : starting s = none) :
    KeepsStreams (afterTurn s) t ∨
    (s.fg.phase = .sbPut ∧ t = sendBytePut s.fgLine (afterTurn s)) ∨
    (s.fg.phase = .rbGet ∧ t = receiveByteGet s.fgLine (afterTurn s)) := by
  have hd := afterTurn_data hs.data
  cases stepKind h with
  | env e turn => exact absurd turn (henv e)
  | starts i _ hi => cases hst.symm.trans hi
  | sendPut _ turn => exact .inr (.inl ⟨turn.phase, rfl⟩)
  | receiveGet _ turn => exact .inr (.inr ⟨turn.phase, rfl⟩)
  | illegal => exact .inl (raise_keepsStreams _ _)
  | noHandler => exact .inl (raise_keepsStreams _ _)
  | sendDrain hl turn => exact .inl (sendByteDrain_keepsStreams hd hl turn.phase)
  | sendRestore _ turn => exact .inl (restoreBlocking_keepsStreams _ _ _ (.inl turn.phase))
  | receiveRestore _ turn => exact .inl (restoreBlocking_keepsStreams _ _ _ (.inr turn.phase))
  | external e turn =>
    have hwire : ∀ l, wireBytes l ((afterTurn s).emit e).ev = wireBytes l (afterTurn s).ev :=
      activation_wire (s := s) h turn
    exact .inl (.of_fg rfl (fun _ d => by cases d <;> rfl) hwire)
  | rxLoop hl =>
    exact .inl (.of_fg (by rw [isrRxLoop_eq]) (isrRxLoop_queue hd hl) fun _ => by rw [isrRxLoop_eq])
  | rxEnd =>
    exact .inl (.of_fg (by rw [isrRxEnd_eq])
      ((isrRxEnd_sameBytes _ _).queue (by rw [isrRxEnd_eq])) (isrRxEnd_wire _ _))
  | txLoop hl =>
    exact .inl (.of_fg (by rw [isrTxLoop_eq]) (isrTxLoop_queue hd hl) fun _ => by rw [isrTxLoop_eq])
  | txEnd =>
    exact .inl (.of_fg (by rw [isrTxEnd_eq])
      ((isrTxEnd_sameBytes _ _).queue (by rw [isrTxEnd_eq])) (isrTxEnd_wire _ _))
  | _ => exact .inl (.of_fg rfl (fun _ d => by cases d <;> rfl) fun _ => rfl)

end Sys2Proof.Machine
end

section
/-! The environment and the started commands on the bytes in flight, and the order of transmission
and reception (R80, R81, R200 to R210, R268, R269, R296, R298). -/

namespace Sys2Proof.Machine

/-! ### The environment -/

theorem extSet_queue (v : Nat) (b : Bool) (s : State) (l : Nat) (d : Dir) :
    (extSet v b s).queue l d = s.queue l d := by
  unfold extSet
  split <;> cases d <;> rfl

theorem extSet_ev (v : Nat) (b : Bool) (s : State) : (extSet v b s).ev = s.ev := by
  unfold extSet
  split <;> rfl

theorem rxArrive_wire (j : Nat) (b : Byte) (s : State) (l : Nat) :
    wireBytes l (rxArrive j b s).ev = wireBytes l s.ev := by
  unfold rxArrive
  split
  · rfl
  · split
    · rfl
    · exact wireBytes_silent rfl

theorem envStep_life (e : EnvStep) (s : State) : (envStep e s).life = s.life := by
  rw [(envStep_eq e s).1]

theorem envStep_fg (e : EnvStep) (s : State) : (envStep e s).fg = s.fg := by
  rw [(envStep_eq e s).1]

/-- A byte that departs is the oldest of its line, and goes to that line's wire (R269). -/
theorem txDepart_queue {s : State} (hs : s.DataOk) (j : Nat) (l : Nat) :
    wireBytes l (txDepart j s).ev ++ (txDepart j s).queue l .tx =
      wireBytes l s.ev ++ s.queue l .tx := by
  unfold txDepart
  split
  · rfl
  · next hj =>
    split
    · next b rest hb =>
      have hline := hs.line_lt (Nat.not_le.1 hj)
      by_cases hl : j = l
      · subst hl
        have hrest : ((dropHwtx j s).line j).hwtx = rest := by
          rw [dropHwtx, line_setLine_same _ _ _ hline, hb, List.tail_cons]
        simp [State.queue, hrest, hb, wireBytes_append, wireBytes_wireTx]
      · have hrest : ((dropHwtx j s).line l).hwtx = (s.line l).hwtx := by
          rw [dropHwtx, line_setLine_of_ne _ _ _ _ hl]
        simp [State.queue, hrest, wireBytes_append, wireBytes_wireTx_of_ne b hl]
    · rfl

/-- An arriving byte joins as the newest of its line, where its FIFO has room (R268). -/
theorem rxArrive_queue {s : State} (hs : s.DataOk) (j : Nat) (b : Byte) (l : Nat) :
    (rxArrive j b s).queue l .rx = s.queue l .rx ++
      if j = l ∧ l < s.cfg.nlines ∧ (s.line l).hwrx.length < s.cfg.depth then [b] else [] := by
  by_cases hl : j = l
  · subst hl
    unfold rxArrive
    split
    · next hj => simp [Nat.not_lt.2 hj]
    · next hj =>
      have hline := hs.line_lt (Nat.not_le.1 hj)
      split
      · next hroom =>
        rw [if_pos ⟨rfl, Nat.not_le.1 hj, hroom⟩, State.queue, pushHwrx_contents, pushHwrx,
          line_setLine_same _ _ _ hline, State.queue, List.append_assoc]
      · next hroom => simp [hroom, State.queue]
  · rw [if_neg fun h => hl h.1, List.append_nil]
    exact (rxArrive_moves j b s).queue_other (envStep_life (.rxArrive j b) s)
      fun h => hl h.1.symm

theorem envStep_tx {s : State} (hs : s.DataOk) (e : EnvStep) (l : Nat) :
    txStream (envStep e s) l = txStream s l := by
  rw [txStream_eq, txStream_eq, latchedTx_congr (envStep_fg e s), ← List.append_assoc,
    ← List.append_assoc]
  congr 1
  cases e with
  | rxArrive j b =>
    have hq : (rxArrive j b s).queue l .tx = s.queue l .tx :=
      (rxArrive_moves j b s).queue_other (envStep_life (.rxArrive j b) s) fun h => nomatch h.2
    exact congrArg₂ (· ++ ·) (rxArrive_wire j b s l) hq
  | txDepart j => exact txDepart_queue hs j l
  | extSet v b =>
    exact congrArg₂ (· ++ ·) (congrArg _ (extSet_ev v b s)) (extSet_queue v b s l .tx)

theorem envStep_rx {s : State} (hs : s.DataOk) {e : EnvStep} (hn : nextTurn s = some (.env e))
    (l : Nat) :
    rxStream (envStep e (afterTurn s)) l = rxStream s l ++ arrivedRx s l := by
  have hd := afterTurn_data hs
  rw [arrivedRx, hn]
  cases e with
  | rxArrive j b => exact rxArrive_queue hd j b l
  | txDepart j =>
    have hq : (txDepart j (afterTurn s)).queue l .rx = (afterTurn s).queue l .rx :=
      (txDepart_moves j _).queue_other (envStep_life (.txDepart j) _) fun h => nomatch h.2
    exact hq.trans (List.append_nil _).symm
  | extSet v b => exact (extSet_queue v b _ l .rx).trans (List.append_nil _).symm

/-! ### The start of a command -/

theorem checked_go {n : Nat} {l : Byte} {bad wanted : Bool} {s : State} {f : Nat → State → State}
    (hl : l.toNat < s.cfg.nlines) (hb : bad = false) (hi : (s.line l.toNat).inited = wanted) :
    checked n l bad wanted s f = f l.toNat s := by
  rw [checked, if_neg (Nat.not_le.2 hl), hb, if_neg nofun, if_neg (not_not.2 hi)]

/-- The state in which a transfer of `q` bytes in direction `d` leaves line `l`: the flag set, the
bytes copied, the flag left as R209 and R210 have it, completion with the count. -/
def transferred (d : Dir) (l : Nat) (q : Nat) (copy : State → State) (s : State) : State :=
  done 3 .ok (BitVec.ofNat 32 q)
    (setMask l d (if 1 ≤ q then false else (s.line l).mask d) (copy (setMask l d true s)))

theorem transfer_goes {d : Dir} {p : Word} {q : Nat} {copy : Nat → Nat → State → State} {l : Nat}
    {s : State} (htop : passesTop p q = false) :
    transfer d p q copy l s = transferred d l q (copy p.toNat q) s := by
  rw [transfer, htop, if_neg nofun]
  rfl

theorem exec_uartSend_goes {s : State} {l : Byte} {p n : Word}
    (hg : transferGoes s l p n (sendCount n (s.ring (rsel l.toNat .tx))) = true) :
    exec (.uartSend l p n) s = .next (transferred .tx l.toNat
      (sendCount n (s.ring (rsel l.toNat .tx)))
      (copyIn (rsel l.toNat .tx) p.toNat (sendCount n (s.ring (rsel l.toNat .tx)))) s) := by
  obtain ⟨hl, hp, hn, hi, htop⟩ := transferGoes_iff.1 hg
  have hbad : (p == 0 || n == 0) = false := by rw [beq_false_of_ne hp, beq_false_of_ne hn]; rfl
  exact congrArg Host.Outcome.next ((checked_go hl hbad hi).trans (transfer_goes htop))

theorem exec_uartReceive_goes {s : State} {l : Byte} {p n : Word}
    (hg : transferGoes s l p n (receiveCount n (s.ring (rsel l.toNat .rx))) = true) :
    exec (.uartReceive l p n) s = .next (transferred .rx l.toNat
      (receiveCount n (s.ring (rsel l.toNat .rx)))
      (copyOut (rsel l.toNat .rx) p.toNat (receiveCount n (s.ring (rsel l.toNat .rx)))) s) := by
  obtain ⟨hl, hp, hn, hi, htop⟩ := transferGoes_iff.1 hg
  have hbad : (p == 0 || n == 0) = false := by rw [beq_false_of_ne hp, beq_false_of_ne hn]; rfl
  exact congrArg Host.Outcome.next ((checked_go hl hbad hi).trans (transfer_goes htop))

theorem exec_uartSendByte_enters {s : State} {l b : Byte} (hp : s.fg.phase = .idle)
    (hl : l.toNat < s.cfg.nlines) (hi : (s.line l.toNat).inited = true) :
    exec (.uartSendByte l b) s = .next
      { setMask l.toNat .tx true s with
        fg :=
          { pc := s.fg.pc, phase := .sbDrain, sv := (s.line l.toNat).mtx, lb := b, ll := l } } := by
  simp only [exec, execUartSendByte, hp, enterBlocking, if_neg (Nat.not_le.2 hl), hi]
  rfl

/-- `UART_SEND` puts its bytes behind those in flight (R209). -/
theorem sent_queue {s : State} (hs : s.DataOk) {l : Nat} (hl : l < s.cfg.nlines) (p q : Nat)
    (hq : (s.ring (rsel l .tx)).cnt.toNat + q ≤ (s.ring (rsel l .tx)).cap.toNat) :
    (transferred .tx l q (copyIn (rsel l .tx) p q) s).queue l .tx =
      s.queue l .tx ++ memBytes s.mem p q := by
  obtain ⟨r, e, -, hc, -⟩ := copyIn_spec (hs.setMask .tx true hl (.inr rfl)) (rsel_lt .tx hl) q p hq
  unfold transferred
  rw [e]
  calc _ = ((setMask l .tx true s).setRing (rsel l .tx) r).queue l .tx := setMask_queue _ _ _ _ _ _
    _ = ((setMask l .tx true s).line l).hwtx ++ (s.contents (rsel l .tx) ++ memBytes s.mem p q) :=
      congrArg _ ((contents_setRing_same _ _ _ (hs.ring_lt hl .tx)).trans hc)
    _ = (setMask l .tx true s).queue l .tx ++ memBytes s.mem p q := (List.append_assoc _ _ _).symm
    _ = _ := by rw [setMask_queue]

/-- `UART_RECEIVE` takes the oldest bytes of the ring (R210). -/
theorem received_queue {s : State} (hs : s.DataOk) {l : Nat} (hl : l < s.cfg.nlines) (p q : Nat)
    (hq : q ≤ (s.ring (rsel l .rx)).cnt.toNat) (hp : q = 0 ∨ p + q ≤ 2 ^ 32) :
    memBytes (transferred .rx l q (copyOut (rsel l .rx) p q) s).mem p q ++
      (transferred .rx l q (copyOut (rsel l .rx) p q) s).queue l .rx = s.queue l .rx := by
  obtain ⟨r, m, e, -, -, hc, hm, -⟩ :=
    copyOut_spec (hs.setMask .rx true hl (.inr rfl)) (rsel_lt .rx hl) q p hq hp
  have hcon : ((setMask l .rx true s).setRing (rsel l .rx) r).contents (rsel l .rx) =
      (s.contents (rsel l .rx)).drop q :=
    (contents_setRing_same _ _ _ (hs.ring_lt hl .rx)).trans hc
  unfold transferred
  rw [e]
  calc memBytes m p q ++ _
      = memBytes m p q ++ ((setMask l .rx true s).setRing (rsel l .rx) r).queue l .rx :=
        congrArg _ (setMask_queue l .rx _
          { (setMask l .rx true s).setRing (rsel l .rx) r with mem := m } l .rx)
    _ = (s.contents (rsel l .rx)).take q ++
          ((s.contents (rsel l .rx)).drop q ++ ((setMask l .rx true s).line l).hwrx) :=
        congrArg₂ (· ++ ·) hm (congrArg (· ++ _) hcon)
    _ = (setMask l .rx true s).queue l .rx := by
        rw [← List.append_assoc, List.take_append_drop]; rfl
    _ = s.queue l .rx := setMask_queue _ _ _ _ _ _

/-- The command is a `UART_SEND` (`UART_RECEIVE`) that moves bytes of line `l` in direction `d`: its
checks pass (R209, R210). -/
def Transfers (s : State) (l : Nat) : Dir → Instr → Prop
  | .tx, .uartSend j p n =>
    j.toNat = l ∧ transferGoes s j p n (sendCount n (s.ring (rsel j.toNat .tx))) = true
  | .rx, .uartReceive j p n =>
    j.toNat = l ∧ transferGoes s j p n (receiveCount n (s.ring (rsel j.toNat .rx))) = true
  | _, _ => False

/-- `UART_INIT` binds both rings of its line anew (R195). -/
theorem initUart_ring {s : State} (hs : s.DataOk) (div : Word) {l : Nat} (hl : l < s.cfg.nlines)
    (d : Dir) : ∃ c r, (initUart div l s).ring (rsel l d) = ringInit c r := by
  cases d with
  | rx =>
    have hne : rsel l .tx ≠ rsel l .rx := fun e => nomatch (rsel_inj.1 e).2
    exact ⟨_, _, (ring_setRing_of_ne (rbInit (rsel l .rx) _ s) _ _ _ hne).trans
      (ring_setRing_same s _ _ (hs.ring_lt hl .rx))⟩
  | tx =>
    refine ⟨_, _, ring_setRing_same (rbInit (rsel l .rx) _ s) _ _ ?_⟩
    rw [rbInit_rb, List.length_set]
    exact hs.ring_lt hl .tx

/-- `UART_INIT` loses no byte of a line whose ring is empty: the hardware FIFOs keep theirs (R195,
R198). -/
theorem initUart_queue {s : State} (hs : s.DataOk) (div : Word) {j l : Nat} {d : Dir}
    (hj : j < s.cfg.nlines) (h : j = l → ringEmpty (s.ring (rsel l d)) = true) :
    (initUart div j s).queue l d = s.queue l d := by
  by_cases hl : j = l
  · subst hl
    obtain ⟨c, r, e⟩ := initUart_ring hs div hj d
    refine queue_congr ?_ ?_
    · rw [State.contents, e, ringContents_init]
      exact (ringContents_of_empty _ _ (h rfl)).symm
    · rw [initUart_line, line_setLine_same _ _ _ (hs.line_lt hj)]
      cases d <;> rfl
  · exact (initUart_untouched div s hl).queue rfl d

theorem reachesRing_of_disciplined {s : State} {l : Nat} {d : Dir} {i : Instr}
    (hd : disciplined s l d = true) (hi : starting s = some i) :
    reachesRing (afterTurn s) l d i = false := by
  rw [disciplined, hi] at hd
  exact Bool.not_eq_true' _ ▸ hd

/-- A started command leaves the bytes of a line and direction alone, unless it transfers them or
reaches the ring outside the discipline of R296. -/
theorem effect_queue {s t : State} {i : Instr} {l : Nat} {d : Dir} (hs : s.DataOk)
    (hr : reachesRing s l d i = false) (ht : ¬Transfers s l d i) (h : Effect s i t) :
    t.queue l d = s.queue l d := by
  have other {k : Byte} (hk : (k.toNat == rsel l d) = false) : k.toNat ≠ rsel l d := by
    simpa using hk
  cases h with
  | faults => exact raise_queue _ _ _ _
  | rbInit => exact (done_queue _ _ _ _ _ _).trans (setRing_queue _ (other hr))
  | rbWriteRoom => exact (done_queue _ _ _ _ _ _).trans (setRing_queue _ (other hr))
  | rbReadByte => exact (done_queue _ _ _ _ _ _).trans (setRing_queue _ (other hr))
  | uartInit j _ _ div hj hi =>
    refine (done_queue _ _ _ _ _ _).trans (initUart_queue hs div hj fun e => ?_)
    subst e
    simpa [reachesRing, hi] using hr
  | sendByteEnters j => exact setMask_queue j.toNat .tx true s l d
  | receiveByteEnters j => exact setMask_queue j.toNat .rx true s l d
  | send j p n q hq hg =>
    have hne : rsel j.toNat .tx ≠ rsel l d := fun e => by
      obtain ⟨hj, rfl⟩ := rsel_inj.1 e
      exact ht ⟨hj, hq ▸ hg⟩
    obtain ⟨r, e⟩ := copyIn_same (rsel j.toNat .tx) q p.toNat (setMask j.toNat .tx true s)
    rw [e, done_queue, setMask_queue, setRing_queue r hne, setMask_queue]
  | receive j p n q hq hg =>
    have hne : rsel j.toNat .rx ≠ rsel l d := fun e => by
      obtain ⟨hj, rfl⟩ := rsel_inj.1 e
      exact ht ⟨hj, hq ▸ hg⟩
    obtain ⟨r, m, e, -⟩ := copyOut_same (rsel j.toNat .rx) q p.toNat (setMask j.toNat .rx true s)
    rw [e, done_queue, setMask_queue]
    calc _ = ((setMask j.toNat .rx true s).setRing (rsel j.toNat .rx) r).queue l d :=
          queue_congr rfl rfl
      _ = s.queue l d := by rw [setRing_queue r hne, setMask_queue]
  | setRxCallback => rw [done_queue]; exact setLine_queue (fun e => by cases e <;> rfl) l d
  | setTxCallback => rw [done_queue]; exact setLine_queue (fun e => by cases e <;> rfl) l d
  | _ => exact queue_congr rfl rfl

end Sys2Proof.Machine
end

section
/-! The order of transmission and of reception (R80, R81, R204, R296, R298). -/

namespace Sys2Proof.Machine

/-! ### Transmission -/

/-- Starting a command puts no byte on a wire. -/
theorem effect_wire {s t : State} {i : Instr} (h : Effect s i t) (l : Nat) :
    wireBytes l t.ev = wireBytes l s.ev := by
  cases h with
  | faults => rw [raise_ev]
  | sendByteEnters => rfl
  | receiveByteEnters => rfl
  | uartInit => exact (wireBytes_silent rfl).trans (wireBytes_silent rfl)
  | send j p n q =>
    obtain ⟨r, e⟩ := copyIn_same (rsel j.toNat .tx) q p.toNat (setMask j.toNat .tx true s)
    rw [e]
    exact wireBytes_silent rfl
  | receive j p n q =>
    obtain ⟨r, m, e, -⟩ := copyOut_same (rsel j.toNat .rx) q p.toNat (setMask j.toNat .rx true s)
    rw [e]
    exact wireBytes_silent rfl
  | _ => exact wireBytes_silent rfl

/-- The command latches a byte for line `l`: a `UART_SEND_BYTE` whose checks pass (R200). -/
def Latches (s : State) (l : Nat) (i : Instr) : Prop :=
  ∃ j b, i = .uartSendByte j b ∧ j.toNat = l ∧ l < s.cfg.nlines ∧ (s.line l).inited = true

/-- A started command that latches no byte leaves none waiting. -/
theorem effect_latched {s t : State} {i : Instr} {l : Nat} (hp : s.fg.phase = .idle)
    (hb : ¬Latches s l i) (h : Effect s i t) : latchedTx t l = [] := by
  rcases effect_enters hp h with hidle | ⟨j, b, rfl, hj, hi, rfl⟩ | ⟨j, -, -, -, rfl⟩
  · exact latchedTx_idle hidle l
  · refine if_neg fun hc => hb ?_
    obtain rfl : j.toNat = l := hc.2
    exact ⟨j, b, rfl, rfl, hj, hi⟩
  · exact latchedTx_none (p := .rbGet) rfl nofun nofun l

/-- What a starting command accepts: the bytes of a `UART_SEND`, the byte of a `UART_SEND_BYTE`, or
nothing. -/
theorem acceptedTx_cases {s : State} {i : Instr} (hi : starting s = some i) (l : Nat) :
    (∃ j p n, i = .uartSend j p n ∧ j.toNat = l ∧
      transferGoes s j p n (sendCount n (s.ring (rsel j.toNat .tx))) = true ∧
      acceptedTx s l = memBytes s.mem p.toNat (sendCount n (s.ring (rsel j.toNat .tx)))) ∨
    (∃ j b, i = .uartSendByte j b ∧ j.toNat = l ∧ l < s.cfg.nlines ∧
      (s.line l).inited = true ∧ acceptedTx s l = [b]) ∨
    (¬Transfers s l .tx i ∧ ¬Latches s l i ∧ acceptedTx s l = []) := by
  rw [acceptedTx, hi]
  cases i with
  | uartSend j p n =>
    by_cases hg : j.toNat = l ∧
        transferGoes s j p n (sendCount n (s.ring (rsel j.toNat .tx))) = true
    · exact .inl ⟨j, p, n, rfl, hg.1, hg.2, if_pos hg⟩
    · exact .inr (.inr ⟨hg, nofun, if_neg hg⟩)
  | uartSendByte j b =>
    by_cases hg : j.toNat = l ∧ l < s.cfg.nlines ∧ (s.line l).inited = true
    · exact .inr (.inl ⟨j, b, rfl, hg.1, hg.2.1, hg.2.2, if_pos hg⟩)
    · refine .inr (.inr ⟨nofun, ?_, if_neg hg⟩)
      rintro ⟨_, _, e, hok⟩
      cases e
      exact hg hok
  | _ => exact .inr (.inr ⟨nofun, nofun, rfl⟩)

/-- A started command appends what it accepts. -/
theorem starts_tx {s t : State} {i : Instr} {l : Nat} (hs : s.Wf) (hl : l < s.cfg.nlines)
    (hd : disciplined s l .tx = true) (hi : starting s = some i)
    (he : exec i (afterTurn s) = .next t) : txStream t l = txStream s l ++ acceptedTx s l := by
  obtain ⟨-, -, hp, -⟩ := starting_fetch hi
  have hdata := afterTurn_data hs.data
  have effect := effect_of_starting hi he
  have hwire : wireBytes l t.ev = wireBytes l s.ev := effect_wire effect l
  have hr := reachesRing_of_disciplined hd hi
  rw [txStream_eq, txStream_eq, hwire, latchedTx_idle (s := s) hp, List.append_nil]
  rcases acceptedTx_cases hi l with ⟨j, p, n, rfl, rfl, hg, ha⟩ | ⟨j, b, rfl, rfl, -, hin, ha⟩ |
    ⟨hno, hlatch, ha⟩
  · obtain rfl := Host.Outcome.next.inj ((exec_uartSend_goes (s := afterTurn s) hg).symm.trans he)
    have hq := sent_queue hdata hl p.toNat _
      (sendCount_fits (hs.data.ringOk (rsel_lt .tx hl)) n)
    rw [latchedTx_idle rfl, List.append_nil, ha, List.append_assoc]
    exact congrArg _ hq
  · obtain rfl :=
      Host.Outcome.next.inj ((exec_uartSendByte_enters (s := afterTurn s) hp hl hin).symm.trans he)
    rw [ha, List.append_assoc]
    refine congrArg _ (congrArg₂ (· ++ ·) ?_ (if_pos ⟨.inl rfl, rfl⟩))
    exact setMask_queue j.toNat .tx true (afterTurn s) j.toNat .tx
  · have hq : t.queue l .tx = s.queue l .tx := effect_queue (s := afterTurn s) hdata hr hno effect
    rw [hq, effect_latched (s := afterTurn s) hp hlatch effect, ha]
    simp

/-- The put step hands the latched byte to the FIFO behind an empty ring (R202, R203). -/
theorem sendBytePut_tx {s : State} (hs : s.Wf) (hp : s.fg.phase = .sbPut) (l : Nat) :
    txStream (sendBytePut s.fgLine s) l = txStream s l := by
  obtain ⟨-, hl, -, -, hempty⟩ := hs.sending (by rw [hp]; rfl)
  unfold sendBytePut
  split
  · by_cases h : s.fgLine = l
    · subst h
      have hc : s.contents (rsel s.fgLine .tx) = [] :=
        ringContents_of_empty _ _ (hempty (by rw [hp]; nofun))
      have hq : ((pushHwtx s.fgLine s.fg.lb s).setPhase .sbRestore).queue s.fgLine .tx =
          s.queue s.fgLine .tx ++ [s.fg.lb] := by
        show ((pushHwtx s.fgLine s.fg.lb s).line s.fgLine).hwtx ++ s.contents _ =
          (s.line s.fgLine).hwtx ++ s.contents _ ++ [s.fg.lb]
        rw [pushHwtx, line_setLine_same _ _ _ (hs.data.line_lt hl), hc, List.append_nil,
          List.append_nil]
      have hlatch : latchedTx s s.fgLine = [s.fg.lb] := if_pos ⟨.inr hp, rfl⟩
      rw [txStream_eq, txStream_eq, hq, hlatch,
        latchedTx_none (p := .sbRestore) rfl nofun nofun, List.append_nil]
      rfl
    · have hq : ((pushHwtx s.fgLine s.fg.lb s).setPhase .sbRestore).queue l .tx =
          s.queue l .tx := (setLine_untouched s _ h).queue rfl .tx
      have hlatch : latchedTx s l = [] := if_neg fun hc => h hc.2
      rw [txStream_eq, txStream_eq, hq, hlatch, latchedTx_none (p := .sbRestore) rfl nofun nofun]
      rfl
  · rfl

/-- The get step does not transmit (R206). -/
theorem receiveByteGet_tx {s : State} (hp : s.fg.phase = .rbGet) (l : Nat) :
    txStream (receiveByteGet s.fgLine s) l = txStream s l := by
  have heq := receiveByteGet_eq s.fgLine s
  have hq := (receiveByteGet_moves s.fgLine s).queue_other (by rw [heq]) (l := l) (d := .tx)
    fun h => nomatch h.2
  have hph : (receiveByteGet s.fgLine s).fg.phase = .rbGet ∨
      (receiveByteGet s.fgLine s).fg.phase = .rbRestore :=
    (receiveByteGet_phase s.fgLine s).imp_left fun e => e.trans hp
  have hnone : latchedTx (receiveByteGet s.fgLine s) l = [] := by
    rcases hph with e | e <;> exact latchedTx_none e nofun nofun l
  have hev : (receiveByteGet s.fgLine s).ev = s.ev := by rw [heq]
  rw [txStream_eq, txStream_eq, hq, hnone, hev, latchedTx_none hp nofun nofun]

theorem KeepsStreams.tx {s t : State} (h : KeepsStreams s t) (l : Nat) :
    txStream t l = txStream s l := by
  rw [txStream_eq, txStream_eq, h.wire, h.queue, h.latched]

theorem acceptedTx_none {s : State} (h : starting s = none) (l : Nat) : acceptedTx s l = [] := by
  rw [acceptedTx, h]

theorem starting_none_of_env {s : State} {e : EnvStep} (h : nextTurn s = some (.env e)) :
    starting s = none := by
  simp [starting, h]

/-- Settles O53: the environment takes the oldest byte to the wire, a started command appends what
it accepts, the put step empties the latch behind an empty ring, and no other step changes the
stream. -/
theorem transmitOrderKept : Obligations.TransmitOrderKept := by
  intro s t l hs hd h hl
  have hw : (afterTurn s).Wf := step_wf hs .passes
  rcases step_split h with ⟨e, hn, rfl⟩ | ⟨i, hi, he⟩ | ⟨henv, hst⟩
  · rw [acceptedTx_none (starting_none_of_env hn), List.append_nil]
    exact envStep_tx hw.data e l
  · exact starts_tx hs hl hd hi he
  · rw [acceptedTx_none hst, List.append_nil]
    rcases step_keepsStreams hs h henv hst with hk | ⟨hp, rfl⟩ | ⟨hp, rfl⟩
    · exact hk.tx l
    · exact sendBytePut_tx hw hp l
    · exact receiveByteGet_tx (s := afterTurn s) hp l

/-! ### Reception -/

theorem arrivedRx_none {s : State} (h : ∀ e, nextTurn s ≠ some (.env e)) (l : Nat) :
    arrivedRx s l = [] := by
  unfold arrivedRx
  split
  · next j b hn => exact absurd hn (h _)
  · rfl

/-- Where no command starts, only the get step obtains a byte (R206). -/
theorem obtainedRx_none {s t : State} {l : Nat} (hst : starting s = none)
    (h : s.fg.phase = .rbGet → s.fgLine = l → t.fg.phase ≠ .rbRestore) :
    obtainedRx s t l = [] := by
  rw [obtainedRx, if_neg fun hc => h hc.1 hc.2.2 hc.2.1, hst]

/-- What a starting command obtains: the bytes of a `UART_RECEIVE`, or nothing. -/
theorem obtainedRx_cases {s : State} {i : Instr} (hi : starting s = some i) (l : Nat) :
    (∃ j p n, i = .uartReceive j p n ∧ j.toNat = l ∧
      transferGoes s j p n (receiveCount n (s.ring (rsel j.toNat .rx))) = true ∧
      ∀ t, obtainedRx s t l =
        memBytes t.mem p.toNat (receiveCount n (s.ring (rsel j.toNat .rx)))) ∨
    (¬Transfers s l .rx i ∧ ∀ t, obtainedRx s t l = []) := by
  obtain ⟨-, -, hp, -⟩ := starting_fetch hi
  have hfirst (t : State) : ¬(s.fg.phase = .rbGet ∧ t.fg.phase = .rbRestore ∧ s.fgLine = l) :=
    fun hc => nomatch hp.symm.trans hc.1
  simp only [obtainedRx, if_neg (hfirst _), hi]
  cases i with
  | uartReceive j p n =>
    by_cases hg : j.toNat = l ∧
        transferGoes s j p n (receiveCount n (s.ring (rsel j.toNat .rx))) = true
    · exact .inl ⟨j, p, n, rfl, hg.1, hg.2, fun _ => if_pos hg⟩
    · exact .inr ⟨hg, fun _ => if_neg hg⟩
  | _ => exact .inr ⟨nofun, fun _ => rfl⟩

/-- A started command obtains the oldest bytes. -/
theorem starts_rx {s t : State} {i : Instr} {l : Nat} (hs : s.Wf) (hl : l < s.cfg.nlines)
    (hd : disciplined s l .rx = true) (hi : starting s = some i)
    (he : exec i (afterTurn s) = .next t) : obtainedRx s t l ++ rxStream t l = rxStream s l := by
  have hdata := afterTurn_data hs.data
  have hr := reachesRing_of_disciplined hd hi
  rw [rxStream_eq, rxStream_eq]
  rcases obtainedRx_cases hi l with ⟨j, p, n, rfl, rfl, hg, ho⟩ | ⟨hno, ho⟩
  · obtain rfl := Host.Outcome.next.inj
      ((exec_uartReceive_goes (s := afterTurn s) hg).symm.trans he)
    obtain ⟨-, -, -, -, htop⟩ := transferGoes_iff.1 hg
    rw [ho]
    exact received_queue hdata hl p.toNat _ (Nat.min_le_right _ _) (passesTop_false htop)
  · rw [ho, List.nil_append]
    exact effect_queue (s := afterTurn s) hdata hr hno (effect_of_starting hi he)

/-- The get step on its line obtains the oldest byte, of the ring or else of the FIFO, or holds
(R206). -/
theorem receiveByteGet_cases {s : State} (hs : s.DataOk) {l : Nat} (hl : l < s.cfg.nlines) :
    receiveByteGet l s = s ∨
    ((receiveByteGet l s).fg.phase = .rbRestore ∧
      (receiveByteGet l s).fg.lb :: (receiveByteGet l s).queue l .rx = s.queue l .rx) := by
  unfold receiveByteGet
  cases he : ringEmpty (s.ring (rsel l .rx)) with
  | false =>
    obtain ⟨b, r, e, -, hc, -⟩ := rbRead_bytes hs (rsel_lt .rx hl) he
    rw [e]
    refine .inr ⟨rfl, ?_⟩
    show b :: ((s.setRing (rsel l .rx) r).contents (rsel l .rx) ++ (s.line l).hwrx) =
      s.contents (rsel l .rx) ++ (s.line l).hwrx
    rw [contents_setRing_same _ _ _ (hs.ring_lt hl .rx), hc, List.cons_append]
  | true =>
    have hnil : s.contents (rsel l .rx) = [] := ringContents_of_empty _ _ he
    rw [rbRead_empty he]
    cases hb : (s.line l).hwrx with
    | nil => exact .inl rfl
    | cons b rest =>
      refine .inr ⟨rfl, ?_⟩
      show b :: (s.contents (rsel l .rx) ++ ((dropHwrx l s).line l).hwrx) =
        s.contents (rsel l .rx) ++ (s.line l).hwrx
      rw [dropHwrx, line_setLine_same _ _ _ (hs.line_lt hl), hnil, hb]
      rfl

theorem receiveByteGet_rx {s : State} (hs : s.Wf) (hp : s.fg.phase = .rbGet)
    (hst : starting s = none) (l : Nat) :
    obtainedRx s (receiveByteGet s.fgLine (afterTurn s)) l ++
      rxStream (receiveByteGet s.fgLine (afterTurn s)) l = rxStream s l := by
  obtain ⟨-, hline, -⟩ := hs.receiving (by rw [hp]; rfl)
  have hd := afterTurn_data hs.data
  by_cases h : s.fgLine = l
  · subst h
    rcases receiveByteGet_cases hd hline with e | ⟨hph, hq⟩
    · have hphase : (afterTurn s).fg.phase ≠ .rbRestore := hp.trans_ne nofun
      rw [e, obtainedRx_none hst fun _ _ => hphase]
      rfl
    · rw [obtainedRx, if_pos ⟨hp, hph, rfl⟩]
      exact hq
  · rw [obtainedRx_none hst fun _ hl => absurd hl h]
    have heq := receiveByteGet_eq s.fgLine (afterTurn s)
    exact (receiveByteGet_moves s.fgLine (afterTurn s)).queue_other (d := .rx) (by rw [heq])
      fun hc => h hc.1.symm

/-- Settles O54: an arriving byte is appended, a started `UART_RECEIVE` and the get step take the
oldest bytes, and no other step changes the stream. -/
theorem receiveOrderKept : Obligations.ReceiveOrderKept := by
  intro s t l hs hd h hl
  rcases step_split h with ⟨e, hn, rfl⟩ | ⟨i, hi, he⟩ | ⟨henv, hst⟩
  · have hfg : (envStep e (afterTurn s)).fg = s.fg := envStep_fg e _
    rw [obtainedRx_none (starting_none_of_env hn) fun hp _ => by rw [hfg, hp]; nofun]
    exact envStep_rx hs.data hn l
  · have hturn := (starting_fetch hi).1
    rw [arrivedRx_none (fun e he => nomatch hturn.symm.trans he), List.append_nil]
    exact starts_rx hs hl hd hi he
  · rw [arrivedRx_none henv, List.append_nil]
    rcases step_keepsStreams hs h henv hst with hk | ⟨hp, rfl⟩ | ⟨hp, rfl⟩
    · rw [obtainedRx_none hst fun hp _ => hk.nothing hp]
      exact hk.queue l .rx
    · rw [obtainedRx_none hst fun hget _ => nomatch hp.symm.trans hget]
      have heq := sendBytePut_eq s.fgLine (afterTurn s)
      exact (sendBytePut_moves s.fgLine (afterTurn s)).queue_other (l := l) (d := .rx)
        (by rw [heq]) fun hc => nomatch hc.2
    · exact receiveByteGet_rx hs hp hst l

end Sys2Proof.Machine
end

section
/-! What decodes stands encoded at the head of the stream (R101 to R104). -/

namespace Sys2Proof

/-! ### What each format accepts is encoded by the word it read (R102) -/

/-- A word is given by its fields: the opcode that selected the row, the operands, and zeros. -/
theorem commandWord_eq {cw : Word} {o : Nat} {s a b : Byte} (ho : (opcOf cw).toNat = o)
    (hs : selOf cw = s) (ha : argOf cw = a) (hb : immOf cw = b) :
    commandWord (BitVec.ofNat 8 o) s a b = cw := by
  rw [← ho, BitVec.ofNat_toNat, BitVec.setWidth_eq, ← hs, ← ha, ← hb, commandWord_fields]

theorem formatN_encodes {cw : Word} {ops : List Word} {o : Nat} {i j : Instr}
    (ho : (opcOf cw).toNat = o)
    (hj : j.wf = true ∧ encode j = [commandWord (BitVec.ofNat 8 o) 0 0 0])
    (h : formatN cw j = .ok i) : i.wf = true ∧ encode i <+: cw :: ops := by
  obtain ⟨hz, e⟩ := whenMbz_ok h
  cases e
  simp only [Bool.and_eq_true, beq_iff_eq] at hz
  obtain ⟨⟨hs, ha⟩, hb⟩ := hz
  rw [hj.2, commandWord_eq ho hs ha hb]
  exact ⟨hj.1, ops, rfl⟩

theorem formatNB_encodes {cw : Word} {ops : List Word} {o : Nat} {x : Bool} {f : Byte → Instr}
    {i : Instr} (ho : (opcOf cw).toNat = o) (hx : x = true → (f (immOf cw)).wf = true)
    (hf : ∀ b, encode (f b) = [commandWord (BitVec.ofNat 8 o) 0 0 b])
    (h : formatNB cw x f = .ok i) : i.wf = true ∧ encode i <+: cw :: ops := by
  obtain ⟨hz, e⟩ := whenMbz_ok h
  cases e
  simp only [Bool.and_eq_true, beq_iff_eq] at hz
  obtain ⟨⟨hs, ha⟩, hxt⟩ := hz
  rw [hf, commandWord_eq ho hs ha rfl]
  exact ⟨hx hxt, ops, rfl⟩

theorem formatS_encodes {cw : Word} {ops : List Word} {o : Nat} {f : Byte → Instr} {i : Instr}
    (ho : (opcOf cw).toNat = o)
    (hf : ∀ k, (f k).wf = true ∧ encode (f k) = [commandWord (BitVec.ofNat 8 o) k 0 0])
    (h : formatS cw f = .ok i) : i.wf = true ∧ encode i <+: cw :: ops := by
  obtain ⟨hz, e⟩ := whenMbz_ok h
  cases e
  simp only [Bool.and_eq_true, beq_iff_eq] at hz
  obtain ⟨ha, hb⟩ := hz
  rw [(hf _).2, commandWord_eq ho rfl ha hb]
  exact ⟨(hf _).1, ops, rfl⟩

theorem formatSB_encodes {cw : Word} {ops : List Word} {o : Nat} {f : Byte → Byte → Instr}
    {i : Instr} (ho : (opcOf cw).toNat = o)
    (hf : ∀ k b, (f k b).wf = true ∧ encode (f k b) = [commandWord (BitVec.ofNat 8 o) k 0 b])
    (h : formatSB cw f = .ok i) : i.wf = true ∧ encode i <+: cw :: ops := by
  obtain ⟨hz, e⟩ := whenMbz_ok h
  cases e
  rw [(hf _ _).2, commandWord_eq ho rfl (beq_iff_eq.1 hz) rfl]
  exact ⟨(hf _ _).1, ops, rfl⟩

theorem formatSH_encodes {cw : Word} {ops : List Word} {o : Nat} {f : Byte → Half → Instr}
    {i : Instr} (ho : (opcOf cw).toNat = o)
    (hf : ∀ k c, (f k c).wf = true ∧ encode (f k c) = [capacityWord (BitVec.ofNat 8 o) k c])
    (h : formatSH cw f = .ok i) : i.wf = true ∧ encode i <+: cw :: ops := by
  cases h
  rw [(hf _ _).2, ← ho, BitVec.ofNat_toNat, BitVec.setWidth_eq, capacityWord_fields]
  exact ⟨(hf _ _).1, ops, rfl⟩

theorem formatSA_encodes {cw : Word} {ops : List Word} {o : Nat} {x : Bool}
    {f : Byte → Byte → Instr} {i : Instr} (ho : (opcOf cw).toNat = o)
    (hx : x = true → (f (selOf cw) (argOf cw)).wf = true)
    (hf : ∀ k a, encode (f k a) = [commandWord (BitVec.ofNat 8 o) k a 0])
    (h : formatSA cw x f = .ok i) : i.wf = true ∧ encode i <+: cw :: ops := by
  obtain ⟨hz, e⟩ := whenMbz_ok h
  cases e
  simp only [Bool.and_eq_true, beq_iff_eq] at hz
  obtain ⟨hb, hxt⟩ := hz
  rw [hf, commandWord_eq ho rfl rfl hb]
  exact ⟨hx hxt, ops, rfl⟩

theorem formatSW1_encodes {cw : Word} {ops : List Word} {o : Nat} {f : Byte → Word → Instr}
    {i : Instr} (ho : (opcOf cw).toNat = o)
    (hf : ∀ k w, (f k w).wf = true ∧ encode (f k w) = [commandWord (BitVec.ofNat 8 o) k 0 0, w])
    (h : formatSW1 cw ops f = .ok i) : i.wf = true ∧ encode i <+: cw :: ops := by
  obtain ⟨hz, e⟩ := whenMbz_ok h
  simp only [Bool.and_eq_true, beq_iff_eq] at hz
  obtain ⟨ha, hb⟩ := hz
  match ops, e with
  | w :: rest, rfl =>
    rw [(hf _ _).2, commandWord_eq ho rfl ha hb]
    exact ⟨(hf _ _).1, rest, rfl⟩

theorem formatSW2_encodes {cw : Word} {ops : List Word} {o : Nat}
    {f : Byte → Word → Word → Instr} {i : Instr} (ho : (opcOf cw).toNat = o)
    (hf : ∀ k w x, (f k w x).wf = true ∧
      encode (f k w x) = [commandWord (BitVec.ofNat 8 o) k 0 0, w, x])
    (h : formatSW2 cw ops f = .ok i) : i.wf = true ∧ encode i <+: cw :: ops := by
  obtain ⟨hz, e⟩ := whenMbz_ok h
  simp only [Bool.and_eq_true, beq_iff_eq] at hz
  obtain ⟨ha, hb⟩ := hz
  match ops, e with
  | w :: x :: rest, rfl =>
    rw [(hf _ _ _).2, commandWord_eq ho rfl ha hb]
    exact ⟨(hf _ _ _).1, rest, rfl⟩

/-- One arm for each row of the opcode map: its format takes the operands from where `encode` puts
them, and what the row marks must-be-zero in them is what `Instr.wf` asks. -/
theorem encode_decode {ws : List Word} {i : Instr} (h : decode ws = .ok i) :
    i.wf = true ∧ encode i <+: ws := by
  cases ws with
  | nil => cases h
  | cons cw ops =>
    unfold decode at h
    dsimp only at h
    split at h
    next ho => exact formatSH_encodes ho (fun _ _ => ⟨rfl, rfl⟩) h
    next ho => exact formatSB_encodes ho (fun _ _ => ⟨rfl, rfl⟩) h
    next ho => exact formatS_encodes ho (fun _ => ⟨rfl, rfl⟩) h
    next ho => exact formatS_encodes ho (fun _ => ⟨rfl, rfl⟩) h
    next ho => exact formatS_encodes ho (fun _ => ⟨rfl, rfl⟩) h
    next ho => exact formatN_encodes ho ⟨rfl, rfl⟩ h
    next ho => exact formatSW1_encodes ho (fun _ _ => ⟨rfl, rfl⟩) h
    next ho => exact formatS_encodes ho (fun _ => ⟨rfl, rfl⟩) h
    next ho => exact formatS_encodes ho (fun _ => ⟨rfl, rfl⟩) h
    next ho => exact formatSA_encodes (f := .itcSetPriority) ho id (fun _ _ => rfl) h
    next ho => exact formatN_encodes ho ⟨rfl, rfl⟩ h
    next ho => exact formatNB_encodes (f := .itcRestoreAll) ho id (fun _ => rfl) h
    next ho => exact formatS_encodes ho (fun _ => ⟨rfl, rfl⟩) h
    next ho => exact formatS_encodes ho (fun _ => ⟨rfl, rfl⟩) h
    next ho => exact formatN_encodes ho ⟨rfl, rfl⟩ h
    next ho => exact formatN_encodes ho ⟨rfl, rfl⟩ h
    next ho => exact formatSW2_encodes ho (fun _ _ _ => ⟨rfl, rfl⟩) h
    next ho => exact formatSB_encodes ho (fun _ _ => ⟨rfl, rfl⟩) h
    next ho => exact formatS_encodes ho (fun _ => ⟨rfl, rfl⟩) h
    next ho => exact formatSW2_encodes ho (fun _ _ _ => ⟨rfl, rfl⟩) h
    next ho => exact formatSW2_encodes ho (fun _ _ _ => ⟨rfl, rfl⟩) h
    next ho => exact formatSW1_encodes ho (fun _ _ => ⟨rfl, rfl⟩) h
    next ho => exact formatSW1_encodes ho (fun _ _ => ⟨rfl, rfl⟩) h
    next ho => exact formatS_encodes ho (fun _ => ⟨rfl, rfl⟩) h
    next ho => exact formatSA_encodes ho (fun _ => rfl) (fun _ _ => rfl) h
    next => cases h

/-- Settles O2: `encode_decode`, an arm for each row of the opcode map. -/
theorem encodeOfDecode : Obligations.EncodeOfDecode := fun _ _ => encode_decode

end Sys2Proof
end

section
/-! The opcode table as masks against the decoder (R102, R104, R105). -/

namespace Sys2Proof.Machine

/-! ### A masked word, field by field (R101, R102) -/

@[simp] theorem opcOf_and (v w : Word) : opcOf (v &&& w) = opcOf v &&& opcOf w :=
  BitVec.extractLsb'_and

@[simp] theorem selOf_and (v w : Word) : selOf (v &&& w) = selOf v &&& selOf w :=
  BitVec.extractLsb'_and

@[simp] theorem argOf_and (v w : Word) : argOf (v &&& w) = argOf v &&& argOf w :=
  BitVec.extractLsb'_and

@[simp] theorem immOf_and (v w : Word) : immOf (v &&& w) = immOf v &&& immOf w :=
  BitVec.extractLsb'_and

/-- Words are equal when their fields are. -/
theorem word_eq_iff (v w : Word) :
    v = w ↔ opcOf v = opcOf w ∧ selOf v = selOf w ∧ argOf v = argOf w ∧ immOf v = immOf w := by
  refine ⟨by rintro rfl; exact ⟨rfl, rfl, rfl, rfl⟩, fun ⟨ho, hs, ha, hb⟩ => ?_⟩
  rw [← commandWord_fields v, ho, hs, ha, hb, commandWord_fields]

/-- What a mask asks of a word, field by field. -/
theorem masked_iff (cw : Word) (mo ms ma mb o s a b : Byte) :
    cw &&& commandWord mo ms ma mb = commandWord o s a b ↔
      opcOf cw &&& mo = o ∧ selOf cw &&& ms = s ∧ argOf cw &&& ma = a ∧ immOf cw &&& mb = b := by
  simp [word_eq_iff]

/-! ### The row of a command: its opcode, and the mask of its format (R102) -/

/-- Every bit of a field is given. -/
abbrev given : Byte := BitVec.allOnes 8

/-- The row with opcode `o` whose mask has these fields after the opcode's. -/
def rowWith (o ms ma mb : Byte) (words : Nat) (agent : Agent) : OpcodeRow :=
  ⟨commandWord o 0 0 0, commandWord given ms ma mb, words, agent⟩

theorem match_rowWith (cw : Word) (o ms ma mb : Byte) (n : Nat) (ag : Agent) :
    cw &&& (rowWith o ms ma mb n ag).mask = (rowWith o ms ma mb n ag).bits ↔
      opcOf cw = o ∧ selOf cw &&& ms = 0 ∧ argOf cw &&& ma = 0 ∧ immOf cw &&& mb = 0 := by
  rw [rowWith, masked_iff, BitVec.and_allOnes]

/-- The row of a command, by its constructor alone. -/
def rowOf : Instr → OpcodeRow
  | .rbInit _ _ => rowWith 0x01 0 0 0 1 .fg
  | .rbWrite _ _ => rowWith 0x02 0 given 0 1 .fg
  | .rbRead _ => rowWith 0x03 0 given given 1 .fg
  | .rbIsFull _ => rowWith 0x04 0 given given 1 .fg
  | .rbIsEmpty _ => rowWith 0x05 0 given given 1 .fg
  | .itcInit => rowWith 0x10 given given given 1 .fg
  | .itcSetHandler _ _ => rowWith 0x11 0 given given 2 .fg
  | .itcEnable _ => rowWith 0x12 0 given given 1 .fg
  | .itcDisable _ => rowWith 0x13 0 given given 1 .fg
  | .itcSetPriority _ _ => rowWith 0x14 0 0xFE given 1 .fg
  | .itcDisableAll => rowWith 0x15 given given given 1 .fg
  | .itcRestoreAll _ => rowWith 0x16 given given 0xFC 1 .fg
  | .itcForce _ => rowWith 0x17 0 given given 1 .fg
  | .itcUnforce _ => rowWith 0x18 0 given given 1 .fg
  | .itcServiceNormal => rowWith 0x19 given given given 1 .ih
  | .itcServiceFast => rowWith 0x1A given given given 1 .ih
  | .uartInit _ _ _ => rowWith 0x20 0 given given 3 .fg
  | .uartSendByte _ _ => rowWith 0x21 0 given 0 1 .fg
  | .uartReceiveByte _ => rowWith 0x22 0 given given 1 .fg
  | .uartSend _ _ _ => rowWith 0x23 0 given given 3 .fg
  | .uartReceive _ _ _ => rowWith 0x24 0 given given 3 .fg
  | .uartSetRxCallback _ _ => rowWith 0x25 0 given given 2 .fg
  | .uartSetTxCallback _ _ => rowWith 0x26 0 given given 2 .fg
  | .uartIsr _ => rowWith 0x27 0 given given 1 .ih
  | .rdreg _ _ => rowWith 0x30 0 0 given 1 .fg

theorem rowOf_words (i : Instr) : (rowOf i).words = i.words := by cases i <;> rfl

theorem rowOf_agent (i : Instr) : (rowOf i).agent = i.agent := by cases i <;> rfl

/-- One command of each row, in the order of the opcode map. -/
def oneOfEach : List Instr :=
  [.rbInit 0 0, .rbWrite 0 0, .rbRead 0, .rbIsFull 0, .rbIsEmpty 0, .itcInit, .itcSetHandler 0 0,
   .itcEnable 0, .itcDisable 0, .itcSetPriority 0 0, .itcDisableAll, .itcRestoreAll 0,
   .itcForce 0, .itcUnforce 0, .itcServiceNormal, .itcServiceFast, .uartInit 0 0 0,
   .uartSendByte 0 0, .uartReceiveByte 0, .uartSend 0 0 0, .uartReceive 0 0 0,
   .uartSetRxCallback 0 0, .uartSetTxCallback 0 0, .uartIsr 0, .rdreg 0 0]

/-- The masks written out in the opcode table are those of the formats. -/
theorem opcodeRows_eq : opcodeRows = oneOfEach.map rowOf := by decide

theorem rowOf_mem (i : Instr) : rowOf i ∈ opcodeRows := by
  rw [opcodeRows_eq]
  cases i <;> simp [oneOfEach, rowOf]

/-- A row is the row of a command. -/
theorem exists_rowOf {row : OpcodeRow} (h : row ∈ opcodeRows) : ∃ i, rowOf i = row := by
  rw [opcodeRows_eq] at h
  obtain ⟨i, -, rfl⟩ := List.mem_map.1 h
  exact ⟨i, rfl⟩

/-! ### Rows are told apart by their opcode (R105) -/

theorem opcOf_of_match {cw : Word} {row : OpcodeRow} (hrow : row ∈ opcodeRows)
    (h : cw &&& row.mask = row.bits) : opcOf cw = opcOf row.bits := by
  have hfull : ∀ r ∈ opcodeRows, opcOf r.mask = given := by decide
  rw [← h, opcOf_and, hfull row hrow, BitVec.and_allOnes]

theorem opcodes_nodup : (opcodeRows.map fun r => opcOf r.bits).Nodup := by decide

theorem row_unique {cw : Word} {r r' : OpcodeRow} (hr : r ∈ opcodeRows) (hr' : r' ∈ opcodeRows)
    (h : cw &&& r.mask = r.bits) (h' : cw &&& r'.mask = r'.bits) : r = r' :=
  List.inj_on_of_nodup_map opcodes_nodup hr hr'
    ((opcOf_of_match hr h).symm.trans (opcOf_of_match hr' h'))

/-- No word matches two rows. -/
theorem rows_disjoint :
    opcodeRows.Pairwise
      (fun a b => ∀ cw : Word, ¬(cw &&& a.mask = a.bits ∧ cw &&& b.mask = b.bits)) :=
  opcodes_nodup.of_map.imp_of_mem fun ha hb hne _ ⟨hma, hmb⟩ => hne (row_unique ha hb hma hmb)

/-! ### What decodes matches the row of its command -/

theorem class_bits (c : Byte) : c &&& 0xFE = 0 ↔ c.toNat < 2 := by
  revert c
  decide

theorem global_bits (p : Byte) : p &&& 0xFC = 0 ↔ p.toNat < 4 := by
  revert p
  decide

/-- The command word of a well-formed command has the bits of its row. -/
theorem encode_matches {i : Instr} {cw : Word} {rest : List Word} (hi : i.wf = true)
    (h : encode i = cw :: rest) : cw &&& (rowOf i).mask = (rowOf i).bits := by
  cases i with
  | itcSetPriority v c =>
    cases h
    have hc := (class_bits c).2 (of_decide_eq_true hi)
    simpa [rowOf, match_rowWith] using hc
  | itcRestoreAll p =>
    cases h
    have hp := (global_bits p).2 (of_decide_eq_true hi)
    simpa [rowOf, match_rowWith] using hp
  | _ =>
    cases h
    simp [rowOf, match_rowWith]

theorem decode_matches {cw : Word} {ops : List Word} {i : Instr}
    (h : decode (cw :: ops) = .ok i) : cw &&& (rowOf i).mask = (rowOf i).bits := by
  obtain ⟨hi, rest, e⟩ := encode_decode h
  obtain ⟨v, vs, hv⟩ := List.exists_cons_of_ne_nil (encode_ne_nil i)
  rw [hv] at e
  cases e
  exact encode_matches hi hv

/-! ### What matches a row decodes, when its words are all there (R102, R104) -/

theorem given_zero {b : Byte} (h : b &&& given = 0) : b = 0 := by
  rwa [BitVec.and_allOnes] at h

section
variable {cw : Word}

theorem formatN_accepts (hs : selOf cw = 0) (ha : argOf cw = 0) (hb : immOf cw = 0) (i : Instr) :
    formatN cw i = .ok i := by
  simp [formatN, whenMbz, hs, ha, hb]

theorem formatNB_accepts (hs : selOf cw = 0) (ha : argOf cw = 0) {x : Bool} (hx : x = true)
    (f : Byte → Instr) : formatNB cw x f = .ok (f (immOf cw)) := by
  simp [formatNB, whenMbz, hs, ha, hx]

theorem formatS_accepts (ha : argOf cw = 0) (hb : immOf cw = 0) (f : Byte → Instr) :
    formatS cw f = .ok (f (selOf cw)) := by
  simp [formatS, whenMbz, ha, hb]

theorem formatSB_accepts (ha : argOf cw = 0) (f : Byte → Byte → Instr) :
    formatSB cw f = .ok (f (selOf cw) (immOf cw)) := by
  simp [formatSB, whenMbz, ha]

theorem formatSA_accepts (hb : immOf cw = 0) {x : Bool} (hx : x = true) (f : Byte → Byte → Instr) :
    formatSA cw x f = .ok (f (selOf cw) (argOf cw)) := by
  simp [formatSA, whenMbz, hb, hx]

theorem formatSW1_accepts (ha : argOf cw = 0) (hb : immOf cw = 0) {ops : List Word}
    (hlen : 2 ≤ (cw :: ops).length) (f : Byte → Word → Instr) :
    ∃ i, formatSW1 cw ops f = .ok i := by
  match ops, hlen with
  | w :: _, _ => exact ⟨f (selOf cw) w, by simp [formatSW1, whenMbz, ha, hb]⟩

theorem formatSW2_accepts (ha : argOf cw = 0) (hb : immOf cw = 0) {ops : List Word}
    (hlen : 3 ≤ (cw :: ops).length) (f : Byte → Word → Word → Instr) :
    ∃ i, formatSW2 cw ops f = .ok i := by
  match ops, hlen with
  | w :: x :: _, _ => exact ⟨f (selOf cw) w x, by simp [formatSW2, whenMbz, ha, hb]⟩

end

/-- The row's opcode selects a format, and the rest of the row's mask is what the format asks; the
row's length says that the operand words are there. -/
theorem match_decodes (i : Instr) {cw : Word} {ops : List Word}
    (h : cw &&& (rowOf i).mask = (rowOf i).bits) (hlen : (rowOf i).words ≤ (cw :: ops).length) :
    ∃ j, decode (cw :: ops) = .ok j := by
  cases i with
  | rbInit =>
    obtain ⟨ho, -⟩ := (match_rowWith ..).1 h
    simp [decode, ho, formatSH]
  | rbWrite | uartSendByte =>
    obtain ⟨ho, -, ha, -⟩ := (match_rowWith ..).1 h
    simp [decode, ho, formatSB_accepts (given_zero ha)]
  | itcInit | itcDisableAll | itcServiceNormal | itcServiceFast =>
    obtain ⟨ho, hs, ha, hb⟩ := (match_rowWith ..).1 h
    simp [decode, ho, formatN_accepts (given_zero hs) (given_zero ha) (given_zero hb)]
  | itcRestoreAll =>
    obtain ⟨ho, hs, ha, hp⟩ := (match_rowWith ..).1 h
    have hx := decide_eq_true ((global_bits _).1 hp)
    simp [decode, ho, formatNB_accepts (given_zero hs) (given_zero ha) hx]
  | itcSetPriority =>
    obtain ⟨ho, -, hc, hb⟩ := (match_rowWith ..).1 h
    have hx : decide ((argOf cw).toNat ≤ 1) = true :=
      decide_eq_true (Nat.le_of_lt_succ ((class_bits _).1 hc))
    simp [decode, ho, formatSA_accepts (given_zero hb) hx]
  | rdreg =>
    obtain ⟨ho, -, -, hb⟩ := (match_rowWith ..).1 h
    simp [decode, ho, formatSA_accepts (given_zero hb)]
  | itcSetHandler | uartSetRxCallback | uartSetTxCallback =>
    obtain ⟨ho, -, ha, hb⟩ := (match_rowWith ..).1 h
    simp [decode, ho, formatSW1_accepts (given_zero ha) (given_zero hb) hlen]
  | uartInit | uartSend | uartReceive =>
    obtain ⟨ho, -, ha, hb⟩ := (match_rowWith ..).1 h
    simp [decode, ho, formatSW2_accepts (given_zero ha) (given_zero hb) hlen]
  | _ =>
    obtain ⟨ho, -, ha, hb⟩ := (match_rowWith ..).1 h
    simp [decode, ho, formatS_accepts (given_zero ha) (given_zero hb)]

/-- Settles O3: what decodes matches the row of its command, what matches a row decodes, and the row
a word matches is the only one. -/
theorem opcodeTableDecides : Obligations.OpcodeTableDecides := by
  refine ⟨fun cw ops => ⟨fun ⟨i, h⟩ => ?_, fun ⟨row, hrow, hm, hlen⟩ => ?_⟩,
    fun cw ops i row h hrow hm => ?_, rows_disjoint⟩
  · exact ⟨rowOf i, rowOf_mem i, decode_matches h, (rowOf_words i).trans_le (decode_fits h)⟩
  · obtain ⟨i, rfl⟩ := exists_rowOf hrow
    exact match_decodes i hm hlen
  · obtain rfl := row_unique hrow (rowOf_mem i) hm (decode_matches h)
    exact ⟨(rowOf_words i).symm, (rowOf_agent i).symm⟩

end Sys2Proof.Machine
end

section
/-! What a turn of the foreground or of the handler engine performs, and the illegal commands that a
foreground turn meets (R109, R115, R241 to R243, R250). -/

namespace Sys2Proof.Machine

/-! ### A foreground turn (R115, R241) -/

theorem foregroundStep_idle {s : State} (hfree : foregroundFree s = true)
    (hp : s.fg.phase = .idle) : foregroundStep s = startCommand s := by
  rw [foregroundStep, if_pos hfree, hp]

theorem foregroundStep_sending {s : State} (hfree : foregroundFree s = true)
    (hp : s.fg.phase.sending = true) :
    foregroundStep s = exec (.uartSendByte s.fg.ll s.fg.lb) s := by
  rw [foregroundStep, if_pos hfree]
  cases h : s.fg.phase with
  | sbDrain | sbPut | sbRestore => rfl
  | idle | rbGet | rbRestore => rw [h] at hp; cases hp

theorem foregroundStep_receiving {s : State} (hfree : foregroundFree s = true)
    (hp : s.fg.phase.receiving = true) :
    foregroundStep s = exec (.uartReceiveByte s.fg.ll) s := by
  rw [foregroundStep, if_pos hfree]
  cases h : s.fg.phase with
  | rbGet | rbRestore => rfl
  | idle | sbDrain | sbPut | sbRestore => rw [h] at hp; cases hp

theorem startCommand_of_error {s : State} {e : DecodeError} (hlt : s.fg.pc.toNat < s.prog.length)
    (hf : fetch s = .error e) : startCommand s = .next (raise .illegalCmd s) := by
  rw [startCommand, if_neg (Nat.not_le.2 hlt), hf]

/-! ### A turn of the handler engine (R242, R243, R250) -/

theorem handlerStep_running {s : State} (hz : s.fault = 0) (hp : s.ih.phase ≠ .idle) :
    handlerStep s = exec (.uartIsr s.ih.line) s := by
  rw [handlerStep, if_pos ((handlerEnabled_iff s).2 ⟨hz, .inl hp⟩), if_neg hp]

theorem handlerStep_activates {s : State} {c : PrioClass} (hz : s.fault = 0)
    (hp : s.ih.phase = .idle) (hc : take s c = true) : handlerStep s = activate s := by
  rw [handlerStep, if_pos ((handlerEnabled_iff s).2 ⟨hz, .inr ⟨c, hc⟩⟩), if_pos hp]

theorem activate_fast {s : State} (h : take s .fast = true) :
    activate s = exec .itcServiceFast s := by
  rw [activate, activationClass, if_pos h]

theorem activate_normal {s : State} (h : take s .fast = false) :
    activate s = exec .itcServiceNormal s := by
  rw [activate, activationClass, if_neg (ne_true_of_eq_false h)]

/-- Settles O7: the agent whose turn it is steps, by the phase that it is in. -/
theorem stepRunsTheTurn : Obligations.StepRunsTheTurn := by
  refine fun s hz => ⟨fun hn hih => ?_, fun hn => ?_⟩
  · have hfree := (foregroundFree_iff s).2 ⟨hz, hih⟩
    refine ⟨fun i hp hlt hd ha => ?_, fun hp => ?_, fun hp => ?_⟩
    · exact step_of_starting (starting_of_fetch hn hfree hp hlt (fetch_of_decode hd ha))
    · exact (step_of_turn hn).trans (foregroundStep_sending (s := afterTurn s) hfree hp)
    · exact (step_of_turn hn).trans (foregroundStep_receiving (s := afterTurn s) hfree hp)
  · refine ⟨fun hp => ?_, fun hp hfast => ?_, fun hp hfast hnormal => ?_⟩
    · exact (step_of_turn hn).trans (handlerStep_running (s := afterTurn s) hz hp)
    · rw [← take_afterTurn] at hfast
      exact (step_of_turn hn).trans
        ((handlerStep_activates (s := afterTurn s) hz hp hfast).trans (activate_fast hfast))
    · rw [← take_afterTurn] at hfast hnormal
      exact (step_of_turn hn).trans
        ((handlerStep_activates (s := afterTurn s) hz hp hnormal).trans (activate_normal hfast))

/-! ### An illegal command (R109) -/

/-- Where the words begin with no legal command the fetch gives none: the row of a fetched command
is a stream command's, and its words are all there. -/
theorem fetch_of_illegal {s : State} (h : illegalStream (streamWords s)) :
    ∃ e, fetch s = .error e := by
  cases hf : fetch s with
  | error e => exact ⟨e, rfl⟩
  | ok i =>
    have hd := decode_of_fetch hf
    cases hw : streamWords s with
    | nil => rw [hw] at hd; cases hd
    | cons cw ops =>
      rw [hw] at hd h
      rcases h _ (rowOf_mem i) (decode_matches hd) with hih | hlen
      · rw [rowOf_agent, fetch_agent hf] at hih
        cases hih
      · rw [rowOf_words] at hlen
        exact absurd (decode_fits hd) (Nat.not_le.2 hlen)

theorem step_of_illegal {s : State} (hn : nextTurn s = some .fg) (hfree : foregroundFree s = true)
    (hp : s.fg.phase = .idle) (hlt : s.fg.pc.toNat < s.prog.length)
    (h : illegalStream (streamWords s)) :
    step s = .next (withFault .illegalCmd (afterTurn s)) := by
  obtain ⟨e, hf⟩ := fetch_of_illegal h
  calc step s = foregroundStep (afterTurn s) := step_of_turn hn
    _ = startCommand (afterTurn s) := foregroundStep_idle hfree hp
    _ = .next (raise .illegalCmd (afterTurn s)) := startCommand_of_error hlt hf
    _ = .next (withFault .illegalCmd (afterTurn s)) := by rw [raise_eq]

/-- A word whose opcode no row lists is illegal. -/
theorem illegal_of_reserved {cw : Word} (h : ∀ row ∈ opcodeRows, opcOf row.bits ≠ opcOf cw)
    (ops : List Word) : illegalStream (cw :: ops) :=
  fun row hrow hm => absurd (opcOf_of_match hrow hm).symm (h row hrow)

/-- Settles O6: no fetch gives a command there, and no row has opcode 0 or 0xFF. -/
theorem illegalCommandFaults : Obligations.IllegalCommandFaults := by
  refine ⟨fun s hn hz hih hp hlt h => ?_, fun cw ops hcw => ?_, fun ops => ?_⟩
  · exact step_of_illegal hn ((foregroundFree_iff s).2 ⟨hz, hih⟩) hp hlt h
  · exact illegal_of_reserved (by rw [hcw]; decide) ops
  · exact illegal_of_reserved (by decide) ops

end Sys2Proof.Machine
end

section
/-! The assembler: what a line of text assembles to, and the lines of each form of R112 (R112,
R114). -/

namespace Sys2Proof.Machine

/-! ### A line assembles only to a stream command -/

/-- Whatever `x` answers is a command of the stream, well-formed. -/
def OnlyStream (x : Option Instr) : Prop := ∀ i, x = some i → i.agent = .fg ∧ i.wf = true

theorem onlyStream_none : OnlyStream none := nofun

theorem onlyStream_some {i : Instr} (h : i.agent = .fg ∧ i.wf = true) : OnlyStream (some i) := by
  rintro _ ⟨⟩
  exact h

theorem onlyStream_ite {p : Prop} [Decidable p] {x y : Option Instr} (hx : OnlyStream x)
    (hy : OnlyStream y) : OnlyStream (if p then x else y) := by
  split
  · exact hx
  · exact hy

theorem onlyStream_bind {α : Type} {x : Option α} {f : α → Option Instr}
    (hf : ∀ a, OnlyStream (f a)) : OnlyStream (x.bind f) := by
  intro i h
  obtain ⟨a, -, ha⟩ := Option.bind_eq_some_iff.1 h
  exact hf a i ha

/-- An operand that was read from its text, in the command that it makes. -/
theorem onlyStream_map {α : Type} {x : Option α} {f : α → Instr}
    (hf : ∀ a, x = some a → (f a).agent = .fg ∧ (f a).wf = true) : OnlyStream (x.map f) := by
  intro i h
  obtain ⟨a, ha, rfl⟩ := Option.map_eq_some_iff.1 h
  exact hf a ha

/-- A priority class has its upper bits zero (R164). -/
theorem asmClass_lt {t : List Char} {c : Byte} (h : asmClass t = some c) : c.toNat < 2 := by
  unfold asmClass at h
  split at h
  · cases h; decide
  · split at h
    · cases h; decide
    · cases h

/-- A previous state has its upper bits zero (R166). -/
theorem asmGlobal_lt {t : List Char} {p : Byte} (h : asmGlobal t = some p) : p.toNat < 4 := by
  obtain ⟨x, -, rfl⟩ := Option.map_eq_some_iff.1 h
  rw [BitVec.toNat_setWidth]
  exact (Nat.mod_le _ _).trans_lt x.isLt

/-- The chain of mnemonics for each number of operands: a leaf is one command, whose operands are
fields that any value fits, but for a class and a previous state. -/
theorem asmCommand_onlyStream (m : String) (os : List (List Char)) :
    OnlyStream (asmCommand m os) := by
  match os with
  | [] =>
    iterate 2 refine onlyStream_ite (onlyStream_some ⟨rfl, rfl⟩) ?_
    exact onlyStream_none
  | [_] =>
    iterate 5 refine onlyStream_ite (onlyStream_map fun _ _ => ⟨rfl, rfl⟩) ?_
    refine onlyStream_ite
      (onlyStream_map fun _ hp => ⟨rfl, decide_eq_true (asmGlobal_lt hp)⟩) ?_
    iterate 3 refine onlyStream_ite (onlyStream_map fun _ _ => ⟨rfl, rfl⟩) ?_
    exact onlyStream_none
  | [_, _] =>
    iterate 3
      refine onlyStream_ite (onlyStream_bind fun _ => onlyStream_map fun _ _ => ⟨rfl, rfl⟩) ?_
    refine onlyStream_ite (onlyStream_bind fun _ =>
      onlyStream_map fun _ hc => ⟨rfl, decide_eq_true (asmClass_lt hc)⟩) ?_
    iterate 4
      refine onlyStream_ite (onlyStream_bind fun _ => onlyStream_map fun _ _ => ⟨rfl, rfl⟩) ?_
    exact onlyStream_none
  | [_, _, _] =>
    refine onlyStream_bind fun _ => onlyStream_bind fun _ => onlyStream_bind fun _ => ?_
    iterate 3 refine onlyStream_ite (onlyStream_some ⟨rfl, rfl⟩) ?_
    exact onlyStream_none
  | _ :: _ :: _ :: _ :: _ => exact onlyStream_none

/-! ### A line of each form assembles to its command -/

/-- The handler-engine operations have no form. -/
theorem agent_of_operandTexts {i : Instr} {ts : List (List Char)} (h : OperandTexts i ts) :
    i.agent = .fg := by
  cases i with
  | itcServiceNormal | itcServiceFast | uartIsr => exact h.elim
  | _ => rfl

/-- A previous state that fits its two bits is read back (R166). -/
theorem asmGlobal_number {p : Byte} {t : List Char} (hp : p.toNat < 4)
    (h : NumberText p.toNat t) : asmGlobal t = some p := by
  have hlow : (p.setWidth 2).toNat = p.toNat := by
    rw [BitVec.toNat_setWidth, Nat.mod_eq_of_lt hp]
  rw [← hlow] at h
  rw [asmGlobal, h.field, Option.map_some]
  congr 1
  apply BitVec.eq_of_toNat_eq
  rw [BitVec.toNat_setWidth, hlow, Nat.mod_eq_of_lt p.isLt]

/-- Either spelling of the `inst` of `RDREG` is read as a ring selector (log 20). -/
theorem rdregInst_ring {inst regno : Byte} {t : List Char}
    (h : NumberText inst.toNat t ∨ (regno.toNat ≤ 0x04 ∧ RingText inst.toNat t)) :
    RingText inst.toNat t :=
  h.elim .inl (·.2)

/-- No operand of a form holds a blank, a comma or a semicolon, so a line keeps them apart. -/
theorem operandTexts_chars {i : Instr} {ts : List (List Char)} (h : OperandTexts i ts) :
    ∀ t ∈ ts, OperandChars t := by
  cases i with
  | itcServiceNormal | itcServiceFast | uartIsr => exact h.elim
  | itcInit | itcDisableAll => cases h; simp
  | rbRead | rbIsFull | rbIsEmpty =>
    obtain ⟨a, rfl, ha⟩ := h
    simp [ha.chars]
  | rbInit | rbWrite | itcSetPriority | itcSetHandler | uartSendByte | uartSetRxCallback
  | uartSetTxCallback =>
    obtain ⟨a, b, rfl, ha, hb⟩ := h
    simp [ha.chars, hb.chars]
  | rdreg =>
    obtain ⟨a, b, rfl, hb, ha⟩ := h
    simp [(rdregInst_ring ha).chars, hb.chars]
  | uartInit | uartSend | uartReceive =>
    obtain ⟨a, b, c, rfl, ha, hb, hc⟩ := h
    simp [ha.chars, hb.chars, hc.chars]
  | _ =>
    obtain ⟨a, rfl, ha⟩ := h
    simp [ha.chars]

/-- The mnemonic selects the command, and each operand is read back. -/
theorem asmCommand_form {i : Instr} {ts : List (List Char)} (hi : i.wf = true)
    (h : OperandTexts i ts) : asmCommand (mnemonicOf i) ts = some i := by
  cases i with
  | itcServiceNormal | itcServiceFast | uartIsr => exact h.elim
  | itcInit | itcDisableAll => cases h; simp [asmCommand, mnemonicOf]
  | rbRead | rbIsFull | rbIsEmpty =>
    obtain ⟨a, rfl, ha⟩ := h
    simp [asmCommand, mnemonicOf, ha.read]
  | rbInit | rbWrite =>
    obtain ⟨a, b, rfl, ha, hb⟩ := h
    simp [asmCommand, mnemonicOf, ha.read, hb.field]
  | itcSetPriority =>
    obtain ⟨a, b, rfl, ha, hb⟩ := h
    simp [asmCommand, mnemonicOf, ha.field, hb.read]
  | rdreg =>
    obtain ⟨a, b, rfl, hb, ha⟩ := h
    simp [asmCommand, mnemonicOf, (rdregInst_ring ha).read, hb.read]
  | itcRestoreAll =>
    obtain ⟨a, rfl, ha⟩ := h
    simp [asmCommand, mnemonicOf, asmGlobal_number (of_decide_eq_true hi) ha]
  | uartInit | uartSend | uartReceive =>
    obtain ⟨a, b, c, rfl, ha, hb, hc⟩ := h
    simp [asmCommand, mnemonicOf, ha.field, hb.field, hc.field]
  | itcSetHandler | uartSendByte | uartSetRxCallback | uartSetTxCallback =>
    obtain ⟨a, b, rfl, ha, hb⟩ := h
    simp [asmCommand, mnemonicOf, ha.field, hb.field]
  | _ =>
    obtain ⟨a, rfl, ha⟩ := h
    simp [asmCommand, mnemonicOf, ha.field]

/-- Settles O5: a line is a mnemonic with operands, which gives a stream command or none; and the
line of a form is taken apart into the mnemonic and the operands it was made of. -/
theorem assembledIsStreamCommand : Obligations.AssembledIsStreamCommand := by
  refine ⟨fun line i h => asmCommand_onlyStream _ _ i h, fun i ts comment hi h hc => ?_⟩
  have hm := mnemonic_chars i (agent_of_operandTexts h)
  calc assembleLine (commandText i ts comment)
      = asmCommand (mnemonicOf i) ts := assembleLine_text _ ts comment hm (operandTexts_chars h) hc
    _ = some i := asmCommand_form hi h

end Sys2Proof.Machine
end

section
/-! The ring commands (R146 to R150): what each does to its ring, its results and its frame. -/

namespace Sys2Proof.Machine

/-! ### Completion (R116) -/

/-- `done` completes the command that began in `s` when what ran in between wrote neither the
foreground, the handler engine, `FAULT`, `EV` nor the inputs. -/
theorem done_completed {s t : State} (n : Nat) (st : Status) (val : Word) (hev : t.ev = s.ev)
    (hfg : t.fg = s.fg) (hih : t.ih = s.ih) (hfault : t.fault = s.fault) (hin : SameInputs s t) :
    Completed n st val [] s (done n st val t) := by
  refine ⟨?_, rfl, ?_, ?_, hih, hfault, hin⟩
  · rw [done_r0, Status.code_eq]
  · rw [done_ev, Status.code_eq, hev, hfg, List.append_nil]
  · rw [done_fg, hfg]

theorem done_self_completed (n : Nat) (st : Status) (val : Word) (s : State) :
    Completed n st val [] s (done n st val s) :=
  done_completed n st val rfl rfl rfl rfl ⟨rfl, rfl, rfl, rfl, rfl, rfl⟩

theorem done_self_onlyResults (n : Nat) (st : Status) (val : Word) (s : State) :
    OnlyResults s (done n st val s) :=
  ⟨fun _ => rfl, fun _ => rfl, ⟨fun _ => rfl, rfl, rfl⟩, fun _ => rfl⟩

theorem done_setRing_completed (n : Nat) (st : Status) (val : Word) (s : State) (k : Nat)
    (r : Ring) : Completed n st val [] s (done n st val (s.setRing k r)) :=
  done_completed n st val rfl rfl rfl rfl ⟨rfl, rfl, rfl, rfl, rfl, rfl⟩

theorem done_setRing_onlyRing (n : Nat) (st : Status) (val : Word) (s : State) (k : Nat)
    (r : Ring) : OnlyRing k s (done n st val (s.setRing k r)) :=
  ⟨fun j hj => ring_setRing_of_ne s k j r (Ne.symm hj), fun _ => rfl,
    ⟨fun _ => rfl, rfl, rfl⟩, fun _ => rfl⟩

/-! ### The selector of a ring (R107) -/

theorem onRing_of_invalid {k : Byte} {s : State} (hk : s.cfg.nrings ≤ k.toNat)
    (f : Nat → State → State) : onRing k s f = withFault .badSelector s := by
  rw [onRing, if_pos hk, raise_eq]

theorem onRing_of_valid {k : Byte} {s : State} (hk : k.toNat < s.cfg.nrings)
    (f : Nat → State → State) : onRing k s f = f k.toNat s :=
  if_neg (Nat.not_le.2 hk)

theorem State.SizesOk.ring_lt {s : State} (h : s.SizesOk) {k : Nat} (hk : k < s.cfg.nrings) :
    k < s.rb.length :=
  h.1.symm ▸ hk

/-! ### The flags, and the capacity 0 (R141, R142, R153) -/

theorem ringFull_eq (r : Ring) : ringFull r = decide (r.cnt.toNat = r.cap.toNat) := by
  rw [ringFull, beq_eq_decide]
  exact decide_eq_decide.2 BitVec.toNat_inj.symm

theorem ringEmpty_eq (r : Ring) : ringEmpty r = decide (r.cnt.toNat = 0) := by
  rw [ringEmpty, beq_eq_decide]
  exact decide_eq_decide.2 BitVec.toNat_inj.symm

theorem boolWord_ringFull (r : Ring) :
    boolWord (ringFull r) = if r.cnt = r.cap then 1 else 0 := by
  simp [boolWord, ringFull]

theorem boolWord_ringEmpty (r : Ring) : boolWord (ringEmpty r) = if r.cnt = 0 then 1 else 0 := by
  simp [boolWord, ringEmpty]

/-- A ring of capacity 0 is both empty and full. -/
theorem Ring.Ok.of_no_capacity {r : Ring} {cmax : Nat} (ok : r.Ok cmax) (h : r.cap = 0) :
    ringEmpty r = true ∧ ringFull r = true := by
  obtain ⟨-, hcnt, -⟩ := ok
  have hcap : r.cap.toNat = 0 := congrArg BitVec.toNat h
  rw [ringEmpty_eq, ringFull_eq, decide_eq_true_eq, decide_eq_true_eq]
  omega

theorem not_empty_and_full {r : Ring} (h : r.cap ≠ 0) :
    ¬(ringEmpty r = true ∧ ringFull r = true) := by
  rintro ⟨hempty, hfull⟩
  have hcnt : r.cnt = 0 := beq_iff_eq.1 hempty
  exact h ((beq_iff_eq.1 hfull).symm.trans hcnt)

theorem Ring.Ok.wr_lt {r : Ring} {cmax : Nat} (ok : r.Ok cmax) (h : ringFull r = false) :
    r.wr.toNat < r.cap.toNat := by
  have hcap : r.cap ≠ 0 := fun h0 => nomatch h.symm.trans (ok.of_no_capacity h0).2
  obtain ⟨-, -, -, hindex, -⟩ := ok
  exact (hindex hcap).2.1

theorem Ring.Ok.rd_lt {r : Ring} {cmax : Nat} (ok : r.Ok cmax) (h : ringEmpty r = false) :
    r.rd.toNat < r.cap.toNat := by
  have hcap : r.cap ≠ 0 := fun h0 => nomatch h.symm.trans (ok.of_no_capacity h0).1
  obtain ⟨-, -, -, hindex, -⟩ := ok
  exact (hindex hcap).1

/-! ### Indices, count and flags after a write or a read (R143 to R145) -/

theorem ringNext_wraps {r : Ring} {i : Half} (h : i.toNat < r.cap.toNat) :
    (ringNext r i).toNat = if i.toNat + 1 = r.cap.toNat then 0 else i.toNat + 1 := by
  rw [ringNext_toNat r i h]
  split
  · next e => rw [e, Nat.mod_self]
  · exact Nat.mod_eq_of_lt (by omega)

theorem ringWrite_indices {r : Ring} {cmax : Nat} (b : Byte) (ok : r.Ok cmax)
    (h : ringFull r = false) :
    (ringWrite b r).2.cnt.toNat = r.cnt.toNat + 1 ∧
    (ringWrite b r).2.wr.toNat =
      if r.wr.toNat + 1 = r.cap.toNat then 0 else r.wr.toNat + 1 := by
  rw [ringWrite_of_room b r h]
  exact ⟨(ringCount_up ok h).1, ringNext_wraps (ok.wr_lt h)⟩

theorem ringWrite_flags {r : Ring} {cmax : Nat} (b : Byte) (ok : r.Ok cmax)
    (h : ringFull r = false) :
    ringEmpty (ringWrite b r).2 = false ∧
    ringFull (ringWrite b r).2 = decide (r.cnt.toNat + 1 = r.cap.toNat) := by
  have hcnt := (ringWrite_indices b ok h).1
  constructor
  · rw [ringEmpty_false_iff]
    omega
  · rw [ringFull_eq, hcnt, ringWrite_cap]

theorem ringRead_indices {r : Ring} {cmax : Nat} (f : Nat → Byte) (ok : r.Ok cmax)
    (h : ringEmpty r = false) :
    (ringRead f r).2.cnt.toNat = r.cnt.toNat - 1 ∧
    (ringRead f r).2.rd.toNat =
      if r.rd.toNat + 1 = r.cap.toNat then 0 else r.rd.toNat + 1 := by
  rw [ringRead_of_bytes f r h]
  exact ⟨ringCount_down h, ringNext_wraps (ok.rd_lt h)⟩

theorem ringRead_flags {r : Ring} {cmax : Nat} (f : Nat → Byte) (ok : r.Ok cmax)
    (h : ringEmpty r = false) :
    ringFull (ringRead f r).2 = false ∧
    ringEmpty (ringRead f r).2 = decide (r.cnt.toNat = 1) := by
  have hcnt := (ringRead_indices f ok h).1
  have hpos := (ringEmpty_false_iff r).1 h
  obtain ⟨-, hle, -⟩ := ok
  constructor
  · rw [ringFull_false_iff, hcnt, ringRead_cap]
    omega
  · rw [ringEmpty_eq, hcnt]
    exact decide_eq_decide.2 (by omega)

/-- Settles O17: the count is 0 in an empty ring and the capacity in a full one. -/
theorem emptyAndFullExclusive : Obligations.EmptyAndFullExclusive := by
  refine fun cmax r c p b ok => ⟨not_empty_and_full, fun hcap => ?_, fun hc => ⟨rfl, ?_⟩⟩
  · obtain ⟨hempty, hfull⟩ := ok.of_no_capacity hcap
    exact ⟨hempty, hfull, ringWrite_of_full b r hfull, ringRead_of_empty p r hempty⟩
  · exact beq_eq_false_iff_ne.2 (Ne.symm hc)

/-! ### `RB_INIT` (R146) -/

theorem exec_rbInit_done {k : Byte} {cap : Half} {s : State} (hk : k.toNat < s.cfg.nrings)
    (hcap : cap.toNat ≤ s.cfg.cmax) :
    exec (.rbInit k cap) s =
      .next (done 1 .ok 0 (s.setRing k.toNat (ringInit cap (s.ring k.toNat)))) := by
  show execRbInit k cap s = _
  rw [execRbInit, onRing_of_valid hk, if_neg (Nat.not_lt.2 hcap)]
  rfl

theorem exec_rbInit_range {k : Byte} {cap : Half} {s : State} (hk : k.toNat < s.cfg.nrings)
    (hcap : s.cfg.cmax < cap.toNat) :
    exec (.rbInit k cap) s = .next (withFault .range s) := by
  show execRbInit k cap s = _
  rw [execRbInit, onRing_of_valid hk, if_pos hcap, raise_eq]

/-- Settles O11: the two checks in order, then `rb_init` on the ring selected. -/
theorem rbInitBindsRing : Obligations.RbInitBindsRing := by
  refine fun k cap s hs => ⟨fun ops => decode_encode (.rbInit k cap) ops rfl,
    fun hk => congrArg _ (onRing_of_invalid hk _), exec_rbInit_range, fun hk hcap => ?_⟩
  have hring := ring_setRing_same s k.toNat (ringInit cap (s.ring k.toNat)) (hs.ring_lt hk)
  refine ⟨_, exec_rbInit_done hk hcap, done_setRing_completed .., done_setRing_onlyRing .., ?_⟩
  rw [done_ring, hring]
  exact ⟨rfl, rfl, (ringFull_eq _).trans (decide_eq_decide.2 <| by
    rw [eq_comm, ← BitVec.toNat_inj]; rfl)⟩

/-! ### `RB_WRITE` (R147) -/

theorem exec_rbWrite_full {k b : Byte} {s : State} (hk : k.toNat < s.cfg.nrings)
    (h : ringFull (s.ring k.toNat) = true) :
    exec (.rbWrite k b) s = .next (done 1 .overrun 0 s) := by
  show execRbWrite k b s = _
  rw [execRbWrite, onRing_of_valid hk, rbWrite_full b h]

theorem exec_rbWrite_room {k b : Byte} {s : State} (hk : k.toNat < s.cfg.nrings)
    (h : ringFull (s.ring k.toNat) = false) :
    exec (.rbWrite k b) s =
      .next (done 1 .ok 1 (s.setRing k.toNat (ringWrite b (s.ring k.toNat)).2)) := by
  show execRbWrite k b s = _
  rw [execRbWrite, onRing_of_valid hk, rbWrite, ringWrite_of_room b _ h]

/-- Settles O12: what the completed command leaves in the ring is what `ringWrite` answers. -/
theorem rbWriteAppends : Obligations.RbWriteAppends := by
  refine fun k b s hs => ⟨fun ops => decode_encode (.rbWrite k b) ops rfl,
    fun hk => congrArg _ (onRing_of_invalid hk _), fun hk hfull => ?_, fun hk hroom => ?_⟩
  · exact ⟨_, exec_rbWrite_full hk (beq_iff_eq.2 hfull), done_self_completed ..,
      done_self_onlyResults ..⟩
  have hf : ringFull (s.ring k.toNat) = false := beq_eq_false_iff_ne.2 hroom
  have ok := hs.data.ringOk hk
  have hlen := hs.sizes.ring_lt hk
  have hring := ring_setRing_same s k.toNat (ringWrite b (s.ring k.toNat)).2 hlen
  obtain ⟨hcnt, hwr⟩ := ringWrite_indices b ok hf
  obtain ⟨hempty, hfull⟩ := ringWrite_flags b ok hf
  obtain ⟨hbyte, hothers⟩ := ringByte_write (s.powerOn k.toNat) b _ hf
  refine ⟨_, exec_rbWrite_room hk hf, done_setRing_completed .., done_setRing_onlyRing .., ?_⟩
  rw [done_contents, contents_setRing_same s _ _ hlen, done_ring, hring]
  exact ⟨ringContents_write _ b ok hf, ringWrite_cap b _, ringWrite_rd b _, hcnt, hwr, hbyte,
    hothers, hempty, hfull⟩

/-! ### `RB_READ` (R148) -/

theorem exec_rbRead_empty {k : Byte} {s : State} (hk : k.toNat < s.cfg.nrings)
    (h : ringEmpty (s.ring k.toNat) = true) :
    exec (.rbRead k) s = .next (done 1 .underrun 0xFFFFFFFF s) := by
  show execRbRead k s = _
  rw [execRbRead, onRing_of_valid hk, rbRead_empty h]
  rfl

theorem exec_rbRead_bytes {k : Byte} {s : State} (hk : k.toNat < s.cfg.nrings)
    (h : ringEmpty (s.ring k.toNat) = false) :
    exec (.rbRead k) s =
      .next (done 1 .ok
        ((ringByte (s.powerOn k.toNat) (s.ring k.toNat) (s.ring k.toNat).rd).setWidth 32)
        (s.setRing k.toNat (ringRead (s.powerOn k.toNat) (s.ring k.toNat)).2)) := by
  show execRbRead k s = _
  rw [execRbRead, onRing_of_valid hk, rbRead, ringRead_of_bytes _ _ h]
  rfl

/-- Settles O13: what the completed command leaves in the ring is what `ringRead` answers. -/
theorem rbReadTakesOldest : Obligations.RbReadTakesOldest := by
  refine fun k s hs => ⟨fun ops => decode_encode (.rbRead k) ops rfl,
    fun hk => congrArg _ (onRing_of_invalid hk _), fun hk hzero => ?_, fun hk hbytes => ?_⟩
  · exact ⟨_, exec_rbRead_empty hk (beq_iff_eq.2 hzero), done_self_completed ..,
      done_self_onlyResults ..⟩
  have he : ringEmpty (s.ring k.toNat) = false := beq_eq_false_iff_ne.2 hbytes
  have ok := hs.data.ringOk hk
  have hlen := hs.sizes.ring_lt hk
  have hring :=
    ring_setRing_same s k.toNat (ringRead (s.powerOn k.toNat) (s.ring k.toNat)).2 hlen
  obtain ⟨hcnt, hrd⟩ := ringRead_indices (s.powerOn k.toNat) ok he
  obtain ⟨hfull, hempty⟩ := ringRead_flags (s.powerOn k.toNat) ok he
  refine ⟨_, _, exec_rbRead_bytes hk he, done_setRing_completed .., done_setRing_onlyRing .., ?_⟩
  rw [done_contents, contents_setRing_same s _ _ hlen, done_ring, hring]
  exact ⟨ringContents_read _ he, rfl, ringRead_cap .., ringRead_wr .., ringRead_mem .., hcnt, hrd,
    hfull, hempty⟩

/-! ### `RB_IS_FULL` and `RB_IS_EMPTY` (R149, R150) -/

theorem exec_rbIsFull_done {k : Byte} {s : State} (hk : k.toNat < s.cfg.nrings) :
    exec (.rbIsFull k) s = .next (done 1 .ok (boolWord (ringFull (s.ring k.toNat))) s) :=
  congrArg _ (onRing_of_valid hk _)

theorem exec_rbIsEmpty_done {k : Byte} {s : State} (hk : k.toNat < s.cfg.nrings) :
    exec (.rbIsEmpty k) s = .next (done 1 .ok (boolWord (ringEmpty (s.ring k.toNat))) s) :=
  congrArg _ (onRing_of_valid hk _)

theorem applyReset_ring {s : State} {k : Nat} (hk : k < s.cfg.nrings) :
    (applyReset s).ring k = Ring.atReset :=
  List.getD_replicate _ hk

/-- Settles O14: both commands complete with the flag of the ring, in an unchanged machine. -/
theorem rbPredicatesRead : Obligations.RbPredicatesRead := by
  refine fun k s => ⟨fun ops => ⟨decode_encode (.rbIsFull k) ops rfl,
      decode_encode (.rbIsEmpty k) ops rfl⟩,
    fun hk => ⟨congrArg _ (onRing_of_invalid hk _), congrArg _ (onRing_of_invalid hk _)⟩,
    fun hk => ?results, fun hs hk hcap => ?noCapacity, fun hk => ?afterReset⟩
  case results =>
    rw [exec_rbIsFull_done hk, exec_rbIsEmpty_done hk, boolWord_ringFull, boolWord_ringEmpty]
    exact ⟨⟨_, rfl, done_self_completed .., done_self_onlyResults ..⟩,
      ⟨_, rfl, done_self_completed .., done_self_onlyResults ..⟩⟩
  case noCapacity =>
    obtain ⟨hempty, hfull⟩ := (hs.data.ringOk hk).of_no_capacity hcap
    rw [exec_rbIsFull_done hk, exec_rbIsEmpty_done hk, hempty, hfull]
    exact ⟨⟨_, rfl, rfl⟩, ⟨_, rfl, rfl⟩⟩
  case afterReset =>
    have hreset : k.toNat < (applyReset s).cfg.nrings := hk
    rw [exec_rbIsEmpty_done hreset, applyReset_ring hk]
    exact ⟨_, rfl, rfl⟩

end Sys2Proof.Machine
end

section
/-! Sequences of ring operations since `rb_init` (R151, R155). -/

namespace Sys2Proof.Machine

/-! ### One operation -/

theorem ringRunStep_write_full {p : Nat → Byte} {x : RingRun} (b : Byte)
    (h : ringFull x.ring = true) : ringRunStep p x (.write b) = x := by
  simp [ringRunStep, ringWrite_of_full b _ h]

theorem ringRunStep_write_room {p : Nat → Byte} {x : RingRun} (b : Byte)
    (h : ringFull x.ring = false) :
    ringRunStep p x (.write b) =
      { x with ring := (ringWrite b x.ring).2, written := x.written ++ [b] } := by
  simp [ringRunStep, ringWrite_of_room b _ h]

theorem ringRunStep_read_empty {p : Nat → Byte} {x : RingRun} (h : ringEmpty x.ring = true) :
    ringRunStep p x .read = x := by
  simp [ringRunStep, ringRead_of_empty p _ h]

theorem ringRunStep_read_bytes {p : Nat → Byte} {x : RingRun} (h : ringEmpty x.ring = false) :
    ringRunStep p x .read =
      { x with
        ring := (ringRead p x.ring).2
        returned := x.returned ++ [ringByte p x.ring x.ring.rd] } := by
  simp [ringRunStep, ringRead_of_bytes p _ h]

@[simp] theorem ringRunStep_write_returned (p : Nat → Byte) (x : RingRun) (b : Byte) :
    (ringRunStep p x (.write b)).returned = x.returned := by
  cases hf : ringFull x.ring with
  | true => rw [ringRunStep_write_full b hf]
  | false => rw [ringRunStep_write_room b hf]

@[simp] theorem ringRunStep_read_written (p : Nat → Byte) (x : RingRun) :
    (ringRunStep p x .read).written = x.written := by
  cases he : ringEmpty x.ring with
  | true => rw [ringRunStep_read_empty he]
  | false => rw [ringRunStep_read_bytes he]

/-- A write succeeds unless the ring is full, whatever the storage holds. -/
theorem ringRunStep_write_written (p : Nat → Byte) (x : RingRun) (b : Byte) :
    (ringRunStep p x (.write b)).written =
      x.written ++ if x.ring.cnt.toNat = x.ring.cap.toNat then [] else [b] := by
  cases hf : ringFull x.ring with
  | true =>
    rw [ringRunStep_write_full b hf, if_pos (by simpa [ringFull_eq] using hf), List.append_nil]
  | false => rw [ringRunStep_write_room b hf, if_neg ((ringFull_false_iff _).1 hf)]

/-- A read returns the oldest of the occupied bytes, if there is one. -/
theorem ringRunStep_read_returned (p : Nat → Byte) (x : RingRun) :
    (ringRunStep p x .read).returned = x.returned ++ (ringContents p x.ring).take 1 := by
  cases he : ringEmpty x.ring with
  | true => rw [ringRunStep_read_empty he, ringContents_of_empty p _ he]; simp
  | false => rw [ringRunStep_read_bytes he, ringContents_read p he]; simp

theorem ringRun_concat (p : Nat → Byte) (r : Ring) (ops : List RingOp) (op : RingOp) :
    ringRun p r (ops ++ [op]) = ringRunStep p (ringRun p r ops) op :=
  List.foldl_concat ..

/-! ### The FIFO property (R151) -/

/-- What holds of a ring of capacity `c` and of the bytes written and returned so far: written are
those returned, then those the ring still holds. -/
structure RingRun.Fifo (p : Nat → Byte) (cmax : Nat) (c : Half) (x : RingRun) : Prop where
  ok : x.ring.Ok cmax
  cap : x.ring.cap = c
  order : x.written = x.returned ++ ringContents p x.ring

theorem RingRun.Fifo.step {p : Nat → Byte} {cmax : Nat} {c : Half} {x : RingRun}
    (h : x.Fifo p cmax c) (op : RingOp) : (ringRunStep p x op).Fifo p cmax c := by
  cases op with
  | write b =>
    cases hf : ringFull x.ring with
    | true => rwa [ringRunStep_write_full b hf]
    | false =>
      rw [ringRunStep_write_room b hf]
      refine ⟨ringOk_write b h.ok, (ringWrite_cap b _).trans h.cap, ?_⟩
      show x.written ++ [b] = x.returned ++ ringContents p (ringWrite b x.ring).2
      rw [h.order, ringContents_write p b h.ok hf, List.append_assoc]
  | read =>
    cases he : ringEmpty x.ring with
    | true => rwa [ringRunStep_read_empty he]
    | false =>
      rw [ringRunStep_read_bytes he]
      refine ⟨ringOk_read p h.ok, (ringRead_cap p _).trans h.cap, ?_⟩
      show x.written = x.returned ++ [ringByte p x.ring x.ring.rd] ++ _
      rw [h.order, ringContents_read p he, List.append_cons]

theorem ringRun_fifo (p : Nat → Byte) {cmax : Nat} {r : Ring} {c : Half} (ok : r.Ok cmax)
    (hc : c.toNat ≤ cmax) (ops : List RingOp) : (ringRun p (ringInit c r) ops).Fifo p cmax c := by
  induction ops using List.reverseRecOn with
  | nil => exact ⟨ringOk_init c ok hc, rfl, rfl⟩
  | append_singleton ops op ih =>
    rw [ringRun_concat]
    exact ih.step op

theorem RingRun.Fifo.held {p : Nat → Byte} {cmax : Nat} {c : Half} {x : RingRun}
    (h : x.Fifo p cmax c) : x.written.length - x.returned.length = x.ring.cnt.toNat := by
  rw [h.order, List.length_append, ringContents_length, Nat.add_sub_cancel_left]

theorem ringWrite_fails_iff (b : Byte) (r : Ring) :
    (ringWrite b r).1 = false ↔ r.cnt.toNat = r.cap.toNat := by
  cases hf : ringFull r with
  | true => simpa [ringWrite_of_full b r hf, ringFull_eq] using hf
  | false => simpa [ringWrite_of_room b r hf] using (ringFull_false_iff r).1 hf

/-- Settles O15: `RingRun.Fifo` holds at the initialisation and every operation keeps it. -/
theorem ringRunIsFifo : Obligations.RingRunIsFifo := by
  rintro p cmax r c ops x ok hc rfl
  have h := ringRun_fifo p ok hc ops
  refine ⟨⟨_, h.order.symm⟩, h.order, h.held, h.cap, fun b => ?_⟩
  rw [ringWrite_fails_iff, h.held, h.cap]

/-! ### Independence of what the storage held (R155, R57) -/

/-- Runs that wrote and returned the same bytes hold the same bytes. -/
theorem RingRun.Fifo.contents_eq {p p' : Nat → Byte} {cmax : Nat} {c : Half} {x x' : RingRun}
    (h : x.Fifo p cmax c) (h' : x'.Fifo p' cmax c) (hr : x.returned = x'.returned)
    (hw : x.written = x'.written) : ringContents p x.ring = ringContents p' x'.ring := by
  rw [h.order, h'.order, hr] at hw
  exact List.append_cancel_left hw

/-- Two runs that agree so far agree after one more operation: its outcome depends on the capacity
and the bytes held, and these are the same in both. -/
theorem RingRun.Fifo.step_agree {p p' : Nat → Byte} {cmax : Nat} {c : Half} {x x' : RingRun}
    (h : x.Fifo p cmax c) (h' : x'.Fifo p' cmax c) (hr : x.returned = x'.returned)
    (hw : x.written = x'.written) (op : RingOp) :
    (ringRunStep p x op).returned = (ringRunStep p' x' op).returned ∧
    (ringRunStep p x op).written = (ringRunStep p' x' op).written := by
  cases op with
  | write b =>
    have hcnt : x.ring.cnt.toNat = x'.ring.cnt.toNat := by rw [← h.held, ← h'.held, hr, hw]
    simp [ringRunStep_write_written, hr, hw, hcnt, h.cap, h'.cap]
  | read => simp [ringRunStep_read_returned, hr, hw, h.contents_eq h' hr hw]

theorem ringRun_agree (p p' : Nat → Byte) {cmax : Nat} {r r' : Ring} {c : Half} (ok : r.Ok cmax)
    (ok' : r'.Ok cmax) (hc : c.toNat ≤ cmax) (ops : List RingOp) :
    (ringRun p (ringInit c r) ops).returned = (ringRun p' (ringInit c r') ops).returned ∧
    (ringRun p (ringInit c r) ops).written = (ringRun p' (ringInit c r') ops).written := by
  induction ops using List.reverseRecOn with
  | nil => exact ⟨rfl, rfl⟩
  | append_singleton ops op ih =>
    rw [ringRun_concat, ringRun_concat]
    exact (ringRun_fifo p ok hc ops).step_agree (ringRun_fifo p' ok' hc ops) ih.1 ih.2 op

/-- Settles O16: the two runs answer alike operation by operation, and `wr` is part of the ring
invariant. -/
theorem ringForgetsItsPast : Obligations.RingForgetsItsPast := by
  rintro p p' cmax r r' c ops x x' ok ok' hc rfl rfl
  have h := ringRun_fifo p ok hc ops
  obtain ⟨hr, hw⟩ := ringRun_agree p p' ok ok' hc ops
  refine ⟨hr, hw, h.contents_eq (ringRun_fifo p' ok' hc ops) hr hw, fun hne => ?_⟩
  obtain ⟨-, -, -, hindex, -⟩ := h.ok
  rw [h.cap] at hindex
  exact (hindex hne).2.2

end Sys2Proof.Machine
end

section
/-! The words of the spec's examples. -/

namespace Sys2Proof

theorem decode_of_encode {i : Instr} {ws : List Word} (hi : i.wf = true) (h : encode i = ws) :
    decode ws = .ok i := by
  rw [← h, ← List.append_nil (encode i)]
  exact decode_encode i [] hi

/-- Settles O4: each example is the encoding of its command. -/
theorem exampleWordsDecode : Obligations.ExampleWordsDecode :=
  ⟨decode_of_encode rfl (by decide), decode_of_encode rfl (by decide),
    decode_of_encode rfl (by decide), decode_of_encode rfl (by decide),
    decode_of_encode rfl (by decide), decode_of_encode rfl (by decide),
    decode_of_encode rfl (by decide)⟩

end Sys2Proof
end

section
/-! The commands of the interrupt controller (R160 to R170): what each does to the table, to the
request conditions and to nothing else. -/

namespace Sys2Proof.Machine

/-! ### Request conditions that a command on the table leaves alone (R43) -/

/-- A hardware request depends on the parameters, the line records and the request inputs. -/
theorem hwReq_congr {s t : State} (hcfg : t.cfg = s.cfg) (hline : SameLines s t)
    (hext : t.extreq = s.extreq) (v : Nat) : hwReq t v = hwReq s v := by
  have hirq (l : Nat) : lineIrq t l = lineIrq s l := by
    simp only [lineIrq, serviced, ready, rxReady, txReady, hline l, hcfg]
  simp only [hwReq, hcfg, hirq, extReq_congr hext]

theorem pending_congr {s t : State} {v : Nat} (hf : (t.source v).forced = (s.source v).forced)
    (hreq : hwReq t v = hwReq s v) : pending t v = pending s v := by
  rw [pending, pending, hf, hreq]

theorem request_congr {s t : State} (hcfg : t.cfg = s.cfg) (hsrc : ∀ v, t.source v = s.source v)
    (hreq : ∀ v, hwReq t v = hwReq s v) (c : PrioClass) : request t c = request s c := by
  have hlive (v : Nat) : live t v = live s v := by
    rw [live, live, hsrc v, pending_congr (congrArg Source.forced (hsrc v)) (hreq v)]
  rw [Bool.eq_iff_iff, request_iff, request_iff]
  simp only [hcfg, hsrc, hlive]

theorem take_of_disabled {s : State} {c : PrioClass} (h : s.globalEnable c = false) :
    take s c = false := by
  rw [take, h, Bool.false_and]

/-- With every source disabled no class can be taken. -/
theorem take_of_no_enable {s : State} (h : ∀ v, (s.source v).enable = false) (c : PrioClass) :
    take s c = false := by
  have hreq : request s c = false := by
    refine Bool.eq_false_iff.2 fun hr => ?_
    obtain ⟨v, -, hlive, -⟩ := (request_iff s c).1 hr
    rw [live, h v, Bool.false_and] at hlive
    cases hlive
  rw [take, hreq, Bool.and_false]

/-! ### Completion of a command on the table -/

theorem done_table_completed (n : Nat) (st : Status) (val : Word) (s : State) (x : IntTable) :
    Completed n st val [] s (done n st val { s with it := x }) :=
  done_completed n st val rfl rfl rfl rfl ⟨rfl, rfl, rfl, rfl, rfl, rfl⟩

theorem done_setSource_onlySource (n : Nat) (st : Status) (val : Word) (s : State) (v : Nat)
    (x : Source) : OnlySource v s (done n st val (s.setSource v x)) :=
  ⟨fun _ => rfl, fun _ => rfl,
    ⟨fun j hj => source_setSource_of_ne s v j x (Ne.symm hj), rfl, rfl⟩, fun _ => rfl⟩

theorem State.SizesOk.source_lt {s : State} (h : s.SizesOk) {v : Nat} (hv : v < s.cfg.nsrc) :
    v < s.it.src.length := by
  obtain ⟨-, -, hsrc, -⟩ := h
  rwa [hsrc]

/-! ### The commands on one source (R161 to R164, R167, R168) -/

theorem onSource_of_invalid {n : Nat} {v : Byte} {s : State} (hv : s.cfg.nsrc ≤ v.toNat)
    (f : Source → Source) : onSource n v f s = withFault .badSelector s := by
  rw [onSource, if_pos hv, raise_eq]

theorem onSource_of_valid {n : Nat} {v : Byte} {s : State} (hv : v.toNat < s.cfg.nsrc)
    (f : Source → Source) :
    onSource n v f s = done n .ok 0 (s.setSource v.toNat (f (s.source v.toNat))) :=
  if_neg (Nat.not_le.2 hv)

/-- What `onSource` does is what the statements about the commands on one source ask. -/
theorem setsSource_of_onSource {i : Instr} {n : Nat} {v : Byte} {f : Source → Source} {s : State}
    (hs : s.SizesOk) (h : exec i s = .next (onSource n v f s)) : SetsSource i n v f s := by
  refine ⟨fun hv => ?_, fun hv => ?_⟩
  · rw [h, onSource_of_invalid hv]
  · rw [h, onSource_of_valid hv]
    exact ⟨_, rfl, done_table_completed .., done_setSource_onlySource ..,
      source_setSource_same s _ _ (hs.source_lt hv)⟩

/-- After a command on one source: the source's new record, in unchanged request conditions. -/
theorem SetsSource.next {i : Instr} {n : Nat} {v : Byte} {f : Source → Source} {s t : State}
    (h : SetsSource i n v f s) (hv : v.toNat < s.cfg.nsrc) (he : exec i s = .next t) :
    t.cfg = s.cfg ∧ t.source v.toNat = f (s.source v.toNat) ∧
      hwReq t v.toNat = hwReq s v.toNat := by
  obtain ⟨-, hvalid⟩ := h
  obtain ⟨u, hu, hdone, ⟨-, hlines, -, -⟩, hsrc⟩ := hvalid hv
  obtain rfl : t = u := Host.Outcome.next.inj (he.symm.trans hu)
  obtain ⟨-, -, -, -, -, -, hcfg, -, -, hext, -, -⟩ := hdone
  exact ⟨hcfg, hsrc, hwReq_congr hcfg hlines hext _⟩

/-- Settles O19: `ITC_SET_HANDLER` writes the one field of the one source. -/
theorem itcSetHandlerRegisters : Obligations.ItcSetHandlerRegisters := fun v h _ hs =>
  ⟨fun ops => decode_encode (.itcSetHandler v h) ops rfl, setsSource_of_onSource hs rfl⟩

/-- Settles O20: the enable gates `LIVE` and is no part of `PENDING`. -/
theorem itcEnableDisableGate : Obligations.ItcEnableDisableGate := by
  intro v s hs
  have henable : SetsSource (.itcEnable v) 1 v (fun x => { x with enable := true }) s :=
    setsSource_of_onSource hs rfl
  have hdisable : SetsSource (.itcDisable v) 1 v (fun x => { x with enable := false }) s :=
    setsSource_of_onSource hs rfl
  refine ⟨fun ops => ⟨decode_encode (.itcEnable v) ops rfl, decode_encode (.itcDisable v) ops rfl⟩,
    henable, hdisable, fun t hv he => ?_, fun t hv he => ?_⟩
  · obtain ⟨-, hsrc, hreq⟩ := henable.next hv he
    have hpending := pending_congr (by rw [hsrc]) hreq
    exact ⟨hpending, by rw [live, hsrc, hpending, Bool.true_and]⟩
  · obtain ⟨-, hsrc, hreq⟩ := hdisable.next hv he
    exact ⟨pending_congr (by rw [hsrc]) hreq, by rw [live, hsrc, Bool.false_and]⟩

/-- Settles O22: a force is one of the two ways to be pending, the hardware request the other. -/
theorem itcForceUnforce : Obligations.ItcForceUnforce := by
  intro v s hs
  have hforce : SetsSource (.itcForce v) 1 v (fun x => { x with forced := true }) s :=
    setsSource_of_onSource hs rfl
  have hunforce : SetsSource (.itcUnforce v) 1 v (fun x => { x with forced := false }) s :=
    setsSource_of_onSource hs rfl
  refine ⟨fun ops => ⟨decode_encode (.itcForce v) ops rfl, decode_encode (.itcUnforce v) ops rfl⟩,
    hforce, hunforce, fun t hv he => ?_, fun t hv he => ?_⟩
  · obtain ⟨-, hsrc, -⟩ := hforce.next hv he
    rw [pending, hsrc, Bool.true_or]
  · obtain ⟨-, hsrc, hreq⟩ := hunforce.next hv he
    rw [pending, hsrc, hreq, Bool.false_or]

/-! ### Must-be-zero bits of an operand field (R102, R164, R166) -/

/-- A word with the opcode of a row that it does not match is illegal: no other row has the opcode. -/
theorem illegal_of_unmatched (i : Instr) {cw : Word} (ho : opcOf cw = opcOf (rowOf i).bits)
    (hno : ¬ cw &&& (rowOf i).mask = (rowOf i).bits) (ops : List Word) :
    illegalStream (cw :: ops) := by
  intro row hrow hm
  obtain rfl : row = rowOf i := List.inj_on_of_nodup_map opcodes_nodup hrow (rowOf_mem i)
    ((opcOf_of_match hrow hm).symm.trans ho)
  exact absurd hm hno

theorem illegal_setPriority {c : Byte} (h : 2 ≤ c.toNat) (v : Byte) (ops : List Word) :
    illegalStream (commandWord 0x14 v c 0 :: ops) := by
  refine illegal_of_unmatched (.itcSetPriority v c) (by simp [rowOf, rowWith]) (fun hm => ?_) ops
  obtain ⟨-, -, hc, -⟩ := (match_rowWith ..).1 hm
  rw [argOf_commandWord, class_bits] at hc
  omega

theorem illegal_restoreAll {p : Byte} (h : 4 ≤ p.toNat) (ops : List Word) :
    illegalStream (commandWord 0x16 0 0 p :: ops) := by
  refine illegal_of_unmatched (.itcRestoreAll p) (by simp [rowOf, rowWith]) (fun hm => ?_) ops
  obtain ⟨-, -, -, hp⟩ := (match_rowWith ..).1 hm
  rw [immOf_commandWord, global_bits] at hp
  omega

/-! ### `ITC_SET_PRIORITY` (R164) -/

theorem classOfBit_of_class {c : Byte} (h : c.toNat < 2) :
    classOfBit (c.getLsbD 0) = if c = 1 then .fast else .normal := by
  revert c
  decide

/-- Settles O21: `ARG[0]` is the class, and the class is no part of `LIVE`. -/
theorem itcSetPriorityClassifies : Obligations.ItcSetPriorityClassifies := by
  intro v c s hs
  have hset : SetsSource (.itcSetPriority v c) 1 v
      (fun x => { x with prio := classOfBit (c.getLsbD 0) }) s := setsSource_of_onSource hs rfl
  refine ⟨fun ops hc => decode_encode (.itcSetPriority v c) ops (decide_eq_true hc),
    fun ops hc => illegal_setPriority hc v ops, ?_, ?_, fun t hv hc he hlive => ?_⟩
  · rintro rfl
    exact hset
  · rintro rfl
    exact hset
  · obtain ⟨hcfg, hsrc, hreq⟩ := hset.next hv he
    have hpending := pending_congr (by rw [hsrc]) hreq
    refine (request_iff t _).2 ⟨v.toNat, hcfg ▸ hv, ?_, ?_⟩
    · rw [live, hsrc, hpending]
      exact hlive
    · rw [hsrc, classOfBit_of_class hc]

/-! ### `ITC_INIT` (R160) -/

/-- A source after `ITC_INIT`: its priority is kept. -/
def Source.cleared (x : Source) : Source := { x with handler := 0, forced := false, enable := false }

/-- The table after `ITC_INIT`. -/
def IntTable.initialised (x : IntTable) : IntTable :=
  { src := x.src.map Source.cleared, gnorm := true, gfast := true }

theorem exec_itcInit (s : State) :
    exec .itcInit s = .next (done 1 .ok 0 { s with it := s.it.initialised }) := rfl

theorem source_of_initialised {s t : State} (h : t.it = s.it.initialised) (v : Nat) :
    t.source v = (s.source v).cleared := by
  rw [State.source, h]
  exact List.getD_map s.it.src Source.atReset Source.cleared

theorem initialised_initialised (x : IntTable) : x.initialised.initialised = x.initialised := by
  rw [IntTable.initialised, IntTable.initialised, List.map_map]
  rfl

/-- Settles O18: the table is mapped source by source, and clearing a source twice is clearing it
once. -/
theorem itcInitClearsTable : Obligations.ItcInitClearsTable := by
  intro s
  have hword : (0x10000000 : Word) = commandWord 0x10 0 0 0 := by decide
  refine ⟨fun ops => hword ▸ decode_encode .itcInit ops rfl, _, exec_itcInit s,
    done_table_completed .., fun _ => rfl, fun _ => rfl, fun _ => rfl,
    source_of_initialised rfl, rfl, rfl, fun v => ?_, take_of_no_enable fun v => ?_,
    _, exec_itcInit _, initialised_initialised _⟩
  · rw [pending, source_of_initialised (s := s) rfl]
    exact (Bool.false_or _).trans (hwReq_congr (s := s) rfl (fun _ => rfl) rfl v)
  · rw [source_of_initialised (s := s) rfl]
    rfl

/-! ### The global enables (R165, R166, R170) -/

theorem exec_itcDisableAll (s : State) :
    exec .itcDisableAll s = .next (done 1 .ok (globalWord s) (s.setGlobal false false)) := rfl

theorem exec_itcRestoreAll (p : Byte) (s : State) :
    exec (.itcRestoreAll p) s =
      .next (done 1 .ok 0 (s.setGlobal (p.getLsbD 0) (p.getLsbD 1))) := rfl

theorem globalWord_eq (s : State) :
    globalWord s = (if s.it.gfast then 2 else 0) + (if s.it.gnorm then 1 else 0) := by
  rw [globalWord]
  cases s.it.gfast <;> cases s.it.gnorm <;> decide

theorem restored_bits {p : Byte} (h : p.toNat < 4) :
    p.getLsbD 0 = decide (p = 1 ∨ p = 3) ∧ p.getLsbD 1 = decide (p = 2 ∨ p = 3) := by
  revert p
  decide

/-- Writing the global enables alone leaves every request as it is. -/
theorem request_setGlobal (n : Nat) (st : Status) (val : Word) (s : State) (a b : Bool)
    (c : PrioClass) : request (done n st val (s.setGlobal a b)) c = request s c :=
  request_congr rfl (fun _ => rfl) (hwReq_congr rfl (fun _ => rfl) rfl) c

/-- Settles O24: the enables are the two bits of the value, read, cleared and written together. -/
theorem itcDisableRestoreAll : Obligations.ItcDisableRestoreAll := by
  intro p s
  have hword : (0x15000000 : Word) = commandWord 0x15 0 0 0 := by decide
  refine ⟨fun ops => hword ▸ decode_encode .itcDisableAll ops rfl,
    fun ops hp => decode_encode (.itcRestoreAll p) ops (decide_eq_true hp),
    fun ops hp => illegal_restoreAll hp ops, ?disable, fun hp => ?restore⟩
  case disable =>
    refine ⟨_, exec_itcDisableAll s, ?_, fun _ => rfl, fun _ => rfl, fun _ => rfl, fun _ => rfl,
      rfl, rfl, fun c => take_of_disabled (by cases c <;> rfl), fun v => ?_⟩
    · rw [← globalWord_eq]
      exact done_table_completed ..
    · exact pending_congr rfl (hwReq_congr rfl (fun _ => rfl) rfl v)
  case restore =>
    obtain ⟨hnormal, hfast⟩ := restored_bits hp
    rw [← hnormal, ← hfast]
    refine ⟨_, exec_itcRestoreAll p s, done_table_completed .., fun _ => rfl, fun _ => rfl,
      fun _ => rfl, fun _ => rfl, rfl, rfl, ?_, ?_⟩
    · rw [take, request_setGlobal]
      rfl
    · rw [take, request_setGlobal]
      rfl

/-- A disable returns the two enables and clears them (R165). -/
theorem itcDisableAll_next (s : State) :
    ∃ t, exec .itcDisableAll s = .next t ∧ t.r1 = globalWord s ∧
      t.it = { s.it with gnorm := false, gfast := false } :=
  ⟨_, exec_itcDisableAll s, rfl, rfl⟩

/-- Restoring what a disable in state `s` returned writes the enables of `s` (R166). -/
theorem itcRestoreAll_saved_next (s u : State) :
    ∃ t, exec (.itcRestoreAll ((globalWord s).setWidth 8)) u = .next t ∧
      t.it = { u.it with gnorm := s.it.gnorm, gfast := s.it.gfast } := by
  obtain ⟨hnorm, hfast, -⟩ := globalWord_bits s
  refine ⟨_, exec_itcRestoreAll _ u, ?_⟩
  rw [BitVec.getLsbD_setWidth, BitVec.getLsbD_setWidth, hnorm, hfast]
  rfl

/-- Settles O25: each value returned holds the enables that it was taken from, so the inner restore
writes two zeros and the outer restore the first enables. -/
theorem globalSuppressionNests : Obligations.GlobalSuppressionNests := by
  intro s
  obtain ⟨a, ha, har, hait⟩ := itcDisableAll_next s
  obtain ⟨b, hb, hbr, hbit⟩ := itcDisableAll_next a
  obtain ⟨c, hc, hcit⟩ := itcRestoreAll_saved_next a b
  obtain ⟨d, hd, hdit⟩ := itcRestoreAll_saved_next s c
  rw [hait] at hbit hcit
  rw [hbit] at hcit
  rw [hcit] at hdit
  refine ⟨a, b, c, d, ha, hb, ?_, hbr ▸ hc, hcit.trans hbit.symm, by rw [hcit], by rw [hcit],
    har ▸ hd, hdit⟩
  rw [hbr, globalWord_eq, hait]
  rfl

end Sys2Proof.Machine
end

section
/-! Who writes the interrupt table, and what the handler engine and the environment leave alone
(R167, R171, R258, R260, R270). -/

namespace Sys2Proof.Machine

/-! ### One source written (R171) -/

/-- Command `i` writes source `v`, from the record `x` to the last argument. -/
inductive WritesSource (p : Params) (x : Source) : Instr → Nat → Source → Prop where
  | setHandler (b : Byte) (h : Word) :
      WritesSource p x (.itcSetHandler b h) b.toNat { x with handler := h }
  | enable (b : Byte) : WritesSource p x (.itcEnable b) b.toNat { x with enable := true }
  | disable (b : Byte) : WritesSource p x (.itcDisable b) b.toNat { x with enable := false }
  | setPriority (b c : Byte) :
      WritesSource p x (.itcSetPriority b c) b.toNat { x with prio := classOfBit (c.getLsbD 0) }
  | force (b : Byte) : WritesSource p x (.itcForce b) b.toNat { x with forced := true }
  | unforce (b : Byte) : WritesSource p x (.itcUnforce b) b.toNat { x with forced := false }
  | uartInit (l : Byte) (baud name : Word) :
      WritesSource p x (.uartInit l baud name) (srcOf p l.toNat) (initSource l.toNat x)

theorem source_congr {s t : State} (h : t.it = s.it) (v : Nat) : t.source v = s.source v := by
  unfold State.source
  rw [h]

/-- What a started command does to the sources: `ITC_INIT` writes all of them, any other command at
most one. -/
theorem effect_source {s t : State} {i : Instr} (h : Effect s i t) :
    (∀ j, t.source j = s.source j) ∨ i = .itcInit ∨
    ∃ v x, WritesSource s.cfg (s.source v) i v x ∧
      ∀ j, t.source j = (s.setSource v x).source j := by
  cases h with
  | faults => exact .inl (source_congr (raise_it _ _))
  | itcInit => exact .inr (.inl rfl)
  | setHandler b h => exact .inr (.inr ⟨_, _, .setHandler b h, fun _ => rfl⟩)
  | enable b => exact .inr (.inr ⟨_, _, .enable b, fun _ => rfl⟩)
  | disable b => exact .inr (.inr ⟨_, _, .disable b, fun _ => rfl⟩)
  | setPriority b c => exact .inr (.inr ⟨_, _, .setPriority b c, fun _ => rfl⟩)
  | force b => exact .inr (.inr ⟨_, _, .force b, fun _ => rfl⟩)
  | unforce b => exact .inr (.inr ⟨_, _, .unforce b, fun _ => rfl⟩)
  | uartInit l baud name => exact .inr (.inr ⟨_, _, .uartInit l baud name, fun _ => rfl⟩)
  | send l p n q =>
    obtain ⟨r, e⟩ := copyIn_same (rsel l.toNat .tx) q p.toNat (setMask l.toNat .tx true s)
    rw [e]
    exact .inl fun _ => rfl
  | receive l p n q =>
    obtain ⟨r, m, e, -⟩ := copyOut_same (rsel l.toNat .rx) q p.toNat (setMask l.toNat .rx true s)
    rw [e]
    exact .inl fun _ => rfl
  | _ => exact .inl fun _ => rfl

/-- A source that a step changes is written by the command that the step starts. -/
theorem step_writes_source {s t : State} {v : Nat} (h : step s = .next t)
    (hv : t.source v ≠ s.source v) :
    starting s = some .itcInit ∨
    ∃ i, starting s = some i ∧ WritesSource s.cfg (s.source v) i v (t.source v) := by
  rcases step_table (stepKind h) with e | ⟨i, hi, effect⟩
  · exact absurd (source_congr e v) hv
  rcases effect_source effect with e | rfl | ⟨u, x, hw, e⟩
  · exact absurd (e v) hv
  · exact .inl hi
  · have htv := (e v).trans (source_setSource ..)
    by_cases hu : u = v ∧ u < (afterTurn s).it.src.length
    · rw [if_pos hu] at htv
      obtain ⟨rfl, -⟩ := hu
      rw [htv]
      exact .inr ⟨i, hi, hw⟩
    · rw [if_neg hu] at htv
      exact absurd htv hv

/-- Of the commands that write a source, `ITC_UNFORCE` alone clears its force. -/
theorem WritesSource.clears_force {p : Params} {x y : Source} {i : Instr} {v : Nat}
    (h : WritesSource p x i v y) (hx : x.forced = true) (hy : y.forced = false) :
    ∃ b : Byte, b.toNat = v ∧ i = .itcUnforce b := by
  cases h with
  | unforce b => exact ⟨b, rfl, rfl⟩
  | force => cases hy
  | _ => exact nomatch hx.symm.trans hy

/-- Settles O23: the step writes the source, by `ITC_INIT` or by a command that clears its force. -/
theorem forceStays : Obligations.ForceStays := by
  intro s t v h hs ht
  have hv : t.source v ≠ s.source v := fun e => by
    rw [e, hs] at ht
    cases ht
  refine (step_writes_source h hv).imp_right ?_
  rintro ⟨i, hi, hw⟩
  obtain ⟨b, hb, rfl⟩ := hw.clears_force hs ht
  exact ⟨b, hb, hi⟩

/-- Settles O59: a changed source is written by the command that the step starts, and three commands
write the global enables. -/
theorem tableWriters : Obligations.TableWriters := by
  intro s t h
  refine ⟨fun v hv => (step_writes_source h hv).imp_right ?_, fun c hc => ?_⟩
  · rintro ⟨i, hi, hw⟩
    generalize t.source v = y at hw
    cases hw with
    | setHandler b h => exact .inl ⟨b, rfl, .inl ⟨h, hi⟩⟩
    | enable b => exact .inl ⟨b, rfl, .inr (.inl hi)⟩
    | disable b => exact .inl ⟨b, rfl, .inr (.inr (.inl hi))⟩
    | setPriority b c => exact .inl ⟨b, rfl, .inr (.inr (.inr (.inl ⟨c, hi⟩)))⟩
    | force b => exact .inl ⟨b, rfl, .inr (.inr (.inr (.inr (.inl hi))))⟩
    | unforce b => exact .inl ⟨b, rfl, .inr (.inr (.inr (.inr (.inr hi))))⟩
    | uartInit l baud name => exact .inr ⟨l, baud, name, hi, rfl⟩
  · rcases step_table (stepKind h) with e | ⟨i, hi, effect⟩
    · exact absurd (globalEnable_congr e c) hc
    rcases effect_globalEnable effect with e | rfl | ⟨rfl, -⟩ | ⟨p, rfl, -⟩
    · exact absurd (e c) hc
    · exact .inl hi
    · exact .inr (.inl hi)
    · exact .inr (.inr ⟨p, hi⟩)

/-! ### The handler engine and the environment (R171, R258, R270) -/

theorem activate_eq (s : State) : activate s = service (activationClass s) s := by
  rw [activate]
  cases activationClass s <;> rfl

/-- A service routine writes the handler engine, `FAULT` and `EV` only (R247 to R249, R258). -/
theorem service_frame {s t : State} {c : PrioClass} (h : service c s = .next t) :
    t = { s with ih := t.ih, fault := t.fault, ev := t.ev } := by
  obtain ⟨v, -, -, -, ⟨-, rfl⟩ | ⟨-, l, -, -, rfl⟩ | ⟨-, -, rfl⟩⟩ := service_cases h
  · rw [raise_eq]
    rfl
  · rfl
  · rfl

/-- A step of the handler engine writes rings, line records, its own state, `FAULT` and `EV` only. -/
theorem handlerStep_frame {s t : State} (h : handlerStep s = .next t) :
    t = { s with rb := t.rb, ul := t.ul, ih := t.ih, fault := t.fault, ev := t.ev } := by
  unfold handlerStep at h
  split at h
  · split at h
    · rw [activate_eq] at h
      rw [service_frame h]
    · next hp => rw [uartIsr_frame hp h]
  · cases h
    rfl

/-- Settles O45: what a turn of the handler engine or of the environment can write holds none of
these elements. -/
theorem handlerLeavesForegroundAlone : Obligations.HandlerLeavesForegroundAlone := by
  intro s t h hfg
  cases hn : nextTurn s with
  | none =>
    rw [step_of_none hn] at h
    cases h
    exact ⟨rfl, rfl, rfl, rfl, rfl, rfl, rfl, fun _ => rfl⟩
  | some u =>
    rw [step_of_turn hn] at h
    cases u with
    | fg => exact absurd hn hfg
    | ih =>
      rw [handlerStep_frame h]
      exact ⟨rfl, rfl, rfl, rfl, rfl, rfl, rfl, fun _ => rfl⟩
    | env e =>
      cases h
      rw [(envStep_eq e (afterTurn s)).1]
      exact ⟨rfl, rfl, rfl, rfl, rfl, rfl, rfl, nofun⟩

end Sys2Proof.Machine
end

section
/-! What the commands of the UART driver share: the divisor, the checks of R190, one line record or
ring written, completion after events (R190, R193, R116). -/

namespace Sys2Proof.Machine

/-! ### The baud divisor (R193) -/

/-- The increment in the upper half and the modulus 9999 in the lower half of a word. -/
theorem divisorWord_toNat {inc : Nat} (h : inc < 2 ^ 16) :
    (BitVec.ofNat 32 inc <<< 16 ||| BitVec.ofNat 32 Config.baudModulus).toNat =
      inc * 2 ^ 16 + 9999 := by
  have hshift : (BitVec.ofNat 32 inc <<< 16).toNat = inc <<< 16 := by
    rw [BitVec.toNat_shiftLeft, BitVec.toNat_ofNat, Nat.shiftLeft_eq, Nat.shiftLeft_eq,
      Nat.mod_eq_of_lt (by omega), Nat.mod_eq_of_lt (by omega)]
  calc _ = inc <<< 16 ||| 9999 := by rw [BitVec.toNat_or, hshift]; rfl
    _ = inc <<< 16 + 9999 := (Nat.shiftLeft_add_eq_or_of_lt (by decide) inc).symm
    _ = inc * 2 ^ 16 + 9999 := by rw [Nat.shiftLeft_eq]

theorem divisor_of_large_product {p : Params} {baud : Word} (h : 2 ^ 32 ≤ baud.toNat * 9999) :
    divisor p baud = none :=
  if_pos h

theorem divisor_of_small_product {p : Params} {baud : Word} (h : baud.toNat * 9999 < 2 ^ 32) :
    divisor p baud =
      if 2 ^ 16 ≤ baud.toNat * 9999 / (p.coreClockHz / 16) then none
      else some (BitVec.ofNat 32 (baud.toNat * 9999 / (p.coreClockHz / 16)) <<< 16 |||
        BitVec.ofNat 32 Config.baudModulus) :=
  if_neg (Nat.not_le.2 h)

/-- Settles O27: the two range checks in order, then the two halves of the word. -/
theorem divisorArithmetic : Obligations.DivisorArithmetic := by
  refine fun p baud _ => ⟨divisor_of_large_product, fun hprod hinc => ?_, fun hprod hinc => ?_,
    fun hclock => ?_, ?_⟩
  · rw [divisor_of_small_product hprod, if_pos hinc]
  · exact ⟨_, by rw [divisor_of_small_product hprod, if_neg (Nat.not_le.2 hinc)],
      divisorWord_toNat hinc⟩
  · rw [divisor_of_small_product (by decide), hclock]
    decide
  · rw [divisor_of_small_product (by decide)]
    simp [Config.baudModulus]

/-! ### The checks of R190, in order -/

section
variable {n : Nat} {l : Byte} {bad wanted : Bool} {s : State} (f : Nat → State → State)

theorem checked_of_no_line (hl : s.cfg.nlines ≤ l.toNat) :
    checked n l bad wanted s f = done n .noDev 0 s :=
  if_pos hl

theorem checked_of_absent (hl : l.toNat < s.cfg.nlines) (hb : bad = true) :
    checked n l bad wanted s f = done n .inval 0 s := by
  rw [checked, if_neg (Nat.not_le.2 hl), if_pos hb]

theorem checked_of_line_state (hl : l.toNat < s.cfg.nlines) (hb : bad = false)
    (hi : (s.line l.toNat).inited = !wanted) :
    checked n l bad wanted s f = withFault .lineState s := by
  rw [checked, if_neg (Nat.not_le.2 hl), hb, if_neg nofun, hi, if_pos (Bool.not_ne_self wanted),
    raise_eq]

end

/-- A command that begins with the common checks makes them in the order of R190. -/
theorem checksInOrder_of_checked {i : Instr} {n : Nat} {l : Byte} {absent : Prop}
    {bad wanted : Bool} {s : State} {f : Nat → State → State} (hbad : bad = true ↔ absent)
    (h : exec i s = .next (checked n l bad wanted s f)) :
    ChecksInOrder i n l absent wanted s := by
  refine ⟨fun hl => ?_, fun hl habsent => ?_, fun hl hpresent hi => ?_⟩
  · rw [h, checked_of_no_line f hl]
    exact ⟨_, rfl, done_self_completed .., done_self_onlyResults ..⟩
  · rw [h, checked_of_absent f hl (hbad.2 habsent)]
    exact ⟨_, rfl, done_self_completed .., done_self_onlyResults ..⟩
  · have hb : bad = false := Bool.eq_false_iff.2 fun hb => hpresent (hbad.1 hb)
    rw [h, checked_of_line_state f hl hb hi]

theorem absent_iff {v w : Nat} (x : BitVec v) (y : BitVec w) :
    (x == 0 || y == 0) = true ↔ x = 0 ∨ y = 0 := by
  rw [Bool.or_eq_true, beq_iff_eq, beq_iff_eq]

theorem present_of_ne {v w : Nat} {x : BitVec v} {y : BitVec w} (hx : x ≠ 0) (hy : y ≠ 0) :
    (x == 0 || y == 0) = false := by
  rw [beq_false_of_ne hx, beq_false_of_ne hy, Bool.or_false]

/-! ### One line record or one ring written -/

theorem sameLinesBut_of_set {s t : State} {l : Nat} {u : Line} (h : t.ul = s.ul.set l u) :
    SameLinesBut l s t := fun j hj => by
  rw [State.line, h]
  exact line_setLine_of_ne s l j u (Ne.symm hj)

theorem line_of_set {s t : State} {l : Nat} {u : Line} (hs : s.SizesOk) (hl : l < s.cfg.nlines)
    (h : t.ul = s.ul.set l u) : t.line l = u := by
  obtain ⟨-, hul, -⟩ := hs
  rw [State.line, h]
  exact line_setLine_same s l u (hul.symm ▸ hl)

theorem sameRingsBut_of_set {s t : State} {k : Nat} {r : Ring} (h : t.rb = s.rb.set k r) :
    SameRingsBut k s t := fun j hj => by
  rw [State.ring, h]
  exact ring_setRing_of_ne s k j r (Ne.symm hj)

theorem ring_of_set {s t : State} {k : Nat} {r : Ring} (hs : s.SizesOk) (hk : k < s.cfg.nrings)
    (h : t.rb = s.rb.set k r) : t.ring k = r := by
  rw [State.ring, h]
  exact ring_setRing_same s k r (hs.ring_lt hk)

theorem contents_of_ring {s t : State} {k : Nat} {r : Ring} (hlife : t.life = s.life)
    (h : t.ring k = r) : t.contents k = ringContents (s.powerOn k) r := by
  rw [State.contents, State.powerOn, hlife, h]
  rfl

/-- Of rings, lines, interrupt table and `MEM`, one line record written. -/
theorem onlyLine_of_set {s t : State} {l : Nat} {u : Line} (hrb : t.rb = s.rb)
    (hul : t.ul = s.ul.set l u) (hit : t.it = s.it) (hmem : t.mem = s.mem) : OnlyLine l s t :=
  ⟨fun k => by rw [State.ring, hrb]; rfl, sameLinesBut_of_set hul,
    ⟨source_congr hit, by rw [hit], by rw [hit]⟩, fun a => by rw [hmem]⟩

/-- Of rings, lines, interrupt table and `MEM`, one ring written. -/
theorem onlyRing_of_set {s t : State} {k : Nat} {r : Ring} (hrb : t.rb = s.rb.set k r)
    (hul : t.ul = s.ul) (hit : t.it = s.it) (hmem : t.mem = s.mem) : OnlyRing k s t :=
  ⟨sameRingsBut_of_set hrb, fun j => by rw [State.line, hul]; rfl,
    ⟨source_congr hit, by rw [hit], by rw [hit]⟩, fun a => by rw [hmem]⟩

/-- Of rings, lines, interrupt table and `MEM`, one line record and one ring written. -/
theorem onlyLineAndRing_of_set {s t : State} {l k : Nat} {u : Line} {r : Ring}
    (hrb : t.rb = s.rb.set k r) (hul : t.ul = s.ul.set l u) (hit : t.it = s.it)
    (hmem : t.mem = s.mem) : OnlyLineAndRing l k s t :=
  ⟨sameRingsBut_of_set hrb, sameLinesBut_of_set hul,
    ⟨source_congr hit, by rw [hit], by rw [hit]⟩, fun a => by rw [hmem]⟩

/-! ### `UART_SET_RX_CALLBACK` and `UART_SET_TX_CALLBACK` (R212, R213) -/

/-- A command that passes its checks, rewrites the line's record and completes. -/
theorem writesLine_of_checked {i : Instr} {n : Nat} {l : Byte} {bad : Bool} {s : State}
    {g : Line → Line} (hs : s.SizesOk)
    (h : exec i s = .next (checked n l bad true s fun l s =>
      done n .ok 0 (s.setLine l (g (s.line l)))))
    (hl : l.toNat < s.cfg.nlines) (hb : bad = false) (hi : (s.line l.toNat).inited = true) :
    ∃ t, exec i s = .next t ∧ Completed n .ok 0 [] s t ∧ OnlyLine l.toNat s t ∧
      t.line l.toNat = g (s.line l.toNat) := by
  rw [h, checked_go hl hb hi]
  exact ⟨_, rfl, done_completed _ _ _ rfl rfl rfl rfl ⟨rfl, rfl, rfl, rfl, rfl, rfl⟩,
    onlyLine_of_set rfl rfl rfl rfl, line_of_set hs hl rfl⟩

/-- Settles O37: both commands make the checks of R190 and then write one field of the record. -/
theorem callbacksInstall : Obligations.CallbacksInstall := by
  refine fun l tok s hs => ⟨fun ops => ⟨decode_encode (.uartSetRxCallback l tok) ops rfl,
      decode_encode (.uartSetTxCallback l tok) ops rfl⟩,
    checksInOrder_of_checked beq_iff_eq rfl, checksInOrder_of_checked beq_iff_eq rfl,
    fun hl htok hi => ⟨?_, ?_⟩⟩
  · exact writesLine_of_checked (g := fun u => { u with rxcb := tok }) hs rfl hl
      (beq_false_of_ne htok) hi
  · exact writesLine_of_checked (g := fun u => { u with txcb := tok }) hs rfl hl
      (beq_false_of_ne htok) hi

end Sys2Proof.Machine
end

section
/-! The blocking byte commands, phase by phase (R200 to R207). -/

namespace Sys2Proof.Machine

/-! ### The step of each phase -/

section
variable {s : State} (l b : Byte)

theorem exec_uartSendByte_idle (hp : s.fg.phase = .idle) :
    exec (.uartSendByte l b) s = .next (enterBlocking l .tx .sbDrain (fun _ => b) s) := by
  rw [exec, execUartSendByte, hp]

theorem exec_uartSendByte_drain (hp : s.fg.phase = .sbDrain) (hl : s.fgLine < s.cfg.nlines) :
    exec (.uartSendByte l b) s = .next (sendByteDrain s.fgLine s) := by
  rw [exec, execUartSendByte, hp]
  exact onLatchedLine_next _ hl

theorem exec_uartSendByte_put (hp : s.fg.phase = .sbPut) (hl : s.fgLine < s.cfg.nlines) :
    exec (.uartSendByte l b) s = .next (sendBytePut s.fgLine s) := by
  rw [exec, execUartSendByte, hp]
  exact onLatchedLine_next _ hl

theorem exec_uartSendByte_restore (hp : s.fg.phase = .sbRestore) (hl : s.fgLine < s.cfg.nlines) :
    exec (.uartSendByte l b) s = .next (restoreBlocking s.fgLine .tx 0 s) := by
  rw [exec, execUartSendByte, hp]
  exact onLatchedLine_next _ hl

theorem exec_uartReceiveByte_idle (hp : s.fg.phase = .idle) :
    exec (.uartReceiveByte l) s = .next (enterBlocking l .rx .rbGet id s) := by
  rw [exec, execUartReceiveByte, hp]

theorem exec_uartReceiveByte_get (hp : s.fg.phase = .rbGet) (hl : s.fgLine < s.cfg.nlines) :
    exec (.uartReceiveByte l) s = .next (receiveByteGet s.fgLine s) := by
  rw [exec, execUartReceiveByte, hp]
  exact onLatchedLine_next _ hl

theorem exec_uartReceiveByte_restore (hp : s.fg.phase = .rbRestore)
    (hl : s.fgLine < s.cfg.nlines) :
    exec (.uartReceiveByte l) s =
      .next (restoreBlocking s.fgLine .rx (s.fg.lb.setWidth 32) s) := by
  rw [exec, execUartReceiveByte, hp]
  exact onLatchedLine_next _ hl

end

/-- Inside `UART_SEND_BYTE` the latched line exists. -/
theorem State.Wf.sending_line {s : State} (hs : s.Wf) (h : s.fg.phase.sending = true) :
    s.fgLine < s.cfg.nlines := by
  obtain ⟨-, hl, -⟩ := hs.sending h
  exact hl

/-- Inside `UART_RECEIVE_BYTE` the latched line exists. -/
theorem State.Wf.receiving_line {s : State} (hs : s.Wf) (h : s.fg.phase.receiving = true) :
    s.fgLine < s.cfg.nlines := by
  obtain ⟨-, hl, -⟩ := hs.receiving h
  exact hl

/-! ### Entry (R200, R205) -/

section
variable {l : Byte} {s : State} (d : Dir) (p : FgPhase) (latch : Byte → Byte)

theorem enterBlocking_of_no_line (hl : s.cfg.nlines ≤ l.toNat) :
    enterBlocking l d p latch s = withFault .badSelector s := by
  rw [enterBlocking, if_pos hl, raise_eq]

theorem enterBlocking_of_not_inited (hl : l.toNat < s.cfg.nlines)
    (hi : (s.line l.toNat).inited = false) :
    enterBlocking l d p latch s = withFault .lineState s := by
  rw [enterBlocking, if_neg (Nat.not_le.2 hl), if_pos hi, raise_eq]

theorem enterBlocking_of_inited (hl : l.toNat < s.cfg.nlines)
    (hi : (s.line l.toNat).inited = true) :
    enterBlocking l d p latch s =
      { setMask l.toNat d true s with
        fg :=
          { s.fg with
            ll := l, lb := latch s.fg.lb, sv := (s.line l.toNat).mask d, phase := p } } := by
  rw [enterBlocking, if_neg (Nat.not_le.2 hl), hi, if_neg nofun]
  rfl

/-- The entry step saves and sets the flag, latches the operands, and does nothing else. -/
theorem enterBlocking_spec (hs : s.SizesOk) (hl : l.toNat < s.cfg.nlines)
    (hi : (s.line l.toNat).inited = true) :
    InProgress s (enterBlocking l d p latch s) ∧ OnlyLine l.toNat s (enterBlocking l d p latch s) ∧
      (enterBlocking l d p latch s).line l.toNat = (s.line l.toNat).setMask d true ∧
      (enterBlocking l d p latch s).fg =
        { s.fg with
          ll := l, lb := latch s.fg.lb, sv := (s.line l.toNat).mask d, phase := p } := by
  rw [enterBlocking_of_inited d p latch hl hi]
  exact ⟨⟨rfl, rfl, rfl, rfl, rfl, rfl, rfl, rfl, rfl, rfl, rfl, rfl⟩,
    onlyLine_of_set rfl rfl rfl rfl, line_of_set hs hl rfl, rfl⟩

end

/-- Settles O29: the two checks of the entry step in order, then its effect. -/
theorem sendByteEnters : Obligations.SendByteEnters := by
  intro l b s hs hp
  rw [exec_uartSendByte_idle l b hp]
  refine ⟨fun ops => decode_encode (.uartSendByte l b) ops rfl,
    fun hl => congrArg _ (enterBlocking_of_no_line _ _ _ hl),
    fun hl hi => congrArg _ (enterBlocking_of_not_inited _ _ _ hl hi), fun hl hi => ?_⟩
  exact ⟨_, rfl, enterBlocking_spec .tx .sbDrain (fun _ => b) hs hl hi⟩

/-- Settles O33: the two checks of the entry step in order, then its effect. -/
theorem receiveByteEnters : Obligations.ReceiveByteEnters := by
  intro l s hs hp
  rw [exec_uartReceiveByte_idle l hp]
  refine ⟨fun ops => decode_encode (.uartReceiveByte l) ops rfl,
    fun hl => congrArg _ (enterBlocking_of_no_line _ _ _ hl),
    fun hl hi => congrArg _ (enterBlocking_of_not_inited _ _ _ hl hi), fun hl hi => ?_⟩
  exact ⟨_, rfl, enterBlocking_spec .rx .rbGet id hs hl hi⟩

/-! ### Restore (R203, R207) -/

/-- The restore step writes the saved flag back and completes. -/
theorem restoreBlocking_spec {l : Nat} {s : State} (d : Dir) (val : Word) (hs : s.SizesOk)
    (hl : l < s.cfg.nlines) :
    Completed 1 .ok val [] s (restoreBlocking l d val s) ∧
      OnlyLine l s (restoreBlocking l d val s) ∧
      (restoreBlocking l d val s).line l = (s.line l).setMask d s.fg.sv :=
  ⟨done_completed _ _ _ rfl rfl rfl rfl ⟨rfl, rfl, rfl, rfl, rfl, rfl⟩,
    onlyLine_of_set rfl rfl rfl rfl, line_of_set hs hl rfl⟩

/-! ### The steps of `UART_SEND_BYTE` (R201, R202) -/

theorem hwtxRoom_of_full {s : State} {l : Nat} (h : (s.line l).hwtx.length = s.cfg.depth) :
    hwtxRoom s l = false :=
  decide_eq_false (Nat.not_lt.2 h.ge)

theorem sendByteDrain_of_empty {s : State} {l : Nat}
    (he : ringEmpty (s.ring (rsel l .tx)) = true) : sendByteDrain l s = s.setPhase .sbPut :=
  if_pos he

theorem sendByteDrain_of_room {s : State} {l : Nat}
    (he : ringEmpty (s.ring (rsel l .tx)) = false) (hroom : hwtxRoom s l = true) :
    sendByteDrain l s = moveTx l s := by
  rw [sendByteDrain, he, if_neg nofun, if_pos hroom]

theorem sendByteDrain_of_full {s : State} {l : Nat}
    (he : ringEmpty (s.ring (rsel l .tx)) = false) (hfull : hwtxRoom s l = false) :
    sendByteDrain l s = s := by
  rw [sendByteDrain, he, if_neg nofun, hfull, if_neg nofun]

/-- Settles O30: an empty ring, a ring with bytes and room in the FIFO, a ring with bytes and a full
FIFO. -/
theorem sendByteDrains : Obligations.SendByteDrains := by
  intro l b s hs hp
  have hl := hs.sending_line (by rw [hp]; rfl)
  rw [exec_uartSendByte_drain l b hp hl]
  refine ⟨fun hzero => ?_, fun hbytes hroom => ?_, fun hbytes hfull => ?_⟩
  · rw [sendByteDrain_of_empty (beq_iff_eq.2 hzero)]
    rfl
  · have he := beq_false_of_ne hbytes
    obtain ⟨x, r, hmove, -, hx, hcap, hwr, hmem, -⟩ := moveTx_spec hs.data hl he
    rw [sendByteDrain_of_room he ((hwtxRoom_iff s _).2 hroom), hmove]
    have hring := ring_of_set (t := (s.setRing (rsel s.fgLine .tx) r).setLine s.fgLine
      { s.line s.fgLine with hwtx := (s.line s.fgLine).hwtx ++ [x] }) hs.sizes (rsel_lt .tx hl) rfl
    refine ⟨_, x, rfl, ⟨rfl, rfl, rfl, rfl, rfl, rfl, rfl, rfl, rfl, rfl, rfl, rfl⟩, rfl,
      onlyLineAndRing_of_set rfl rfl rfl rfl, ?_, line_of_set hs.sizes hl rfl⟩
    rw [TookOldest, contents_of_ring rfl hring, hring]
    exact ⟨hx, hcap, hwr, hmem⟩
  · rw [sendByteDrain_of_full (beq_false_of_ne hbytes) (hwtxRoom_of_full hfull)]

theorem sendBytePut_of_room {s : State} {l : Nat} (hroom : hwtxRoom s l = true) :
    sendBytePut l s = (pushHwtx l s.fg.lb s).setPhase .sbRestore :=
  if_pos hroom

theorem sendBytePut_of_full {s : State} {l : Nat} (hfull : hwtxRoom s l = false) :
    sendBytePut l s = s := by
  rw [sendBytePut, hfull, if_neg nofun]

/-- Settles O31: the put step with room and without, then the restore step. -/
theorem sendBytePutsAndRestores : Obligations.SendBytePutsAndRestores := by
  refine fun l b s hs => ⟨fun hp hroom => ?_, fun hp hfull => ?_, fun hp => ?_⟩ <;>
    have hl := hs.sending_line (by rw [hp]; rfl)
  · rw [exec_uartSendByte_put l b hp hl, sendBytePut_of_room ((hwtxRoom_iff s _).2 hroom)]
    exact ⟨_, rfl, ⟨rfl, rfl, rfl, rfl, rfl, rfl, rfl, rfl, rfl, rfl, rfl, rfl⟩,
      onlyLine_of_set rfl rfl rfl rfl, line_of_set hs.sizes hl rfl, rfl⟩
  · rw [exec_uartSendByte_put l b hp hl, sendBytePut_of_full (hwtxRoom_of_full hfull)]
  · rw [exec_uartSendByte_restore l b hp hl]
    exact ⟨_, rfl, restoreBlocking_spec .tx 0 hs.sizes hl⟩

/-! ### The steps of `UART_RECEIVE_BYTE` (R206) -/

theorem receiveByteGet_of_fifo {s : State} {l : Nat} {x : Byte} {rest : List Byte}
    (he : ringEmpty (s.ring (rsel l .rx)) = true) (hx : (s.line l).hwrx = x :: rest) :
    receiveByteGet l s = latchByte x (s.setLine l { s.line l with hwrx := rest }) := by
  rw [receiveByteGet, rbRead_empty he]
  dsimp only
  rw [hx]
  dsimp only
  rw [dropHwrx, hx, List.tail_cons]

theorem receiveByteGet_of_nothing {s : State} {l : Nat}
    (he : ringEmpty (s.ring (rsel l .rx)) = true) (hx : (s.line l).hwrx = []) :
    receiveByteGet l s = s := by
  rw [receiveByteGet, rbRead_empty he]
  dsimp only
  rw [hx]

/-- A ring with bytes gives its oldest to the latch. -/
theorem receiveByteGet_of_ring {s : State} (hs : s.DataOk) {l : Nat} (hl : l < s.cfg.nlines)
    (he : ringEmpty (s.ring (rsel l .rx)) = false) :
    ∃ x r, receiveByteGet l s = latchByte x (s.setRing (rsel l .rx) r) ∧
      s.contents (rsel l .rx) = x :: ringContents (s.powerOn (rsel l .rx)) r ∧
      r.cap = (s.ring (rsel l .rx)).cap ∧ r.wr = (s.ring (rsel l .rx)).wr ∧
      r.mem = (s.ring (rsel l .rx)).mem := by
  obtain ⟨x, r, hread, -, hx, hcap, hwr, hmem, -⟩ := rbRead_bytes hs (rsel_lt .rx hl) he
  exact ⟨x, r, by rw [receiveByteGet, hread], hx, hcap, hwr, hmem⟩

/-- Settles O34: the get step on a ring with bytes, on an empty ring with bytes in the FIFO, and on
neither; then the restore step. -/
theorem receiveByteGetsAndRestores : Obligations.ReceiveByteGetsAndRestores := by
  refine fun l s hs => ⟨fun hp hbytes => ?_, fun x rest hp hzero hx => ?_, fun hp hzero hx => ?_,
    fun hp => ?_⟩ <;> have hl := hs.receiving_line (by rw [hp]; rfl)
  · obtain ⟨x, r, hget, hx, hcap, hwr, hmem⟩ :=
      receiveByteGet_of_ring hs.data hl (beq_false_of_ne hbytes)
    rw [exec_uartReceiveByte_get l hp hl, hget]
    have hring := ring_of_set (t := latchByte x (s.setRing (rsel s.fgLine .rx) r)) hs.sizes
      (rsel_lt .rx hl) rfl
    refine ⟨_, x, rfl, ⟨rfl, rfl, rfl, rfl, rfl, rfl, rfl, rfl, rfl, rfl, rfl, rfl⟩,
      onlyRing_of_set rfl rfl rfl rfl, ?_, rfl⟩
    rw [TookOldest, contents_of_ring rfl hring, hring]
    exact ⟨hx, hcap, hwr, hmem⟩
  · rw [exec_uartReceiveByte_get l hp hl, receiveByteGet_of_fifo (beq_iff_eq.2 hzero) hx]
    exact ⟨_, rfl, ⟨rfl, rfl, rfl, rfl, rfl, rfl, rfl, rfl, rfl, rfl, rfl, rfl⟩,
      onlyLine_of_set rfl rfl rfl rfl, line_of_set hs.sizes hl rfl, rfl⟩
  · rw [exec_uartReceiveByte_get l hp hl, receiveByteGet_of_nothing (beq_iff_eq.2 hzero) hx]
  · rw [exec_uartReceiveByte_restore l hp hl]
    exact ⟨_, rfl, restoreBlocking_spec .rx _ hs.sizes hl⟩

end Sys2Proof.Machine
end

section
/-! `UART_SEND` and `UART_RECEIVE` (R209, R210), and `UART_INIT` (R192, R194 to R198). -/

namespace Sys2Proof.Machine

/-! ### A transfer between `MEM` and a ring (R209, R210, actions 5 to 9) -/

theorem passesTop_iff (p : Word) (q : Nat) :
    passesTop p q = true ↔ 1 ≤ q ∧ 2 ^ 32 ≤ p.toNat + q - 1 := by
  rw [passesTop, Bool.and_eq_true, decide_eq_true_iff, decide_eq_true_iff]

theorem transfer_range {d : Dir} {p : Word} {q : Nat} {copy : Nat → Nat → State → State} {l : Nat}
    {s : State} (htop : passesTop p q = true) : transfer d p q copy l s = withFault .range s := by
  rw [transfer, if_pos htop, raise_eq]

theorem lineSetMask_setMask (u : Line) (d : Dir) (b c : Bool) :
    (u.setMask d c).setMask d b = u.setMask d b := by cases d <;> rfl

/-- The flag written before and after a copy: only the last value stays. -/
theorem setMask_after_copy {s : State} (hs : s.SizesOk) {l : Nat} (hl : l < s.cfg.nlines) (d : Dir)
    (b c : Bool) (k : Nat) (r : Ring) (m : Memory) :
    setMask l d b { (setMask l d c s).setRing k r with mem := m } =
      { (setMask l d b s).setRing k r with mem := m } := by
  have hline : ({ (setMask l d c s).setRing k r with mem := m } : State).line l =
      (s.line l).setMask d c := line_of_set hs hl rfl
  rw [setMask, hline, lineSetMask_setMask]
  show { s with
    rb := s.rb.set k r, mem := m, ul := (s.ul.set l _).set l ((s.line l).setMask d b) } = _
  rw [List.set_set]
  rfl

/-- What a transfer that copies between ring `k` and `MEM` leaves: the ring and `MEM` as the copy
left them, the flag of R209 and R210, the completion, and nothing else changed. -/
theorem transferred_spec {s : State} (hs : s.SizesOk) {l k q : Nat} {d : Dir}
    {copy : State → State} {r : Ring} {m : Memory} (hl : l < s.cfg.nlines) (hk : k < s.cfg.nrings)
    (hcopy : copy (setMask l d true s) = { (setMask l d true s).setRing k r with mem := m }) :
    ∃ t, transferred d l q copy s = t ∧ Completed 3 .ok (BitVec.ofNat 32 q) [] s t ∧
      SameRingsBut k s t ∧ SameLinesBut l s t ∧ SameTable s t ∧ t.mem = m ∧ t.ring k = r ∧
      t.contents k = ringContents (s.powerOn k) r ∧
      t.line l = (s.line l).setMask d (if 1 ≤ q then false else (s.line l).mask d) := by
  rw [transferred, hcopy, setMask_after_copy hs hl]
  refine ⟨_, rfl, done_completed _ _ _ rfl rfl rfl rfl ⟨rfl, rfl, rfl, rfl, rfl, rfl⟩,
    sameRingsBut_of_set rfl, sameLinesBut_of_set rfl, ⟨fun _ => rfl, rfl, rfl⟩, rfl, ?_, ?_,
    line_of_set hs hl rfl⟩
  · exact ring_of_set hs hk rfl
  · exact contents_of_ring rfl (ring_of_set hs hk rfl)

/-! ### `UART_SEND` (R209) -/

theorem exec_uartSend_transfer {l : Byte} {p n : Word} {s : State} (hl : l.toNat < s.cfg.nlines)
    (hp : p ≠ 0) (hn : n ≠ 0) (hi : (s.line l.toNat).inited = true) :
    exec (.uartSend l p n) s =
      .next (transfer .tx p (sendCount n (s.ring (rsel l.toNat .tx)))
        (copyIn (rsel l.toNat .tx)) l.toNat s) :=
  congrArg Host.Outcome.next (checked_go hl (present_of_ne hp hn) hi)

/-- Settles O35: the checks of R190, the range check, then the copy into the ring. -/
theorem uartSendQueues : Obligations.UartSendQueues := by
  intro l p n s k q hs hk hq
  refine ⟨fun ops => decode_encode (.uartSend l p n) ops rfl,
    checksInOrder_of_checked (absent_iff p n) rfl, fun hl hp hn hi => ?_⟩
  have hcount : sendCount n (s.ring (rsel l.toNat .tx)) = q := by rw [hq, hk]; rfl
  rw [exec_uartSend_transfer hl hp hn hi, hcount, ← hk, ← passesTop_iff, Bool.not_eq_true]
  refine ⟨fun htop => congrArg _ (transfer_range htop), fun htop => ?_⟩
  have hkr : k < s.cfg.nrings := hk ▸ rsel_lt .tx hl
  have hfits : (s.ring k).cnt.toNat + q ≤ (s.ring k).cap.toNat := by
    rw [← hcount, ← hk]
    exact sendCount_fits (hs.data.ringOk hkr) n
  obtain ⟨r, hcopy, ok, hcontents, hcap, hrd, hcnt⟩ :=
    copyIn_spec (hs.data.setMask .tx true hl (.inr rfl)) hkr q p.toNat hfits
  obtain ⟨t, ht, hdone, hrings, hlines, htable, hmem, hring, hheld, hline⟩ :=
    transferred_spec (q := q) (d := .tx) (copy := copyIn k p.toNat q) (m := s.mem) hs.sizes hl hkr
      hcopy
  refine ⟨t, by rw [transfer_goes htop, ht], hdone,
    ⟨hrings, hlines, htable, fun a => by rw [hmem]⟩, hheld.trans hcontents, ?_⟩
  rw [hring]
  exact ⟨ok, hcap, hrd, hcnt, hline⟩

/-! ### `UART_RECEIVE` (R210) -/

theorem exec_uartReceive_transfer {l : Byte} {p n : Word} {s : State}
    (hl : l.toNat < s.cfg.nlines) (hp : p ≠ 0) (hn : n ≠ 0)
    (hi : (s.line l.toNat).inited = true) :
    exec (.uartReceive l p n) s =
      .next (transfer .rx p (receiveCount n (s.ring (rsel l.toNat .rx)))
        (copyOut (rsel l.toNat .rx)) l.toNat s) :=
  congrArg Host.Outcome.next (checked_go hl (present_of_ne hp hn) hi)

/-- Settles O36: the checks of R190, the range check, then the copy out of the ring. -/
theorem uartReceiveCopies : Obligations.UartReceiveCopies := by
  intro l p n s k q hs hk hq
  refine ⟨fun ops => decode_encode (.uartReceive l p n) ops rfl,
    checksInOrder_of_checked (absent_iff p n) rfl, fun hl hp hn hi => ?_⟩
  have hcount : receiveCount n (s.ring (rsel l.toNat .rx)) = q := by rw [hq, hk]; rfl
  rw [exec_uartReceive_transfer hl hp hn hi, hcount, ← hk, ← passesTop_iff, Bool.not_eq_true]
  refine ⟨fun htop => congrArg _ (transfer_range htop), fun htop => ?_⟩
  have hkr : k < s.cfg.nrings := hk ▸ rsel_lt .rx hl
  have hheld : q ≤ (s.ring k).cnt.toNat := hq ▸ Nat.min_le_right _ _
  obtain ⟨r, m, hcopy, ok, -, hrest, htaken, hothers, hcap, hwr, hstored, hcnt⟩ :=
    copyOut_spec (hs.data.setMask .rx true hl (.inr rfl)) hkr q p.toNat hheld
      (passesTop_false htop)
  obtain ⟨t, ht, hdone, hrings, hlines, htable, hmem, hring, hcontents, hline⟩ :=
    transferred_spec (q := q) (d := .rx) (copy := copyOut k p.toNat q) hs.sizes hl hkr hcopy
  refine ⟨t, by rw [transfer_goes htop, ht], hdone, hrings, hlines, htable, ?_⟩
  rw [hmem, hring]
  exact ⟨htaken, hothers, hcontents.trans hrest, ok, hcap, hwr, hstored, hcnt, hline⟩

/-! ### `UART_INIT` (R192, R194 to R198) -/

/-- `C_RX(l)` or `C_TX(l)`, the capacity configured for the ring of line `l`, direction `d` (R8). -/
def capacityOf (p : Params) (l : Nat) : Dir → Nat
  | .rx => (p.line l).capRx
  | .tx => (p.line l).capTx

/-- `UART_INIT` binds each ring of its line to the capacity configured for it (R195). -/
theorem initUart_ring_eq {s : State} (hs : s.DataOk) (div : Word) {l : Nat}
    (hl : l < s.cfg.nlines) (d : Dir) :
    (initUart div l s).ring (rsel l d) =
      ringInit (BitVec.ofNat 16 (capacityOf s.cfg l d)) (s.ring (rsel l d)) := by
  have hne : rsel l .rx ≠ rsel l .tx := fun e => nomatch (rsel_inj.1 e).2
  cases d with
  | rx =>
    exact (ring_setRing_of_ne (rbInit (rsel l .rx) _ s) _ _ _ hne.symm).trans
      (ring_setRing_same s _ _ (hs.ring_lt hl .rx))
  | tx =>
    refine (ring_setRing_same (rbInit (rsel l .rx) _ s) _ _ ?_).trans
      (congrArg (ringInit _) (ring_setRing_of_ne s _ _ _ hne))
    rw [rbInit_rb, List.length_set]
    exact hs.ring_lt hl .tx

/-- `UART_INIT` writes no ring but those of its line. -/
theorem initUart_ring_of_ne (div : Word) {l k : Nat} (s : State) (hrx : k ≠ rsel l .rx)
    (htx : k ≠ rsel l .tx) : (initUart div l s).ring k = s.ring k :=
  (ring_setRing_of_ne (rbInit (rsel l .rx) _ s) _ _ _ htx.symm).trans
    (ring_setRing_of_ne s _ _ _ hrx.symm)

theorem initUart_source (div : Word) (l v : Nat) (s : State) :
    (initUart div l s).source v =
      (s.setSource (srcOf s.cfg l) (initSource l (s.source (srcOf s.cfg l)))).source v := rfl

/-- A capacity fits the 16 bits of a ring's `cap` (R8, R9, R30). -/
theorem capacity_toNat {p : Params} (hp : p.Ok) {l : Nat} (hl : l < p.nlines) (d : Dir) :
    (BitVec.ofNat 16 (capacityOf p l d)).toNat = capacityOf p l d := by
  obtain ⟨-, hrx, htx, -⟩ := line_param hp hl
  obtain ⟨-, -, -, -, -, -, hcmax, -⟩ := hp
  have hcap : capacityOf p l d ≤ p.cmax := by cases d <;> assumption
  rw [BitVec.toNat_ofNat]
  exact Nat.mod_eq_of_lt (by omega)

/-- With reception alone unsuppressed a line requests exactly when it can be received from (R41). -/
theorem lineIrq_of_receiving {s : State} {l : Nat} (hi : (s.line l).inited = true)
    (hrx : (s.line l).mrx = false) (htx : (s.line l).mtx = true) : lineIrq s l = rxReady s l := by
  rw [Bool.eq_iff_iff, lineIrq_iff]
  simp [hi, hrx, htx]

/-- `done` after what ran in between logged the events `evs` and wrote neither the foreground, the
handler engine, `FAULT` nor the inputs. -/
theorem done_completed_after {s t : State} {evs : List Event} (n : Nat) (st : Status) (val : Word)
    (hev : t.ev = s.ev ++ evs) (hfg : t.fg = s.fg) (hih : t.ih = s.ih) (hfault : t.fault = s.fault)
    (hin : SameInputs s t) : Completed n st val evs s (done n st val t) := by
  refine ⟨?_, rfl, ?_, ?_, hih, hfault, hin⟩
  · rw [done_r0, Status.code_eq]
  · rw [done_ev, Status.code_eq, hev, hfg]
  · rw [done_fg, hfg]

section
variable {l : Byte} {baud name : Word} {s : State} (hl : l.toNat < s.cfg.nlines) (hname : name ≠ 0)
  (hbyte : s.mem.read name.toNat ≠ 0) (hi : (s.line l.toNat).inited = false)
include hl hname hbyte hi

theorem exec_uartInit_range (hd : divisor s.cfg baud = none) :
    exec (.uartInit l baud name) s = .next (withFault .range s) := by
  refine congrArg Host.Outcome.next ((checked_go hl (present_of_ne hname hbyte) hi).trans ?_)
  rw [hd]
  exact raise_eq _ _

theorem exec_uartInit_goes {div : Word} (hd : divisor s.cfg baud = some div) :
    exec (.uartInit l baud name) s = .next (done 3 .ok 0 (initUart div l.toNat s)) := by
  refine congrArg Host.Outcome.next ((checked_go hl (present_of_ne hname hbyte) hi).trans ?_)
  rw [hd]

end

/-- Settles O28: the checks of R190 and the divisor's, then each element that actions 5 to 10
write. -/
theorem uartInitSetsUpLine : Obligations.UartInitSetsUpLine := by
  refine fun l baud name s hs => ⟨fun ops => decode_encode (.uartInit l baud name) ops rfl,
    checksInOrder_of_checked (absent_iff name _) rfl, exec_uartInit_range,
    fun div hl hname hbyte hi hd => ?_⟩
  have hline : (initUart div l.toNat s).line l.toNat = initLine s.cfg div (s.line l.toNat) :=
    line_of_set hs.sizes hl rfl
  have hring := initUart_ring_eq hs.data div hl
  obtain ⟨(hsrc : srcOf s.cfg l.toNat < s.cfg.nsrc), -⟩ := line_param hs.params hl
  refine ⟨_, exec_uartInit_goes hl hname hbyte hi hd,
    done_completed_after 3 .ok 0 rfl rfl rfl rfl ⟨rfl, rfl, rfl, rfl, rfl, rfl⟩, fun _ => rfl,
    sameLinesBut_of_set rfl,
    ⟨fun v hv => source_setSource_of_ne s _ v _ (Ne.symm hv), rfl, rfl⟩, hline, ?_,
    fun k => initUart_ring_of_ne div s, ?_, ?_, fun d => ?_, ?_⟩
  · rw [done_source, initUart_source, source_setSource_same s _ _ (hs.sizes.source_lt hsrc)]
    exact congrArg (fun h => Source.mk h true .normal _) (BitVec.ofNat_add ..)
  · rw [done_ring, hring]
    exact capacity_toNat hs.params hl .rx
  · rw [done_ring, hring]
    exact capacity_toNat hs.params hl .tx
  · rw [done_ring, hring]
    exact ⟨rfl, rfl, rfl, rfl, rfl⟩
  · exact lineIrq_of_receiving (s := done 3 .ok 0 (initUart div l.toNat s))
      (congrArg Line.inited hline) (congrArg Line.mrx hline) (congrArg Line.mtx hline)

end Sys2Proof.Machine
end

section
/-! The net effect of `UART_SEND_BYTE` (R204): its steps followed from the entry to the completion,
on turns of the foreground alone. -/

namespace Sys2Proof.Machine

/-! ### One turn of the foreground -/

theorem runSteps_succ {s t : State} (n : Nat) (h : step s = .next t) :
    runSteps (n + 1) s = runSteps n t := by
  rw [runSteps, h]

/-- A turn taken leaves a well-formed state well-formed (log 1). -/
theorem afterTurn_wf {s : State} (hs : s.Wf) : (afterTurn s).Wf := step_wf hs .passes

theorem nextTurn_of_listed {s : State} {t : Turn} {ts : List Turn} (h : s.turns = t :: ts) :
    nextTurn s = some t := by
  rw [nextTurn, h]

theorem afterTurn_turns {s : State} {t : Turn} {ts : List Turn} (h : s.turns = t :: ts) :
    (afterTurn s).turns = ts := by
  rw [afterTurn_eq, h]
  rfl

theorem contents_of_inProgress {s t : State} {k : Nat} (h : InProgress s t) (hr : SameRings s t) :
    t.contents k = s.contents k := by
  obtain ⟨-, -, -, -, -, -, -, hlife, -⟩ := h
  exact contents_congr hlife (hr k)

/-! ### Where a run of `UART_SEND_BYTE` stands -/

/-- In `t`, reached from `s`, `FG` stands in phase `p` of `UART_SEND_BYTE l, b` started in `s`: the
FIFO of the line has gained `moved`, its transmit ring holds `left`, the turns `ts` are to come, and
the flag of `s` is latched (R200 to R203). -/
structure SendStage (s : State) (l b : Byte) (p : FgPhase) (moved left : List Byte)
    (ts : List Turn) (t : State) : Prop where
  wf : t.Wf
  clear : t.fault = 0
  free : t.ih.phase = .idle
  depth : t.cfg.depth = s.cfg.depth
  fg : t.fg = { pc := s.fg.pc, phase := p, sv := (s.line l.toNat).mtx, lb := b, ll := l }
  log : t.ev = s.ev
  fifo : (t.line l.toNat).hwtx = (s.line l.toNat).hwtx ++ moved
  ring : t.contents (rsel l.toNat .tx) = left
  turns : t.turns = ts

section
variable {s t u : State} {l b : Byte} {p : FgPhase} {xs ys : List Byte} {ts : List Turn}

theorem SendStage.phase (h : SendStage s l b p xs ys ts t) : t.fg.phase = p := by rw [h.fg]

theorem SendStage.line (h : SendStage s l b p xs ys ts t) : t.fgLine = l.toNat := by
  rw [State.fgLine, h.fg]

/-- The foreground's turn performs the step of the phase. -/
theorem SendStage.step_eq (h : SendStage s l b p xs ys (.fg :: ts) t) (hp : p.sending = true) :
    step t = exec (.uartSendByte l b) (afterTurn t) := by
  obtain ⟨hfg, -⟩ := stepRunsTheTurn t h.clear
  obtain ⟨-, hsend, -⟩ := hfg (nextTurn_of_listed h.turns) h.free
  rw [hsend (by rw [h.phase]; exact hp), h.fg]

/-- A step that does not complete the command leads from one stage to another. -/
theorem SendStage.next {q : FgPhase} {xs' ys' : List Byte}
    (h : SendStage s l b p xs ys (.fg :: ts) t) (hstep : step t = .next u)
    (hprog : InProgress (afterTurn t) u) (hfg : u.fg = { t.fg with phase := q })
    (hfifo : (u.line l.toNat).hwtx = (s.line l.toNat).hwtx ++ xs')
    (hring : u.contents (rsel l.toNat .tx) = ys') : SendStage s l b q xs' ys' ts u := by
  obtain ⟨-, -, -, hev, hih, hfault, hcfg, -, -, -, hturns, -⟩ := hprog
  exact {
    wf := step_wf h.wf (stepKind hstep)
    clear := hfault.trans h.clear
    free := (congrArg Handler.phase hih).trans h.free
    depth := (congrArg Params.depth hcfg).trans h.depth
    fg := by rw [hfg, h.fg]
    log := hev.trans h.log
    fifo := hfifo
    ring := hring
    turns := hturns.trans (afterTurn_turns h.turns) }

/-- The count of the transmit ring is the number of bytes left. -/
theorem SendStage.cnt (h : SendStage s l b p xs ys ts t) :
    ((afterTurn t).ring (rsel (afterTurn t).fgLine .tx)).cnt.toNat = ys.length := by
  rw [← h.ring, contents_length, ← h.line]
  rfl

theorem SendStage.cnt_ne_zero {y : Byte} (h : SendStage s l b p xs (y :: ys) ts t) :
    ((afterTurn t).ring (rsel (afterTurn t).fgLine .tx)).cnt ≠ 0 := fun hzero => by
  have hcnt := h.cnt
  rw [hzero] at hcnt
  cases hcnt

/-- The FIFO of the latched line has room while fewer bytes than it had free have moved. -/
theorem SendStage.room (h : SendStage s l b p xs ys ts t)
    (hroom : (s.line l.toNat).hwtx.length + xs.length < s.cfg.depth) :
    ((afterTurn t).line (afterTurn t).fgLine).hwtx.length < (afterTurn t).cfg.depth := by
  have hline : (afterTurn t).line (afterTurn t).fgLine = t.line l.toNat := congrArg t.line h.line
  rw [hline, h.fifo, List.length_append]
  exact hroom.trans_eq h.depth.symm

/-! ### From stage to stage -/

/-- The entry step (R200). -/
theorem sendStage_enters (hs : s.Wf) (hclear : s.fault = 0) (hfree : s.ih.phase = .idle)
    (hp : s.fg.phase = .idle) (hlt : s.fg.pc.toNat < s.prog.length)
    (hd : decode (s.prog.drop s.fg.pc.toNat) = .ok (.uartSendByte l b))
    (hl : l.toNat < s.cfg.nlines) (hi : (s.line l.toNat).inited = true)
    (hturns : s.turns = .fg :: ts) :
    ∃ t, step s = .next t ∧
      SendStage s l b .sbDrain [] (s.contents (rsel l.toNat .tx)) ts t := by
  obtain ⟨hfg, -⟩ := stepRunsTheTurn s hclear
  obtain ⟨hstart, -⟩ := hfg (nextTurn_of_listed hturns) hfree
  obtain ⟨-, -, -, henter⟩ := sendByteEnters l b (afterTurn s) hs.sizes hp
  obtain ⟨t, he, ⟨-, -, -, hev, hih, hfault, hcfg, hlife, -, -, hrest, -⟩, ⟨hrings, -⟩, hline,
    hfgt⟩ := henter hl hi
  have hstep : step s = .next t := (hstart _ hp hlt hd rfl).trans he
  exact ⟨t, hstep, {
    wf := step_wf hs (stepKind hstep)
    clear := hfault.trans hclear
    free := (congrArg Handler.phase hih).trans hfree
    depth := congrArg Params.depth hcfg
    fg := hfgt
    log := hev
    fifo := by rw [hline, List.append_nil]; rfl
    ring := contents_congr hlife (hrings _)
    turns := hrest.trans (afterTurn_turns hturns) }⟩

/-- A drain step with a byte left and room for it (R201). -/
theorem SendStage.moves {y : Byte} (h : SendStage s l b .sbDrain xs (y :: ys) (.fg :: ts) t)
    (hroom : (s.line l.toNat).hwtx.length + xs.length < s.cfg.depth) :
    ∃ u, step t = .next u ∧ SendStage s l b .sbDrain (xs ++ [y]) ys ts u := by
  obtain ⟨-, hmove, -⟩ := sendByteDrains l b (afterTurn t) (afterTurn_wf h.wf) h.phase
  obtain ⟨u, x, he, hprog, hfg, -, htook, hline⟩ := hmove h.cnt_ne_zero (h.room hroom)
  have hstep := (h.step_eq rfl).trans he
  have hl : (afterTurn t).fgLine = l.toNat := h.line
  rw [hl] at htook hline
  obtain ⟨hheld, -⟩ := htook
  rw [contents_afterTurn, h.ring] at hheld
  obtain ⟨rfl, hys⟩ := List.cons.inj hheld
  refine ⟨u, hstep, h.next hstep hprog ?_ ?_ hys.symm⟩
  · rw [hfg, ← h.phase]
    rfl
  · rw [hline, ← List.append_assoc, ← h.fifo]
    rfl

/-- The drain step on an empty ring (R201). -/
theorem SendStage.drained (h : SendStage s l b .sbDrain xs [] (.fg :: ts) t) :
    ∃ u, step t = .next u ∧ SendStage s l b .sbPut xs [] ts u := by
  obtain ⟨hempty, -⟩ := sendByteDrains l b (afterTurn t) (afterTurn_wf h.wf) h.phase
  have hstep := (h.step_eq rfl).trans (hempty (BitVec.eq_of_toNat_eq h.cnt))
  exact ⟨_, hstep, h.next hstep ⟨rfl, rfl, rfl, rfl, rfl, rfl, rfl, rfl, rfl, rfl, rfl, rfl⟩ rfl
    h.fifo h.ring⟩

/-- The put step with room in the FIFO (R202). -/
theorem SendStage.puts (h : SendStage s l b .sbPut xs [] (.fg :: ts) t)
    (hroom : (s.line l.toNat).hwtx.length + xs.length < s.cfg.depth) :
    ∃ u, step t = .next u ∧ SendStage s l b .sbRestore (xs ++ [b]) [] ts u := by
  obtain ⟨hput, -⟩ := sendBytePutsAndRestores l b (afterTurn t) (afterTurn_wf h.wf)
  obtain ⟨u, he, hprog, ⟨hrings, -⟩, hline, hfg⟩ := hput h.phase (h.room hroom)
  have hstep := (h.step_eq rfl).trans he
  have hl : (afterTurn t).fgLine = l.toNat := h.line
  have hlb : (afterTurn t).fg.lb = b := congrArg Foreground.lb h.fg
  rw [hl, hlb] at hline
  refine ⟨u, hstep, h.next hstep hprog hfg ?_ ?_⟩
  · rw [hline, ← List.append_assoc, ← h.fifo]
    rfl
  · rw [contents_of_inProgress hprog hrings]
    exact h.ring

/-- The drain steps while bytes are left: all of them, in order (R201). -/
theorem SendStage.drains
    (h : SendStage s l b .sbDrain xs ys (List.replicate ys.length .fg ++ ts) t)
    (hroom : (s.line l.toNat).hwtx.length + (xs.length + ys.length) ≤ s.cfg.depth) :
    ∃ u, SendStage s l b .sbDrain (xs ++ ys) [] ts u ∧
      ∀ n, runSteps (ys.length + n) t = runSteps n u := by
  induction ys generalizing xs t with
  | nil => exact ⟨t, by rwa [List.append_nil], fun n => by rw [List.length_nil, Nat.zero_add]⟩
  | cons y ys ih =>
    rw [List.length_cons] at hroom
    obtain ⟨v, hstep, hv⟩ := h.moves (by omega)
    obtain ⟨u, hu, hrun⟩ := ih hv (by rw [List.length_append, List.length_singleton]; omega)
    refine ⟨u, by rwa [List.append_assoc] at hu, fun n => ?_⟩
    rw [List.length_cons, Nat.add_right_comm, runSteps_succ _ hstep, hrun]

/-- The restore step: what the whole command has done (R203, R204). -/
theorem SendStage.restores (h : SendStage s l b .sbRestore xs [] (.fg :: ts) t) :
    ∃ u, step t = .next u ∧ u.turns = ts ∧
      (u.line l.toNat).hwtx = (s.line l.toNat).hwtx ++ xs ∧ u.contents (rsel l.toNat .tx) = [] ∧
      (u.line l.toNat).mtx = (s.line l.toNat).mtx ∧ u.fg.phase = .idle ∧
      u.fg.pc = s.fg.pc + 1 ∧ u.r0 = 0 ∧ u.r1 = 0 ∧ u.ev = s.ev ++ [.done s.fg.pc 0 0] := by
  obtain ⟨-, -, hrestore⟩ := sendBytePutsAndRestores l b (afterTurn t) (afterTurn_wf h.wf)
  obtain ⟨u, he, ⟨hr0, hr1, hev, hfg, -, -, -, hlife, -, -, hturns, -⟩, ⟨hrings, -⟩, hline⟩ :=
    hrestore h.phase
  have hl : (afterTurn t).fgLine = l.toNat := h.line
  have hfgt : (afterTurn t).fg = t.fg := rfl
  have hevt : (afterTurn t).ev = t.ev := rfl
  rw [hl] at hline
  rw [hfgt, h.fg] at hline hfg hev
  rw [hevt, h.log, List.append_nil] at hev
  refine ⟨u, (h.step_eq rfl).trans he, hturns.trans (afterTurn_turns h.turns), ?_, ?_, ?_, ?_, ?_,
    hr0, hr1, hev⟩
  · rw [hline]
    exact h.fifo
  · rw [contents_congr hlife (hrings _)]
    exact h.ring
  · rw [hline]
  · rw [hfg]
  · rw [hfg]
    rfl

end

/-- Settles O32: the entry, a drain step for each byte of the ring and one for the empty ring, the
put and the restore. -/
theorem sendByteNetEffect : Obligations.SendByteNetEffect := by
  intro l b s more hs hclear hfree hp hlt hd hl hi hroom hturns
  obtain ⟨held, hheld⟩ : ∃ held, held = s.contents (rsel l.toNat .tx) := ⟨_, rfl⟩
  rw [← hheld] at hroom hturns ⊢
  rw [List.replicate_succ, List.replicate_add, List.cons_append, List.append_assoc] at hturns
  obtain ⟨t₁, h₁, entered⟩ := sendStage_enters hs hclear hfree hp hlt hd hl hi hturns
  rw [← hheld] at entered
  obtain ⟨t₂, drained, hrun⟩ := entered.drains (by rw [List.length_nil]; omega)
  obtain ⟨t₃, h₃, ended⟩ := drained.drained
  obtain ⟨t₄, h₄, put⟩ := ended.puts (by rw [List.nil_append]; exact hroom)
  obtain ⟨t, h, hleft, hfifo, hdone⟩ := put.restores
  refine ⟨t, ?_, hleft, by rw [hfifo, List.nil_append, List.append_assoc], hdone⟩
  rw [runSteps_succ _ h₁, hrun, runSteps_succ _ h₃, runSteps_succ _ h₄, runSteps_succ _ h]
  rfl

end Sys2Proof.Machine
end

section
/-! Which pairs `RDREG` takes (R231). -/

namespace Sys2Proof.Machine

/-- R231 as a table over the register number: the instances a number has, none for a number that
names no register. -/
theorem instances_regOfNumber (p : Params) (n : Byte) :
    (regOfNumber n).elim 0 (Reg.instances p) =
      if n.toNat ≤ 0x04 then 2 * p.nlines
      else if 0x10 ≤ n.toNat ∧ n.toNat ≤ 0x15 then p.nlines
      else if 0x20 ≤ n.toNat ∧ n.toNat ≤ 0x24 then 1
      else if n.toNat = 0x25 then p.nsrc
      else 0 := by
  unfold regOfNumber
  split
  -- The last arm: a number none of the tables lists.
  case h_18 =>
    simp only [imp_false] at *
    rw [if_neg (by omega), if_neg (by omega), if_neg (by omega), if_neg (by omega)]
    rfl
  all_goals
    next h =>
      rw [h]
      rfl

theorem validReg_isSome_iff (p : Params) (regno inst : Byte) :
    (validReg p regno inst).isSome ↔ inst.toNat < (regOfNumber regno).elim 0 (Reg.instances p) := by
  unfold validReg
  cases regOfNumber regno with
  | none => simp
  | some r => simp

/-- The pairs of R231 are those that name a register. -/
theorem validReg_isSome_iff_ranges (p : Params) (regno inst : Byte) :
    (validReg p regno inst).isSome ↔
      (regno.toNat ≤ 0x04 ∧ inst.toNat < 2 * p.nlines) ∨
      (0x10 ≤ regno.toNat ∧ regno.toNat ≤ 0x15 ∧ inst.toNat < p.nlines) ∨
      (0x20 ≤ regno.toNat ∧ regno.toNat ≤ 0x24 ∧ inst = 0) ∨
      (regno.toNat = 0x25 ∧ inst.toNat < p.nsrc) := by
  have hzero : inst = 0 ↔ inst.toNat = 0 := BitVec.toNat_inj.symm
  rw [validReg_isSome_iff, instances_regOfNumber, hzero]
  split_ifs <;> omega

theorem exec_rdreg_of_invalid {inst regno : Byte} {s : State}
    (hv : validReg s.cfg regno inst = none) :
    exec (.rdreg inst regno) s = .next (withFault .badSelector s) := by
  rw [← raise_eq]
  show Host.Outcome.next _ = _
  rw [hv]

/-- Settles O41: the ranges of R231 are the pairs that name a register, and neither outcome looks
at a line's state. -/
theorem rdregValidity : Obligations.RdregValidity := by
  intro inst regno s
  refine ⟨fun ops => decode_encode (.rdreg inst regno) ops rfl, ?_⟩
  split
  case isTrue h =>
    obtain ⟨r, hr⟩ := Option.isSome_iff_exists.1 ((validReg_isSome_iff_ranges _ _ _).2 h)
    exact readsAs_of_valid hr trivial
  case isFalse h =>
    exact exec_rdreg_of_invalid
      (Option.not_isSome_iff_eq_none.1 fun hv => h ((validReg_isSome_iff_ranges _ _ _).1 hv))

end Sys2Proof.Machine
end

section
/-! The service routines (R244 to R249): the vector, then its dispatch by the token alone. -/

namespace Sys2Proof.Machine

/-! ### The vector (R244) -/

/-- A search through `0, 1, ...` ends at the lowest number that passes. -/
theorem find_range_of_lowest {n v : Nat} {p : Nat → Bool} (hv : v < n) (hp : p v = true)
    (hlow : ∀ u < v, p u = false) : (List.range n).find? p = some v :=
  List.find?_range_eq_some.2
    ⟨hp, List.mem_range.2 hv, fun u hu => by rw [hlow u hu, Bool.not_false]⟩

theorem liveIn_iff (s : State) (c : PrioClass) (v : Nat) :
    liveIn s c v = true ↔ live s v = true ∧ (s.source v).prio = c := by
  rw [liveIn, Bool.and_eq_true, decide_eq_true_iff]

/-- The service routine of a class dispatches its lowest live source (R245, R246). -/
theorem exec_service_lowest {s : State} {c : PrioClass} {v : Nat} (hv : v < s.cfg.nsrc)
    (hlive : live s v = true) (hclass : (s.source v).prio = c)
    (hlow : ∀ u < v, ¬(live s u = true ∧ (s.source u).prio = c)) :
    exec c.service s = .next (dispatch c v s) := by
  have hvector : vector s c = some v :=
    find_range_of_lowest hv ((liveIn_iff s c v).2 ⟨hlive, hclass⟩) fun u hu =>
      Bool.eq_false_iff.2 fun h => hlow u hu ((liveIn_iff s c u).1 h)
  have hservice : exec c.service s = service c s := by cases c <;> rfl
  rw [hservice, service, hvector]

/-! ### The tokens of the UART handlers (R108) -/

theorem uartHandler_eq (l : Nat) : uartHandler l = 0xFFFF0000 + BitVec.ofNat 32 l :=
  BitVec.ofNat_add ..

theorem uartHandler_toNat {l : Nat} (hl : l < 2 ^ 16) :
    (uartHandler l).toNat = 0xFFFF0000 + l := by
  rw [uartHandler, BitVec.toNat_ofNat, Nat.mod_eq_of_lt (by omega)]

theorem uartHandler_ne_zero {l : Nat} (hl : l < 2 ^ 16) : uartHandler l ≠ 0 := fun h => by
  have hzero : 0xFFFF0000 + l = 0 := (uartHandler_toNat hl).symm.trans (congrArg BitVec.toNat h)
  omega

theorem uartHandler_inj {l j : Nat} (hl : l < 2 ^ 16) (hj : j < 2 ^ 16)
    (h : uartHandler l = uartHandler j) : l = j := by
  have htoken := congrArg BitVec.toNat h
  rw [uartHandler_toNat hl, uartHandler_toNat hj] at htoken
  omega

/-- The token of a line's handler names that line. -/
theorem uartLineOf_uartHandler {p : Params} {l : Nat} (hl : l < p.nlines)
    (hfew : p.nlines ≤ 2 ^ 16) : uartLineOf p (uartHandler l) = some l :=
  find_range_of_lowest hl (beq_self_eq_true _) fun j hj =>
    beq_false_of_ne fun h => hj.ne (uartHandler_inj (by omega) (by omega) h)

theorem uartLineOf_none {p : Params} {t : Word} (h : ∀ l < p.nlines, t ≠ uartHandler l) :
    uartLineOf p t = none :=
  List.find?_eq_none.2 fun l hl he => h l (List.mem_range.1 hl) (beq_iff_eq.1 he).symm

/-! ### Dispatch (R247 to R249) -/

section
variable {c : PrioClass} {v : Nat} {s : State}

theorem dispatch_of_no_handler (h : (s.source v).handler = 0) :
    dispatch c v s = withFault .noHandler s := by
  rw [dispatch, if_pos h, raise_eq]

theorem dispatch_of_uartHandler {l : Nat} (hp : s.cfg.Ok) (hl : l < s.cfg.nlines)
    (h : (s.source v).handler = uartHandler l) : dispatch c v s = startIsr c v l s := by
  have hlines := Params.Ok.nlines_lt hp
  rw [dispatch, h, if_neg (uartHandler_ne_zero (by omega)),
    uartLineOf_uartHandler hl (by omega)]

theorem dispatch_of_external (hz : (s.source v).handler ≠ 0)
    (h : ∀ l < s.cfg.nlines, (s.source v).handler ≠ uartHandler l) :
    dispatch c v s = s.emit (.external v (s.source v).handler) := by
  rw [dispatch, if_neg hz, uartLineOf_none h]

end

/-- Settles O42: the lowest live source is the vector, and its token is none, a line's or
another's. -/
theorem serviceDispatches : Obligations.ServiceDispatches := by
  intro s c v hp hv hlive hclass hlow
  rw [exec_service_lowest hv hlive hclass hlow]
  refine ⟨fun hz => congrArg _ (dispatch_of_no_handler hz), fun l hl htoken => ?_,
    fun hz hother => ?_⟩
  · rw [← uartHandler_eq] at htoken
    rw [dispatch_of_uartHandler hp hl htoken]
    rfl
  · simp only [← uartHandler_eq] at hother
    rw [dispatch_of_external hz hother]
    rfl

end Sys2Proof.Machine
end

section
/-! `UART_ISR`, phase by phase (R250 to R257), and the operations performed outside their phases
(logs 11, 12). -/

namespace Sys2Proof.Machine

/-! ### The step of each phase -/

/-- The step of the handler in each phase (R251 to R256); an idle engine takes none. -/
def isrStep : IhPhase → Nat → State → State
  | .idle, _, s => s
  | .rxTest, l, s => isrRxTest l s
  | .rxLoop, l, s => isrRxLoop l s
  | .rxEnd, l, s => isrRxEnd l s
  | .txTest, l, s => isrTxTest l s
  | .txLoop, l, s => isrTxLoop l s
  | .txEnd, l, s => isrTxEnd l s

theorem exec_uartIsr_running {s : State} {p : IhPhase} (l : Byte) (hp : s.ih.phase = p)
    (hrun : p ≠ .idle) (hl : s.ihLine < s.cfg.nlines) :
    exec (.uartIsr l) s = .next (isrStep p s.ihLine s) := by
  rw [exec, execUartIsr, hp]
  cases p with
  | idle => exact absurd rfl hrun
  | _ => exact onHandlerLine_next _ hl

/-- While a handler runs, its line exists. -/
theorem State.Wf.handler_line {s : State} (hs : s.Wf) (h : s.ih.phase ≠ .idle) :
    s.ihLine < s.cfg.nlines := by
  obtain ⟨hbound, -⟩ := hs.handler
  exact (hbound h).1

/-- A step of the running handler writes nothing outside its frame. -/
theorem uartIsr_handlerFrame {s t : State} {l : Byte} (hi : s.ih.phase ≠ .idle)
    (h : exec (.uartIsr l) s = .next t) : HandlerFrame s t := by
  rw [uartIsr_frame hi h]
  exact ⟨⟨rfl, rfl, rfl⟩, rfl, ⟨fun _ => rfl, rfl, rfl⟩, fun _ => rfl, rfl, rfl, rfl, rfl, rfl, rfl⟩

/-! ### The tests (R251, R254) -/

theorem serviced_iff (s : State) (l : Nat) (d : Dir) :
    serviced s l d = true ↔ ready s l d = true ∧ (s.line l).mask d = false := by
  rw [serviced, Bool.and_eq_true, Bool.not_eq_true']

theorem serviced_false_iff (s : State) (l : Nat) (d : Dir) :
    serviced s l d = false ↔ ready s l d = false ∨ (s.line l).mask d = true := by
  rw [serviced, Bool.and_eq_false_iff, Bool.not_eq_false']

section
variable {l : Nat} {s : State}

theorem isrRxTest_of_serviced (h : serviced s l .rx = true) :
    isrRxTest l s = s.setIhPhase .rxLoop := by
  rw [isrRxTest, if_pos h]

theorem isrRxTest_of_not_serviced (h : serviced s l .rx = false) :
    isrRxTest l s = s.setIhPhase .txTest := by
  rw [isrRxTest, h, if_neg nofun]

theorem isrTxTest_of_serviced (h : serviced s l .tx = true) :
    isrTxTest l s = s.setIhPhase .txLoop := by
  rw [isrTxTest, if_pos h]

theorem isrTxTest_of_not_serviced (h : serviced s l .tx = false) :
    isrTxTest l s = s.setIhPhase .idle := by
  rw [isrTxTest, h, if_neg nofun]

/-! ### The loops (R252, R255) -/

theorem isrRxLoop_of_byte {b : Byte} {rest : List Byte} (hb : (s.line l).hwrx = b :: rest)
    (hroom : ringFull (s.ring (rsel l .rx)) = false) : isrRxLoop l s = moveRx l s := by
  rw [isrRxLoop, if_pos ⟨by rw [hb]; exact Nat.succ_pos _, hroom⟩]

theorem isrRxLoop_of_done
    (h : (s.line l).hwrx = [] ∨ ringFull (s.ring (rsel l .rx)) = true) :
    isrRxLoop l s = s.setIhPhase .rxEnd := by
  refine if_neg fun ⟨hbyte, hroom⟩ => ?_
  rcases h with h | h
  · rw [h] at hbyte
    cases hbyte
  · exact nomatch h.symm.trans hroom

theorem isrTxLoop_of_byte (hb : ringEmpty (s.ring (rsel l .tx)) = false)
    (hroom : hwtxRoom s l = true) : isrTxLoop l s = moveTx l s := by
  rw [isrTxLoop, if_pos ⟨hb, hroom⟩]

theorem isrTxLoop_of_done
    (h : ringEmpty (s.ring (rsel l .tx)) = true ∨ hwtxRoom s l = false) :
    isrTxLoop l s = s.setIhPhase .txEnd := by
  refine if_neg fun ⟨hbyte, hroom⟩ => ?_
  rcases h with h | h
  · exact nomatch h.symm.trans hbyte
  · exact nomatch h.symm.trans hroom

end

/-! ### The ends (R253, R256) -/

theorem announce_eq (l : Nat) (d : Dir) (s : State) :
    announce l d s = { s with
      ev := s.ev ++ if (s.line l).callback d = 0 then []
        else [.callback l d ((s.line l).callback d)] } := by
  unfold announce
  split
  · rw [List.append_nil]
  · rfl

theorem lineSetMask_self (u : Line) (d : Dir) : u.setMask d (u.mask d) = u := by
  cases d <;> rfl

theorem suppressIf_eq (c : Bool) (l : Nat) (d : Dir) (s : State) :
    suppressIf c l d s = s.setLine l ((s.line l).setMask d ((s.line l).mask d || c)) := by
  cases c with
  | true => rw [Bool.or_true]; rfl
  | false => rw [Bool.or_false, lineSetMask_self, setLine_self]; rfl

/-- The end of the handler's part for a direction: the callback, then the flag, then the phase. -/
theorem isrEnd_spec {s : State} {l : Nat} (hs : s.SizesOk) (hl : l < s.cfg.nlines) (c : Bool)
    (d : Dir) (p : IhPhase) {t : State}
    (ht : t = (suppressIf c l d (announce l d s)).setIhPhase p) :
    t.ih = { s.ih with phase := p } ∧
      t.ev = s.ev ++ (if (s.line l).callback d = 0 then []
        else [.callback l d ((s.line l).callback d)]) ∧
      SameLinesBut l s t ∧ SameRings s t ∧
      t.line l = (s.line l).setMask d ((s.line l).mask d || c) := by
  rw [announce_eq, suppressIf_eq] at ht
  subst ht
  exact ⟨rfl, rfl, sameLinesBut_of_set rfl, fun _ => rfl, line_of_set hs hl rfl⟩

/-- Settles O43: the test both ways, the loop with a byte and room and without, the end. -/
theorem isrReceivePart : Obligations.IsrReceivePart := by
  refine fun s hs => ⟨fun hp hready hmask => ?_, fun hp hnot => ?_, fun b rest hp hb hroom => ?_,
    fun hp hdone => ?_, fun hp => ?_⟩ <;> have hl := hs.handler_line (by rw [hp]; nofun)
  · rw [exec_uartIsr_running _ hp nofun hl, isrStep,
      isrRxTest_of_serviced ((serviced_iff s _ .rx).2 ⟨hready, hmask⟩)]
    rfl
  · rw [exec_uartIsr_running _ hp nofun hl, isrStep,
      isrRxTest_of_not_serviced ((serviced_false_iff s _ .rx).2 hnot)]
    rfl
  · have hfree := beq_false_of_ne hroom
    obtain ⟨r, hmove, -, hbytes, hcap, hrd, hrest⟩ := moveRx_spec hs.data hl hb hfree
    have he : exec (.uartIsr s.ih.line) s = .next (isrRxLoop s.ihLine s) :=
      exec_uartIsr_running _ hp nofun hl
    rw [isrRxLoop_of_byte hb hfree, hmove] at he
    refine ⟨_, he, uartIsr_handlerFrame (by rw [hp]; nofun) he, rfl, rfl, sameLinesBut_of_set rfl,
      sameRingsBut_of_set rfl, line_of_set hs.sizes hl rfl, ?_⟩
    have hring := ring_of_set (t := (s.setLine s.ihLine
      { s.line s.ihLine with hwrx := rest }).setRing (rsel s.ihLine .rx) r) hs.sizes
      (rsel_lt .rx hl) rfl
    rw [GainedNewest, contents_of_ring rfl hring, hring]
    exact ⟨hbytes, hcap, hrd, hrest⟩
  · rw [exec_uartIsr_running _ hp nofun hl, isrStep,
      isrRxLoop_of_done (hdone.imp_right beq_iff_eq.2)]
    rfl
  · have he : exec (.uartIsr s.ih.line) s = .next (isrRxEnd s.ihLine s) :=
      exec_uartIsr_running _ hp nofun hl
    exact ⟨_, he, uartIsr_handlerFrame (by rw [hp]; nofun) he,
      isrEnd_spec hs.sizes hl _ .rx .txTest rfl⟩

/-- Settles O44: the test both ways, the loop with a byte and room and without, the end. -/
theorem isrTransmitPart : Obligations.IsrTransmitPart := by
  refine fun s hs => ⟨fun hp hready hmask => ?_, fun hp hnot => ?_, fun hp hbytes hroom => ?_,
    fun hp hdone => ?_, fun hp => ?_⟩ <;> have hl := hs.handler_line (by rw [hp]; nofun)
  · rw [exec_uartIsr_running _ hp nofun hl, isrStep,
      isrTxTest_of_serviced ((serviced_iff s _ .tx).2 ⟨hready, hmask⟩)]
    rfl
  · rw [exec_uartIsr_running _ hp nofun hl, isrStep,
      isrTxTest_of_not_serviced ((serviced_false_iff s _ .tx).2 hnot)]
    rfl
  · have hheld := beq_false_of_ne hbytes
    obtain ⟨x, r, hmove, -, hx, hcap, hwr, hmem, -⟩ := moveTx_spec hs.data hl hheld
    have he : exec (.uartIsr s.ih.line) s = .next (isrTxLoop s.ihLine s) :=
      exec_uartIsr_running _ hp nofun hl
    rw [isrTxLoop_of_byte hheld ((hwtxRoom_iff s _).2 hroom), hmove] at he
    refine ⟨_, x, he, uartIsr_handlerFrame (by rw [hp]; nofun) he, rfl, rfl,
      sameLinesBut_of_set rfl, sameRingsBut_of_set rfl, ?_, line_of_set hs.sizes hl rfl⟩
    have hring := ring_of_set (t := (s.setRing (rsel s.ihLine .tx) r).setLine s.ihLine
      { s.line s.ihLine with hwtx := (s.line s.ihLine).hwtx ++ [x] }) hs.sizes (rsel_lt .tx hl) rfl
    rw [TookOldest, contents_of_ring rfl hring, hring]
    exact ⟨hx, hcap, hwr, hmem⟩
  · rw [exec_uartIsr_running _ hp nofun hl, isrStep,
      isrTxLoop_of_done (hdone.imp beq_iff_eq.2 hwtxRoom_of_full)]
    rfl
  · have he : exec (.uartIsr s.ih.line) s = .next (isrTxEnd s.ihLine s) :=
      exec_uartIsr_running _ hp nofun hl
    exact ⟨_, he, uartIsr_handlerFrame (by rw [hp]; nofun) he,
      isrEnd_spec hs.sizes hl _ .tx .idle rfl⟩

/-! ### Outside the phases (logs 11, 12) -/

section
variable {l b : Byte} {s : State}

theorem exec_uartIsr_idle (hp : s.ih.phase = .idle) (hl : l.toNat < s.cfg.nlines) :
    exec (.uartIsr l) s = .next (startIsr s.ih.cls s.ih.src.toNat l.toNat s) := by
  rw [exec, execUartIsr, hp]
  exact if_neg (Nat.not_le.2 hl)

theorem exec_uartIsr_no_line (hp : s.ih.phase = .idle) (hl : s.cfg.nlines ≤ l.toNat) :
    exec (.uartIsr l) s = .fault .noSuchLine := by
  rw [exec, execUartIsr, hp]
  exact if_pos hl

theorem exec_uartSendByte_receiving (hp : s.fg.phase.receiving = true) :
    exec (.uartSendByte l b) s = .next s := by
  rw [exec, execUartSendByte]
  cases h : s.fg.phase with
  | rbGet | rbRestore => rfl
  | idle | sbDrain | sbPut | sbRestore => rw [h] at hp; cases hp

theorem exec_uartReceiveByte_sending (hp : s.fg.phase.sending = true) :
    exec (.uartReceiveByte l) s = .next s := by
  rw [exec, execUartReceiveByte]
  cases h : s.fg.phase with
  | sbDrain | sbPut | sbRestore => rfl
  | idle | rbGet | rbRestore => rw [h] at hp; cases hp

end

/-- Settles O60: the start of a handler, the missing line, and both blocking commands in a phase of
the other. -/
theorem execOutsideItsPhase : Obligations.ExecOutsideItsPhase := by
  refine fun l b s => ⟨fun hp hl => ?_, exec_uartIsr_no_line, exec_uartSendByte_receiving,
    exec_uartReceiveByte_sending⟩
  rw [exec_uartIsr_idle hp hl, startIsr, BitVec.ofNat_toNat, BitVec.ofNat_toNat,
    BitVec.setWidth_eq, BitVec.setWidth_eq]

end Sys2Proof.Machine
end

section
/-! The run of a handler: nothing interrupts it (R259), and it ends (R250, R271). -/

namespace Sys2Proof.Machine

/-! ### No nesting (R259) -/

/-- What a step can do while a handler runs: the turn passes, the environment acts, or the handler
goes on. -/
theorem step_while_handling {s t : State} (hp : s.ih.phase ≠ .idle) (h : step s = .next t) :
    t = afterTurn s ∨
    (∃ e, nextTurn s = some (.env e) ∧ t = envStep e (afterTurn s)) ∨
    (nextTurn s = some .ih ∧ exec (.uartIsr s.ih.line) (afterTurn s) = .next t) := by
  have hbusy : foregroundFree s ≠ true := fun hf => hp ((foregroundFree_iff s).1 hf).2
  rcases step_cases h with ⟨hn, e⟩ | ⟨e, hn, he⟩ | ⟨-, e, -⟩ | ⟨-, e⟩ | ⟨i, hi, -⟩ |
    ⟨-, -, hf, -⟩ | ⟨-, -, hf, -⟩ | ⟨-, -, hf, -⟩ | ⟨-, -, hidle, -⟩ | ⟨hn, -, -, he⟩
  · exact .inl (e.trans (afterTurn_of_none hn).symm)
  · exact .inr (.inl ⟨e, hn, he⟩)
  · exact .inl e
  · exact .inl e
  · obtain ⟨-, hf, -⟩ := starting_fetch hi
    exact absurd hf hbusy
  · exact absurd hf hbusy
  · exact absurd hf hbusy
  · exact absurd hf hbusy
  · exact absurd hidle hp
  · exact .inr (.inr ⟨hn, he⟩)

/-- Settles O46: a turn that passes, the environment and the running handler keep the line, the
vector, the class and `FAULT`. -/
theorem handlerIsNotInterrupted : Obligations.HandlerIsNotInterrupted := by
  intro s t hp h
  rcases step_while_handling hp h with rfl | ⟨e, hn, rfl⟩ | ⟨hn, he⟩
  · exact ⟨rfl, rfl, rfl, rfl, fun _ => rfl⟩
  · rw [(envStep_eq e (afterTurn s)).1, hn]
    exact ⟨rfl, rfl, rfl, rfl, nofun⟩
  · rw [uartIsr_frame (s := afterTurn s) hp he, hn]
    exact ⟨rfl, rfl, rfl, rfl, nofun⟩

/-! ### The bound on a handler run -/

/-- The bound by phase, with `held` bytes in the transmit ring of the line and `waiting` bytes in
its receive FIFO. -/
def phaseSteps (held waiting : Nat) : IhPhase → Nat
  | .idle => 0
  | .txEnd => 1
  | .txLoop => held + 2
  | .txTest => held + 3
  | .rxEnd => held + 4
  | .rxLoop => held + waiting + 5
  | .rxTest => held + waiting + 6

theorem handlerSteps_eq (s : State) :
    handlerSteps s = phaseSteps (s.ring (rsel s.ihLine .tx)).cnt.toNat
      (s.line s.ihLine).hwrx.length s.ih.phase := by
  unfold handlerSteps phaseSteps
  cases s.ih.phase <;> rfl

/-- A step of the running handler from phase `p` to phase `q` lowers the bound if it does so for the
bytes that are then held and waiting. -/
theorem handlerSteps_lt {s t : State} {p q : IhPhase} {held waiting : Nat} (hp : s.ih.phase = p)
    (hih : t.ih = { s.ih with phase := q })
    (hring : (t.ring (rsel s.ihLine .tx)).cnt.toNat = held)
    (hfifo : (t.line s.ihLine).hwrx.length = waiting)
    (hless : phaseSteps held waiting q < phaseSteps (s.ring (rsel s.ihLine .tx)).cnt.toNat
      (s.line s.ihLine).hwrx.length p) : handlerSteps t < handlerSteps s := by
  have hline : t.ihLine = s.ihLine := by rw [State.ihLine, hih]; rfl
  rwa [handlerSteps_eq, handlerSteps_eq, hline, hring, hfifo, hih, hp]

/-- A step that only moves to a phase with a lower bound. -/
theorem handlerSteps_phase_lt {s : State} {p q : IhPhase} (hp : s.ih.phase = p)
    (hless : phaseSteps (s.ring (rsel s.ihLine .tx)).cnt.toNat (s.line s.ihLine).hwrx.length q <
      phaseSteps (s.ring (rsel s.ihLine .tx)).cnt.toNat (s.line s.ihLine).hwrx.length p) :
    handlerSteps { s with ih := { s.ih with phase := q } } < handlerSteps s :=
  handlerSteps_lt hp rfl rfl rfl hless

theorem handlerSteps_pos {s : State} (hp : s.ih.phase ≠ .idle) : 0 < handlerSteps s := by
  rw [handlerSteps_eq]
  cases h : s.ih.phase with
  | idle => exact absurd h hp
  | _ => exact Nat.succ_pos _

/-- Each step of the receive part brings the end nearer (R251 to R253). -/
theorem isrReceive_descends {s : State} (hs : s.Wf)
    (hp : s.ih.phase = .rxTest ∨ s.ih.phase = .rxLoop ∨ s.ih.phase = .rxEnd) :
    ∃ t, exec (.uartIsr s.ih.line) s = .next t ∧ handlerSteps t < handlerSteps s := by
  obtain ⟨hloop, hskip, hmove, hdone, hend⟩ := isrReceivePart s hs
  rcases hp with hp | hp | hp
  · cases hserved : serviced s s.ihLine .rx with
    | true =>
      obtain ⟨hready, hmask⟩ := (serviced_iff s _ .rx).1 hserved
      exact ⟨_, hloop hp hready hmask, handlerSteps_phase_lt hp (Nat.lt_succ_self _)⟩
    | false =>
      exact ⟨_, hskip hp ((serviced_false_iff s _ .rx).1 hserved),
        handlerSteps_phase_lt hp (by simp only [phaseSteps]; omega)⟩
  · by_cases hstop : (s.line s.ihLine).hwrx = [] ∨
        (s.ring (rsel s.ihLine .rx)).cnt = (s.ring (rsel s.ihLine .rx)).cap
    · exact ⟨_, hdone hp hstop, handlerSteps_phase_lt hp (by simp only [phaseSteps]; omega)⟩
    · obtain ⟨hbyte, hroom⟩ := not_or.1 hstop
      obtain ⟨b, rest, hb⟩ := List.exists_cons_of_ne_nil hbyte
      obtain ⟨t, he, -, hih, -, -, hrings, hline, -⟩ := hmove b rest hp hb hroom
      have hring := hrings (rsel s.ihLine .tx) fun h => nomatch (rsel_inj.1 h).2
      refine ⟨t, he, handlerSteps_lt hp (q := .rxLoop) (by rw [hih, ← hp]) (by rw [hring])
        (by rw [hline]) ?_⟩
      rw [hb, List.length_cons]
      simp only [phaseSteps]
      omega
  · obtain ⟨t, he, -, hih, -, -, hrings, -⟩ := hend hp
    exact ⟨t, he, handlerSteps_lt hp hih (by rw [hrings]) rfl (Nat.lt_succ_self _)⟩

/-- Each step of the transmit part brings the end nearer (R254 to R256). -/
theorem isrTransmit_descends {s : State} (hs : s.Wf)
    (hp : s.ih.phase = .txTest ∨ s.ih.phase = .txLoop ∨ s.ih.phase = .txEnd) :
    ∃ t, exec (.uartIsr s.ih.line) s = .next t ∧ handlerSteps t < handlerSteps s := by
  obtain ⟨hloop, hskip, hmove, hdone, hend⟩ := isrTransmitPart s hs
  rcases hp with hp | hp | hp
  · cases hserved : serviced s s.ihLine .tx with
    | true =>
      obtain ⟨hready, hmask⟩ := (serviced_iff s _ .tx).1 hserved
      exact ⟨_, hloop hp hready hmask, handlerSteps_phase_lt hp (Nat.lt_succ_self _)⟩
    | false =>
      exact ⟨_, hskip hp ((serviced_false_iff s _ .tx).1 hserved),
        handlerSteps_phase_lt hp (Nat.succ_pos _)⟩
  · by_cases hstop : (s.ring (rsel s.ihLine .tx)).cnt = 0 ∨
        (s.line s.ihLine).hwtx.length = s.cfg.depth
    · exact ⟨_, hdone hp hstop, handlerSteps_phase_lt hp (by simp only [phaseSteps]; omega)⟩
    · obtain ⟨hbytes, hfree⟩ := not_or.1 hstop
      obtain ⟨-, hdepth, -⟩ := hs.data.lineOk (hs.handler_line (by rw [hp]; nofun))
      obtain ⟨t, x, he, -, hih, -, -, -, ⟨htook, -⟩, -⟩ :=
        hmove hp hbytes (Nat.lt_of_le_of_ne hdepth hfree)
      have hcount := congrArg List.length htook
      rw [List.length_cons, contents_length, contents_length] at hcount
      refine ⟨t, he, handlerSteps_lt hp (q := .txLoop) (by rw [hih, ← hp]) rfl rfl ?_⟩
      simp only [phaseSteps]
      omega
  · obtain ⟨t, he, -, hih, -⟩ := hend hp
    exact ⟨t, he, handlerSteps_lt hp hih rfl rfl (Nat.succ_pos _)⟩

/-! ### The run (R250, R271) -/

/-- A turn given to the running handler brings its end nearer and leaves the foreground alone. -/
theorem handler_turn {s : State} {ts : List Turn} (hs : s.Wf) (hz : s.fault = 0)
    (hp : s.ih.phase ≠ .idle) (hturns : s.turns = .ih :: ts) :
    ∃ t, step s = .next t ∧ handlerSteps t < handlerSteps s ∧ t.turns = ts ∧ t.fault = 0 ∧
      t.fg = s.fg := by
  obtain ⟨-, hih⟩ := stepRunsTheTurn s hz
  obtain ⟨hstep, -⟩ := hih (nextTurn_of_listed hturns)
  obtain ⟨t, he, hless⟩ :
      ∃ t, exec (.uartIsr s.ih.line) (afterTurn s) = .next t ∧
        handlerSteps t < handlerSteps (afterTurn s) := by
    cases h : s.ih.phase with
    | idle => exact absurd h hp
    | rxTest => exact isrReceive_descends (afterTurn_wf hs) (.inl h)
    | rxLoop => exact isrReceive_descends (afterTurn_wf hs) (.inr (.inl h))
    | rxEnd => exact isrReceive_descends (afterTurn_wf hs) (.inr (.inr h))
    | txTest => exact isrTransmit_descends (afterTurn_wf hs) (.inl h)
    | txLoop => exact isrTransmit_descends (afterTurn_wf hs) (.inr (.inl h))
    | txEnd => exact isrTransmit_descends (afterTurn_wf hs) (.inr (.inr h))
  obtain ⟨⟨hfg, -⟩, hfault, -, -, -, -, -, -, hrest, -⟩ :=
    uartIsr_handlerFrame (s := afterTurn s) hp he
  exact ⟨t, (hstep hp).trans he, hless, hrest.trans (afterTurn_turns hturns), hfault.trans hz, hfg⟩

/-- With as many turns of the handler engine listed as the bound asks, the engine becomes idle. -/
theorem handler_run {k : Nat} {s : State} {more : List Turn} (hs : s.Wf) (hz : s.fault = 0)
    (hk : handlerSteps s ≤ k) (hturns : s.turns = List.replicate k .ih ++ more) :
    ∃ n t, n ≤ k ∧ runSteps n s = .next t ∧ t.ih.phase = .idle ∧ t.fg = s.fg ∧ t.fault = 0 := by
  induction k generalizing s with
  | zero =>
    refine ⟨0, s, Nat.le_refl 0, rfl, ?_, rfl, hz⟩
    by_contra hp
    exact absurd (handlerSteps_pos hp) (Nat.not_lt.2 hk)
  | succ k ih =>
    by_cases hp : s.ih.phase = .idle
    · exact ⟨0, s, Nat.zero_le _, rfl, hp, rfl, hz⟩
    · obtain ⟨u, hstep, hless, hrest, hzu, hfgu⟩ := handler_turn hs hz hp hturns
      obtain ⟨n, t, hn, hrun, hidle, hfg, hzt⟩ :=
        ih (step_wf hs (stepKind hstep)) hzu (by omega) hrest
      exact ⟨n + 1, t, Nat.succ_le_succ hn, (runSteps_succ n hstep).trans hrun, hidle,
        hfg.trans hfgu, hzt⟩

/-- Settles O47: each turn lowers the bound. -/
theorem handlerReturns : Obligations.HandlerReturns :=
  fun _ _ hs hz _ hturns => handler_run hs hz (Nat.le_refl _) hturns

end Sys2Proof.Machine
end

section
/-! The steps of the environment (R268 to R270). -/

namespace Sys2Proof.Machine

section
variable {s : State} {l v : Nat} {b : Byte}

theorem rxArrive_of_room (hl : l < s.cfg.nlines) (hroom : (s.line l).hwrx.length < s.cfg.depth) :
    rxArrive l b s = pushHwrx l b s := by
  rw [rxArrive, if_neg (Nat.not_le.2 hl), if_pos hroom]

theorem rxArrive_of_full (hl : l < s.cfg.nlines) (hfull : s.cfg.depth ≤ (s.line l).hwrx.length) :
    rxArrive l b s = s.emit (.rxLost l b) := by
  rw [rxArrive, if_neg (Nat.not_le.2 hl), if_neg (Nat.not_lt.2 hfull)]

theorem txDepart_of_byte {rest : List Byte} (hl : l < s.cfg.nlines)
    (hb : (s.line l).hwtx = b :: rest) :
    txDepart l s = (s.setLine l { s.line l with hwtx := rest }).emit (.wireTx l b) := by
  rw [txDepart, if_neg (Nat.not_le.2 hl), hb]
  dsimp only
  rw [dropHwtx, hb, List.tail_cons]

theorem extSet_of_input {x : Bool} (hv : v < s.cfg.nsrc)
    (hline : ∀ l < s.cfg.nlines, srcOf s.cfg l ≠ v) : extSet v x s = s.setExtReq v x := by
  rw [extSet, lineOfSource_none hline]
  exact if_neg fun h => h.elim (Nat.not_le.2 hv) nofun

end

theorem State.SizesOk.extreq_lt {s : State} (h : s.SizesOk) {v : Nat} (hv : v < s.cfg.nsrc) :
    v < s.extreq.length := by
  obtain ⟨-, -, -, hext⟩ := h
  exact hext.symm ▸ hv

/-- Settles O49: the arrival with room and without, the departure, the request input. -/
theorem environmentSteps : Obligations.EnvironmentSteps := by
  refine fun s hs => ⟨fun l b hn hl => ⟨fun hroom => ?_, fun hfull => ?_⟩,
    fun l b rest hn hl hb => ?_, fun v b hn hv hline => ?_⟩ <;>
    rw [step_of_turn hn] <;> dsimp only [takeTurn, envStep]
  · rw [rxArrive_of_room (s := afterTurn s) hl hroom]
    exact ⟨_, rfl, line_of_set hs hl rfl, sameLinesBut_of_set rfl, rfl⟩
  · rw [rxArrive_of_full (s := afterTurn s) hl hfull]
    rfl
  · rw [txDepart_of_byte (s := afterTurn s) hl hb]
    exact ⟨_, rfl, line_of_set hs hl rfl, sameLinesBut_of_set rfl, rfl⟩
  · rw [extSet_of_input (s := afterTurn s) hv hline]
    exact ⟨_, rfl, extReq_setExtReq_same (afterTurn s) v b (hs.extreq_lt hv),
      fun u hu => extReq_setExtReq_of_ne (afterTurn s) v u b hu.symm, rfl⟩

end Sys2Proof.Machine
end
